-- ==== Sys2Proof/Word.lean ====
section
/-! DEFINITION. The word types of the part: the byte, the 32-bit word of a table entry, control word or
header, and the 64-bit data of a beat (00_scope.md, Memory; R172). -/

namespace Sys2Proof

/-- One byte of memory or of a link message. -/
abbrev Byte := BitVec 8

/-- The word of a table entry, control word or slot header: 4 bytes (00_scope.md, Memory). -/
abbrev Word := BitVec 32

/-- The data of one beat: 8 bytes, byte i in bits 8i+7 to 8i (R172: little-endian). -/
abbrev BeatData := BitVec 64

/-- A 16-bit counter, frame counter or record sequence (00_scope.md, Counters). -/
abbrev Count := BitVec 16

end Sys2Proof
end

