-- ==== Sys2Proof/Config.lean ====
section
/-! DEFINITION. What the part fixes: the address map of 00_scope.md, the sizes of its stores, and the one
value the spec leaves open, what unwritten memory reads as. -/

namespace Sys2Proof.Config

/-- The display DRAM holds 256 MiB (00_scope.md, Address map). -/
def memorySize : Nat := 0x10000000

/-- The first byte of the event ring; surfaces and buffers end below it (R3 step 9, R108 step 7, R166). -/
def ringBase : Nat := 0x0FFFC000

/-- The first byte of the status page (10.5). -/
def statusBase : Nat := 0x0FFFE000

/-- The first byte of the control page (R158). -/
def controlBase : Nat := 0x0FFFF000

/-- The first upstream address of alias space, and its size in bytes (R145, R3 step 10). -/
def aliasBase : Nat := 0x10000000

/-- The places of the write queue (R146). -/
def writeQueuePlaces : Nat := 32

/-- The reads the tracker holds (R144, R148). -/
def trackerPlaces : Nat := 4

/-- The rectangles of a damage list (R19). -/
def damagePlaces : Nat := 16

/-- The events of the event queue (R165). -/
def eventPlaces : Nat := 16

/-- The packets of a retry buffer (R132). -/
def retryPlaces : Nat := 8

/-- The sum the active credit counts may reach (R150, R153 step 2). -/
def creditTotal : Nat := 24

/-- DESIGN CHOICE (log entry 5, unsafe): a byte of memory that nothing has written reads 0; the spec gives the
DRAM no contents after power-on. -/
def unwrittenByte : Byte := 0

end Sys2Proof.Config
end

