-- ==== Sys2Proof/Syntax.lean ====
section
/-! DEFINITION. The commands of the block: one constructor of `Instr` for each row of spec/opcode_table.json, and
the plain types their operands use. -/

namespace Sys2Proof

/-- An output, and the link that serves it (00_scope.md: "d" stands for an output, operand 0 or 1). -/
inductive OutputId where
  | A
  | B
  deriving DecidableEq, Repr

/-- A trailer stream (R78). -/
inductive StreamId where
  | S0
  | S1
  deriving DecidableEq, Repr

/-- One upstream write beat as the host presents it: 8 byte enables, bit i for byte i, and 8 bytes of data. -/
structure UpBeat where
  enables : Byte
  data : BeatData
  deriving DecidableEq, Repr

/-- The blocks that react to a frame epoch beside the output engine (R117); the spec takes their reactions in
either order (R35, R51, R97). -/
inductive EpochReaction where
  | compositor
  | layerTables
  | stream (k : StreamId)
  | link
  /-- The link's own steps of the epoch line's start (R133), with their expiry: an order that names them takes them before
  the epoch, any other after it (R141). -/
  | linkSteps
  deriving DecidableEq, Repr

/-- Why the part is reset by hardware (R171). -/
inductive HardwareCause where
  | powerOn
  | resetLine
  deriving DecidableEq, Repr

/-- The part's commands and events, one constructor per row of spec/opcode_table.json. -/
inductive Instr where
  /-- HOST_WRITE (R144): the host presents a WRITE at the upstream port. -/
  | hostWrite (addr : BitVec 29) (beats : List UpBeat)
  /-- HOST_READ (R144): the host presents a READ of so many beats. -/
  | hostRead (addr : BitVec 29) (beats : Nat)
  /-- DOWNSTREAM_GRANT (R151). -/
  | downstreamGrant
  /-- HOST_WRITE_COMPLETION (R147): the memory completes one PASS write beat. -/
  | hostWriteCompletion
  /-- HOST_READ_COMPLETION (R149). -/
  | hostReadCompletion
  /-- SCAN_READ_COMPLETION (R119). -/
  | scanReadCompletion
  /-- TILE_TAKE (R65, R70). -/
  | tileTake
  /-- COMP_READ_COMPLETION (R65). -/
  | compReadCompletion
  /-- TILE_COMPLETION (R65, R67). -/
  | tileCompletion
  /-- RECORD_FORM (R166). -/
  | recordForm
  /-- RECORD_WRITE_COMPLETION (R166). -/
  | recordWriteCompletion
  /-- STATUS_BLOCK_WRITE (R169, R170). -/
  | statusBlockWrite
  /-- STATUS_BLOCK_COMPLETION (R169). -/
  | statusBlockCompletion
  /-- READBACK_DONE (R162). -/
  | readbackDone
  /-- TABLE_SELECT (R159): the word as taken. -/
  | tableSelect (word : Word)
  /-- TABLE_DATA (R160): the word as taken. -/
  | tableData (word : Word)
  /-- COMMIT (R45): operand 1 of the COMMAND word. -/
  | commit (operand1 : Byte)
  /-- INVALIDATE (R33). -/
  | invalidate (operand1 : Byte)
  /-- STREAM_START (R90). -/
  | streamStart (operand1 : Byte)
  /-- STREAM_PAUSE (R98). -/
  | streamPause (operand1 : Byte)
  /-- STREAM_RESUME (R99). -/
  | streamResume (operand1 : Byte)
  /-- STREAM_STOP (R100). -/
  | streamStop (operand1 : Byte)
  /-- OUTPUT_START (R108, R109). -/
  | outputStart (operand1 : Byte)
  /-- OUTPUT_STOP (R115). -/
  | outputStop (operand1 : Byte)
  /-- OUTPUT_FREEZE (R112). -/
  | outputFreeze (operand1 : Byte)
  /-- OUTPUT_THAW (R112). -/
  | outputThaw (operand1 : Byte)
  /-- REBALANCE (R153). -/
  | rebalance
  /-- READBACK (R162): operand 1 is the table id, operand 2 the entry and the selector (10.2). -/
  | readback (table : Byte) (entry : Byte) (selector : Byte)
  /-- CLEAR_COUNTERS (R163). -/
  | clearCounters
  /-- SOFT_RESET (R164). -/
  | softReset
  /-- UNKNOWN_COMMAND (R161): a COMMAND word whose code is not in the command table. -/
  | unknownCommand (code : Byte) (operand1 : Byte) (operand2 : BitVec 16)
  /-- EVENT_MASK (R165): the word as taken. -/
  | eventMask (word : Word)
  /-- EVENT_CONSUMED (R167): the word as taken. -/
  | eventConsumed (word : Word)
  /-- LINE_START (R117, R133): a line start of the timing generator of d. -/
  | lineStart (d : OutputId)
  /-- FRAME_EPOCH (R117): the line start of the epoch line of d, with the order in which the blocks react. -/
  | frameEpoch (d : OutputId) (order : List EpochReaction)
  /-- ANNOUNCE_TIMEOUT (R129): the line start at which the ANNOUNCING timer reaches 64. -/
  | announceTimeout (d : OutputId)
  /-- CONFIGURING_EXPIRY (R131): the line start at which the CONFIGURING timer reaches 1024. -/
  | configuringExpiry (d : OutputId)
  /-- CONFIRM_TIMEOUT (R135): the line start at which the oldest packet's wait reaches the confirm timeout. -/
  | confirmTimeout (d : OutputId)
  /-- LOCK_COMPLETION (R110). -/
  | lockCompletion (d : OutputId)
  /-- LOCK_LOSS (R113). -/
  | lockLoss (d : OutputId)
  /-- PANEL_INFO (R130): native width, native height, maximum pixel clock in kHz. -/
  | panelInfo (d : OutputId) (width : BitVec 16) (height : BitVec 16) (clock : BitVec 32)
  /-- READY_NORMAL (R131). -/
  | readyNormal (d : OutputId)
  /-- CONFIRM(q) (R134). -/
  | confirm (d : OutputId) (q : Byte)
  /-- REPLAY_FROM(q) (R135). -/
  | replayFrom (d : OutputId) (q : Byte)
  /-- HALT from the panel (R138). -/
  | panelHalt (d : OutputId)
  /-- BAD_PANEL_MESSAGE (R126): the bytes that arrived on the pair from the panel of d. -/
  | badPanelMessage (d : OutputId) (bytes : List Byte)
  /-- HARDWARE_RESET (R156, R171): assertion of the reset line, or power-on. -/
  | hardwareReset (cause : HardwareCause)
  /-- RESET_RELEASE (R171). -/
  | resetRelease
  /-- COMP_WRITE_COMPLETION (R65, R73). -/
  | compWriteCompletion
  deriving DecidableEq, Repr

end Sys2Proof
end

