-- ==== Sys2Proof/Machine/Wire.lean ====
section
/-! DEFINITION. Bytes, bit fields and check values: the byte order of R172, the CRC-16 and CRC-8 of R125 and R126,
and the messages of the panel link of 10.6 in bytes. -/

namespace Sys2Proof.Machine

/-- The field of len bits of w that starts at bit lo, as a number (R172). -/
def bits (w : Word) (lo len : Nat) : Nat := (w.toNat >>> lo) % 2 ^ len

/-- A 16-bit two's complement field as a number (R173). -/
def signed16 (n : Nat) : Int := if n < 0x8000 then (n : Int) else (n : Int) - 0x10000

/-- The 16-bit two's complement field of a number (R173). -/
def unsigned16 (i : Int) : Nat := (i % 0x10000).toNat

/-- The n bytes of a number, least significant first: the order of memory (R172). -/
def littleEndian : Nat → Nat → List Byte
  | 0, _ => []
  | n + 1, v => BitVec.ofNat 8 v :: littleEndian n (v / 256)

/-- The n bytes of a number, most significant first: the order of the link pairs (R172). -/
def bigEndian (n v : Nat) : List Byte := (littleEndian n v).reverse

/-- The number whose bytes are given most significant first. -/
def bigEndianValue (bytes : List Byte) : Nat := bytes.foldl (fun v b => v * 256 + b.toNat) 0

/-- Byte i of a beat's data (00_scope.md, Memory; R172). -/
def byteOf (d : BeatData) (i : Nat) : Byte := BitVec.ofNat 8 (d.toNat >>> (8 * i))

/-- The data of a beat from its 8 bytes, byte 0 first. -/
def beatOf (bytes : List Byte) : BeatData :=
  BitVec.ofNat 64 (bytes.foldr (fun b v => b.toNat + 256 * v) 0)

/-- The bits of a byte as they go over a link pair: most significant bit first (R172). -/
def byteBits (b : Byte) : List Bool := [7, 6, 5, 4, 3, 2, 1, 0].map b.getLsbD

/-- The bits of a message on a link pair: its bytes in order, each most significant bit first (R172). -/
def messageBits (bytes : List Byte) : List Bool := bytes.flatMap byteBits

/-- One bit of the CRC-16 (R125): feedback from the top bit, shift left, exclusive-or 0x1021. -/
def crc16Bit (r : BitVec 16) (bit : Bool) : BitVec 16 :=
  if r.msb != bit then (r <<< 1) ^^^ 0x1021#16 else r <<< 1

/-- One byte of the CRC-16, most significant bit first (R125). -/
def crc16Byte (r : BitVec 16) (b : Byte) : BitVec 16 := (byteBits b).foldl crc16Bit r

/-- The CRC-16 of a run of bytes: the register starts at 0xFFFF, no final inversion (R125). -/
def crc16 (bytes : List Byte) : BitVec 16 := bytes.foldl crc16Byte 0xFFFF#16

/-- One bit of the CRC-8 (R126). -/
def crc8Bit (r : BitVec 8) (bit : Bool) : BitVec 8 :=
  if r.msb != bit then (r <<< 1) ^^^ 0x07#8 else r <<< 1

/-- One byte of the CRC-8, most significant bit first (R126). -/
def crc8Byte (r : BitVec 8) (b : Byte) : BitVec 8 := (byteBits b).foldl crc8Bit r

/-- The CRC-8 of a run of bytes: the register starts at 0 (R126). -/
def crc8 (bytes : List Byte) : BitVec 8 := bytes.foldl crc8Byte 0#8

/-- A run of bytes with its CRC-16 after it, most significant byte first (R174). -/
def withCrc16 (bytes : List Byte) : List Byte := bytes ++ bigEndian 2 (crc16 bytes).toNat

/-- ANNOUNCE: kind, version 1, maximum width 2048, maximum height 2048, check value (7.1, R174). -/
def announceBytes : List Byte :=
  withCrc16 (0x01#8 :: 1#8 :: (bigEndian 2 2048 ++ bigEndian 2 2048))

/-- CONFIGURE: kind, active width, active height, pixel clock, check value (R174). -/
def configureBytes (width height clock : Nat) : List Byte :=
  withCrc16 (0x02#8 :: (bigEndian 2 width ++ bigEndian 2 height ++ bigEndian 4 clock))

/-- LINE: kind, sequence number, line number, payload, check value; the CRC leaves out the kind byte (R125, R174). -/
def lineBytes (seq : Byte) (line : Nat) (payload : List Byte) : List Byte :=
  0x03#8 :: withCrc16 (seq :: (bigEndian 2 line ++ payload))

/-- HALT from the part to the panel (R174). -/
def haltBytes : List Byte := withCrc16 [0x04#8]

/-- A good message from the panel (7.1). -/
inductive PanelMessage where
  | info (width height : BitVec 16) (clock : BitVec 32)
  | readyNormal
  | confirm (q : Byte)
  | replayFrom (q : Byte)
  | halt
  deriving DecidableEq, Repr

/-- The message that a kind byte and a body of the kind's length give; none for another kind or length (R126, R174). -/
def panelBody : List Byte → Option PanelMessage
  | [] => none
  | kind :: body =>
    if kind = 0x81#8 ∧ body.length = 8 then
      some (.info (BitVec.ofNat 16 (bigEndianValue (body.take 2)))
        (BitVec.ofNat 16 (bigEndianValue ((body.drop 2).take 2)))
        (BitVec.ofNat 32 (bigEndianValue (body.drop 4))))
    else if kind = 0x82#8 ∧ body.length = 0 then some .readyNormal
    else if kind = 0x83#8 ∧ body.length = 1 then some (.confirm (body.headD 0))
    else if kind = 0x84#8 ∧ body.length = 1 then some (.replayFrom (body.headD 0))
    else if kind = 0x85#8 ∧ body.length = 0 then some .halt
    else none

/-- What the link controller makes of the bytes of a message from its panel: the message when the CRC-8 of every
byte before the last matches the last and the kind and length are right, none otherwise (R126, R174). -/
def parsePanelMessage (bytes : List Byte) : Option PanelMessage :=
  match bytes.getLast? with
  | none => none
  | some check => if crc8 bytes.dropLast = check then panelBody bytes.dropLast else none

/-- The output or stream number that operand 1 names: none for a value other than 0 or 1 (R161). -/
def outputOfOperand (operand : Byte) : Option OutputId :=
  if operand = 0#8 then some .A else if operand = 1#8 then some .B else none

/-- The stream that operand 1 names (R161). -/
def streamOfOperand (operand : Byte) : Option StreamId :=
  if operand = 0#8 then some .S0 else if operand = 1#8 then some .S1 else none

/-- The command codes of 9.3. -/
def commandCodes : List Byte :=
  [0x01, 0x02, 0x10, 0x11, 0x12, 0x13, 0x20, 0x21, 0x22, 0x23, 0x30, 0x40, 0x41, 0x7F]

end Sys2Proof.Machine
end

