-- ==== Sys2Proof/WellFormed.lean ====
section
/-! DEFINITION. Which commands the part's ports can carry at all. -/

namespace Sys2Proof

/-- An upstream request starts at an 8-byte-aligned address and has 1 to 16 beats (R144). -/
def requestWellFormed (addr : BitVec 29) (beats : Nat) : Bool :=
  addr.toNat % 8 == 0 && (1 ≤ beats && beats ≤ 16)

/-- A command is well formed when it is one that its row can stand for: an upstream request as R144 gives it, an
UNKNOWN_COMMAND whose code is in no row of the command table (R161), a BAD_PANEL_MESSAGE that fails R126. -/
def Instr.wellFormed : Instr → Bool
  | .hostWrite addr beats => requestWellFormed addr beats.length
  | .hostRead addr beats => requestWellFormed addr beats
  | .unknownCommand code _ _ => !(Machine.commandCodes.contains code)
  | .badPanelMessage _ bytes => (Machine.parsePanelMessage bytes).isNone
  | .downstreamGrant | .hostWriteCompletion | .hostReadCompletion | .scanReadCompletion | .tileTake
  | .compReadCompletion | .tileCompletion | .recordForm | .recordWriteCompletion | .statusBlockWrite
  | .statusBlockCompletion | .readbackDone | .tableSelect _ | .tableData _ | .commit _ | .invalidate _
  | .streamStart _ | .streamPause _ | .streamResume _ | .streamStop _ | .outputStart _ | .outputStop _
  | .outputFreeze _ | .outputThaw _ | .rebalance | .readback _ _ _ | .clearCounters | .softReset
  | .eventMask _ | .eventConsumed _ | .lineStart _ | .frameEpoch _ _ | .announceTimeout _
  | .configuringExpiry _ | .confirmTimeout _ | .lockCompletion _ | .lockLoss _ | .panelInfo _ _ _ _
  | .readyNormal _ | .confirm _ _ | .replayFrom _ _ | .panelHalt _ | .hardwareReset _ | .resetRelease
  | .compWriteCompletion => true

end Sys2Proof
end

