-- ==== Sys2Proof/Decode.lean ====
section
/-! DEFINITION. The commands that spec/opcode_table.json spells by bits: the table gives bits for no row
(spec/98_reader.md: n_rows_with_fixed 0), so no word spells a command. -/

namespace Sys2Proof

/-- The command that a word of nbits bits spells by the table's bits: none, since no row of the table has bits. -/
def decodeTableWord (_nbits _w : Nat) : Option Instr := none

end Sys2Proof
end

