-- ==== Sys2Proof/Machine/State.lean ====
section
/-! DEFINITION. The state of the part, as plain data: every record, queue, counter, flag and pin that the spec names,
the queue of waiting commands, and the values after reset. INVENTORY.md lists each with the rule that names it. -/

namespace Sys2Proof.Machine

/-- One value for each output. -/
structure PerOutput (α : Type) where
  A : α
  B : α
  deriving DecidableEq, Repr

/-- The value of output d. -/
def PerOutput.get {α : Type} (p : PerOutput α) : OutputId → α
  | .A => p.A
  | .B => p.B

/-- The pair with the value of output d replaced. -/
def PerOutput.set {α : Type} (p : PerOutput α) (d : OutputId) (v : α) : PerOutput α :=
  match d with
  | .A => { p with A := v }
  | .B => { p with B := v }

/-- One value for each stream. -/
structure PerStream (α : Type) where
  S0 : α
  S1 : α
  deriving DecidableEq, Repr

/-- The value of stream k. -/
def PerStream.get {α : Type} (p : PerStream α) : StreamId → α
  | .S0 => p.S0
  | .S1 => p.S1

/-- The pair with the value of stream k replaced. -/
def PerStream.set {α : Type} (p : PerStream α) (k : StreamId) (v : α) : PerStream α :=
  match k with
  | .S0 => { p with S0 := v }
  | .S1 => { p with S1 := v }

/-! ### Memory path (chapter 8) -/

/-- The display memory: the listed bytes in rising address order, none equal to what an unlisted address reads as. -/
abbrev Memory := List Host.Cell

/-- A write beat on its way to memory: 8-byte-aligned address, 8 byte enables, 8 bytes (00_scope.md, Memory). -/
structure WriteBeat where
  addr : Nat
  enables : Byte
  data : BeatData
  deriving DecidableEq, Repr

/-- A beat of the write queue; it names the upstream request it came from, and the stretch of that request: the number of
stray beats dropped before it (R146). -/
structure QueuedBeat where
  request : Nat
  stretch : Nat
  beat : WriteBeat
  deriving DecidableEq, Repr

/-- A request the host has presented and the upstream port has not yet accepted (R144). -/
inductive UpRequest where
  | write (addr : BitVec 29) (beats : List UpBeat)
  | read (addr : BitVec 29) (beats : Nat)
  deriving DecidableEq, Repr

/-- The 16-bit pixel formats of an alias range: codes 1 and 2 (1.1). -/
inductive AliasFormat where
  | rgb16
  | argb4444
  deriving DecidableEq, Repr

/-- One upstream beat of a tracked read (R145, R149): direct, mapped with the surface and format of R16 and, for
each of its four pixels, whether it lies in the padding of the last row, or stray (R17). -/
inductive ReadBeat where
  | direct
  | mapped (surface : Nat) (format : AliasFormat) (padding : List Bool)
  | stray
  deriving DecidableEq, Repr

/-- One downstream beat of a tracked read and the data that has come back for it (8.3). -/
structure DownBeat where
  addr : Nat
  data : Option BeatData
  deriving DecidableEq, Repr

/-- A read of the read tracker (8.3): `issued` counts its downstream beats already requested. -/
structure TrackedRead where
  id : Nat
  up : List ReadBeat
  down : List DownBeat
  issued : Nat
  deriving DecidableEq, Repr

/-- The writes of the event writer: five status blocks and the readback area (9.5). -/
inductive Block where
  | global
  | output (d : OutputId)
  | stream (k : StreamId)
  | readback
  deriving DecidableEq, Repr

/-- A request in flight on the downstream port (R150): a host write with its beats not yet completed, a host read
with the index of its first beat, a fetcher read of a run of one line, a compositor read for a layer, a tile row
write, a record write, a block write. `live` is false where the part discards or ignores the completion
(R113, R120, R162). -/
inductive Flight where
  | hostWrite (beats : List WriteBeat)
  | hostRead (id : Nat) (start : Nat) (addrs : List Nat)
  | scanRead (d : OutputId) (line pixel count : Nat) (addrs : List Nat) (live : Bool)
  | compRead (layer : Nat) (addrs : List Nat)
  | compWrite (beats : List WriteBeat)
  | recordWrite (beats : List WriteBeat)
  | blockWrite (b : Block) (live : Bool) (beats : List WriteBeat)
  deriving DecidableEq, Repr

/-- One credit count for each of the five clients (R150). -/
structure Credits where
  pass : Nat
  scanA : Nat
  scanB : Nat
  comp : Nat
  stat : Nat
  deriving DecidableEq, Repr

/-- A REBALANCE that drains: the pending counts and the number of requests noted when it was taken (R153). -/
structure Drain where
  counts : Credits
  noted : Nat
  deriving DecidableEq, Repr

/-! ### Surfaces (chapter 1) -/

/-- The 32-bit pixel formats: `none` stands for the 0 of an UNBOUND record, then codes 1 and 2 (1.1). -/
inductive SurfaceFormat where
  | none
  | argb32
  | xrgb32
  deriving DecidableEq, Repr

/-- The state, base, pitch, width, height and format of a surface record: what the compositor copies (R62). -/
structure Geometry where
  bound : Bool
  base : Nat
  pitch : Nat
  width : Nat
  height : Nat
  format : SurfaceFormat
  deriving DecidableEq, Repr

/-- The 16-bit view of a surface (1.1). -/
structure AliasRange where
  base : Nat
  format : AliasFormat
  deriving DecidableEq, Repr

/-- A surface record (1.1). -/
structure Surface where
  geometry : Geometry
  view : Option AliasRange
  deriving DecidableEq, Repr

/-- A geometry of an UNBOUND record: 0 in every field (1.1, R9). -/
def Geometry.unbound : Geometry :=
  { bound := false, base := 0, pitch := 0, width := 0, height := 0, format := .none }

/-- An UNBOUND record (1.1, R9). -/
def Surface.unbound : Surface := { geometry := .unbound, view := Option.none }

/-! ### Damage (chapter 2) -/

/-- A rectangle of screen tiles: first and last column, first and last row, inclusive (00_scope.md). -/
structure TileRect where
  c0 : Nat
  c1 : Nat
  r0 : Nat
  r1 : Nat
  deriving DecidableEq, Repr

/-- A damage list, and the form of a previous snapshot (R19, R20). -/
structure DamageList where
  entries : List TileRect
  whole : Bool
  deriving DecidableEq, Repr

/-- The two damage records of an output (R19, R20). -/
structure Damage where
  list : DamageList
  previous : DamageList
  deriving DecidableEq, Repr

/-- Nothing stale. -/
def DamageList.empty : DamageList := { entries := [], whole := false }

/-- The whole active area stale. -/
def DamageList.all : DamageList := { entries := [], whole := true }

/-! ### Layers (chapter 3) -/

/-- A colour of four 8-bit values (1.1, 3.1). -/
structure Colour where
  alpha : Byte
  red : Byte
  green : Byte
  blue : Byte
  deriving DecidableEq, Repr

/-- The three 8-bit values of a pixel as the panel and the blender use them (R69, R120). -/
structure Rgb where
  red : Byte
  green : Byte
  blue : Byte
  deriving DecidableEq, Repr

/-- What a layer shows: codes 0, 1 and 2 (3.1). -/
inductive Content where
  | solid
  | surface
  | stream
  deriving DecidableEq, Repr

/-- How a layer combines with what is beneath it: codes 0 and 1 (3.1). -/
inductive BlendMode where
  | copy
  | blend
  deriving DecidableEq, Repr

/-- A layer record (3.1, R39). -/
structure Layer where
  enabled : Bool
  content : Content
  index : Nat
  sx : Nat
  sy : Nat
  sw : Nat
  sh : Nat
  dx : Int
  dy : Int
  mag : Nat
  opacity : Byte
  blend : BlendMode
  colour : Colour
  deriving DecidableEq, Repr

/-- The layer record after a reset (R53). -/
def Layer.reset : Layer :=
  { enabled := false, content := .solid, index := 0, sx := 0, sy := 0, sw := 0, sh := 0, dx := 0, dy := 0,
    mag := 1, opacity := 0, blend := .copy, colour := ⟨0, 0, 0, 0⟩ }

/-- The two layer tables and the commit-pending flag of an output (3.2). -/
structure LayerTables where
  staged : Vector Layer 8
  active : Vector Layer 8
  commitPending : Bool
  deriving DecidableEq, Repr

/-- The layer tables after a reset (R53). -/
def LayerTables.reset : LayerTables :=
  { staged := Vector.replicate 8 .reset, active := Vector.replicate 8 .reset, commitPending := false }

/-! ### Composition (chapter 4) -/

/-- A screen tile by column and row (00_scope.md). -/
structure Tile where
  col : Nat
  row : Nat
  deriving DecidableEq, Repr

/-- A slot of a stream by its position. -/
structure SlotName where
  stream : StreamId
  slot : Nat
  deriving DecidableEq, Repr

/-- The composition record (4.1): the region in walk order, and the position of the first tile not yet taken. -/
structure Composition where
  region : List Tile
  next : Nat
  inProgress : Option Tile
  layers : Vector Layer 8
  sources : Vector (Option Geometry) 8
  frames : Vector (Option SlotName) 8
  holds : List SlotName
  deriving DecidableEq, Repr

/-- The compositor's state of one output (4.1); the back index is 1 minus the front index. -/
structure CompOutput where
  front : Fin 2
  awaiting : Bool
  completedSize : Nat
  composition : Option Composition
  missed : Count
  deriving DecidableEq, Repr

/-- A read request of the tile in hand: the layer it serves and its beats (R65). -/
structure TileRead where
  layer : Nat
  addrs : List Nat
  deriving DecidableEq, Repr

/-- A beat of source pixels that a read of the tile has returned (R65). -/
structure TileData where
  layer : Nat
  addr : Nat
  data : BeatData
  deriving DecidableEq, Repr

/-- The tile the engine has in hand (R65, R73): the requests not yet issued, how many are outstanding, the data
read; `live` is false once its composition has been abandoned. -/
structure Job where
  output : OutputId
  tile : Tile
  live : Bool
  reads : List TileRead
  readsOut : Nat
  data : List TileData
  writes : List (List WriteBeat)
  writesOut : Nat
  deriving DecidableEq, Repr

/-- The compositor's state of one output after a reset (R76). -/
def CompOutput.reset : CompOutput :=
  { front := 0, awaiting := false, completedSize := 0, composition := none, missed := 0 }

/-! ### Trailer streams (chapter 5) -/

/-- The states of a stream, codes 0 to 4 (5.1). -/
inductive StreamState where
  | stopped
  | priming
  | running
  | paused
  | ended
  deriving DecidableEq, Repr

/-- The states of a slot, codes 0 to 4 (5.3). -/
inductive SlotState where
  | free
  | filling
  | ready
  | shown
  | retired
  deriving DecidableEq, Repr

/-- The header words of a slot as last captured (R84). -/
structure HeaderWords where
  frameNumber : Word
  dueTick : Word
  flags : Word
  deriving DecidableEq, Repr

/-- The frame header taken at an arm (R85). -/
structure FrameHeader where
  frameNumber : Word
  dueTick : Word
  last : Bool
  discontinuity : Bool
  deriving DecidableEq, Repr

/-- A slot record (5.3). -/
structure Slot where
  state : SlotState
  header : HeaderWords
  frame : FrameHeader
  byteCount : Nat
  holds : PerOutput Bool
  lateSeen : Bool
  unarmedSeen : Bool
  deriving DecidableEq, Repr

/-- The slot record that a stream entry creates (R81). -/
def Slot.fresh : Slot :=
  { state := .free, header := ⟨0, 0, 0⟩, frame := ⟨0, 0, false, false⟩, byteCount := 0,
    holds := ⟨false, false⟩, lateSeen := false, unarmedSeen := false }

/-- The eight counters of a stream (5.1). -/
structure StreamCounters where
  shown : Count
  dropped : Count
  underrun : Count
  short : Count
  overrun : Count
  lateWrite : Count
  outOfOrder : Count
  unarmedWrite : Count
  deriving DecidableEq, Repr

/-- All eight counters 0. -/
def StreamCounters.zero : StreamCounters := ⟨0, 0, 0, 0, 0, 0, 0, 0⟩

/-- A stream record and its slot records (5.1). `positions` are the six surface indices of the entry as it applied;
the first `count` of them are the slot surfaces (log entry 15). -/
structure Stream where
  state : StreamState
  count : Nat
  positions : List Nat
  pacing : OutputId
  rateN : Nat
  rateD : Nat
  phase : Nat
  tick : Word
  expected : Nat
  counters : StreamCounters
  slots : List Slot
  deriving DecidableEq, Repr

/-- A stream after a reset (R105). -/
def Stream.reset : Stream :=
  { state := .stopped, count := 0, positions := [0, 0, 0, 0, 0, 0], pacing := .A, rateN := 0, rateD := 0,
    phase := 0, tick := 0, expected := 0, counters := .zero, slots := [] }

/-! ### Display outputs (chapter 6) -/

/-- The states of an output, codes 0 to 5 (6.2). -/
inductive OutputState where
  | off
  | locking
  | training
  | running
  | frozen
  | fault
  deriving DecidableEq, Repr

/-- The state an output returns to after a lock loss (6.2). -/
inductive ResumeState where
  | running
  | frozen
  deriving DecidableEq, Repr

/-- A timing record (6.1); the line-match line is absent for NONE. -/
structure Timing where
  width : Nat
  height : Nat
  hTotal : Nat
  vTotal : Nat
  clock : Nat
  background : Colour
  buffer0 : Nat
  buffer1 : Nat
  lineMatch : Option Nat
  deriving DecidableEq, Repr

/-- A timing record of all 0; its line-match line is line 0 (10.3, R124). -/
def Timing.zero : Timing :=
  { width := 0, height := 0, hTotal := 0, vTotal := 0, clock := 0, background := ⟨0, 0, 0, 0⟩,
    buffer0 := 0, buffer1 := 0, lineMatch := some 0 }

/-- A line of the line FIFO (6.4): its pixels requested so far, from pixel 0 on, each returned or in flight. -/
structure FifoLine where
  line : Nat
  pixels : List (Option Rgb)
  deriving DecidableEq, Repr

/-- A fetch position: a line and a pixel (6.4). -/
structure FetchAt where
  line : Nat
  pixel : Nat
  deriving DecidableEq, Repr

/-- The record of one output engine: 6.2's fields, the two timings, the timing generator's line, the line FIFO and
the fetch position (absent when done). -/
structure Output where
  state : OutputState
  resume : Option ResumeState
  lock : Bool
  frameCounter : Count
  blank : Bool
  begun : Bool
  frameUnderflows : Count
  underflows : Count
  staged : Timing
  active : Timing
  line : Nat
  fifo : List FifoLine
  fetch : Option FetchAt
  deriving DecidableEq, Repr

/-- An output after a hardware reset (R124). -/
def Output.reset : Output :=
  { state := .off, resume := none, lock := false, frameCounter := 0, blank := false, begun := false,
    frameUnderflows := 0, underflows := 0, staged := .zero, active := .zero, line := 0, fifo := [],
    fetch := none }

/-! ### Panel links (chapter 7) -/

/-- The states of a link, codes 0 to 5 (7.2). -/
inductive LinkState where
  | down
  | announcing
  | configuring
  | normal
  | replay
  | error
  deriving DecidableEq, Repr

/-- Why a link is in ERROR, codes 1 to 4 (9.3). -/
inductive LinkReason where
  | noPanel
  | panelMismatch
  | panelChanged
  | reinitLimit
  deriving DecidableEq, Repr

/-- The link settings (R128). -/
structure LinkSettings where
  confirmTimeout : Nat
  replayLimit : Nat
  reinitLimit : Nat
  deriving DecidableEq, Repr

/-- The settings after a hardware or soft reset (R128). -/
def LinkSettings.default : LinkSettings := ⟨16, 4, 2⟩

/-- The panel record: the last PANEL_INFO taken (7.2). -/
structure PanelRecord where
  width : Nat
  height : Nat
  clock : Nat
  deriving DecidableEq, Repr

/-- A packet of the retry buffer (7.2). -/
structure Packet where
  seq : Byte
  line : Nat
  payload : List Byte
  wait : Nat
  deriving DecidableEq, Repr

/-- The five counters of a link (7.2). -/
structure LinkCounters where
  replays : Count
  reinits : Count
  skipped : Count
  badRefs : Count
  badCrcs : Count
  deriving DecidableEq, Repr

/-- All five counters 0. -/
def LinkCounters.zero : LinkCounters := ⟨0, 0, 0, 0, 0⟩

/-- A link controller record (7.2); `sent` is the model's record of the pair: every message sent, in bytes, oldest
first, each byte going out most significant bit first (R172, Link.pairBits; log entry 13). The replay pointer and end name packets by their sequence numbers (R132). -/
structure Link where
  state : LinkState
  reason : Option LinkReason
  settings : LinkSettings
  panel : Option PanelRecord
  timer : Nat
  announceCount : Nat
  nextSeq : Byte
  buffer : List Packet
  pointer : Option Byte
  replayEnd : Option Byte
  replayRun : Nat
  reinitRun : Nat
  stable : Bool
  counters : LinkCounters
  sent : List (List Byte)
  deriving DecidableEq, Repr

/-- A link controller after a hardware reset, before anything has been sent (R143). -/
def Link.reset : Link :=
  { state := .down, reason := none, settings := .default, panel := none, timer := 0, announceCount := 0,
    nextSeq := 0, buffer := [], pointer := none, replayEnd := none, replayRun := 0, reinitRun := 0,
    stable := false, counters := .zero, sent := [] }

/-! ### Control page, commands and events (chapter 9) -/

/-- The tables of the table port, ids 1 to 8 (9.2). -/
inductive TableId where
  | surface
  | layer (d : OutputId)
  | stream
  | timing (d : OutputId)
  | credit
  | link
  deriving DecidableEq, Repr

/-- A valid cursor: a table, an entry of it, a word of the entry (R159). -/
structure Cursor where
  table : TableId
  entry : Nat
  word : Nat
  deriving DecidableEq, Repr

/-- The table port: its cursor, absent when invalid, and the words of the assembly that are stored (R160). -/
structure TablePort where
  cursor : Option Cursor
  assembly : Vector (Option Word) 8
  deriving DecidableEq, Repr

/-- The empty assembly. -/
def emptyAssembly : Vector (Option Word) 8 := Vector.replicate 8 none

/-- The kinds of event, codes 1 to 21 (9.4). -/
inductive EventKind where
  | resetDone
  | epoch
  | flip
  | flipMissed
  | lineMatch
  | commitApplied
  | stagedDropped
  | frameShown
  | slotFreed
  | streamCondition
  | streamState
  | outputState
  | lockChange
  | linkState
  | scanUnderflow
  | commandRefused
  | tableRefused
  | valueClamped
  | aliasFault
  | readbackDone
  | rebalanced
  deriving DecidableEq, Repr

/-- A raised event: kind, source, frame counter, reason code and two operands (9.4). -/
structure Event where
  kind : EventKind
  source : Nat
  frame : Count
  reason : Nat
  a : Word
  b : Word
  deriving DecidableEq, Repr

/-- The due marks of the status page's blocks (R169). -/
structure DueMarks where
  global : Bool
  output : PerOutput Bool
  stream : PerStream Bool
  readback : Bool
  deriving DecidableEq, Repr

/-- A record formed for a ring slot (R166). -/
structure Record where
  slot : Byte
  seq : Count
  lost : Count
  event : Event
  deriving DecidableEq, Repr

/-- A STAT request that the event writer presents and the arbiter has not granted yet (R170). -/
inductive StatRequest where
  | record (beats : List WriteBeat)
  | block (b : Block) (beats : List WriteBeat)
  deriving DecidableEq, Repr

/-- A pending readback: the copy that READBACK took (R162). -/
structure Readback where
  table : Byte
  entry : Byte
  selector : Byte
  words : List Word
  deriving DecidableEq, Repr

/-- The reset cause of the global block, codes 0 to 2 (R171). -/
inductive ResetCause where
  | powerOn
  | resetLine
  | soft
  deriving DecidableEq, Repr

/-- The event writer's items (9.4, 9.5, 9.6). `recordNext` is the alternation of R170: when records and blocks are both due,
a record is next. A hardware reset sets it; a soft reset keeps it (log entry 37). -/
structure EventWriter where
  mask : Word
  queue : List Event
  writeIndex : Byte
  consumed : Byte
  lost : Count
  seq : Count
  inWriting : Option Record
  presented : Option StatRequest
  due : DueMarks
  recordNext : Bool
  interrupt : Bool
  readback : Option Readback
  cause : ResetCause
  deriving DecidableEq, Repr

/-- No block due. -/
def DueMarks.none : DueMarks := ⟨false, ⟨false, false⟩, ⟨false, false⟩, false⟩

/-- The event writer after a hardware reset (R171); the mask enables kinds 1, 10, 12, 14, 16 and 17 (10.2). -/
def EventWriter.reset (cause : ResetCause) : EventWriter :=
  { mask := 0x00035402, queue := [], writeIndex := 0, consumed := 0, lost := 0, seq := 0, inWriting := Option.none,
    presented := Option.none, due := .none, recordNext := true, interrupt := false, readback := Option.none,
    cause := cause }

/-- The default credit counts (R150). -/
def Credits.default : Credits := ⟨8, 5, 5, 4, 2⟩

/-! ### The whole part -/

/-- The state of the part. `upstream` holds the requests that wait at the upstream port (R144), `hostData` the data
returned to the host so far, one list of beats a read (R149, log entry 13), `nextRequest` the name of the next
accepted request, `pending` the commands waiting, first in first out. -/
structure State where
  mem : Memory
  resetAsserted : Bool
  upstream : List UpRequest
  nextRequest : Nat
  writeQueue : List QueuedBeat
  tracker : List TrackedRead
  hostData : List (List BeatData)
  inFlight : List Flight
  activeCredits : Credits
  stagedCredits : Credits
  drain : Option Drain
  scanNext : OutputId
  surfaces : Vector Surface 32
  damage : PerOutput Damage
  layers : PerOutput LayerTables
  comp : PerOutput CompOutput
  turn : OutputId
  job : Option Job
  streams : PerStream Stream
  outputs : PerOutput Output
  links : PerOutput Link
  linkSettings : LinkSettings
  port : TablePort
  events : EventWriter
  pending : List Instr
  deriving DecidableEq, Repr

/-- Why a step stops with a fault. -/
inductive Fault where
  /-- Raised by DOWNSTREAM_GRANT when the request to be granted has a beat outside the DRAM's 256 MiB; the checks of
  R3, R80 and R108 keep the part from presenting one. Safe: the model stops (log entry 20). -/
  | addressNotInMemory
  deriving DecidableEq, Repr

/-- Why a step is refused. -/
inductive Refusal where
  /-- Raised by exec for a command with no meaning yet; no arm does. Safe. -/
  | notModelled (mnemonic : String)
  /-- Raised by HOST_WRITE and HOST_READ for a request that the upstream port cannot carry: no beat, more than 16, or
  a start address that is not 8-byte aligned (R144, log entry 19). Safe. -/
  | illFormed
  deriving DecidableEq, Repr

/-- The part right after power-on, its reset line still asserted (R156, R171): the values of R9, R38, R53, R76,
R105, R124, R143, R156 and R171, and an empty queue of commands. -/
def State.reset : State :=
  { mem := []
    resetAsserted := true
    upstream := []
    nextRequest := 0
    writeQueue := []
    tracker := []
    hostData := []
    inFlight := []
    activeCredits := .default
    stagedCredits := .default
    drain := none
    scanNext := .A
    surfaces := Vector.replicate 32 .unbound
    damage := ⟨⟨.empty, .empty⟩, ⟨.empty, .empty⟩⟩
    layers := ⟨.reset, .reset⟩
    comp := ⟨.reset, .reset⟩
    turn := .A
    job := none
    streams := ⟨.reset, .reset⟩
    outputs := ⟨.reset, .reset⟩
    links := ⟨.reset, .reset⟩
    linkSettings := .default
    port := { cursor := none, assembly := emptyAssembly }
    events := .reset .powerOn
    pending := [] }

end Sys2Proof.Machine
end

