-- ==== Sys2Proof/Machine/Ops.lean ====
section
/-! DEFINITION. The named operations that every family uses: reading and writing memory by byte and by beat, raising
an event (R165), and the due marks of the status page (R169). -/

namespace Sys2Proof.Machine

/-! ### Memory -/

/-- One byte of memory: the listed byte, or what an unlisted address reads as (log entry 5). -/
def Memory.read : Memory → Nat → Byte
  | [], _ => Config.unwrittenByte
  | (k, v) :: m, a => if a = k then v else Memory.read m a

/-- Memory with one byte written, in canonical form: rising addresses, no entry equal to an unlisted byte. -/
def Memory.write : Memory → Nat → Byte → Memory
  | [], a, v => if v = Config.unwrittenByte then [] else [(a, v)]
  | (k, w) :: m, a, v =>
    if a < k then (if v = Config.unwrittenByte then (k, w) :: m else (a, v) :: (k, w) :: m)
    else if a = k then (if v = Config.unwrittenByte then m else (a, v) :: m)
    else (k, w) :: Memory.write m a v

/-- The canonical form from address lo on. -/
def Memory.wfFrom : Nat → Memory → Bool
  | _, [] => true
  | lo, (k, v) :: m => decide (lo ≤ k) && v != Config.unwrittenByte && Memory.wfFrom (k + 1) m

/-- Memory is in canonical form: strictly rising addresses, no entry equal to what an unlisted address reads as. -/
def Memory.wf (m : Memory) : Bool := Memory.wfFrom 0 m

/-- The byte numbers of a beat. -/
def beatBytes : List Nat := [0, 1, 2, 3, 4, 5, 6, 7]

/-- Memory after a write beat: each enabled byte written, the others left as they were (00_scope.md, Memory). -/
def Memory.writeBeat (m : Memory) (b : WriteBeat) : Memory :=
  beatBytes.foldl (fun m i => if b.enables.getLsbD i then m.write (b.addr + i) (byteOf b.data i) else m) m

/-- Memory after the beats of a request, in address order (R147). -/
def Memory.writeBeats (m : Memory) (bs : List WriteBeat) : Memory := bs.foldl Memory.writeBeat m

/-- The 8 bytes of a beat as memory holds them. -/
def Memory.readBeat (m : Memory) (a : Nat) : BeatData := beatOf (beatBytes.map fun i => m.read (a + i))

/-- The bytes of a record or block as write beats with every byte enabled, from an 8-byte-aligned address. -/
def beatsOfBytes (addr : Nat) : List Byte → List WriteBeat
  | b0 :: b1 :: b2 :: b3 :: b4 :: b5 :: b6 :: b7 :: rest =>
    { addr := addr, enables := 0xFF, data := beatOf [b0, b1, b2, b3, b4, b5, b6, b7] } ::
      beatsOfBytes (addr + 8) rest
  | _ => []

/-- The four enables of one half of a beat are all set. -/
def wholeWord (enables : Byte) (high : Bool) : Bool :=
  if high then enables.toNat / 16 == 15 else enables.toNat % 16 == 15

/-- The word at address a that a beat covers with all four of its bytes enabled (R84, R158). -/
def WriteBeat.wordAt (b : WriteBeat) (a : Nat) : Option Word :=
  if a = b.addr ∧ wholeWord b.enables false then some (b.data.truncate 32)
  else if a = b.addr + 4 ∧ wholeWord b.enables true then some ((b.data >>> 32).truncate 32)
  else none

/-! ### Counters -/

/-- A saturating 16-bit counter after one count (00_scope.md, Counters). -/
def bump (c : Count) : Count := if c = 0xFFFF#16 then c else c + 1

/-- A number as an operand or a record field. -/
def word (n : Nat) : Word := BitVec.ofNat 32 n

/-! ### Events -/

/-- The code of an event kind (9.4). -/
def EventKind.code : EventKind → Nat
  | .resetDone => 1
  | .epoch => 2
  | .flip => 3
  | .flipMissed => 4
  | .lineMatch => 5
  | .commitApplied => 6
  | .stagedDropped => 7
  | .frameShown => 8
  | .slotFreed => 9
  | .streamCondition => 10
  | .streamState => 11
  | .outputState => 12
  | .lockChange => 13
  | .linkState => 14
  | .scanUnderflow => 15
  | .commandRefused => 16
  | .tableRefused => 17
  | .valueClamped => 18
  | .aliasFault => 19
  | .readbackDone => 20
  | .rebalanced => 21

/-- A kind is enabled in the mask (R165). -/
def EventWriter.enabled (w : EventWriter) (k : EventKind) : Bool := w.mask.getLsbD k.code

/-- The event writer after one event is lost: the lost count grows, saturating, and a change of it makes the global
block due (R165, R169). -/
def EventWriter.lose (w : EventWriter) : EventWriter :=
  if w.lost = 0xFFFF#16 then w else { w with lost := w.lost + 1, due := { w.due with global := true } }

/-- The event writer after an event is raised: discarded if its kind is disabled, queued if there is room, lost
otherwise (R165). -/
def EventWriter.raise (w : EventWriter) (e : Event) : EventWriter :=
  if w.enabled e.kind then
    if w.queue.length < Config.eventPlaces then { w with queue := w.queue ++ [e] } else w.lose
  else w

/-- The part after an event is raised. -/
def State.raise (s : State) (e : Event) : State := { s with events := s.events.raise e }

/-- The part after several events are raised, in their order. -/
def State.raiseAll (s : State) (es : List Event) : State :=
  { s with events := es.foldl EventWriter.raise s.events }

/-- The frame counter of an output as it stands. -/
def State.frameOf (s : State) (d : OutputId) : Count := (s.outputs.get d).frameCounter

/-! ### Due marks (R169) -/

/-- The due marks with the block of output d due (R123). -/
def DueMarks.markOutput (m : DueMarks) (d : OutputId) : DueMarks := { m with output := m.output.set d true }

/-- The due marks with the block of stream k due (R103). -/
def DueMarks.markStream (m : DueMarks) (k : StreamId) : DueMarks := { m with stream := m.stream.set k true }

/-- All five status blocks due; the readback area's mark is kept (R163, R164, R171). -/
def DueMarks.markBlocks (m : DueMarks) : DueMarks :=
  { m with global := true, output := ⟨true, true⟩, stream := ⟨true, true⟩ }

/-- The part with new due marks. -/
def State.mark (s : State) (f : DueMarks → DueMarks) : State :=
  { s with events := { s.events with due := f s.events.due } }

/-- The block of output d is due (R123). -/
def State.markOutput (s : State) (d : OutputId) : State := s.mark (·.markOutput d)

/-! ### The two outputs and the two streams -/

/-- The outputs, A first. -/
def bothOutputs : List OutputId := [.A, .B]

/-- The streams, 0 first. -/
def bothStreams : List StreamId := [.S0, .S1]

/-- The number of an output (00_scope.md: operand 0 or 1). -/
def outputNumber : OutputId → Nat
  | .A => 0
  | .B => 1

/-- The other output. -/
def otherOutput : OutputId → OutputId
  | .A => .B
  | .B => .A

/-- The number of a stream. -/
def streamNumber : StreamId → Nat
  | .S0 => 0
  | .S1 => 1

/-- The other stream. -/
def otherStream : StreamId → StreamId
  | .S0 => .S1
  | .S1 => .S0

/-- The part with the output record of d replaced. -/
def State.setOutput (s : State) (d : OutputId) (o : Output) : State := { s with outputs := s.outputs.set d o }

/-- The part with the link of d replaced. -/
def State.setLink (s : State) (d : OutputId) (l : Link) : State := { s with links := s.links.set d l }

/-- The part with the compositor's record of d replaced. -/
def State.setComp (s : State) (d : OutputId) (c : CompOutput) : State := { s with comp := s.comp.set d c }

/-- The part with the damage records of d replaced. -/
def State.setDamage (s : State) (d : OutputId) (x : Damage) : State := { s with damage := s.damage.set d x }

/-- The part with the layer tables of d replaced. -/
def State.setLayers (s : State) (d : OutputId) (t : LayerTables) : State := { s with layers := s.layers.set d t }

/-- The part with stream k replaced. -/
def State.setStream (s : State) (k : StreamId) (x : Stream) : State := { s with streams := s.streams.set k x }

/-- The first check of a table of checks that does not hold (R3, R42, R80, R90, R108, R153, R162). -/
def firstFailure {α : Type} : List (Bool × α) → Option α
  | [] => none
  | (holds, what) :: rest => if holds then firstFailure rest else some what

end Sys2Proof.Machine
end

