-- ==== Sys2Proof/Machine/Flags.lean ====
section
/-! DEFINITION. The codes of states, reasons and conditions (5.1, 5.3, 6.2, 7.2, 9.3), and the interrupt line (R168). -/

namespace Sys2Proof.Machine

/-- The refusal reasons (9.3). -/
inductive Reason where
  | unknown
  | badOperand
  | badState
  | range
  | geometry
  | format
  | alignment
  | aliasOverlap
  | inUse
  | busy
  | creditSum
  | badIndex
  | noCursor
  deriving DecidableEq, Repr

/-- The code of a refusal reason (9.3). -/
def reasonCode : Reason → Nat
  | .unknown => 1
  | .badOperand => 2
  | .badState => 3
  | .range => 4
  | .geometry => 5
  | .format => 6
  | .alignment => 7
  | .aliasOverlap => 8
  | .inUse => 9
  | .busy => 10
  | .creditSum => 11
  | .badIndex => 12
  | .noCursor => 13

/-- ALIAS_FAULT's reason codes (9.3). -/
def partialCode : Nat := 1

/-- ALIAS_FAULT's reason codes (9.3). -/
def strayCode : Nat := 2

/-- COMMAND_REFUSED for a command code; it names no output, so its frame counter is 0 (R161, 9.4). -/
def commandRefused (code : Nat) (r : Reason) (a b : Word) : Event :=
  { kind := .commandRefused, source := code, frame := 0, reason := reasonCode r, a := a, b := b }

/-- TABLE_REFUSED for a table id (R160, 9.4). -/
def tableRefused (table : Nat) (r : Reason) (a b : Word) : Event :=
  { kind := .tableRefused, source := table, frame := 0, reason := reasonCode r, a := a, b := b }

/-- VALUE_CLAMPED for a table id: what was clamped and the value written (R43, R81, R128, R152). -/
def valueClamped (table : Nat) (a b : Nat) : Event :=
  { kind := .valueClamped, source := table, frame := 0, reason := 0, a := word a, b := word b }

/-- The code of a stream state (5.1). -/
def streamStateCode : StreamState → Nat
  | .stopped => 0
  | .priming => 1
  | .running => 2
  | .paused => 3
  | .ended => 4

/-- The code of a slot state (5.3). -/
def slotStateCode : SlotState → Nat
  | .free => 0
  | .filling => 1
  | .ready => 2
  | .shown => 3
  | .retired => 4

/-- The code of an output state (6.2). -/
def outputStateCode : OutputState → Nat
  | .off => 0
  | .locking => 1
  | .training => 2
  | .running => 3
  | .frozen => 4
  | .fault => 5

/-- The code of a resume state in the status block (10.5). -/
def resumeCode : Option ResumeState → Nat
  | none => 0
  | some .running => 3
  | some .frozen => 4

/-- The code of a link state (7.2). -/
def linkStateCode : LinkState → Nat
  | .down => 0
  | .announcing => 1
  | .configuring => 2
  | .normal => 3
  | .replay => 4
  | .error => 5

/-- The code of a link's error reason, 0 for none (9.3, 10.5). -/
def linkReasonCode : Option LinkReason → Nat
  | none => 0
  | some .noPanel => 1
  | some .panelMismatch => 2
  | some .panelChanged => 3
  | some .reinitLimit => 4

/-- The code of a reset cause (R171). -/
def causeCode : ResetCause → Nat
  | .powerOn => 0
  | .resetLine => 1
  | .soft => 2

/-- A flag as a number. -/
def flag (b : Bool) : Nat := if b then 1 else 0

/-- The output declares epochs and takes insertions: RUNNING or FROZEN (R21, R117). -/
def OutputState.live : OutputState → Bool
  | .running => true
  | .frozen => true
  | _ => false

/-- The timing generator runs: TRAINING, RUNNING or FROZEN (R117). -/
def OutputState.timed : OutputState → Bool
  | .training => true
  | .running => true
  | .frozen => true
  | _ => false

/-- The state of output d as it stands. -/
def State.outputState (s : State) (d : OutputId) : OutputState := (s.outputs.get d).state

/-- The event writer with its interrupt line as the two indices give it (R168). -/
def EventWriter.updateInterrupt (w : EventWriter) : EventWriter :=
  { w with interrupt := w.writeIndex != w.consumed }

/-- The ring is full: the write index plus 1 is the consumed index (R166). -/
def EventWriter.ringFull (w : EventWriter) : Bool := w.writeIndex + 1 == w.consumed

end Sys2Proof.Machine
end

