-- ==== Sys2Proof/Machine/Operands.lean ====
section
/-! DEFINITION. The layouts of chapter 10: the fields of control words and table entries, both ways (R172, R173). -/

namespace Sys2Proof.Machine

/-- The word that two 16-bit fields make, the first in bits 15 to 0. -/
def halves (lo hi : Nat) : Word := word (lo % 0x10000 + 0x10000 * (hi % 0x10000))

/-- The word that four bytes make, the first in bits 7 to 0. -/
def quarters (b0 b1 b2 b3 : Nat) : Word :=
  word (b0 % 256 + 256 * (b1 % 256) + 0x10000 * (b2 % 256) + 0x1000000 * (b3 % 256))

/-- Word w of an entry's words. -/
def entryWord (ws : List Word) (w : Nat) : Word := ws.getD w 0

/-- A colour word: blue, green, red, alpha from bit 0 up (R172). -/
def colourOf (w : Word) : Colour :=
  { blue := BitVec.ofNat 8 (bits w 0 8), green := BitVec.ofNat 8 (bits w 8 8),
    red := BitVec.ofNat 8 (bits w 16 8), alpha := BitVec.ofNat 8 (bits w 24 8) }

/-- The word of a colour (R172). -/
def colourWord (c : Colour) : Word := quarters c.blue.toNat c.green.toNat c.red.toNat c.alpha.toNat

/-! ### Control words (10.2) -/

/-- The table of an id 1 to 8 (9.2). -/
def tableOfId (n : Nat) : Option TableId :=
  match n with
  | 1 => some .surface
  | 2 => some (.layer .A)
  | 3 => some (.layer .B)
  | 4 => some .stream
  | 5 => some (.timing .A)
  | 6 => some (.timing .B)
  | 7 => some .credit
  | 8 => some .link
  | _ => none

/-- The id of a table (9.2). -/
def tableNumber : TableId → Nat
  | .surface => 1
  | .layer .A => 2
  | .layer .B => 3
  | .stream => 4
  | .timing .A => 5
  | .timing .B => 6
  | .credit => 7
  | .link => 8

/-- The count of entries of a table (9.2). -/
def tableEntries : TableId → Nat
  | .surface => 32
  | .layer _ => 8
  | .stream => 2
  | .timing _ => 1
  | .credit => 1
  | .link => 1

/-- The words of an entry of a table (9.2). -/
def tableWords : TableId → Nat
  | .surface => 6
  | .layer _ => 6
  | .stream => 6
  | .timing _ => 8
  | .credit => 2
  | .link => 2

/-- The cursor that a TABLE_SELECT word names, if it is valid (R159, 10.2). -/
def cursorOf (w : Word) : Option Cursor :=
  match tableOfId (bits w 0 8) with
  | none => none
  | some t =>
    if bits w 8 8 < tableEntries t ∧ bits w 16 8 < tableWords t then
      some { table := t, entry := bits w 8 8, word := bits w 16 8 }
    else none

/-- The enables of an EVENT_MASK word: bits 1 to 21, the others ignored (R165, 10.2). -/
def maskOf (w : Word) : Word := w &&& 0x003FFFFE

/-! ### Surface entry, table 1 (10.3) -/

/-- The format code of a surface record; 0 while UNBOUND (1.1). -/
def formatCode : SurfaceFormat → Nat
  | .none => 0
  | .argb32 => 1
  | .xrgb32 => 2

/-- The surface format of a code; code 2 is XRGB32, and step 3 of R3 keeps the others out. -/
def formatOf (n : Nat) : SurfaceFormat :=
  match n with
  | 1 => .argb32
  | 2 => .xrgb32
  | _ => .none

/-- The alias format code of a surface record: 0 absent (1.1). -/
def aliasCode : Option AliasRange → Nat
  | none => 0
  | some r => match r.format with
    | .rgb16 => 1
    | .argb4444 => 2

/-- The alias range that an alias format code and base give (R4). -/
def aliasOf (code base : Nat) : Option AliasRange :=
  match code with
  | 1 => some { base := base, format := .rgb16 }
  | 2 => some { base := base, format := .argb4444 }
  | _ => none

/-- The fields of a surface entry (10.3). -/
structure SurfaceEntry where
  base : Nat
  pitch : Nat
  width : Nat
  height : Nat
  formatCode : Nat
  aliasCode : Nat
  aliasBase : Nat
  binding : Nat
  deriving DecidableEq, Repr

/-- The fields of the six words of a surface entry. -/
def surfaceEntry (ws : List Word) : SurfaceEntry :=
  { base := (entryWord ws 0).toNat, pitch := bits (entryWord ws 1) 0 16, width := bits (entryWord ws 2) 0 16,
    height := bits (entryWord ws 2) 16 16, formatCode := bits (entryWord ws 3) 0 8,
    aliasCode := bits (entryWord ws 3) 8 8, aliasBase := (entryWord ws 4).toNat,
    binding := (entryWord ws 5).toNat }

/-- The words of a surface record (R4, R173). -/
def surfaceWords (x : Surface) : List Word :=
  [word x.geometry.base, halves x.geometry.pitch 0, halves x.geometry.width x.geometry.height,
    quarters (formatCode x.geometry.format) (aliasCode x.view) 0 0,
    word (match x.view with | none => 0 | some r => r.base), word (flag x.geometry.bound)]

/-! ### Layer entry, tables 2 and 3 (10.3) -/

/-- The fields of a layer entry (10.3). -/
structure LayerEntry where
  enabled : Nat
  content : Nat
  index : Nat
  blend : Nat
  opacity : Byte
  mag : Nat
  sx : Nat
  sy : Nat
  sw : Nat
  sh : Nat
  dx : Int
  dy : Int
  colour : Colour
  deriving DecidableEq, Repr

/-- The fields of the six words of a layer entry. -/
def layerEntry (ws : List Word) : LayerEntry :=
  { enabled := bits (entryWord ws 0) 0 8, content := bits (entryWord ws 0) 8 8, index := bits (entryWord ws 0) 16 8,
    blend := bits (entryWord ws 0) 24 8, opacity := BitVec.ofNat 8 (bits (entryWord ws 1) 0 8),
    mag := bits (entryWord ws 1) 8 8, sx := bits (entryWord ws 2) 0 16, sy := bits (entryWord ws 2) 16 16,
    sw := bits (entryWord ws 3) 0 16, sh := bits (entryWord ws 3) 16 16,
    dx := signed16 (bits (entryWord ws 4) 0 16), dy := signed16 (bits (entryWord ws 4) 16 16),
    colour := colourOf (entryWord ws 5) }

/-- The content code of a layer (3.1). -/
def contentCode : Content → Nat
  | .solid => 0
  | .surface => 1
  | .stream => 2

/-- The content of a code; step 2 of R42 keeps codes above 2 out. -/
def contentOf (n : Nat) : Content :=
  match n with
  | 0 => .solid
  | 1 => .surface
  | _ => .stream

/-- The blend mode code of a layer (3.1). -/
def blendCode : BlendMode → Nat
  | .copy => 0
  | .blend => 1

/-- The blend mode of a code; step 3 of R42 keeps codes above 1 out. -/
def blendOf (n : Nat) : BlendMode := if n = 0 then .copy else .blend

/-- The words of a layer record (R173). -/
def layerWords (l : Layer) : List Word :=
  [quarters (flag l.enabled) (contentCode l.content) l.index (blendCode l.blend),
    quarters l.opacity.toNat l.mag 0 0, halves l.sx l.sy, halves l.sw l.sh,
    halves (unsigned16 l.dx) (unsigned16 l.dy), colourWord l.colour]

/-! ### Stream entry, table 4 (10.3) -/

/-- The fields of a stream entry (10.3). -/
structure StreamEntry where
  count : Nat
  pacing : Nat
  positions : List Nat
  rateN : Nat
  rateD : Nat
  deriving DecidableEq, Repr

/-- The fields of the six words of a stream entry. -/
def streamEntry (ws : List Word) : StreamEntry :=
  { count := bits (entryWord ws 0) 0 8, pacing := bits (entryWord ws 0) 8 8,
    positions := [bits (entryWord ws 1) 0 8, bits (entryWord ws 1) 8 8, bits (entryWord ws 1) 16 8,
      bits (entryWord ws 1) 24 8, bits (entryWord ws 2) 0 8, bits (entryWord ws 2) 8 8],
    rateN := bits (entryWord ws 3) 0 8, rateD := bits (entryWord ws 3) 8 8 }

/-- The words of a stream's configuration as applied, N as clamped (R103, log entry 15). -/
def streamWords (x : Stream) : List Word :=
  [quarters x.count (outputNumber x.pacing) 0 0,
    quarters (x.positions.getD 0 0) (x.positions.getD 1 0) (x.positions.getD 2 0) (x.positions.getD 3 0),
    quarters (x.positions.getD 4 0) (x.positions.getD 5 0) 0 0, quarters x.rateN x.rateD 0 0, 0, 0]

/-! ### Timing entry, tables 5 and 6 (10.3) -/

/-- The timing record of the eight words of an entry, as written (R106). -/
def timingOf (ws : List Word) : Timing :=
  { width := bits (entryWord ws 0) 0 16, height := bits (entryWord ws 0) 16 16,
    hTotal := bits (entryWord ws 1) 0 16, vTotal := bits (entryWord ws 1) 16 16,
    clock := (entryWord ws 2).toNat, background := colourOf (entryWord ws 3),
    buffer0 := (entryWord ws 4).toNat, buffer1 := (entryWord ws 5).toNat,
    lineMatch := if bits (entryWord ws 6) 0 16 = 0xFFFF then none else some (bits (entryWord ws 6) 0 16) }

/-- The words of a timing record (R173). -/
def timingWords (t : Timing) : List Word :=
  [halves t.width t.height, halves t.hTotal t.vTotal, word t.clock, colourWord t.background, word t.buffer0,
    word t.buffer1, halves (t.lineMatch.getD 0xFFFF) 0, 0]

/-! ### Credit entry, table 7, and link settings entry, table 8 (10.3) -/

/-- The five counts of a credit entry as written, in client order (R150, R152). -/
def creditEntry (ws : List Word) : Credits :=
  { pass := bits (entryWord ws 0) 0 8, scanA := bits (entryWord ws 0) 8 8, scanB := bits (entryWord ws 0) 16 8,
    comp := bits (entryWord ws 0) 24 8, stat := bits (entryWord ws 1) 0 8 }

/-- The words of five counts. -/
def creditWords (c : Credits) : List Word := [quarters c.pass c.scanA c.scanB c.comp, quarters c.stat 0 0 0]

/-- The sum of five counts (R153). -/
def Credits.sum (c : Credits) : Nat := c.pass + c.scanA + c.scanB + c.comp + c.stat

/-- The settings of a link settings entry as written (R128). -/
def linkEntry (ws : List Word) : LinkSettings :=
  { confirmTimeout := bits (entryWord ws 0) 0 16, replayLimit := bits (entryWord ws 1) 0 8,
    reinitLimit := bits (entryWord ws 1) 8 8 }

/-- The words of link settings. -/
def linkWords (x : LinkSettings) : List Word :=
  [halves x.confirmTimeout 0, quarters x.replayLimit x.reinitLimit 0 0]

/-- A value brought into a range (00_scope.md: "Clamped"). -/
def clamp (lo hi n : Nat) : Nat := if n < lo then lo else if hi < n then hi else n

end Sys2Proof.Machine
end

