-- ==== Sys2Proof/Machine/Surfaces.lean ====
section
/-! DEFINITION. Chapter 1: where a surface's pixels lie (R1, R2), and the alias converter (R10 to R17). -/

namespace Sys2Proof.Machine

/-- The row and byte of the row at which direct address a lies, when it is in the pixel area (R2). -/
def Geometry.place (g : Geometry) (a : Nat) : Option (Nat × Nat) :=
  if g.bound ∧ g.base ≤ a ∧ (a - g.base) / g.pitch < g.height ∧ (a - g.base) % g.pitch < 4 * g.width then
    some ((a - g.base) / g.pitch, (a - g.base) % g.pitch)
  else none

/-- The enabled bytes of a beat that lie in the pixel area, by number (R2). -/
def Geometry.bytesIn (g : Geometry) (b : WriteBeat) : List Nat :=
  beatBytes.filter fun i => b.enables.getLsbD i && (g.place (b.addr + i)).isSome

/-- A write beat is in a surface when at least one enabled byte lies in its pixel area (R2). -/
def Geometry.has (g : Geometry) (b : WriteBeat) : Bool := !(g.bytesIn b).isEmpty

/-- The record of surface index i; none for an index of 32 or more (R173). -/
def State.surface (s : State) (i : Nat) : Option Surface := s.surfaces[i]?

/-- The geometry of surface index i: UNBOUND for an index that names no surface. -/
def State.geometryOf (s : State) (i : Nat) : Geometry :=
  match s.surface i with
  | some x => x.geometry
  | none => .unbound

/-- Pixel x of row y of a surface: the address of its first byte (R1). -/
def Geometry.pixelAddr (g : Geometry) (x y : Nat) : Nat := g.base + g.pitch * y + 4 * x

/-! ### Channel conversion (R11, R16, R18) -/

/-- A 5-bit value as 8 bits (R11). -/
def expand5 (v : Nat) : Nat := v * 8 + v / 4

/-- A 6-bit value as 8 bits (R11). -/
def expand6 (v : Nat) : Nat := v * 4 + v / 16

/-- A 4-bit value as 8 bits (R11). -/
def expand4 (v : Nat) : Nat := v * 17

/-- The colour that a 16-bit pixel expands to (R11). -/
def expandPixel (f : AliasFormat) (p : Nat) : Colour :=
  match f with
  | .rgb16 =>
    { red := BitVec.ofNat 8 (expand5 (p / 2048 % 32)), green := BitVec.ofNat 8 (expand6 (p / 32 % 64)),
      blue := BitVec.ofNat 8 (expand5 (p % 32)), alpha := 255 }
  | .argb4444 =>
    { alpha := BitVec.ofNat 8 (expand4 (p / 4096 % 16)), red := BitVec.ofNat 8 (expand4 (p / 256 % 16)),
      green := BitVec.ofNat 8 (expand4 (p / 16 % 16)), blue := BitVec.ofNat 8 (expand4 (p % 16)) }

/-- The 16-bit pixel that a stored 32-bit pixel contracts to (1.3, R16). -/
def contractPixel (f : AliasFormat) (c : Colour) : Nat :=
  match f with
  | .rgb16 => c.red.toNat / 8 * 2048 + c.green.toNat / 4 * 32 + c.blue.toNat / 8
  | .argb4444 =>
    c.alpha.toNat / 16 * 4096 + c.red.toNat / 16 * 256 + c.green.toNat / 16 * 16 + c.blue.toNat / 16

/-- The four bytes of a stored pixel in memory order: blue, green, red, alpha (R1). -/
def pixelBytes (c : Colour) : List Byte := [c.blue, c.green, c.red, c.alpha]

/-- The pixel that a 32-bit value of memory holds (R1). -/
def pixelOf (w : Word) : Colour := colourOf w

/-- The low pixel of a beat, or the high one. -/
def beatPixel (d : BeatData) (high : Bool) : Colour :=
  pixelOf (if high then (d >>> 32).truncate 32 else d.truncate 32)

/-! ### Mapping alias beats (R10) -/

/-- The number of bytes of a surface's alias range (R4). -/
def aliasLength (g : Geometry) : Nat := g.pitch / 2 * g.height

/-- The alias range of a BOUND surface holds offset o (R10). -/
def Surface.holdsOffset (x : Surface) (o : Nat) : Bool :=
  match x.view with
  | none => false
  | some r => x.geometry.bound && decide (r.base ≤ o) && decide (o < r.base + aliasLength x.geometry)

/-- Where an alias beat maps (R10): the surface, its geometry and format, the direct address of its 16 bytes, the
alias row and the column of its first pixel. -/
structure Mapping where
  surface : Nat
  geometry : Geometry
  format : AliasFormat
  addr : Nat
  row : Nat
  col : Nat
  deriving DecidableEq, Repr

/-- The mapping of offset o through one surface record (R10). -/
def Surface.mapping (x : Surface) (i o : Nat) : Option Mapping :=
  match x.view with
  | none => none
  | some r =>
    if x.holdsOffset o then
      some { surface := i, geometry := x.geometry, format := r.format,
             addr := x.geometry.base + 2 * (o - r.base),
             row := (o - r.base) / (x.geometry.pitch / 2),
             col := (o - r.base) % (x.geometry.pitch / 2) / 2 }
    else none

/-- The mapping of alias offset o by the surface table as it stands; none when it is stray (R10). -/
def State.aliasMapping (s : State) (o : Nat) : Option Mapping :=
  s.surfaces.toList.zipIdx.findSome? fun p => p.1.mapping p.2 o

/-- Pixel i of a mapped beat lies in the padding of the last row, which the converter neither writes nor reads
(R15, R16). -/
def Mapping.lastRowPadding (m : Mapping) (i : Nat) : Bool :=
  decide (m.row + 1 = m.geometry.height) && decide (m.geometry.width ≤ m.col + i)

/-- Both byte enables of pixel i of an alias beat. -/
def pixelEnables (enables : Byte) (i : Nat) : Bool × Bool :=
  (enables.getLsbD (2 * i), enables.getLsbD (2 * i + 1))

/-- Pixel i of a mapped write beat is written: both enables set, and not in the padding of the last row (R12, R15). -/
def Mapping.writes (m : Mapping) (b : UpBeat) (i : Nat) : Bool :=
  (pixelEnables b.enables i).1 && (pixelEnables b.enables i).2 && !m.lastRowPadding i

/-- Pixel i of a mapped write beat is partial: exactly one enable set, and not in the padding of the last row, which
raises no event (R13, R15). -/
def Mapping.isPartial (m : Mapping) (b : UpBeat) (i : Nat) : Bool :=
  ((pixelEnables b.enables i).1 != (pixelEnables b.enables i).2) && !m.lastRowPadding i

/-- The 16-bit pixel i of an alias beat, least significant byte at the lower offset (R11). -/
def aliasPixel (d : BeatData) (i : Nat) : Nat := d.toNat / 65536 ^ i % 65536

/-- The enables of a downstream beat whose two pixels are written or not (R12). -/
def pairEnables (lo hi : Bool) : Byte :=
  BitVec.ofNat 8 ((if lo then 0x0F else 0) + (if hi then 0xF0 else 0))

/-- The downstream beat for pixels i and i+1 of a mapped write beat (R12). -/
def Mapping.pairBeat (m : Mapping) (b : UpBeat) (i : Nat) : WriteBeat :=
  { addr := m.addr + 4 * i
    enables := pairEnables (m.writes b i) (m.writes b (i + 1))
    data := beatOf (pixelBytes (expandPixel m.format (aliasPixel b.data i)) ++
      pixelBytes (expandPixel m.format (aliasPixel b.data (i + 1)))) }

/-- An ALIAS_FAULT record: source, reason, upstream address and operand B; it names no output, so its frame counter
is 0 (R13, R14, R17, 9.4). -/
def aliasFault (source reason addr b : Nat) : Event :=
  { kind := .aliasFault, source := source, frame := 0, reason := reason, a := word addr, b := word b }

/-- What one upstream write beat becomes: its downstream beats and the event it raises, by the surface table as it
stands (R12 to R15, R145). -/
def State.convertWrite (s : State) (addr : Nat) (b : UpBeat) : List WriteBeat × List Event :=
  if addr < Config.aliasBase then ([{ addr := addr, enables := b.enables, data := b.data }], [])
  else
    match s.aliasMapping (addr - Config.aliasBase) with
    | none => ([], [aliasFault 255 strayCode addr b.enables.toNat])
    | some m =>
      ([m.pairBeat b 0, m.pairBeat b 2],
        if [0, 1, 2, 3].any (m.isPartial b) then [aliasFault m.surface partialCode addr b.enables.toNat] else [])

/-- What one upstream read beat becomes: its conversion, the downstream addresses, and the event it raises
(R16, R17, R145). -/
def State.convertRead (s : State) (addr : Nat) : ReadBeat × List Nat × List Event :=
  if addr < Config.aliasBase then (.direct, [addr], [])
  else
    match s.aliasMapping (addr - Config.aliasBase) with
    | none => (.stray, [], [aliasFault 255 strayCode addr 256])
    | some m => (.mapped m.surface m.format ([0, 1, 2, 3].map m.lastRowPadding), [m.addr, m.addr + 8], [])

/-- The 8-byte beat that a mapped alias read returns from its two downstream beats: four contracted pixels, those in
the padding of the last row 0 (R16). -/
def contractBeats (f : AliasFormat) (padding : List Bool) (lo hi : BeatData) : BeatData :=
  let pixel := fun (i : Nat) (c : Colour) => if padding.getD i false then 0 else contractPixel f c
  BitVec.ofNat 64 (pixel 0 (beatPixel lo false) + 0x10000 * pixel 1 (beatPixel lo true) +
    0x100000000 * pixel 2 (beatPixel hi false) + 0x1000000000000 * pixel 3 (beatPixel hi true))

/-! ### Surface entries (R3 to R5) -/

/-- The slot surfaces of a stream, in ring order (5.1). -/
def Stream.surfaces (x : Stream) : List Nat := x.positions.take x.count

/-- Surface i is a slot surface of stream k, whose state is other than STOPPED (R3 step 2). -/
def State.inUseBy (s : State) (i : Nat) (k : StreamId) : Bool :=
  (s.streams.get k).state != .stopped && (s.streams.get k).surfaces.contains i

/-- Two alias ranges share a byte (R3 step 11). -/
def rangesOverlap (b1 n1 b2 n2 : Nat) : Bool := decide (b1 < b2 + n2) && decide (b2 < b1 + n1)

/-- The lowest-numbered other BOUND surface whose alias range shares a byte with the new one (R3 step 11, R5). -/
def State.overlapping (s : State) (i base len : Nat) : Option Nat :=
  s.surfaces.toList.zipIdx.findSome? fun p =>
    match p.1.view with
    | none => none
    | some r =>
      if p.2 ≠ i ∧ p.1.geometry.bound ∧ rangesOverlap base len r.base (aliasLength p.1.geometry) then some p.2
      else none

/-- The checks of a surface entry that bind and unbind share: steps 1 and 2 of R3, with R5's operand B. -/
def State.surfaceChecks (s : State) (i : Nat) (e : SurfaceEntry) : List (Bool × (Reason × Nat)) :=
  [(decide (e.binding ≤ 1), (.format, 1)),
   (!s.inUseBy i .S0, (.inUse, 0)),
   (!s.inUseBy i .S1, (.inUse, 1))]

/-- Steps 3 to 10 of R3: the checks of a bind that look at the entry alone. -/
def bindChecks (e : SurfaceEntry) : List (Bool × (Reason × Nat)) :=
  let present := e.aliasCode != 0
  [(decide (e.formatCode = 1) || decide (e.formatCode = 2), (.format, 3)),
   (decide (e.aliasCode ≤ 2), (.format, 4)),
   (decide (e.base % 64 = 0), (.alignment, 5)),
   (!present || decide (e.aliasBase % 64 = 0), (.alignment, 6)),
   (decide (1 ≤ e.width) && decide (e.width ≤ 2048) && decide (1 ≤ e.height) && decide (e.height ≤ 2048),
     (.geometry, 7)),
   (decide (e.pitch % 64 = 0) && decide (e.width * 4 ≤ e.pitch) && decide (e.pitch ≤ 16384), (.geometry, 8)),
   (decide (e.base + e.pitch * (e.height - 1) + e.width * 4 ≤ Config.ringBase), (.geometry, 9)),
   (!present || decide (e.aliasBase + e.pitch / 2 * e.height ≤ Config.aliasBase), (.geometry, 10))]

/-- Step 11 of R3, with the index that R5 gives as operand B. -/
def State.overlapCheck (s : State) (i : Nat) (e : SurfaceEntry) : List (Bool × (Reason × Nat)) :=
  if e.aliasCode = 0 then []
  else
    match s.overlapping i e.aliasBase (e.pitch / 2 * e.height) with
    | none => []
    | some j => [(false, (.aliasOverlap, j))]

/-- The refusal of surface entry i, if a check of R3 fails. -/
def State.surfaceRefusal (s : State) (i : Nat) (e : SurfaceEntry) : Option (Reason × Nat) :=
  firstFailure (s.surfaceChecks i e ++
    (if e.binding = 0 then [] else bindChecks e ++ s.overlapCheck i e))

/-- The record that an applied surface entry writes (R4). -/
def SurfaceEntry.record (e : SurfaceEntry) : Surface :=
  if e.binding = 0 then .unbound
  else
    { geometry := { bound := true, base := e.base, pitch := e.pitch, width := e.width, height := e.height,
                    format := formatOf e.formatCode }
      view := aliasOf e.aliasCode e.aliasBase }

end Sys2Proof.Machine
end

