-- ==== Sys2Proof/Machine/Damage.lean ====
section
/-! DEFINITION. Chapter 2: the merge rule of a damage list (R23 to R25), the conversion of pixel rectangles (R22), and
the sources of damage (R27 to R33); and the destination rectangle of a layer (R40). -/

namespace Sys2Proof.Machine

/-! ### Rectangles of tiles (00_scope.md) -/

/-- Every tile of e is a tile of r. -/
def TileRect.contains (r e : TileRect) : Bool :=
  decide (r.c0 ≤ e.c0) && decide (e.c1 ≤ r.c1) && decide (r.r0 ≤ e.r0) && decide (e.r1 ≤ r.r1)

/-- The count of tiles of a rectangle. -/
def TileRect.area (r : TileRect) : Nat := (r.c1 + 1 - r.c0) * (r.r1 + 1 - r.r0)

/-- The smallest rectangle that contains both. -/
def TileRect.box (r e : TileRect) : TileRect :=
  { c0 := min r.c0 e.c0, c1 := max r.c1 e.c1, r0 := min r.r0 e.r0, r1 := max r.r1 e.r1 }

/-- A tile lies in a rectangle. -/
def TileRect.hasTile (r : TileRect) (t : Tile) : Bool :=
  decide (r.c0 ≤ t.col) && decide (t.col ≤ r.c1) && decide (r.r0 ≤ t.row) && decide (t.row ≤ r.r1)

/-- The tile columns of an active area (R19). -/
def Timing.cols (t : Timing) : Nat := (t.width + 15) / 16

/-- The tile rows of an active area (R19). -/
def Timing.rows (t : Timing) : Nat := (t.height + 15) / 16

/-- The rectangle covers every tile of a grid of so many columns and rows (R25). -/
def TileRect.coversGrid (r : TileRect) (cols rows : Nat) : Bool :=
  decide (r.c0 = 0) && decide (cols ≤ r.c1 + 1) && decide (r.r0 = 0) && decide (rows ≤ r.r1 + 1)

/-! ### The merge rule -/

/-- The growth of entry e for r: the bounding box's area less e's own (R24). -/
def growth (e r : TileRect) : Nat := (e.box r).area - e.area

/-- The position of the entry with the least growth, the lowest on a tie, counting from position i (R24). -/
def leastGrowthFrom (r : TileRect) : Nat → Nat → Nat → List TileRect → Nat
  | best, _, _, [] => best
  | best, least, i, e :: es =>
    if growth e r < least then leastGrowthFrom r i (growth e r) (i + 1) es
    else leastGrowthFrom r best least (i + 1) es

/-- The position of the entry the capacity merge chooses (R24). -/
def leastGrowth (r : TileRect) : List TileRect → Nat
  | [] => 0
  | e :: es => leastGrowthFrom r 0 (growth e r) 1 es

/-- The entries after the capacity merge places box at position p: every other entry that box contains is removed
(R24). -/
def mergeAt (box : TileRect) (p : Nat) (es : List TileRect) : List TileRect :=
  es.zipIdx.filterMap fun x => if x.2 = p then some box else if box.contains x.1 then none else some x.1

/-- The list after an entry has been placed: emptied with WHOLE set if the placed entry covers the area (R25). -/
def placed (cols rows : Nat) (r : TileRect) (es : List TileRect) : DamageList :=
  if r.coversGrid cols rows then .all else { entries := es, whole := false }

/-- Insertion of tile rectangle r (R23). -/
def DamageList.insert (cols rows : Nat) (r : TileRect) (l : DamageList) : DamageList :=
  if l.whole then l
  else if l.entries.any (·.contains r) then l
  else
    let kept := l.entries.filter fun e => !r.contains e
    if kept.length < Config.damagePlaces then placed cols rows r (kept ++ [r])
    else
      let p := leastGrowth r kept
      let box := (kept.getD p r).box r
      placed cols rows box (mergeAt box p kept)

/-- The tile rectangle of a pixel rectangle clipped to an active area of the given width and height; none if no pixel
remains (R22). -/
def clipTiles (width height : Nat) (x y : Int) (w h : Nat) : Option TileRect :=
  let x0 := max x 0
  let x1 := min (x + w - 1) ((width : Int) - 1)
  let y0 := max y 0
  let y1 := min (y + h - 1) ((height : Int) - 1)
  if x0 ≤ x1 ∧ y0 ≤ y1 then
    some { c0 := x0.toNat / 16, c1 := x1.toNat / 16, r0 := y0.toNat / 16, r1 := y1.toNat / 16 }
  else none

/-- A pixel rectangle inserted into the list of an output with the given active timing (R22, R23). -/
def DamageList.insertPixels (t : Timing) (x y : Int) (w h : Nat) (l : DamageList) : DamageList :=
  match clipTiles t.width t.height x y w h with
  | none => l
  | some r => l.insert t.cols t.rows r

/-- A source of damage hands a pixel rectangle to the list of d: taken while d is RUNNING or FROZEN (R21, R22). -/
def State.damagePixels (s : State) (d : OutputId) (x y : Int) (w h : Nat) : State :=
  if (s.outputState d).live then
    s.setDamage d { s.damage.get d with
      list := ((s.damage.get d).list.insertPixels (s.outputs.get d).active x y w h) }
  else s

/-! ### Layers as damage sees them -/

/-- A layer's destination rectangle is handed to the list of d (R30, R31, R32, R40). -/
def State.damageLayer (s : State) (d : OutputId) (l : Layer) : State :=
  s.damagePixels d l.dx l.dy (l.sw * l.mag) (l.sh * l.mag)

/-- The active layers of d, layer 0 first. -/
def State.activeLayers (s : State) (d : OutputId) : List Layer := (s.layers.get d).active.toList

/-- The destination rectangles of the enabled active layers of d that satisfy p, in ascending layer index. -/
def State.damageLayersOf (s : State) (d : OutputId) (p : Layer → Bool) : State :=
  (s.activeLayers d).foldl (fun t l => if l.enabled && p l then t.damageLayer d l else t) s

/-- The same for both outputs. -/
def State.damageLayers (s : State) (p : Layer → Bool) : State :=
  bothOutputs.foldl (fun t d => t.damageLayersOf d p) s

/-- The layers whose content is SURFACE i (R6). -/
def Layer.showsSurface (i : Nat) (l : Layer) : Bool := l.content == .surface && l.index == i

/-- The layers whose content is STREAM k (R31). -/
def Layer.showsStream (k : StreamId) (l : Layer) : Bool := l.content == .stream && l.index == streamNumber k

/-- The position of the slot of a stream that is SHOWN, if one is (R79). -/
def Stream.shownSlot (x : Stream) : Option Nat := x.slots.findIdx? fun sl => sl.state == .shown

/-- The surface of the slot of a stream that is SHOWN. -/
def Stream.shownSurface (x : Stream) : Option Nat :=
  match x.shownSlot with
  | none => none
  | some j => x.surfaces[j]?

/-- A layer shows surface i: by content SURFACE, or by content STREAM k when i is the surface of k's SHOWN slot
(R27). -/
def State.shows (s : State) (i : Nat) (l : Layer) : Bool :=
  l.enabled &&
    (l.showsSurface i ||
      bothStreams.any fun k => l.showsStream k && (s.streams.get k).shownSurface == some i)

/-! ### Write completions (R27, R28) -/

/-- The pixels of a surface that a beat touches, as column and row: those of its halves with an enabled byte in the
pixel area (R28). -/
def Geometry.touched (g : Geometry) (b : WriteBeat) : List (Nat × Nat) :=
  [[0, 1, 2, 3], [4, 5, 6, 7]].filterMap fun half =>
    (half.filter fun i => b.enables.getLsbD i).findSome? fun i =>
      (g.place (b.addr + i)).map fun p => (p.2 / 4, p.1)

/-- The screen rectangle that a layer maps touched pixels of one row to: left, top, width, height (R28). -/
def Layer.mapPixels (l : Layer) (touched : List (Nat × Nat)) : Option (Int × Int × Nat × Nat) :=
  match touched.filter (fun p => decide (l.sx ≤ p.1) && decide (p.1 < l.sx + l.sw) &&
      decide (l.sy ≤ p.2) && decide (p.2 < l.sy + l.sh)) with
  | [] => none
  | p :: ps =>
    let b := (ps.getLastD p).1
    some (l.dx + (p.1 - l.sx) * l.mag, l.dy + (p.2 - l.sy) * l.mag, (b + 1 - p.1) * l.mag, l.mag)

/-- A write beat in surface i mapped through one layer of d and inserted (R27, R28). -/
def State.damageThrough (s : State) (d : OutputId) (touched : List (Nat × Nat)) (l : Layer) : State :=
  match l.mapPixels touched with
  | none => s
  | some (x, y, w, h) => s.damagePixels d x y w h

/-- The layers of d that show surface i map the beat, in ascending layer index (R27). -/
def State.damageSurface (s : State) (d : OutputId) (b : WriteBeat) (i : Nat) : State :=
  if (s.geometryOf i).has b then
    (s.activeLayers d).foldl
      (fun t l => if s.shows i l then t.damageThrough d ((s.geometryOf i).touched b) l else t) s
  else s

/-- The damage tracker's notice of a completed PASS write beat: for each output, each surface the beat is in, in
ascending index (R27). -/
def State.damageNotice (s : State) (b : WriteBeat) : State :=
  bothOutputs.foldl (fun t d => (List.range 32).foldl (fun t i => t.damageSurface d b i) t) s

/-! ### Setting and clearing whole lists -/

/-- INVALIDATE d: the list emptied with WHOLE set while d is RUNNING or FROZEN, no effect otherwise (R33). -/
def State.invalidate (s : State) (d : OutputId) : State :=
  if (s.outputState d).live then s.setDamage d { s.damage.get d with list := .all } else s

/-- Both records of d emptied with WHOLE clear (R38). -/
def State.clearDamage (s : State) (d : OutputId) : State := s.setDamage d { list := .empty, previous := .empty }

/-- Both records of d emptied with WHOLE set, at the first entry into RUNNING (R34). -/
def State.wholeDamage (s : State) (d : OutputId) : State := s.setDamage d { list := .all, previous := .all }

end Sys2Proof.Machine
end

