-- ==== Sys2Proof/Machine/Streams.lean ====
section
/-! DEFINITION. Chapter 5: the stream entry (R80, R81), headers, arms and byte counts (R84 to R88), priming, pacing and
selection (R91 to R96), the stream commands (R90, R98 to R100) and the release of holds (R101). Each rule is a function
from a stream record to a stream record and the events it raises, in their order; `fc` is the frame counter of the
pacing output. -/

namespace Sys2Proof.Machine

/-! ### The status block's view of a stream (R103, 10.5) -/

/-- The eight counters in the order of the status block. -/
def StreamCounters.list (c : StreamCounters) : List Count :=
  [c.shown, c.dropped, c.underrun, c.short, c.overrun, c.lateWrite, c.outOfOrder, c.unarmedWrite]

/-- The 64 bytes of the status block of a stream (10.5). -/
def Stream.bytes (x : Stream) : List Byte :=
  [BitVec.ofNat 8 (streamStateCode x.state), BitVec.ofNat 8 x.count,
    BitVec.ofNat 8 (x.shownSlot.getD 0xFF), BitVec.ofNat 8 x.expected] ++
  littleEndian 4 x.tick.toNat ++ littleEndian 2 x.phase ++
  ([0, 1, 2, 3, 4, 5].map fun j =>
    match x.slots[j]? with
    | none => 0xFF
    | some sl => BitVec.ofNat 8 (slotStateCode sl.state)) ++
  (x.counters.list.flatMap fun c => littleEndian 2 c.toNat) ++ List.replicate 32 0

/-- Stream k replaced by a rule's outcome: its block is due if an item the block reports has changed (R103), and the
rule's events are raised in order. -/
def State.updateStream (s : State) (k : StreamId) (out : Stream × List Event) : State :=
  ((if out.1.bytes = (s.streams.get k).bytes then s else s.mark (·.markStream k)).setStream k out.1).raiseAll out.2

/-- The frame counter of the pacing output of stream k. -/
def State.pacingFrame (s : State) (k : StreamId) : Count := s.frameOf (s.streams.get k).pacing

/-! ### Events of a stream -/

/-- The seven stream conditions (R86). -/
inductive Condition where
  | dropped
  | underrun
  | short
  | overrun
  | lateWrite
  | outOfOrder
  | unarmedWrite
  deriving DecidableEq, Repr

/-- The code of a condition (R86). -/
def conditionCode : Condition → Nat
  | .dropped => 1
  | .underrun => 2
  | .short => 3
  | .overrun => 4
  | .lateWrite => 5
  | .outOfOrder => 6
  | .unarmedWrite => 7

/-- An event of stream k (9.4). -/
def streamEvent (kind : EventKind) (k : StreamId) (fc : Count) (reason : Nat) (a b : Word) : Event :=
  { kind := kind, source := streamNumber k, frame := fc, reason := reason, a := a, b := b }

/-- The counters after a condition, and its count after the increase (R86). -/
def StreamCounters.count (c : StreamCounters) : Condition → StreamCounters × Count
  | .dropped => ({ c with dropped := bump c.dropped }, bump c.dropped)
  | .underrun => ({ c with underrun := bump c.underrun }, bump c.underrun)
  | .short => ({ c with short := bump c.short }, bump c.short)
  | .overrun => ({ c with overrun := bump c.overrun }, bump c.overrun)
  | .lateWrite => ({ c with lateWrite := bump c.lateWrite }, bump c.lateWrite)
  | .outOfOrder => ({ c with outOfOrder := bump c.outOfOrder }, bump c.outOfOrder)
  | .unarmedWrite => ({ c with unarmedWrite := bump c.unarmedWrite }, bump c.unarmedWrite)

/-- A condition of slot j: its count grows and STREAM_CONDITION is raised (R86). -/
def Stream.condition (k : StreamId) (fc : Count) (c : Condition) (j : Nat) (x : Stream) : Stream × List Event :=
  ({ x with counters := (x.counters.count c).1 },
    [streamEvent .streamCondition k fc (conditionCode c) (word j) (word (x.counters.count c).2.toNat)])

/-- Slot j replaced. -/
def Stream.setSlot (x : Stream) (j : Nat) (sl : Slot) : Stream := { x with slots := x.slots.set j sl }

/-- Slot j, in another state, becomes FREE and raises SLOT_FREED with its former state; it keeps its header words,
frame header and byte count (R83). -/
def Stream.freeSlot (k : StreamId) (fc : Count) (j : Nat) (x : Stream) : Stream × List Event :=
  match x.slots[j]? with
  | none => (x, [])
  | some sl =>
    if sl.state = .free then (x, [])
    else (x.setSlot j { sl with state := .free },
      [streamEvent .slotFreed k fc 0 (word j) (word (slotStateCode sl.state))])

/-- A slot carries a hold (R71). -/
def Slot.held (sl : Slot) : Bool := sl.holds.A || sl.holds.B

/-- Slot j leaves its state: RETIRED if it carries a hold, FREE otherwise (R91, R95, R100). -/
def Stream.leaveSlot (k : StreamId) (fc : Count) (j : Nat) (x : Stream) : Stream × List Event :=
  match x.slots[j]? with
  | none => (x, [])
  | some sl => if sl.held then (x.setSlot j { sl with state := .retired }, []) else x.freeSlot k fc j

/-- A rule's outcome followed by another rule, the events one after the other. -/
def andThen (out : Stream × List Event) (f : Stream → Stream × List Event) : Stream × List Event :=
  ((f out.1).1, out.2 ++ (f out.1).2)

/-- The stream enters a state and raises STREAM_STATE (R78). -/
def Stream.enter (k : StreamId) (fc : Count) (st : StreamState) (x : Stream) : Stream × List Event :=
  ({ x with state := st },
    [streamEvent .streamState k fc 0 (word (streamStateCode st)) (word (streamStateCode x.state))])

/-! ### The stream entry (R80, R81) -/

/-- All the slot surfaces are BOUND (R80 step 6, R90 step 3). -/
def State.slotsBound (s : State) (slots : List Nat) : Bool := slots.all fun i => (s.geometryOf i).bound

/-- All the slot surfaces have equal width and equal height (R80 step 8, R90 step 3). -/
def State.slotsEqual (s : State) (slots : List Nat) : Bool :=
  match slots with
  | [] => true
  | i :: rest => rest.all fun j =>
      (s.geometryOf j).width == (s.geometryOf i).width && (s.geometryOf j).height == (s.geometryOf i).height

/-- No slot surface has a base below 64 (R80 step 9, R90 step 4). -/
def State.slotsBased (s : State) (slots : List Nat) : Bool := slots.all fun i => decide (64 ≤ (s.geometryOf i).base)

/-- The checks of stream entry k, with R80's step numbers. -/
def State.streamChecks (s : State) (k : StreamId) (e : StreamEntry) : List (Bool × (Reason × Nat)) :=
  let slots := e.positions.take e.count
  [((s.streams.get k).state == .stopped, (.badState, 1)),
   ((s.streams.get k).slots.all fun sl => sl.state != .retired, (.badState, 2)),
   (decide (e.pacing ≤ 1), (.format, 3)),
   (decide (2 ≤ e.count) && decide (e.count ≤ 6), (.range, 4)),
   (decide (1 ≤ e.rateN) && decide (e.rateN ≤ 120) && decide (1 ≤ e.rateD) && decide (e.rateD ≤ 120), (.range, 5)),
   (s.slotsBound slots, (.geometry, 6)),
   (decide slots.Nodup, (.geometry, 7)),
   (s.slotsEqual slots, (.geometry, 8)),
   (s.slotsBased slots, (.geometry, 9)),
   (slots.all fun i => !((s.streams.get (otherStream k)).surfaces.contains i), (.geometry, 10))]

/-- The stream record that an applied entry writes (R81); the counters keep their values. DEDUCED from R103: all six surface
positions are kept as written (log entry 15). -/
def StreamEntry.record (e : StreamEntry) (x : Stream) : Stream :=
  { state := .stopped, count := e.count, positions := e.positions, pacing := if e.pacing = 0 then .A else .B,
    rateN := min e.rateN e.rateD, rateD := e.rateD, phase := 0, tick := 0, expected := 0, counters := x.counters,
    slots := List.replicate e.count .fresh }

/-! ### Headers, arms and byte counts (R84 to R88) -/

/-- The address of word w of the header region of a slot on a surface with the given base: none where the region
would lie below address 0 (R84). -/
def headerWord (g : Geometry) (w : Nat) : Option Nat :=
  if 64 ≤ g.base then some (g.base - 64 + 4 * w) else none

/-- The value a beat writes into word w of the header region, with all four bytes enabled (R84). -/
def headerValue (g : Geometry) (b : WriteBeat) (w : Nat) : Option Word :=
  match headerWord g w with
  | none => none
  | some a => b.wordAt a

/-- The header words of a slot after a beat (R84). -/
def HeaderWords.capture (g : Geometry) (b : WriteBeat) (h : HeaderWords) : HeaderWords :=
  { frameNumber := (headerValue g b 0).getD h.frameNumber
    dueTick := (headerValue g b 1).getD h.dueTick
    flags := (headerValue g b 2).getD h.flags }

/-- The captures of a beat into every slot of a stream, in every state of it (R84). -/
def Stream.captures (geo : Nat → Geometry) (b : WriteBeat) (x : Stream) : Stream :=
  { x with slots := x.slots.mapIdx fun j sl =>
      match x.surfaces[j]? with
      | none => sl
      | some i => { sl with header := sl.header.capture (geo i) b } }

/-- The frame header that an arm takes from the header words: bit 0 of the flags is LAST, bit 1 DISCONTINUITY
(R85, 10.4). -/
def HeaderWords.frame (h : HeaderWords) : FrameHeader :=
  { frameNumber := h.frameNumber, dueTick := h.dueTick, last := h.flags.getLsbD 0,
    discontinuity := h.flags.getLsbD 1 }

/-- The next ring position after j (R85). -/
def Stream.nextPosition (x : Stream) (j : Nat) : Nat := if j + 1 < x.count then j + 1 else 0

/-- Any slot FILLING is discarded as SHORT and becomes FREE (R85 step 1; the condition first, as in 5.4's example). -/
def Stream.discardFilling (k : StreamId) (fc : Count) (x : Stream) : Stream × List Event :=
  match x.slots.findIdx? fun sl => sl.state == .filling with
  | none => (x, [])
  | some i => andThen (x.condition k fc .short i) (·.freeSlot k fc i)

/-- Slot j becomes FILLING with byte count 0 and its frame header taken, and the expected arm slot advances
(R85 steps 2 and 3). -/
def Stream.openSlot (j : Nat) (x : Stream) : Stream :=
  match x.slots[j]? with
  | none => x
  | some sl =>
    { x.setSlot j { sl with state := .filling, byteCount := 0, frame := sl.header.frame, lateSeen := false,
                            unarmedSeen := false } with
      expected := x.nextPosition j }

/-- An arm of slot j (R85). -/
def Stream.arm (k : StreamId) (fc : Count) (j : Nat) (x : Stream) : Stream × List Event :=
  if x.state = .stopped then (x, [])
  else if j ≠ x.expected then x.condition k fc .outOfOrder j
  else
    match x.slots[j]? with
    | none => (x, [])
    | some sl =>
      if sl.state ≠ .free then x.condition k fc .overrun j
      else andThen (x.discardFilling k fc) fun y => (y.openSlot j, [])

/-- n bytes of a beat land in slot j of a stream that is not STOPPED (R87, R88). -/
def Stream.land (k : StreamId) (fc : Count) (frameSize j n : Nat) (x : Stream) : Stream × List Event :=
  match x.slots[j]? with
  | none => (x, [])
  | some sl =>
    if n = 0 then (x, [])
    else
      match sl.state with
      | .filling =>
        (x.setSlot j { sl with byteCount := sl.byteCount + n,
                               state := if frameSize ≤ sl.byteCount + n then .ready else .filling }, [])
      | .free =>
        if sl.unarmedSeen then (x, [])
        else (x.setSlot j { sl with unarmedSeen := true }).condition k fc .unarmedWrite j
      | .ready | .shown | .retired =>
        if sl.lateSeen then (x, [])
        else (x.setSlot j { sl with lateSeen := true }).condition k fc .lateWrite j

/-- One change that a beat makes to a stream, with its events. -/
abbrev StreamRule := Stream → Stream × List Event

/-- The number of bytes of a beat for a slot on a surface with the given geometry (R87). -/
def slotBytes (g : Geometry) (b : WriteBeat) : Nat := (g.bytesIn b).length

/-- The frame size of a slot on a surface with the given geometry (R82). -/
def frameSize (g : Geometry) : Nat := g.width * g.height * 4

/-- The bytes of a beat for every slot, in ascending slot position; none in STOPPED (R87, R88). -/
def Stream.landings (geo : Nat → Geometry) (k : StreamId) (fc : Count) (b : WriteBeat) (x : Stream) :
    List StreamRule :=
  if x.state = .stopped then []
  else x.surfaces.zipIdx.map fun p => Stream.land k fc (frameSize (geo p.1)) p.2 (slotBytes (geo p.1) b)

/-- The arms that a beat carries, in ascending slot position (R84, R85). -/
def Stream.armings (geo : Nat → Geometry) (k : StreamId) (fc : Count) (b : WriteBeat) (x : Stream) :
    List StreamRule :=
  (x.surfaces.zipIdx.filter fun p => (headerValue (geo p.1) b 3).isSome).map fun p => Stream.arm k fc p.2

/-- One stream's notice of a completed PASS write beat: the captures, then the bytes, then the arms, one after the other
(R84). -/
def Stream.noticeRules (geo : Nat → Geometry) (k : StreamId) (fc : Count) (b : WriteBeat) (x : Stream) :
    List StreamRule :=
  (fun y => (y.captures geo b, [])) :: (x.landings geo k fc b ++ x.armings geo k fc b)

/-- Rules taken by stream k one after the other; each that changes a reported item makes its block due (R103). -/
def State.runStream (s : State) (k : StreamId) (rules : List StreamRule) : State :=
  rules.foldl (fun t f => t.updateStream k (f (t.streams.get k))) s

/-- The notice of a completed PASS write beat by stream k. -/
def State.noticeBy (s : State) (b : WriteBeat) (k : StreamId) : State :=
  s.runStream k ((s.streams.get k).noticeRules s.geometryOf k (s.pacingFrame k) b)

/-- The stream unit's notice of a completed PASS write beat, stream 0 first (log entry 18). -/
def State.streamNotice (s : State) (b : WriteBeat) : State := bothStreams.foldl (fun t k => t.noticeBy b k) s

/-! ### Search order and selection (R82, R91 to R96) -/

/-- The ring positions in search order (R82). -/
def Stream.searchOrder (x : Stream) : List Nat :=
  match x.shownSlot with
  | some j => (List.range (x.count - 1)).map fun i => (j + 1 + i) % x.count
  | none => (List.range x.count).map fun i => (x.expected + i) % x.count

/-- The READY slots in search order. -/
def Stream.readySlots (x : Stream) : List Nat :=
  x.searchOrder.filter fun j => (x.slots[j]?.map (·.state)) == some .ready

/-- The frame header of slot j. -/
def Stream.frameOf (x : Stream) (j : Nat) : FrameHeader :=
  match x.slots[j]? with
  | none => ⟨0, 0, false, false⟩
  | some sl => sl.frame

/-- Slot j becomes SHOWN, and the shown count grows (R91 step 2, R95 step 2). -/
def Stream.makeShown (j : Nat) (x : Stream) : Stream :=
  match x.slots[j]? with
  | none => x
  | some sl =>
    { x.setSlot j { sl with state := .shown } with counters := { x.counters with shown := bump x.counters.shown } }

/-- The SHOWN slot, if any, leaves that state (R91 step 1, R95 step 1). -/
def Stream.leaveShown (k : StreamId) (fc : Count) (x : Stream) : Stream × List Event :=
  match x.shownSlot with
  | none => (x, [])
  | some i => x.leaveSlot k fc i

/-- Slot j is shown: the former SHOWN slot leaves, j becomes SHOWN, FRAME_SHOWN is raised (R91, R95). -/
def Stream.show (k : StreamId) (fc : Count) (j : Nat) (x : Stream) : Stream × List Event :=
  andThen (x.leaveShown k fc) fun y =>
    (y.makeShown j, [streamEvent .frameShown k fc 0 (word j) (y.frameOf j).frameNumber])

/-- Priming shows slot j: T becomes its due tick, P 0, and the stream RUNNING (R91). -/
def Stream.prime (k : StreamId) (fc : Count) (j : Nat) (x : Stream) : Stream × List Event :=
  andThen (Stream.show k fc j { x with tick := (x.frameOf j).dueTick, phase := 0 }) (·.enter k fc .running)

/-- A slot is a candidate when T minus its due tick, as a signed 32-bit number, is 0 or more (R94). -/
def Stream.isDue (x : Stream) (j : Nat) : Bool := !(x.tick - (x.frameOf j).dueTick).msb

/-- The candidates of a tick advance, in search order (R94). -/
def Stream.candidates (x : Stream) : List Nat := x.readySlots.filter x.isDue

/-- The candidate with the least difference, the one met last on a tie (R94). -/
def Stream.newestFrom (x : Stream) : Nat → List Nat → Nat
  | best, [] => best
  | best, j :: js =>
    if (x.tick - (x.frameOf j).dueTick).toNat ≤ (x.tick - (x.frameOf best).dueTick).toNat then
      Stream.newestFrom x j js
    else Stream.newestFrom x best js

/-- The candidate a tick advance chooses, if there is one (R94). -/
def Stream.newest (x : Stream) : Option Nat :=
  match x.candidates with
  | [] => none
  | j :: js => some (x.newestFrom j js)

/-- A READY slot is dropped: DROPPED and then SLOT_FREED (R94). -/
def Stream.dropSlot (k : StreamId) (fc : Count) (j : Nat) (x : Stream) : Stream × List Event :=
  andThen (x.condition k fc .dropped j) (·.freeSlot k fc j)

/-- Every candidate but the chosen one is dropped, in search order (R94). -/
def Stream.dropOthers (k : StreamId) (fc : Count) (chosen : Nat) (js : List Nat) (x : Stream) :
    Stream × List Event :=
  js.foldl (fun out j => if j = chosen then out else andThen out (·.dropSlot k fc j)) (x, [])

/-- The first READY slot in search order carries DISCONTINUITY (R93). -/
def Stream.discontinuity (x : Stream) : Option Nat :=
  match x.readySlots with
  | [] => none
  | j :: _ => if (x.frameOf j).discontinuity then some j else none

/-- The SHOWN frame carries LAST (R96). -/
def Stream.shownLast (x : Stream) : Bool :=
  match x.shownSlot with
  | none => false
  | some j => (x.frameOf j).last

/-- The outcome of a rule at an epoch, with whether the SHOWN slot has changed (R31). -/
structure EpochOut where
  stream : Stream
  events : List Event
  shownChanged : Bool
  deriving DecidableEq, Repr

/-- An outcome in which the SHOWN slot changed, or not. -/
def epochOut (out : Stream × List Event) (changed : Bool) : EpochOut := ⟨out.1, out.2, changed⟩

/-- A tick advance with no candidate (R96). -/
def Stream.noCandidate (k : StreamId) (fc : Count) (x : Stream) : Stream × List Event :=
  if x.readySlots = [] then
    if x.shownLast then x.enter k fc .ended else x.condition k fc .underrun (x.shownSlot.getD 0)
  else (x, [])

/-- The selection of a tick advance (R93 to R96). -/
def Stream.select (k : StreamId) (fc : Count) (x : Stream) : EpochOut :=
  match x.discontinuity with
  | some j => epochOut (Stream.show k fc j { x with tick := (x.frameOf j).dueTick }) true
  | none =>
    match x.newest with
    | some j => epochOut (andThen (x.dropOthers k fc j x.candidates) (Stream.show k fc j)) true
    | none => epochOut (x.noCandidate k fc) false

/-- The phase and tick after an epoch in RUNNING (R92). -/
def Stream.advance (x : Stream) : Stream :=
  if x.rateD ≤ x.phase + x.rateN then
    { x with phase := x.phase + x.rateN - x.rateD, tick := x.tick + 1 }
  else { x with phase := x.phase + x.rateN }

/-- A stream's reaction to an epoch of its pacing output (R91, R92). -/
def Stream.epoch (k : StreamId) (fc : Count) (x : Stream) : EpochOut :=
  match x.state with
  | .priming =>
    match x.readySlots with
    | [] => epochOut (x, []) false
    | j :: _ => epochOut (x.prime k fc j) true
  | .running =>
    if x.rateD ≤ x.phase + x.rateN then x.advance.select k fc else epochOut (x.advance, []) false
  | .stopped | .paused | .ended => epochOut (x, []) false

/-- The layers of either output whose content is STREAM k are damaged (R31). -/
def State.damageStream (s : State) (k : StreamId) : State := s.damageLayers (Layer.showsStream k)

/-- The stream unit's reaction for stream k to an epoch of output d (R91, R92, R97). -/
def State.streamEpoch (s : State) (d : OutputId) (k : StreamId) : State :=
  if (s.streams.get k).pacing = d then
    let out := (s.streams.get k).epoch k (s.pacingFrame k)
    let t := s.updateStream k (out.stream, out.events)
    if out.shownChanged then t.damageStream k else t
  else s

/-! ### Stream commands (R90, R98 to R100) -/

/-- The checks of STREAM_START, with R90's step numbers. -/
def State.startChecks (s : State) (k : StreamId) : List (Bool × (Reason × Nat)) :=
  let x := s.streams.get k
  [(x.state == .stopped || x.state == .ended, (.badState, 1)),
   (decide (2 ≤ x.count) && decide (x.count ≤ 6), (.range, 2)),
   (s.slotsBound x.surfaces && s.slotsEqual x.surfaces, (.geometry, 3)),
   (s.slotsBased x.surfaces, (.geometry, 4))]

/-- A stream as STREAM_START takes it to PRIMING (R90). -/
def Stream.start (k : StreamId) (fc : Count) (x : Stream) : Stream × List Event :=
  Stream.enter k fc .priming
    (if x.state = .stopped then
      { x with expected := 0, tick := 0, phase := 0,
               slots := x.slots.map fun sl => { sl with lateSeen := false, unarmedSeen := false } }
    else x)

/-- STREAM_STOP of a stream that is not STOPPED: each slot that is not FREE becomes RETIRED if held and FREE
otherwise, in ring position; then the stream is STOPPED (R100). -/
def Stream.stop (k : StreamId) (fc : Count) (x : Stream) : Stream × List Event :=
  (List.range x.slots.length).foldl
    (fun out j => if (out.1.slots[j]?.map (·.state)) == some .free then out else andThen out (·.leaveSlot k fc j))
    (x, [])

/-! ### Holds (R71, R72, R101) -/

/-- A hold of d placed on slot j, or removed. -/
def Stream.setHold (d : OutputId) (j : Nat) (on : Bool) (x : Stream) : Stream :=
  match x.slots[j]? with
  | none => x
  | some sl => x.setSlot j { sl with holds := sl.holds.set d on }

/-- The hold of d on slot j is released: a RETIRED slot with no hold left becomes FREE (R72, R101). -/
def Stream.releaseHold (k : StreamId) (fc : Count) (d : OutputId) (j : Nat) (x : Stream) : Stream × List Event :=
  let y := x.setHold d j false
  match y.slots[j]? with
  | none => (y, [])
  | some sl => if sl.state = .retired ∧ sl.held = false then y.freeSlot k fc j else (y, [])

/-- The holds of a composition of d are released, in the order its record lists them (R72). -/
def State.releaseHolds (s : State) (d : OutputId) (names : List SlotName) : State :=
  names.foldl
    (fun t n => t.updateStream n.stream ((t.streams.get n.stream).releaseHold n.stream (t.pacingFrame n.stream) d n.slot))
    s

/-- A hold of d is placed on each slot named (R71). -/
def State.placeHolds (s : State) (d : OutputId) (names : List SlotName) : State :=
  names.foldl (fun t n => t.setStream n.stream ((t.streams.get n.stream).setHold d n.slot true)) s

end Sys2Proof.Machine
end

