-- ==== Sys2Proof/Machine/Compositor.lean ====
section
/-! DEFINITION. Chapter 4: buffers (R55), the epoch's flip, missed flip and composition start (R58 to R62), the tile walk
and the engine (R64 to R67, R70), pixel arithmetic (R68, R69), abandonment (R73). -/

namespace Sys2Proof.Machine

/-! ### Buffers (R55) -/

/-- The pitch of an output's buffers: the active width × 4 rounded up to a multiple of 64 (R55). -/
def Timing.pitch (t : Timing) : Nat := (t.width * 4 + 63) / 64 * 64

/-- The base of buffer b (R55). -/
def Timing.bufferBase (t : Timing) (b : Fin 2) : Nat := if b = 0 then t.buffer0 else t.buffer1

/-- The back index: 1 minus the front index (4.1). -/
def CompOutput.back (c : CompOutput) : Fin 2 := 1 - c.front

/-- The active timing of d. -/
def State.timing (s : State) (d : OutputId) : Timing := (s.outputs.get d).active

/-! ### Events of an output -/

/-- An event whose source is output d, with its frame counter as it stands (9.4). -/
def State.outputEvent (s : State) (kind : EventKind) (d : OutputId) (reason : Nat) (a b : Word) : Event :=
  { kind := kind, source := outputNumber d, frame := s.frameOf d, reason := reason, a := a, b := b }

/-! ### Starting a composition (R61, R62, R71) -/

/-- A damage record holds something stale (R58 step 3). -/
def DamageList.stale (l : DamageList) : Bool := l.whole || !l.entries.isEmpty

/-- A tile is stale by a damage record (R61). -/
def DamageList.covers (l : DamageList) (t : Tile) : Bool := l.whole || l.entries.any (·.hasTile t)

/-- Every tile of the active area, in walk order: rows from the top, columns from the left (R64). -/
def Timing.walk (t : Timing) : List Tile :=
  (List.range t.rows).flatMap fun r => (List.range t.cols).map fun c => { col := c, row := r }

/-- The region of a composition in walk order: the union of the two records' tiles, each once (R61, R64). -/
def region (t : Timing) (dm : Damage) : List Tile :=
  t.walk.filter fun x => dm.list.covers x || dm.previous.covers x

/-- The slot that stream k shows, by name (R62). -/
def State.shownName (s : State) (k : StreamId) : Option SlotName :=
  ((s.streams.get k).shownSlot).map fun j => { stream := k, slot := j }

/-- The stream that a layer's content index names. -/
def streamOfIndex (i : Nat) : StreamId := if i = 0 then .S0 else .S1

/-- The stream frame of a layer: the SHOWN slot of its stream for an enabled STREAM layer, none otherwise (R62). -/
def State.layerFrame (s : State) (l : Layer) : Option SlotName :=
  if l.enabled && l.content == .stream then s.shownName (streamOfIndex l.index) else none

/-- The geometry of the surface of a slot (R62). -/
def State.slotGeometry (s : State) (n : SlotName) : Option Geometry :=
  ((s.streams.get n.stream).surfaces[n.slot]?).map s.geometryOf

/-- The source geometry of a layer (R62): the surface record's, the shown slot's, or none. -/
def State.layerSource (s : State) (l : Layer) : Option Geometry :=
  if l.enabled then
    match l.content with
    | .solid => none
    | .surface => some (s.geometryOf l.index)
    | .stream =>
      match s.layerFrame l with
      | none => none
      | some n => s.slotGeometry n
  else none

/-- The distinct slots recorded as stream frames (R62, R71). -/
def holdsOf (frames : List (Option SlotName)) : List SlotName :=
  frames.foldl (fun hs f => match f with
    | none => hs
    | some n => if hs.contains n then hs else hs ++ [n]) []

/-- The composition record that a start creates (R61, R62). -/
def State.newComposition (s : State) (d : OutputId) : Composition :=
  { region := region (s.timing d) (s.damage.get d)
    next := 0
    inProgress := none
    layers := (s.layers.get d).active
    sources := (s.layers.get d).active.map s.layerSource
    frames := (s.layers.get d).active.map s.layerFrame
    holds := holdsOf ((s.layers.get d).active.map s.layerFrame).toList }

/-- A composition of d starts: the record is made, the list moves into the previous snapshot and the holds are
placed (R20, R61, R71). -/
def State.startComposition (s : State) (d : OutputId) : State :=
  let c := s.newComposition d
  ((s.setDamage d { list := .empty, previous := (s.damage.get d).list }).setComp d
    { s.comp.get d with composition := some c }).placeHolds d c.holds

/-- The flip of d: the roles exchange, the awaiting and blank flags clear, FLIP is raised (R59, R121, R123). -/
def State.flip (s : State) (d : OutputId) : State :=
  let c := s.comp.get d
  (((s.setComp d { c with front := c.back, awaiting := false }).setOutput d
      { s.outputs.get d with blank := false }).markOutput d).raise
    (s.outputEvent .flip d 0 (word c.back.val) (word c.completedSize))

/-- The number of tiles of a region not yet completed, counting the tile in progress (R60). -/
def Composition.left (k : Composition) : Nat :=
  k.region.length - k.next + (if k.inProgress.isSome then 1 else 0)

/-- A missed flip of d (R60, R123). -/
def State.flipMissed (s : State) (d : OutputId) (k : Composition) : State :=
  let c := s.comp.get d
  ((s.setComp d { c with missed := bump c.missed }).markOutput d).raise
    (s.outputEvent .flipMissed d 0 (word k.left) (word (bump c.missed).toNat))

/-- Step 2 of R58. -/
def State.flipIfAwaiting (s : State) (d : OutputId) : State := if (s.comp.get d).awaiting then s.flip d else s

/-- Step 3 of R58. -/
def State.startIfStale (s : State) (d : OutputId) : State :=
  if (s.damage.get d).list.stale || (s.damage.get d).previous.stale then s.startComposition d else s

/-- The compositor's reaction to a frame epoch of d (R58): nothing in FROZEN. -/
def State.compositorEpoch (s : State) (d : OutputId) : State :=
  if s.outputState d = .running then
    match (s.comp.get d).composition with
    | some k => s.flipMissed d k
    | none => (s.flipIfAwaiting d).startIfStale d
  else s

/-! ### Source pixels (R68) -/

/-- The source column, or row, that a layer shows at a screen column, or row: none outside the destination
rectangle (R68). -/
def sourceAt (dest : Int) (src len mag p : Nat) : Option Nat :=
  if dest ≤ (p : Int) ∧ (p : Int) < dest + ((len * mag : Nat) : Int) then
    some (src + ((p : Int) - dest).toNat / mag)
  else none

/-- The source pixel of a layer at a screen pixel, inside its destination rectangle (R68). -/
def Layer.sourcePixel (l : Layer) (px py : Nat) : Option (Nat × Nat) :=
  match sourceAt l.dx l.sx l.sw l.mag px, sourceAt l.dy l.sy l.sh l.mag py with
  | some x, some y => some (x, y)
  | _, _ => none

/-- The screen columns of a tile inside the active area. -/
def Timing.tileCols (t : Timing) (x : Tile) : List Nat :=
  (List.range 16).filterMap fun i => if 16 * x.col + i < t.width then some (16 * x.col + i) else none

/-- The screen rows of a tile inside the active area. -/
def Timing.tileRows (t : Timing) (x : Tile) : List Nat :=
  (List.range 16).filterMap fun i => if 16 * x.row + i < t.height then some (16 * x.row + i) else none

/-- A list of rising numbers without its repeats. -/
def distinct : List Nat → List Nat
  | [] => []
  | a :: as => if as.head? = some a then distinct as else a :: distinct as

/-- The source columns a layer needs in a tile: those within the source's width (R68). -/
def neededCols (t : Timing) (x : Tile) (l : Layer) (g : Geometry) : List Nat :=
  distinct (((t.tileCols x).filterMap (sourceAt l.dx l.sx l.sw l.mag)).filter fun c => decide (c < g.width))

/-- The source rows a layer needs in a tile: those within the source's height (R68). -/
def neededRows (t : Timing) (x : Tile) (l : Layer) (g : Geometry) : List Nat :=
  distinct (((t.tileRows x).filterMap (sourceAt l.dy l.sy l.sh l.mag)).filter fun r => decide (r < g.height))

/-- The addresses of the n beats from address a on. -/
def beatRun (a n : Nat) : List Nat := (List.range n).map fun i => a + 8 * i

/-- The beats that hold the bytes from first to last. -/
def beatsSpanning (first last : Nat) : List Nat := beatRun (first / 8 * 8) (last / 8 + 1 - first / 8)

/-- The read requests of one layer of a tile: one for each source row, from the top (R65). -/
def layerReads (t : Timing) (x : Tile) (i : Nat) (l : Layer) (g : Geometry) : List TileRead :=
  match neededCols t x l g with
  | [] => []
  | c :: cs =>
    (neededRows t x l g).map fun r =>
      { layer := i, addrs := beatsSpanning (g.pixelAddr c r) (g.pixelAddr (cs.getLastD c) r) }

/-- The reads of a tile: layer by layer in ascending layer index (R65, log entry 14). -/
def tileReads (t : Timing) (x : Tile) (k : Composition) : List TileRead :=
  (k.layers.toList.zip k.sources.toList).zipIdx.flatMap fun p =>
    match p.1.2 with
    | none => []
    | some g => if p.1.1.enabled then layerReads t x p.2 p.1.1 g else []

/-! ### Pixel arithmetic (R69) -/

/-- The effective alpha of a BLEND layer (R69). -/
def effectiveAlpha (pa opacity : Nat) : Nat := (pa * opacity + 127) / 255

/-- One blended channel: s over d with effective alpha a (R69). -/
def blendChannel (s d a : Nat) : Nat := (s * a + d * (255 - a) + 127) / 255

/-- A layer's source colour applied to the working colour (R69). -/
def Layer.apply (l : Layer) (source : Rgb) (pa : Nat) (under : Rgb) : Rgb :=
  match l.blend with
  | .copy => source
  | .blend =>
    let a := effectiveAlpha pa l.opacity.toNat
    { red := BitVec.ofNat 8 (blendChannel source.red.toNat under.red.toNat a)
      green := BitVec.ofNat 8 (blendChannel source.green.toNat under.green.toNat a)
      blue := BitVec.ofNat 8 (blendChannel source.blue.toNat under.blue.toNat a) }

/-- The red, green and blue of a colour. -/
def Colour.rgb (c : Colour) : Rgb := { red := c.red, green := c.green, blue := c.blue }

/-- The stored pixel at address a as the reads of layer i returned it. -/
def readPixel (data : List TileData) (i a : Nat) : Colour :=
  match data.find? fun x => x.layer == i && x.addr == a / 8 * 8 with
  | none => ⟨0, 0, 0, 0⟩
  | some x => beatPixel x.data (decide (a % 8 = 4))

/-- The source colour and pixel alpha of layer i at a screen pixel, when it contributes (R68). -/
def contribution (data : List TileData) (i : Nat) (l : Layer) (g : Option Geometry) (px py : Nat) :
    Option (Rgb × Nat) :=
  if l.enabled then
    match l.sourcePixel px py with
    | none => none
    | some (x, y) =>
      match l.content, g with
      | .solid, _ => some (l.colour.rgb, l.colour.alpha.toNat)
      | .surface, some g | .stream, some g =>
        if x < g.width ∧ y < g.height then
          let c := readPixel data i (g.pixelAddr x y)
          some (c.rgb, if g.format = .xrgb32 then 255 else c.alpha.toNat)
        else none
      | .surface, none | .stream, none => none
  else none

/-- The composed colour of a screen pixel: the background, then each layer from 0 up (R69). -/
def composePixel (t : Timing) (k : Composition) (data : List TileData) (px py : Nat) : Rgb :=
  (k.layers.toList.zip k.sources.toList).zipIdx.foldl
    (fun under p =>
      match contribution data p.2 p.1.1 p.1.2 px py with
      | none => under
      | some (source, pa) => p.1.1.apply source pa under) t.background.rgb

/-- The four bytes of a composed pixel: blue, green, red and the alpha byte 255 (R55, R69). -/
def composedBytes (c : Rgb) : List Byte := [c.blue, c.green, c.red, 255]

/-- A run of pixels as write beats from an 8-byte-aligned address; an odd last pixel fills half a beat (R66). -/
def rowBeats (addr : Nat) : List Rgb → List WriteBeat
  | [] => []
  | [c] => [{ addr := addr, enables := 0x0F, data := beatOf (composedBytes c ++ [0, 0, 0, 0]) }]
  | c :: e :: rest =>
    { addr := addr, enables := 0xFF, data := beatOf (composedBytes c ++ composedBytes e) } ::
      rowBeats (addr + 8) rest

/-- The write requests of a tile: one for each tile row inside the active area, top row first (R65, R66). -/
def tileWrites (t : Timing) (base : Nat) (x : Tile) (k : Composition) (data : List TileData) :
    List (List WriteBeat) :=
  (t.tileRows x).map fun py =>
    rowBeats (base + py * t.pitch + 64 * x.col) ((t.tileCols x).map fun px => composePixel t k data px py)

/-! ### The engine (R65, R67, R70) -/

/-- The composition of d has a tile not yet taken (R70). -/
def State.hasTile (s : State) (d : OutputId) : Bool :=
  match (s.comp.get d).composition with
  | none => false
  | some k => decide (k.next < k.region.length)

/-- The output whose tile the free engine takes next (R70). -/
def State.tileTurn (s : State) : Option OutputId :=
  if s.hasTile s.turn then some s.turn
  else if s.hasTile (otherOutput s.turn) then some (otherOutput s.turn)
  else none

/-- The row writes of a job, formed once every read of its tile has returned (R65). -/
def State.formWrites (s : State) (j : Job) : Job :=
  match (s.comp.get j.output).composition with
  | some k =>
    if j.live ∧ j.reads = [] ∧ j.readsOut = 0 then
      let base := (s.timing j.output).bufferBase (s.comp.get j.output).back
      { j with writes := tileWrites (s.timing j.output) base j.tile k j.data }
    else j
  | none => j

/-- The engine takes the next tile of the composition of d (R64, R65, R70). -/
def State.takeTile (s : State) (d : OutputId) : State :=
  match (s.comp.get d).composition with
  | none => s
  | some k =>
    match k.region[k.next]? with
    | none => s
    | some x =>
      let k' := { k with next := k.next + 1, inProgress := some x }
      let t := { s.setComp d { s.comp.get d with composition := some k' } with turn := otherOutput d }
      { t with job := some (t.formWrites
          { output := d, tile := x, live := true, reads := tileReads (s.timing d) x k', readsOut := 0, data := [],
            writes := [], writesOut := 0 }) }

/-- TILE_TAKE: the free engine takes a tile, if a composition has one (R65, R70). -/
def State.tileTake (s : State) : State :=
  match s.job, s.tileTurn with
  | none, some d => s.takeTile d
  | _, _ => s

/-- The composition of d ends: its holds are released, its size kept, its record removed, and it awaits the flip
(R67). -/
def State.endComposition (s : State) (d : OutputId) (k : Composition) : State :=
  (s.setComp d { s.comp.get d with composition := none, completedSize := k.region.length, awaiting := true }).releaseHolds
    d k.holds

/-- A tile of the composition of d completes: it stops being the tile in progress, and the last one ends the
composition (R65, R67). -/
def State.completeTile (s : State) (d : OutputId) : State :=
  match (s.comp.get d).composition with
  | none => s
  | some k =>
    if k.region.length ≤ k.next then s.endComposition d k
    else s.setComp d { s.comp.get d with composition := some { k with inProgress := none } }

/-- Nothing of the job is outstanding. -/
def Job.idle (j : Job) : Bool := j.readsOut == 0 && j.writesOut == 0

/-- Every request of the job has been issued and has completed. -/
def Job.done (j : Job) : Bool := j.idle && j.reads.isEmpty && j.writes.isEmpty

/-- The composition of d is abandoned: the record goes, its holds are released, the tile in hand is given up, and a
finished composition that has not flipped is dropped (R73). -/
def State.abandon (s : State) (d : OutputId) : State :=
  let c := s.comp.get d
  let t := s.setComp d { c with composition := none, awaiting := false, completedSize := 0 }
  let u := match s.job with
    | none => t
    | some j =>
      if j.output = d then
        { t with job := if j.idle then none else some { j with live := false, reads := [], writes := [] } }
      else t
  match c.composition with
  | none => u
  | some k => u.releaseHolds d k.holds

end Sys2Proof.Machine
end

