-- ==== Sys2Proof/Machine/Links.lean ====
section
/-! DEFINITION. Chapter 7: the link controller. Each rule is a function from a link record to a link record and the
LINK_STATE events it raises, in their order; `d` is the output that the link serves and `fc` its frame counter. -/

namespace Sys2Proof.Machine

/-- A link record after a rule, and the events the rule raised. -/
abbrev LinkOut := Link × List Event

/-- A rule's outcome followed by another rule, the events one after the other. -/
def linkThen (out : LinkOut) (f : Link → LinkOut) : LinkOut := ((f out.1).1, out.2 ++ (f out.1).2)

/-- A LINK_STATE record: the new state and the former one (R127). -/
def linkStateEvent (d : OutputId) (fc : Count) (reason : Nat) (new former : LinkState) : Event :=
  { kind := .linkState, source := outputNumber d, frame := fc, reason := reason, a := word (linkStateCode new),
    b := word (linkStateCode former) }

/-- The link is brought up or being brought up: it sends HALT when stopped, and receives (R126, R140). -/
def LinkState.up : LinkState → Bool
  | .announcing => true
  | .configuring => true
  | .normal => true
  | .replay => true
  | .down => false
  | .error => false

/-- The link carries lines: NORMAL or REPLAY (R133, R134, R135). -/
def LinkState.carries : LinkState → Bool
  | .normal => true
  | .replay => true
  | _ => false

/-- A message sent on the pair to the panel, behind every message before it; `Link.pairBits` gives its bits. -/
def Link.send (bytes : List Byte) (l : Link) : Link := { l with sent := l.sent ++ [bytes] }

/-- What has gone over the pair, bit by bit: the messages in the order sent, the bytes of each in order, each byte most
significant bit first (R172). -/
def Link.pairBits (l : Link) : List Bool := l.sent.flatMap messageBits

/-- The link enters another state: LINK_STATE, and the stable flag cleared on leaving NORMAL; entering the state it is
in is no change (R127, R141). -/
def Link.enter (d : OutputId) (fc : Count) (st : LinkState) (l : Link) : LinkOut :=
  if l.state = st then (l, [])
  else ({ l with state := st, stable := l.stable && l.state != .normal }, [linkStateEvent d fc 0 st l.state])

/-- The retry buffer emptied, the next sequence number 0, the replay pointer and end none (R138, R139, R140). -/
def Link.clearLines (l : Link) : Link := { l with buffer := [], nextSeq := 0, pointer := none, replayEnd := none }

/-! ### Entry into ANNOUNCING, ERROR and DOWN -/

/-- Entry into ANNOUNCING: ANNOUNCE sent at once, announce count 1, bring-up timer 0 (R129). -/
def Link.announce (d : OutputId) (fc : Count) (l : Link) : LinkOut :=
  Link.enter d fc .announcing { l.send announceBytes with announceCount := 1, timer := 0 }

/-- The link leaves DOWN at a lock completion (R129). -/
def Link.bringUp (d : OutputId) (fc : Count) (l : Link) : LinkOut :=
  Link.announce d fc { l.clearLines with replayRun := 0 }

/-- Entry into ERROR: the reason, HALT, the buffer emptied, the stable flag cleared (R139). -/
def Link.toError (d : OutputId) (fc : Count) (why : LinkReason) (l : Link) : LinkOut :=
  ({ (l.send haltBytes).clearLines with state := .error, reason := some why, stable := false },
    [linkStateEvent d fc (linkReasonCode (some why)) .error l.state])

/-- The link goes to DOWN, with HALT if it may send one and is able to (R140). -/
def Link.toDown (d : OutputId) (fc : Count) (halt : Bool) (l : Link) : LinkOut :=
  let x := if halt && l.state.up then l.send haltBytes else l
  ({ x.clearLines with state := .down, reason := none, timer := 0, announceCount := 0, replayRun := 0,
                       stable := false },
    if l.state = .down then [] else [linkStateEvent d fc 0 .down l.state])

/-- A re-initialization (R138). -/
def Link.reinit (d : OutputId) (fc : Count) (l : Link) : LinkOut :=
  if l.settings.reinitLimit < l.reinitRun + 1 then l.toError d fc .reinitLimit
  else
    Link.announce d fc
      { (l.send haltBytes).clearLines with
        reinitRun := l.reinitRun + 1, counters := { l.counters with reinits := bump l.counters.reinits },
        replayRun := 0, stable := false }

/-! ### Replay (R134 to R136) -/

/-- A sequence number is in the buffer (R132). -/
def Link.holds (q : Byte) (l : Link) : Bool := l.buffer.any (·.seq == q)

/-- The sequence number of the oldest packet. -/
def Link.oldest (l : Link) : Option Byte := l.buffer.head?.map (·.seq)

/-- The sequence number of the newest packet. -/
def Link.newest (l : Link) : Option Byte := l.buffer.getLast?.map (·.seq)

/-- A replay start (R135). -/
def Link.replayStart (d : OutputId) (fc : Count) (l : Link) : LinkOut :=
  if l.settings.replayLimit < l.replayRun + 1 then l.reinit d fc
  else
    Link.enter d fc .replay
      { l with replayRun := l.replayRun + 1, counters := { l.counters with replays := bump l.counters.replays },
               pointer := l.oldest, replayEnd := l.newest, stable := false }

/-- The replay is finished: pointer and end none, back to NORMAL (R136). -/
def Link.finishReplay (d : OutputId) (fc : Count) (l : Link) : LinkOut :=
  Link.enter d fc .normal { l with pointer := none, replayEnd := none }

/-- A bad reference, ignored and counted (R134, R135). -/
def Link.badReference (l : Link) : Link :=
  { l with counters := { l.counters with badRefs := bump l.counters.badRefs } }

/-- The packets from q on: those older than q removed (R135). -/
def Link.packetsFrom (q : Byte) (l : Link) : List Packet := l.buffer.dropWhile fun p => p.seq != q

/-- A number that the replay pointer or end names is in the buffer. -/
def Link.names (q : Option Byte) (l : Link) : Bool :=
  match q with
  | none => false
  | some q => l.holds q

/-- The replay under way after a CONFIRM has trimmed the buffer: finished if its end has gone, otherwise a pointer left
naming a removed packet moves to the oldest that remains (R134). -/
def Link.trimReplay (d : OutputId) (fc : Count) (l : Link) : LinkOut :=
  if l.names l.replayEnd then ({ l with pointer := if l.names l.pointer then l.pointer else l.oldest }, [])
  else l.finishReplay d fc

/-- CONFIRM(q) (R134). -/
def Link.confirm (d : OutputId) (fc : Count) (q : Byte) (l : Link) : LinkOut :=
  if l.state.carries then
    if l.holds q then
      let x := { l with buffer := (l.packetsFrom q).tail, replayRun := 0 }
      if l.state = .replay then x.trimReplay d fc else (x, [])
    else (l.badReference, [])
  else (l, [])

/-- REPLAY_FROM(q) (R135). -/
def Link.replayFrom (d : OutputId) (fc : Count) (q : Byte) (l : Link) : LinkOut :=
  if l.state.carries then
    if l.holds q then Link.replayStart d fc { l with buffer := l.packetsFrom q } else (l.badReference, [])
  else (l, [])

/-! ### Bring-up messages (R130, R131) -/

/-- The native size of a PANEL_INFO agrees with the panel record, if there is one (R130 step 1). -/
def samePanel (known : Option PanelRecord) (w h : Nat) : Bool :=
  match known with
  | none => true
  | some p => p.width == w && p.height == h

/-- PANEL_INFO, for the active timing t (R130). -/
def Link.panelInfo (d : OutputId) (fc : Count) (t : Timing) (w h clock : Nat) (l : Link) : LinkOut :=
  if l.state = .announcing then
    let x := { l with panel := some { width := w, height := h, clock := clock } }
    if samePanel l.panel w h = false then x.toError d fc .panelChanged
    else if t.width ≠ w ∨ t.height ≠ h then x.toError d fc .panelMismatch
    else if clock < t.clock then x.toError d fc .panelMismatch
    else Link.enter d fc .configuring { x.send (configureBytes t.width t.height t.clock) with timer := 0 }
  else (l, [])

/-- READY_NORMAL (R131). -/
def Link.readyNormal (d : OutputId) (fc : Count) (l : Link) : LinkOut :=
  if l.state = .configuring then l.enter d fc .normal else (l, [])

/-- HALT from the panel (R126, R138). -/
def Link.panelHalt (d : OutputId) (fc : Count) (l : Link) : LinkOut :=
  if l.state.carries then l.reinit d fc else (l, [])

/-- A message with a bad CRC, an unknown kind or a wrong length: counted while the link receives (R126). -/
def Link.badMessage (l : Link) : Link :=
  if l.state.up then { l with counters := { l.counters with badCrcs := bump l.counters.badCrcs } } else l

/-! ### Line starts (R133) and epochs (R141) -/

/-- Step 1 of R133 in ANNOUNCING: ANNOUNCE again at 64, ERROR after the 16th (R129). -/
def Link.announceTimer (d : OutputId) (fc : Count) (l : Link) : LinkOut :=
  if l.timer + 1 < 64 then ({ l with timer := l.timer + 1 }, [])
  else if l.announceCount < 16 then
    ({ l.send announceBytes with announceCount := l.announceCount + 1, timer := 0 }, [])
  else Link.toError d fc .noPanel { l with timer := l.timer + 1 }

/-- Step 1 of R133 in CONFIGURING: a re-initialization at 1024 (R131). -/
def Link.configureTimer (d : OutputId) (fc : Count) (l : Link) : LinkOut :=
  if l.timer + 1 < 1024 then ({ l with timer := l.timer + 1 }, [])
  else Link.reinit d fc { l with timer := l.timer + 1 }

/-- Step 1 of R133. -/
def Link.stepTimer (d : OutputId) (fc : Count) (l : Link) : LinkOut :=
  match l.state with
  | .announcing => l.announceTimer d fc
  | .configuring => l.configureTimer d fc
  | .normal | .replay | .down | .error => (l, [])

/-- The oldest packet's wait has reached the confirm timeout (R133 step 2, R135). -/
def Link.expired (l : Link) : Bool :=
  match l.buffer with
  | [] => false
  | p :: _ => decide (l.settings.confirmTimeout ≤ p.wait)

/-- A packet one line period later (R133 step 2). -/
def Packet.age (p : Packet) : Packet := { p with wait := p.wait + 1 }

/-- Step 2 of R133: the waits grow; at the confirm timeout of the oldest packet a replay start is taken. -/
def Link.stepWaits (d : OutputId) (fc : Count) (l : Link) : LinkOut :=
  if l.state.carries ∧ l.buffer ≠ [] then
    let x := { l with buffer := l.buffer.map Packet.age }
    if x.expired then x.replayStart d fc else (x, [])
  else (l, [])

/-- The packet of a sequence number sent again: its wait becomes 0 (R136). -/
def Link.resend (q : Byte) (p : Packet) (l : Link) : Link :=
  { l.send (lineBytes p.seq p.line p.payload) with
    buffer := l.buffer.map fun x => if x.seq = q then { x with wait := 0 } else x }

/-- Step 3 of R133: in REPLAY the packet at the pointer is sent again, and the pointer moves on or the replay is
finished (R136). -/
def Link.stepReplay (d : OutputId) (fc : Count) (l : Link) : LinkOut :=
  if l.state = .replay then
    match l.pointer with
    | none => (l, [])
    | some q =>
      match l.buffer.find? (·.seq == q) with
      | none => (l, [])
      | some p =>
        if l.replayEnd = some q then (l.resend q p).finishReplay d fc
        else ({ l.resend q p with pointer := some (q + 1) }, [])
  else (l, [])

/-- A line handed to the link: its number and its payload (R120). -/
structure HandedLine where
  line : Nat
  payload : List Byte
  deriving DecidableEq, Repr

/-- A new LINE takes the next sequence number and joins the tail of the buffer (R133 step 4). -/
def Link.sendLine (h : HandedLine) (l : Link) : Link :=
  { l.send (lineBytes l.nextSeq h.line h.payload) with
    buffer := l.buffer ++ [{ seq := l.nextSeq, line := h.line, payload := h.payload, wait := 0 }]
    nextSeq := l.nextSeq + 1 }

/-- A handed line that is not sent is skipped; in DOWN and ERROR the link skips nothing (R133 step 5, R139). DESIGN
CHOICE: so is the line handed at the line start whose step 1 or 2 takes the link to ERROR not counted (log entry 34). -/
def Link.skipLine (l : Link) : Link :=
  if l.state.up then { l with counters := { l.counters with skipped := bump l.counters.skipped } } else l

/-- Steps 4 and 5 of R133. -/
def Link.take (h : HandedLine) (l : Link) : Link :=
  if l.state.carries ∧ l.buffer.length < Config.retryPlaces then l.sendLine h else l.skipLine

/-- Steps 4 and 5 of R133 for the line of this line start, if there is one. -/
def Link.takeHanded (h : Option HandedLine) (l : Link) : Link :=
  match h with
  | none => l
  | some h => l.take h

/-- A line start of the link (R133). -/
def Link.lineStart (d : OutputId) (fc : Count) (h : Option HandedLine) (l : Link) : LinkOut :=
  if l.state.up then
    let out := linkThen (linkThen (l.stepTimer d fc) (·.stepWaits d fc)) (·.stepReplay d fc)
    (out.1.takeHanded h, out.2)
  else (l, [])

/-- The link at a frame epoch of its output: a stable frame returns the re-initialization count to 0 (R141). -/
def Link.epoch (l : Link) : Link :=
  { l with reinitRun := if l.stable then 0 else l.reinitRun, stable := l.state == .normal }

/-! ### OUTPUT_START and reset (R128, R140, R143) -/

/-- The link at an OUTPUT_START that passes: the settings captured, the panel record absent, the counts 0, the buffer
empty; the state and the five counters are kept (R109, R128, R143). -/
def Link.start (settings : LinkSettings) (l : Link) : Link :=
  { l.clearLines with settings := settings, panel := none, reinitRun := 0, replayRun := 0 }

end Sys2Proof.Machine
end

