-- ==== Sys2Proof/Machine/Outputs.lean ====
section
/-! DEFINITION. Chapter 6: the output state machine (R108 to R116), the scanout fetcher (R119), the hand-off of lines
(R120), the timing generator, the frame epoch (R117, R118, R122); and the layer tables' reaction to it (R46, R47). -/

namespace Sys2Proof.Machine

/-! ### State changes (R116) -/

/-- Output d enters a state: OUTPUT_STATE is raised and its status block becomes due (R116, R123). -/
def State.enterOutput (s : State) (d : OutputId) (st : OutputState) (reason : Nat) : State :=
  let t := (s.setOutput d { s.outputs.get d with state := st }).markOutput d
  t.raise (t.outputEvent .outputState d reason (word (outputStateCode st)) (word (outputStateCode (s.outputState d))))

/-- The lock flag of d changes: LOCK_CHANGE carries the flag and the state after the whole transition (R116). -/
def State.changeLock (s : State) (d : OutputId) (lock : Bool) (after : OutputState) : State :=
  ((s.setOutput d { s.outputs.get d with lock := lock }).markOutput d).raise
    (s.outputEvent .lockChange d 0 (word (flag lock)) (word (outputStateCode after)))

/-- The data of a fetcher read of d for a line that p names will be discarded (R113, R120). -/
def Flight.discardScan (d : OutputId) (p : Nat → Bool) : Flight → Flight
  | .scanRead e line pixel count addrs live => .scanRead e line pixel count addrs (live && !(e == d && p line))
  | f => f

/-- The data of fetcher reads of d in flight will be discarded, for the lines that p names. -/
def State.discardScans (s : State) (d : OutputId) (p : Nat → Bool) : State :=
  { s with inFlight := s.inFlight.map (Flight.discardScan d p) }

/-- The fetcher of d stops: data of reads in flight is discarded, the FIFO emptied, frame begun cleared (R113
step 3). -/
def State.stopFetcher (s : State) (d : OutputId) : State :=
  (s.setOutput d { s.outputs.get d with fifo := [], begun := false, fetch := none }).discardScans d fun _ => true

/-! ### The link tells its output (R111, R114) -/

/-- A link ERROR takes d to FAULT (R114). -/
def State.outputFault (s : State) (d : OutputId) : State :=
  if (s.outputState d).timed then
    let t := (s.stopFetcher d).abandon d
    (t.setOutput d { t.outputs.get d with resume := none }).enterOutput d .fault
      (linkReasonCode (s.links.get d).reason)
  else s

/-- A link rule's outcome takes effect: the record, its LINK_STATE events, the status block at a change of state
(R123, R127), and FAULT at an entry to ERROR (R114, R139). -/
def State.applyLink (s : State) (d : OutputId) (out : LinkOut) : State :=
  let t := (s.setLink d out.1).raiseAll out.2
  let u := if out.2.isEmpty then t else t.markOutput d
  if out.1.state = .error ∧ (s.links.get d).state ≠ .error then u.outputFault d else u

/-- A rule of the link of d takes effect. -/
def State.runLink (s : State) (d : OutputId) (f : OutputId → Count → Link → LinkOut) : State :=
  s.applyLink d (f d (s.frameOf d) (s.links.get d))

/-- The first entry into RUNNING: frame counter 0, blank flag set, front index 0, WHOLE in both damage records
(R34, R63, R111). -/
def State.firstEntry (s : State) (d : OutputId) : State :=
  ((s.setOutput d { s.outputs.get d with frameCounter := 0, blank := true }).setComp d
    { s.comp.get d with front := 0 }).wholeDamage d

/-- The state in which d leaves TRAINING (R111). -/
def Output.entryState (o : Output) : OutputState :=
  match o.resume with
  | none => .running
  | some .running => .running
  | some .frozen => .frozen

/-- The link of d has reached NORMAL: a TRAINING output leaves TRAINING (R111, R131). -/
def State.leaveTraining (s : State) (d : OutputId) : State :=
  if s.outputState d = .training then
    let o := s.outputs.get d
    let t := if o.resume = none then s.firstEntry d else s
    (t.setOutput d { t.outputs.get d with begun := false, fifo := [] }).enterOutput d o.entryState 0
  else s

/-! ### OUTPUT_START (R108, R109) -/

/-- The checks of OUTPUT_START on the staged timing, with R108's step numbers. -/
def Timing.checks (t : Timing) : List (Bool × (Reason × Nat)) :=
  [(decide (16 ≤ t.width) && decide (t.width ≤ 2048) && decide (16 ≤ t.height) && decide (t.height ≤ 2048),
      (.geometry, 2)),
   (decide (t.width + 16 ≤ t.hTotal) && decide (t.hTotal ≤ 4095), (.geometry, 3)),
   (decide (t.height + 2 ≤ t.vTotal) && decide (t.vTotal ≤ 4095), (.geometry, 4)),
   (decide (25000 ≤ t.clock) && decide (t.clock ≤ 165000), (.geometry, 5)),
   (decide (t.buffer0 % 64 = 0) && decide (t.buffer1 % 64 = 0), (.geometry, 6)),
   (decide (t.buffer0 + t.pitch * t.height ≤ Config.ringBase) &&
      decide (t.buffer1 + t.pitch * t.height ≤ Config.ringBase), (.geometry, 7)),
   (!rangesOverlap t.buffer0 (t.pitch * t.height) t.buffer1 (t.pitch * t.height), (.geometry, 8)),
   (match t.lineMatch with
    | none => true
    | some y => decide (y + 1 ≤ t.vTotal), (.geometry, 9))]

/-- The checks of OUTPUT_START (R108). -/
def Output.startChecks (o : Output) : List (Bool × (Reason × Nat)) :=
  (o.state == .off, (.badState, 1)) :: o.staged.checks

/-- The output record at an OUTPUT_START that passes, before its change of state (R109). -/
def Output.start (o : Output) : Output :=
  { o with active := o.staged, resume := none, begun := false, frameUnderflows := 0, fifo := [], fetch := none,
           lock := false }

/-- OUTPUT_START d (R108, R109). -/
def State.startOutput (s : State) (d : OutputId) : State :=
  let o := s.outputs.get d
  match firstFailure o.startChecks with
  | some (r, step) => s.raise (commandRefused 0x20 r (word (outputNumber d)) (word step))
  | none =>
    ((s.setOutput d o.start).setLink d ((s.links.get d).start s.linkSettings)).enterOutput d .locking 0

/-! ### Lock completion and lock loss (R110, R113) -/

/-- A lock completion while d is LOCKING (R110). -/
def State.lockLocking (s : State) (d : OutputId) : State :=
  let t := s.changeLock d true .training
  ((t.setOutput d { t.outputs.get d with line := 0, begun := false }).enterOutput d .training 0).runLink d
    Link.bringUp

/-- A lock completion of d (R110, R114). -/
def State.lockCompletion (s : State) (d : OutputId) : State :=
  match s.outputState d with
  | .locking => s.lockLocking d
  | .fault => s.changeLock d true .fault
  | .off | .training | .running | .frozen => s

/-- The resume state that a lock loss sets (R113 step 2). -/
def Output.resumeAfterLoss (o : Output) : Option ResumeState :=
  match o.state with
  | .running => some .running
  | .frozen => some .frozen
  | _ => o.resume

/-- A lock loss while d is TRAINING, RUNNING or FROZEN (R113). -/
def State.lockLost (s : State) (d : OutputId) : State :=
  let t := s.changeLock d false .locking
  (((t.setOutput d { t.outputs.get d with resume := (s.outputs.get d).resumeAfterLoss }).stopFetcher d).runLink d
    fun d fc l => l.toDown d fc false).enterOutput d .locking 0

/-- A lock loss of d (R113, R114). -/
def State.lockLoss (s : State) (d : OutputId) : State :=
  if (s.outputState d).timed then s.lockLost d
  else if s.outputState d = .fault then s.changeLock d false .fault
  else s

/-! ### OUTPUT_STOP, OUTPUT_FREEZE, OUTPUT_THAW (R112, R115) -/

/-- Commit-pending of d cleared without applying the commit (R49). -/
def State.withdrawCommit (s : State) (d : OutputId) : State :=
  s.setLayers d { s.layers.get d with commitPending := false }

/-- OUTPUT_STOP d from a state other than OFF (R115). -/
def State.stopRunning (s : State) (d : OutputId) : State :=
  let t := (s.runLink d fun d fc l => l.toDown d fc true).stopFetcher d
  let u := (((t.setOutput d { t.outputs.get d with lock := false }).abandon d).clearDamage d).withdrawCommit d
  (u.setOutput d { u.outputs.get d with resume := none, blank := false }).enterOutput d .off 0

/-- OUTPUT_STOP d (R115). -/
def State.stopOutput (s : State) (d : OutputId) : State :=
  if s.outputState d = .off then s.withdrawCommit d else s.stopRunning d

/-- A command refused with BAD_STATE: operand A the output, operand B its state code (R112). -/
def State.refuseState (s : State) (code : Nat) (d : OutputId) : State :=
  s.raise (commandRefused code .badState (word (outputNumber d)) (word (outputStateCode (s.outputState d))))

/-- OUTPUT_FREEZE d (R112). -/
def State.freezeOutput (s : State) (d : OutputId) : State :=
  if s.outputState d = .running then s.enterOutput d .frozen 0 else s.refuseState 0x22 d

/-- OUTPUT_THAW d (R112). -/
def State.thawOutput (s : State) (d : OutputId) : State :=
  if s.outputState d = .frozen then s.enterOutput d .running 0 else s.refuseState 0x23 d

/-! ### The fetcher (R119) -/

/-- A run of one line that the fetcher requests: line, first pixel, count of pixels. -/
structure Run where
  line : Nat
  pixel : Nat
  count : Nat
  deriving DecidableEq, Repr

/-- The pixels of lines not yet handed out, returned or in flight. -/
def Output.fifoPixels (o : Output) : Nat := (o.fifo.map (·.pixels.length)).sum

/-- The returned pixels of lines not yet handed out. -/
def Output.returnedPixels (o : Output) : Nat := (o.fifo.map fun l => (l.pixels.filter (·.isSome)).length).sum

/-- The request the fetcher has to issue: a run of up to 16 beats from the fetch position, when the FIFO has room for
it (R119). -/
def Output.nextRun (o : Output) : Option Run :=
  match o.begun, o.fetch with
  | true, some p =>
    let n := min 32 (o.active.width - p.pixel)
    if 0 < n ∧ o.fifoPixels + n ≤ 2 * o.active.width then some { line := p.line, pixel := p.pixel, count := n }
    else none
  | _, _ => none

/-- The SCAN client is urgent (R119). -/
def Output.urgent (o : Output) : Bool := o.nextRun.isSome && decide (o.returnedPixels < o.active.width)

/-- The beats of a run, read from front buffer f (R119). -/
def Timing.runBeats (t : Timing) (f : Fin 2) (r : Run) : List Nat :=
  beatRun (t.bufferBase f + r.line * t.pitch + 4 * r.pixel) ((r.count + 1) / 2)

/-- The fetch position at pixel 0 of the line after y, or done after the last active line (R119, R120). -/
def Timing.fetchAfter (t : Timing) (y : Nat) : Option FetchAt :=
  if y + 1 < t.height then some { line := y + 1, pixel := 0 } else none

/-- The fetch position after a run (R119). -/
def Timing.fetchPast (t : Timing) (r : Run) : Option FetchAt :=
  if r.pixel + r.count < t.width then some { line := r.line, pixel := r.pixel + r.count } else t.fetchAfter r.line

/-- The FIFO with the pixels of a run requested. -/
def reservePixels (r : Run) : List FifoLine → List FifoLine
  | [] => [{ line := r.line, pixels := List.replicate r.count none }]
  | l :: ls =>
    if l.line = r.line then { l with pixels := l.pixels ++ List.replicate r.count none } :: ls
    else l :: reservePixels r ls

/-- The output record after its run has been issued (R119). -/
def Output.issueRun (r : Run) (o : Output) : Output :=
  { o with fifo := reservePixels r o.fifo, fetch := o.active.fetchPast r }

/-- The colours of the pixels of a read's beats, two a beat. -/
def beatColours (data : List BeatData) : List Rgb :=
  data.flatMap fun w => [(beatPixel w false).rgb, (beatPixel w true).rgb]

/-- Returned pixels put into a line from a position on. -/
def putPixels (p : Nat) (colours : List Rgb) (line : List (Option Rgb)) : List (Option Rgb) :=
  line.zipIdx.map fun x =>
    if p ≤ x.2 ∧ x.2 < p + colours.length then some (colours.getD (x.2 - p) ⟨0, 0, 0⟩) else x.1

/-- The output record after a read of a run returns (R119). -/
def Output.returnRun (r : Run) (data : List BeatData) (o : Output) : Output :=
  { o with fifo := o.fifo.map fun l =>
      if l.line = r.line then { l with pixels := putPixels r.pixel ((beatColours data).take r.count) l.pixels } else l }

/-! ### The hand-off (R120) -/

/-- The pixels of line y that the FIFO holds, each present or not. -/
def Output.fifoLine (o : Output) (y : Nat) : List (Option Rgb) :=
  match o.fifo.find? (·.line == y) with
  | none => []
  | some l => l.pixels

/-- The line is sent from the FIFO: frame begun and not blank (R120). -/
def Output.fromFifo (o : Output) : Bool := o.begun && !o.blank

/-- The pixels of line y at its line start: the returned ones where present, the background colour elsewhere
(R120). -/
def Output.linePixels (o : Output) (y : Nat) : List Rgb :=
  (List.range o.active.width).map fun i =>
    if o.fromFifo then ((o.fifoLine y).getD i none).getD o.active.background.rgb else o.active.background.rgb

/-- Line y is not wholly returned at its line start (R120). -/
def Output.underflowed (o : Output) (y : Nat) : Bool :=
  o.fromFifo && !(List.range o.active.width).all fun i => ((o.fifoLine y).getD i none).isSome

/-- The payload of a line: red, green and blue of each pixel (7.1). -/
def payloadOf (pixels : List Rgb) : List Byte := pixels.flatMap fun p => [p.red, p.green, p.blue]

/-- The line handed to the link at the start of active line y (R120). -/
def Output.handed (o : Output) (y : Nat) : HandedLine := { line := y, payload := payloadOf (o.linePixels y) }

/-- The output record after line y has left the FIFO; an underflow counts in both counts (R120, log entry 24). -/
def Output.afterHandOff (o : Output) (y : Nat) : Output :=
  { o with
    fifo := o.fifo.filter fun l => l.line != y
    fetch := match o.fetch with
      | none => none
      | some p => if p.line = y then o.active.fetchAfter y else some p
    frameUnderflows := if o.underflowed y then bump o.frameUnderflows else o.frameUnderflows
    underflows := if o.underflowed y then bump o.underflows else o.underflows }

/-- Line y leaves the output (R120). -/
def State.handOff (s : State) (d : OutputId) (y : Nat) : State :=
  (s.setOutput d ((s.outputs.get d).afterHandOff y)).discardScans d fun l => l == y

/-! ### The layer tables at an epoch (R46, R47) -/

/-- The layers whose active record differs from the staged one (R46 step 1, R47). -/
def LayerTables.changed (t : LayerTables) : List Nat :=
  (List.range 8).filter fun i => decide (t.active[i]? ≠ t.staged[i]?)

/-- The rectangle of an enabled layer record inserted into the list of d (R30). -/
def State.damageIfEnabled (s : State) (d : OutputId) (l : Option Layer) : State :=
  match l with
  | none => s
  | some l => if l.enabled then s.damageLayer d l else s

/-- The damage of changed layer i: the old rectangle, then the new one (R46 step 3). -/
def State.damageChange (s : State) (d : OutputId) (t : LayerTables) (i : Nat) : State :=
  (s.damageIfEnabled d t.active[i]?).damageIfEnabled d t.staged[i]?

/-- The number in which layer i is worth 2 to the power i (R46 step 5). -/
def layerSet (is : List Nat) : Nat := is.foldl (fun n i => n + 2 ^ i) 0

/-- The layer tables' reaction to an epoch of d (R46). -/
def State.layerEpoch (s : State) (d : OutputId) : State :=
  let t := s.layers.get d
  if t.commitPending then
    let u := t.changed.foldl (fun u i => u.damageChange d t i)
      (s.setLayers d { t with active := t.staged, commitPending := false })
    u.raise (u.outputEvent .commitApplied d 0 (word t.changed.length) (word (layerSet t.changed)))
  else s

/-! ### The frame epoch (R117, R122) -/

/-- The order of the reactions that LINE_START takes (log entry 7). -/
def defaultOrder : List EpochReaction := [.compositor, .layerTables, .stream .S0, .stream .S1, .link]

/-- Each reaction of a list where it stands first, its repeats dropped. -/
def firstOfEach : List EpochReaction → List EpochReaction
  | [] => []
  | r :: rs => r :: (firstOfEach rs).filter (· != r)

/-- An order that names every reaction once: the operand's, without repeats, then those it leaves out (log entry
7). -/
def reactionOrder (order : List EpochReaction) : List EpochReaction := firstOfEach (order ++ defaultOrder)

/-- One block's reaction to an epoch of d (R46, R58, R91, R92, R141). The link's own steps are no reaction: they belong to
the line start (R133), which takes them before the epoch or after it. -/
def State.react (s : State) (d : OutputId) (r : EpochReaction) : State :=
  match r with
  | .compositor => s.compositorEpoch d
  | .layerTables => s.layerEpoch d
  | .stream k => s.streamEpoch d k
  | .link => s.setLink d (s.links.get d).epoch
  | .linkSteps => s

/-- SCAN_UNDERFLOW for the frame that has ended, if it had underflows (R122). -/
def State.scanUnderflow (s : State) (d : OutputId) : State :=
  let o := s.outputs.get d
  if o.frameUnderflows = 0 then s
  else s.raise (s.outputEvent .scanUnderflow d 0 (word o.frameUnderflows.toNat) (word o.underflows.toNat))

/-- EPOCH (R117 step 3). -/
def State.epochEvent (s : State) (d : OutputId) : State :=
  let o := s.outputs.get d
  s.raise (s.outputEvent .epoch d 0 (word (outputStateCode o.state)) (word o.frameUnderflows.toNat))

/-- What the output engine does at a frame epoch of d (R117, R122). -/
def State.declareEpoch (s : State) (d : OutputId) : State :=
  let o := s.outputs.get d
  let t := ((s.setOutput d { o with frameCounter := o.frameCounter + 1 }).scanUnderflow d).epochEvent d
  (t.setOutput d { t.outputs.get d with frameUnderflows := 0 }).markOutput d

/-- A frame epoch of d: the output engine, then every block that reacts, in the order given (R117). -/
def State.frameEpoch (s : State) (d : OutputId) (order : List EpochReaction) : State :=
  (reactionOrder order).foldl (fun t r => t.react d r) (s.declareEpoch d)

/-! ### The line start (R117 to R120, R133) -/

/-- The line the generator moves to (R117). -/
def Output.nextLine (o : Output) : Nat := if o.line + 1 < o.active.vTotal then o.line + 1 else 0

/-- LINE_MATCH at the line the generator has moved to (R118). -/
def State.lineMatchAt (s : State) (d : OutputId) (y : Nat) : State :=
  let o := s.outputs.get d
  if o.active.lineMatch = some y then
    s.raise (s.outputEvent .lineMatch d 0 (word y) (word (outputStateCode o.state)))
  else s

/-- The fetch line begins a frame if the blank flag is clear (R119). -/
def State.beginFetch (s : State) (d : OutputId) : State :=
  let o := s.outputs.get d
  if o.blank then s else s.setOutput d { o with begun := true, fetch := some { line := 0, pixel := 0 }, fifo := [] }

/-- What output d does at line y while it is RUNNING or FROZEN, and the line it hands to its link (log entry 8). -/
def State.outputLine (s : State) (d : OutputId) (y : Nat) (order : List EpochReaction) : State × Option HandedLine :=
  let t := (s.outputs.get d).active
  let s1 := if y = t.height then s.frameEpoch d order else s
  let s2 := s1.lineMatchAt d y
  let s3 := if y = t.height + 1 then s2.beginFetch d else s2
  if y < t.height then (s3.handOff d y, some ((s3.outputs.get d).handed y)) else (s3, none)

/-- A line start of output d: nothing while its timing generator is stopped (R117, R133). -/
def State.lineStart (s : State) (d : OutputId) (order : List EpochReaction) : State :=
  if (s.outputState d).timed then
    let y := (s.outputs.get d).nextLine
    let t := s.setOutput d { s.outputs.get d with line := y }
    let out := if (s.outputState d).live then t.outputLine d y order else (t, none)
    out.1.runLink d fun d fc l => l.lineStart d fc out.2
  else s

/-- The start of the epoch line of output d with the link's steps taken before the epoch (R141). An expiry among them that
ends in ERROR takes d to FAULT, and d then declares no epoch (R114, R117). -/
def State.linkBeforeEpoch (s : State) (d : OutputId) (order : List EpochReaction) : State :=
  let y := (s.outputs.get d).nextLine
  let t := (s.setOutput d { s.outputs.get d with line := y }).runLink d fun d fc l => l.lineStart d fc none
  if (t.outputState d).live then (t.outputLine d y order).1 else t

/-- The next line start of d is a frame epoch (R117). -/
def State.epochNext (s : State) (d : OutputId) : Bool :=
  (s.outputState d).live && (s.outputs.get d).nextLine == (s.outputs.get d).active.height

/-- The bring-up timer of the link of d reaches a limit at the next line start, in the given link state
(R129, R131). -/
def State.timerEnds (s : State) (d : OutputId) (st : LinkState) (limit : Nat) : Bool :=
  (s.outputState d).timed && (s.links.get d).state == st && decide (limit ≤ (s.links.get d).timer + 1)

/-- The oldest packet's wait reaches the confirm timeout at the next line start (R133 step 2, R135). -/
def State.waitEnds (s : State) (d : OutputId) : Bool :=
  (s.outputState d).timed && (s.links.get d).state.carries &&
    (match (s.links.get d).buffer with
     | [] => false
     | p :: _ => decide ((s.links.get d).settings.confirmTimeout ≤ p.wait + 1))

end Sys2Proof.Machine
end

