-- ==== Sys2Proof/Machine/Tables.lean ====
section
/-! DEFINITION. The table port (R159, R160), the entries of its eight tables (R3 to R6, R42 to R45, R80, R81, R106, R128,
R152), and READBACK (R162). -/

namespace Sys2Proof.Machine

/-! ### The words of an entry as its owner holds them (R160, R162) -/

/-- The record of layer i of a table of 8. -/
def layerAt (t : Vector Layer 8) (i : Nat) : Layer := (t[i]?).getD .reset

/-- The words of an entry; `active` chooses the copy of tables 2, 3, 5, 6 and 7 (R160, R162). -/
def State.entryWords (s : State) (t : TableId) (entry : Nat) (active : Bool) : List Word :=
  match t with
  | .surface => surfaceWords ((s.surface entry).getD .unbound)
  | .layer d => layerWords (layerAt (if active then (s.layers.get d).active else (s.layers.get d).staged) entry)
  | .stream => streamWords (s.streams.get (streamOfIndex entry))
  | .timing d => timingWords (if active then (s.outputs.get d).active else (s.outputs.get d).staged)
  | .credit => creditWords (if active then s.activeCredits else s.stagedCredits)
  | .link => linkWords s.linkSettings

/-! ### Surface entries (R3 to R6) -/

/-- Surface entry i applies or is refused (R3 to R6). -/
def State.applySurface (s : State) (i : Nat) (ws : List Word) : State :=
  match s.surfaceRefusal i (surfaceEntry ws) with
  | some (r, b) => s.raise (tableRefused 1 r (word i) (word b))
  | none =>
    { s with surfaces := s.surfaces.setIfInBounds i (surfaceEntry ws).record }.damageLayers (Layer.showsSurface i)

/-! ### Layer entries (R42, R43) -/

/-- The content index is one that the content allows (R42 step 4). -/
def LayerEntry.indexFits (e : LayerEntry) : Bool :=
  match contentOf e.content with
  | .solid => true
  | .surface => decide (e.index ≤ 31)
  | .stream => decide (e.index ≤ 1)

/-- A destination coordinate lies in −4096 to 4095 (R42 step 6). -/
def cornerFits (x : Int) : Bool := decide (-4096 ≤ x) && decide (x ≤ 4095)

/-- The checks of a layer entry, with R42's step numbers. -/
def LayerEntry.checks (e : LayerEntry) : List (Bool × (Reason × Nat)) :=
  [(decide (e.enabled ≤ 1), (.format, 1)),
   (decide (e.content ≤ 2), (.format, 2)),
   (decide (e.blend ≤ 1), (.format, 3)),
   (e.indexFits, (.range, 4)),
   (decide (e.sx ≤ 2047) && decide (e.sy ≤ 2047) && decide (e.sw ≤ 2047) && decide (e.sh ≤ 2047), (.geometry, 5)),
   (cornerFits e.dx && cornerFits e.dy, (.geometry, 6))]

/-- The record that a layer entry writes, its magnification clamped (R42, R43). -/
def LayerEntry.record (e : LayerEntry) : Layer :=
  { enabled := e.enabled == 1, content := contentOf e.content, index := e.index, sx := e.sx, sy := e.sy, sw := e.sw,
    sh := e.sh, dx := e.dx, dy := e.dy, mag := clamp 1 4 e.mag, opacity := e.opacity, blend := blendOf e.blend,
    colour := e.colour }

/-- The VALUE_CLAMPED events of a list of fields: number, low and high end, value as written (R43, R128, R152). -/
def clampEvents (table : Nat) (fields : List (Nat × Nat × Nat × Nat)) : List Event :=
  fields.filterMap fun f =>
    if clamp f.2.1 f.2.2.1 f.2.2.2 = f.2.2.2 then none else some (valueClamped table f.1 f.2.2.2)

/-- Layer entry i of output d applies or is refused (R42, R43). -/
def State.applyLayer (s : State) (d : OutputId) (i : Nat) (ws : List Word) : State :=
  let e := layerEntry ws
  let id := tableNumber (.layer d)
  match firstFailure e.checks with
  | some (r, step) => s.raise (tableRefused id r (word i) (word step))
  | none =>
    let t := s.layers.get d
    (s.setLayers d { t with staged := t.staged.setIfInBounds i e.record }).raiseAll
      (clampEvents id [(i, 1, 4, e.mag)])

/-! ### Stream entries (R80, R81) -/

/-- Stream entry k applies or is refused (R80, R81). -/
def State.applyStream (s : State) (k : StreamId) (ws : List Word) : State :=
  let e := streamEntry ws
  match firstFailure (s.streamChecks k e) with
  | some (r, step) => s.raise (tableRefused 4 r (word (streamNumber k)) (word step))
  | none =>
    ((s.setStream k (e.record (s.streams.get k))).mark (·.markStream k)).raiseAll
      (if e.rateD < e.rateN then [valueClamped 4 (streamNumber k) e.rateN] else [])

/-! ### Timing, credit and link settings entries (R106, R128, R152) -/

/-- The timing entry of d: the staged timing takes the words as written (R106). -/
def State.applyTiming (s : State) (d : OutputId) (ws : List Word) : State :=
  s.setOutput d { s.outputs.get d with staged := timingOf ws }

/-- Five counts, each clamped to 1 to 16 (R152). -/
def Credits.clamped (c : Credits) : Credits :=
  { pass := clamp 1 16 c.pass, scanA := clamp 1 16 c.scanA, scanB := clamp 1 16 c.scanB, comp := clamp 1 16 c.comp,
    stat := clamp 1 16 c.stat }

/-- The credit entry (R152). DESIGN CHOICE: several VALUE_CLAMPED are raised in ascending client index (log entry
35). -/
def State.applyCredit (s : State) (ws : List Word) : State :=
  let c := creditEntry ws
  { s with stagedCredits := c.clamped }.raiseAll
    (clampEvents 7 [(0, 1, 16, c.pass), (1, 1, 16, c.scanA), (2, 1, 16, c.scanB), (3, 1, 16, c.comp),
      (4, 1, 16, c.stat)])

/-- The three settings, each clamped to its range (R128). -/
def LinkSettings.clamped (x : LinkSettings) : LinkSettings :=
  { confirmTimeout := clamp 4 64 x.confirmTimeout, replayLimit := clamp 0 8 x.replayLimit,
    reinitLimit := clamp 0 3 x.reinitLimit }

/-- The link settings entry (R128). DESIGN CHOICE: several VALUE_CLAMPED are raised in ascending setting number (log
entry 35). -/
def State.applyLinkSettings (s : State) (ws : List Word) : State :=
  let x := linkEntry ws
  { s with linkSettings := x.clamped }.raiseAll
    (clampEvents 8 [(0, 4, 64, x.confirmTimeout), (1, 0, 8, x.replayLimit), (2, 0, 3, x.reinitLimit)])

/-- An assembled entry handed to its owner (R160). -/
def State.applyEntry (s : State) (t : TableId) (entry : Nat) (ws : List Word) : State :=
  match t with
  | .surface => s.applySurface entry ws
  | .layer d => s.applyLayer d entry ws
  | .stream => s.applyStream (streamOfIndex entry) ws
  | .timing d => s.applyTiming d ws
  | .credit => s.applyCredit ws
  | .link => s.applyLinkSettings ws

/-! ### The table port (R159, R160) -/

/-- TABLE_SELECT (R159). -/
def State.selectTable (s : State) (w : Word) : State :=
  { s with port := { cursor := cursorOf w, assembly := emptyAssembly } }

/-- Where the cursor goes from a word (R160). -/
def Cursor.next (c : Cursor) : Cursor :=
  if c.word + 1 < tableWords c.table then { c with word := c.word + 1 }
  else { c with entry := if c.entry + 1 < tableEntries c.table then c.entry + 1 else 0, word := 0 }

/-- Words to this table are dropped: a staged layer table whose commit is pending (R45). -/
def State.dropsWords (s : State) (t : TableId) : Bool :=
  match t with
  | .layer d => (s.layers.get d).commitPending
  | .surface | .stream | .timing _ | .credit | .link => false

/-- The words handed to the owner: those stored, and the owner's own for the rest (R44, R160). -/
def State.assembled (s : State) (c : Cursor) (assembly : Vector (Option Word) 8) : List Word :=
  (List.range (tableWords c.table)).map fun w =>
    ((assembly[w]?).getD none).getD (entryWord (s.entryWords c.table c.entry false) w)

/-- The port after a word: a new cursor and what is assembled. -/
def State.setPort (s : State) (c : Cursor) (assembly : Vector (Option Word) 8) : State :=
  { s with port := { cursor := some c, assembly := assembly } }

/-- STAGED_DROPPED (R45); it names a table, so its frame counter is 0 (9.4). -/
def stagedDropped (c : Cursor) : Event :=
  { kind := .stagedDropped, source := tableNumber c.table, frame := 0, reason := 0, a := word c.entry,
    b := word c.word }

/-- A word stored under the cursor; the final word applies the entry, and then the cursor moves on (R160). -/
def State.storeWord (s : State) (c : Cursor) (w : Word) : State :=
  let assembly := s.port.assembly.setIfInBounds c.word (some w)
  if c.word + 1 = tableWords c.table then
    (s.applyEntry c.table c.entry (s.assembled c assembly)).setPort c.next emptyAssembly
  else s.setPort c.next assembly

/-- TABLE_DATA (R45, R160). -/
def State.takeTableData (s : State) (w : Word) : State :=
  match s.port.cursor with
  | none => s.raise (tableRefused 0 .noCursor w 0)
  | some c =>
    if s.dropsWords c.table then (s.setPort c.next emptyAssembly).raise (stagedDropped c) else s.storeWord c w

/-! ### READBACK (R162) -/

/-- The table and the entry exist (R162 step 2). -/
def entryExists (table entry : Byte) : Bool :=
  match tableOfId table.toNat with
  | none => false
  | some t => decide (entry.toNat < tableEntries t)

/-- The checks of READBACK, with R162's step numbers. -/
def State.readbackChecks (s : State) (table entry selector : Byte) : List (Bool × (Reason × Nat)) :=
  [(s.events.readback.isNone, (.busy, 1)),
   (entryExists table entry, (.range, 2)),
   (decide (selector.toNat ≤ 1), (.badOperand, 3))]

/-- The copy that a READBACK takes (R162). -/
def State.readbackWords (s : State) (table entry selector : Byte) : List Word :=
  match tableOfId table.toNat with
  | none => []
  | some t => s.entryWords t entry.toNat (selector.toNat == 1)

/-- READBACK (R162). -/
def State.takeReadback (s : State) (table entry selector : Byte) : State :=
  match firstFailure (s.readbackChecks table entry selector) with
  | some (r, step) => s.raise (commandRefused 0x40 r (word table.toNat) (word step))
  | none =>
    { s with events := { s.events with
        readback := some { table := table, entry := entry, selector := selector,
                           words := s.readbackWords table entry selector }
        due := { s.events.due with readback := true } } }

end Sys2Proof.Machine
end

