-- ==== Sys2Proof/Machine/UpstreamPort.lean ====
section
/-! DEFINITION. The upstream port and the read tracker's answers: R144, R145, R146, R149. -/

namespace Sys2Proof.Machine

/-- The address of beat i of a request: 29 bits, wrapping (R144). -/
def upAddress (addr : BitVec 29) (i : Nat) : Nat := (addr + BitVec.ofNat 29 (8 * i)).toNat

/-- The beats of a WRITE from beat i on converted, as the beats they add to the write queue under the next request's
name, and the events they raise. A stray beat gives no beat and ends a stretch (R146). DESIGN CHOICE: the events of
several beats are raised in the order of the beats (log entry 32). -/
def State.convertFrom (s : State) (addr : BitVec 29) : Nat → Nat → List UpBeat → List QueuedBeat × List Event
  | _, _, [] => ([], [])
  | i, stretch, b :: bs =>
    let c := s.convertWrite (upAddress addr i) b
    let rest := s.convertFrom addr (i + 1) (if c.1 = [] then stretch + 1 else stretch) bs
    (c.1.map (QueuedBeat.mk s.nextRequest stretch) ++ rest.1, c.2 ++ rest.2)

/-- A WRITE converted: its downstream beats and the events it raises, by the surface table as it stands (R144, R145,
R146). -/
def State.convertWrites (s : State) (addr : BitVec 29) (beats : List UpBeat) : List QueuedBeat × List Event :=
  s.convertFrom addr 0 0 beats

/-- A READ converted: its beats, its downstream addresses and the events it raises (R144, R145). DESIGN CHOICE: the
events of several beats are raised in the order of the beats (log entry 32). -/
def State.convertReads (s : State) (addr : BitVec 29) (beats : Nat) : List ReadBeat × List Nat × List Event :=
  (List.range beats).foldl
    (fun out i =>
      let c := s.convertRead (upAddress addr i)
      (out.1 ++ [c.1], out.2.1 ++ c.2.1, out.2.2 ++ c.2.2)) ([], [], [])

/-! ### Returning reads (R149) -/

/-- The beats a read returns, from the data of its downstream beats (R149). -/
def answerBeats : List ReadBeat → List BeatData → List BeatData
  | [], _ => []
  | .stray :: us, ds => 0 :: answerBeats us ds
  | .direct :: us, d :: ds => d :: answerBeats us ds
  | .mapped _ f padding :: us, lo :: hi :: ds => contractBeats f padding lo hi :: answerBeats us ds
  | .direct :: _, [] => []
  | .mapped _ _ _ :: _, [] => []
  | .mapped _ _ _ :: _, [_] => []

/-- All the data of a read has come back. -/
def TrackedRead.complete (r : TrackedRead) : Bool := r.down.all (·.data.isSome)

/-- The answer of a read whose data has come back. -/
def TrackedRead.answer (r : TrackedRead) : List BeatData := answerBeats r.up (r.down.filterMap (·.data))

/-- Reads leave the tracker from its head while all their data has come back (R149). -/
def State.returnReads (s : State) : State :=
  { s with tracker := s.tracker.dropWhile TrackedRead.complete
           hostData := s.hostData ++ (s.tracker.takeWhile TrackedRead.complete).map TrackedRead.answer }

/-! ### Acceptance (R144) -/

/-- The part after the acceptance of a WRITE that was converted. -/
def State.joinQueue (s : State) (out : List QueuedBeat × List Event) : State :=
  { s with writeQueue := s.writeQueue ++ out.1
           nextRequest := s.nextRequest + 1 }.raiseAll out.2

/-- The tracker's record of a READ just accepted (R148). -/
def trackedRead (id : Nat) (out : List ReadBeat × List Nat × List Event) : TrackedRead :=
  { id := id, up := out.1, down := out.2.1.map fun a => { addr := a, data := none }, issued := 0 }

/-- The part after the acceptance of a READ that was converted; a read of stray beats alone may return at once
(R148). -/
def State.joinTracker (s : State) (out : List ReadBeat × List Nat × List Event) : State :=
  State.returnReads
    ({ s with tracker := s.tracker ++ [trackedRead s.nextRequest out]
              nextRequest := s.nextRequest + 1 }.raiseAll out.2.2)

/-- A request is accepted if there is room for it now (R144). -/
def State.tryAccept (s : State) (r : UpRequest) : Option State :=
  match r with
  | .write addr beats =>
    let out := s.convertWrites addr beats
    if s.writeQueue.length + out.1.length ≤ Config.writeQueuePlaces then some (s.joinQueue out) else none
  | .read addr beats =>
    if s.tracker.length < Config.trackerPlaces then some (s.joinTracker (s.convertReads addr beats)) else none

/-- Requests accepted in order, until one must wait; it and those behind it hold the port (R144). -/
def acceptFrom : List UpRequest → State → State
  | [], s => { s with upstream := [] }
  | r :: rs, s =>
    match s.tryAccept r with
    | none => { s with upstream := r :: rs }
    | some t => acceptFrom rs t

/-- The waiting requests accepted as far as there is room; none while the reset line is asserted (R144, R156, log
entry 6). -/
def State.acceptWaiting (s : State) : State := if s.resetAsserted then s else acceptFrom s.upstream s

/-- The host presents a request (R144). -/
def State.present (s : State) (r : UpRequest) : State :=
  { s with upstream := s.upstream ++ [r] }.acceptWaiting

/-- HOST_WRITE (R144). -/
def execHostWrite (addr : BitVec 29) (beats : List UpBeat) (s : State) : Host.Outcome State Fault Refusal :=
  if requestWellFormed addr beats.length then .next (s.present (.write addr beats)) else .refused .illFormed

/-- HOST_READ (R144). -/
def execHostRead (addr : BitVec 29) (beats : Nat) (s : State) : Host.Outcome State Fault Refusal :=
  if requestWellFormed addr beats then .next (s.present (.read addr beats)) else .refused .illFormed

end Sys2Proof.Machine
end

