-- ==== Sys2Proof/Machine/Arbiter.lean ====
section
/-! DEFINITION. The downstream port: the six requesters (R119, R146, R148), client credits (R150), the arbiter (R151)
and the drain of a REBALANCE (R153, R154). -/

namespace Sys2Proof.Machine

/-! ### Clients and credits (R150) -/

/-- The five clients (R150). -/
inductive Client where
  | pass
  | scan (d : OutputId)
  | comp
  | stat
  deriving DecidableEq, Repr

/-- The client of a request in flight. -/
def Flight.client : Flight → Client
  | .hostWrite _ => .pass
  | .hostRead _ _ _ => .pass
  | .scanRead d _ _ _ _ _ => .scan d
  | .compRead _ _ => .comp
  | .compWrite _ => .comp
  | .recordWrite _ => .stat
  | .blockWrite _ _ _ => .stat

/-- The credit count of a client (R150). -/
def Credits.of (c : Credits) : Client → Nat
  | .pass => c.pass
  | .scan .A => c.scanA
  | .scan .B => c.scanB
  | .comp => c.comp
  | .stat => c.stat

/-- The requests in flight of a client (R150). -/
def State.inFlightOf (s : State) (c : Client) : Nat := s.inFlight.countP fun f => f.client == c

/-! ### What PASS presents (R146, R148) -/

/-- The oldest read whose requests are not all issued (R148). -/
def State.oldestUnissued (s : State) : Option TrackedRead :=
  s.tracker.find? fun r => decide (r.issued < r.down.length)

/-- A read is held back: an earlier write beat at one of its addresses is in the write queue; tested before its first
request (R148). -/
def State.heldBack (s : State) (r : TrackedRead) : Bool :=
  r.issued == 0 &&
    s.writeQueue.any fun q => decide (q.request < r.id) && r.down.any fun b => b.addr == q.beat.addr

/-- How many of the addresses go on from address a, up to a limit. -/
def runOn : Nat → Nat → List Nat → Nat
  | 0, _, _ => 0
  | _ + 1, _, [] => 0
  | n + 1, a, b :: bs => if b = a + 8 then runOn n b bs + 1 else 0

/-- The length of the run at the head of a list of addresses: up to 16 at consecutive addresses (R146, R148). -/
def runLength : List Nat → Nat
  | [] => 0
  | a :: as => runOn 15 a as + 1

/-- The addresses of a read's next request (R148). DESIGN CHOICE: the longest run there is, which may go on over a stray
beat of the read (log entry 36). -/
def TrackedRead.nextRun (r : TrackedRead) : List Nat :=
  let rest := (r.down.drop r.issued).map (·.addr)
  rest.take (runLength rest)

/-- The head run of the write queue: beats of one stretch of one upstream request at consecutive addresses, up to 16; the
runs on either side of a stray beat are issued separately (R146). -/
def headRun (queue : List QueuedBeat) : List QueuedBeat :=
  match queue with
  | [] => []
  | q :: qs =>
    let own := q :: qs.takeWhile fun x => x.request == q.request && x.stretch == q.stretch
    own.take (runLength (own.map (·.beat.addr)))

/-- What PASS presents: the oldest unissued read unless it is held back, the head run otherwise (R148). -/
def State.passPresents (s : State) : Option Flight :=
  let write := if s.writeQueue.isEmpty then none else some (Flight.hostWrite ((headRun s.writeQueue).map (·.beat)))
  match s.oldestUnissued with
  | none => write
  | some r => if s.heldBack r then write else some (.hostRead r.id r.issued r.nextRun)

/-! ### What the other clients present (R65, R119, R170) -/

/-- What the fetcher of d presents: its next run, read from its front buffer (R119). -/
def State.scanPresents (s : State) (d : OutputId) : Option Flight :=
  let o := s.outputs.get d
  match o.nextRun with
  | none => none
  | some r => some (.scanRead d r.line r.pixel r.count (o.active.runBeats (s.comp.get d).front r) true)

/-- What the compositor presents: the next read of the tile, or its next row write once every read has returned
(R65). -/
def State.compPresents (s : State) : Option Flight :=
  match s.job with
  | none => none
  | some j =>
    match j.reads, j.writes with
    | r :: _, _ => some (.compRead r.layer r.addrs)
    | [], w :: _ => if j.readsOut = 0 then some (.compWrite w) else none
    | [], [] => none

/-- What the event writer presents (R170). -/
def State.statPresents (s : State) : Option Flight :=
  match s.events.presented with
  | none => none
  | some (.record beats) => some (.recordWrite beats)
  | some (.block b beats) => some (.blockWrite b true beats)

/-- The request a client presents, if it presents one (R150). -/
def State.presents (s : State) (c : Client) : Option Flight :=
  match c with
  | .pass => s.passPresents
  | .scan d => s.scanPresents d
  | .comp => s.compPresents
  | .stat => s.statPresents

/-! ### The arbiter (R151) -/

/-- A client presents a request and has a credit free (R151). -/
def State.eligible (s : State) (c : Client) : Bool :=
  (s.presents c).isSome && decide (s.inFlightOf c < s.activeCredits.of c)

/-- A fetcher is eligible at level 1, or at level 3 (R151). -/
def State.scanEligible (s : State) (urgent : Bool) (d : OutputId) : Bool :=
  s.eligible (.scan d) && ((s.outputs.get d).urgent == urgent)

/-- The scanout client granted at a level: the one the alternation names if both are eligible (R151). -/
def State.scanAt (s : State) (urgent : Bool) : Option Client :=
  if s.scanEligible urgent s.scanNext then some (.scan s.scanNext)
  else if s.scanEligible urgent (otherOutput s.scanNext) then some (.scan (otherOutput s.scanNext))
  else none

/-- A client if it is eligible. -/
def State.ifEligible (s : State) (c : Client) : Option Client := if s.eligible c then some c else none

/-- The client the arbiter grants, by level; none while a REBALANCE drains (R151, R154). -/
def State.grantee (s : State) : Option Client :=
  if s.drain.isSome then none
  else
    (s.scanAt true <|> s.ifEligible .pass <|> s.scanAt false <|> s.ifEligible .comp <|> s.ifEligible .stat)

/-- The tracker after a request of a read has been issued (R148). -/
def issueRead (id count : Nat) (tracker : List TrackedRead) : List TrackedRead :=
  tracker.map fun r => if r.id = id then { r with issued := r.issued + count } else r

/-- The job after its next read has been issued (R65). -/
def Job.issueRead (j : Job) : Job := { j with reads := j.reads.tail, readsOut := j.readsOut + 1 }

/-- The job after its next row write has been issued (R65). -/
def Job.issueWrite (j : Job) : Job := { j with writes := j.writes.tail, writesOut := j.writesOut + 1 }

/-- The requester's state after its request has been granted (R119, R146, R148, R151). -/
def State.afterGrant (s : State) (f : Flight) : State :=
  match f with
  | .hostWrite beats => { s with writeQueue := s.writeQueue.drop beats.length }
  | .hostRead id _ addrs => { s with tracker := Machine.issueRead id addrs.length s.tracker }
  | .scanRead d line pixel count _ _ =>
    { s.setOutput d ((s.outputs.get d).issueRun { line := line, pixel := pixel, count := count }) with
      scanNext := otherOutput d }
  | .compRead _ _ => { s with job := s.job.map Job.issueRead }
  | .compWrite _ => { s with job := s.job.map Job.issueWrite }
  | .recordWrite _ => { s with events := { s.events with presented := none } }
  | .blockWrite _ _ _ => { s with events := { s.events with presented := none } }

/-- A request joins those in flight; the write queue's places are free for a WRITE that waits (R144, R146, R150). -/
def State.grant (s : State) (f : Flight) : State :=
  ({ s.afterGrant f with inFlight := s.inFlight ++ [f] }).acceptWaiting

/-- The addresses of the beats of a request. -/
def Flight.addrs : Flight → List Nat
  | .hostWrite beats => beats.map (·.addr)
  | .hostRead _ _ addrs => addrs
  | .scanRead _ _ _ _ addrs _ => addrs
  | .compRead _ addrs => addrs
  | .compWrite beats => beats.map (·.addr)
  | .recordWrite beats => beats.map (·.addr)
  | .blockWrite _ _ beats => beats.map (·.addr)

/-- Every beat of a request lies in the DRAM (00_scope.md, Address map). -/
def Flight.inMemory (f : Flight) : Bool := f.addrs.all fun a => decide (a + 8 ≤ Config.memorySize)

/-- DOWNSTREAM_GRANT (R151): the downstream port takes a request of the client that the arbiter chooses; nothing
happens when there is none. -/
def execDownstreamGrant (s : State) : Host.Outcome State Fault Refusal :=
  match s.grantee.bind s.presents with
  | none => .next s
  | some f => if f.inMemory then .next (s.grant f) else .fault .addressNotInMemory

/-! ### REBALANCE (R153, R154) -/

/-- The drain ends once nothing is in flight: the active counts take the pending counts and REBALANCED is raised
(R154). -/
def State.endDrain (s : State) : State :=
  match s.drain with
  | none => s
  | some x =>
    if s.inFlight.isEmpty then
      { s with activeCredits := x.counts, drain := none }.raise
        { kind := .rebalanced, source := 0x30, frame := 0, reason := 0, a := word x.counts.sum, b := word x.noted }
    else s

/-- The checks of REBALANCE, with R153's step numbers. -/
def State.rebalanceChecks (s : State) : List (Bool × (Reason × Nat)) :=
  [(s.drain.isNone, (.busy, 1)), (decide (s.stagedCredits.sum ≤ Config.creditTotal), (.creditSum, 2))]

/-- REBALANCE (R153). -/
def State.takeRebalance (s : State) : State :=
  match firstFailure s.rebalanceChecks with
  | some (r, step) => s.raise (commandRefused 0x30 r (word s.stagedCredits.sum) (word step))
  | none => State.endDrain { s with drain := some { counts := s.stagedCredits, noted := s.inFlight.length } }

end Sys2Proof.Machine
end

