-- ==== Sys2Proof/Machine/EventWriter.lean ====
section
/-! DEFINITION. The event writer: the ring (R166 to R168), the status page (R169, R170, 10.5), and the control words
EVENT_MASK and EVENT_CONSUMED (R165, R167). -/

namespace Sys2Proof.Machine

/-! ### Event records (R166, 10.5) -/

/-- The 32 bytes of a record (10.5). -/
def Record.bytes (r : Record) : List Byte :=
  littleEndian 2 r.seq.toNat ++ [BitVec.ofNat 8 r.event.kind.code, BitVec.ofNat 8 r.event.source] ++
  littleEndian 2 r.event.frame.toNat ++ [BitVec.ofNat 8 r.event.reason, 0] ++ littleEndian 2 r.lost.toNat ++ [0, 0] ++
  littleEndian 4 r.event.a.toNat ++ littleEndian 4 r.event.b.toNat ++ List.replicate 12 0

/-- The address of ring slot i (R166). -/
def ringSlot (i : Byte) : Nat := Config.ringBase + 32 * i.toNat

/-- A record may be formed: an event waits, no record is in writing, the ring is not full (R166). -/
def EventWriter.recordDue (w : EventWriter) : Bool := !w.queue.isEmpty && w.inWriting.isNone && !w.ringFull

/-- The record that the oldest event becomes. -/
def EventWriter.nextRecord (w : EventWriter) (e : Event) : Record :=
  { slot := w.writeIndex, seq := w.seq, lost := w.lost, event := e }

/-- The oldest event is formed into a record and its write presented; a change of the lost count makes the global
block due (R166, R169, R170). DESIGN CHOICE: the record takes its queue place, its sequence number and the lost count in
the same step as it is presented (log entry 9). -/
def EventWriter.formRecord (w : EventWriter) : EventWriter :=
  match w.queue with
  | [] => w
  | e :: rest =>
    { w with
      queue := rest, seq := w.seq + 1, lost := 0,
      due := if w.lost = 0 then w.due else { w.due with global := true },
      inWriting := some (w.nextRecord e),
      presented := some (.record (beatsOfBytes (ringSlot w.writeIndex) (w.nextRecord e).bytes)),
      recordNext := false }

/-- The completion of a record write: the write index grows, the global block is due, the interrupt line follows the
indices (R166, R168). -/
def EventWriter.finishRecord (w : EventWriter) : EventWriter :=
  EventWriter.updateInterrupt
    { w with writeIndex := w.writeIndex + 1, inWriting := none, due := { w.due with global := true } }

/-! ### Blocks of the status page (R169, 10.5) -/

/-- The address of a block (10.5). -/
def blockAddr : Block → Nat
  | .global => Config.statusBase
  | .output .A => Config.statusBase + 0x080
  | .output .B => Config.statusBase + 0x100
  | .stream .S0 => Config.statusBase + 0x180
  | .stream .S1 => Config.statusBase + 0x200
  | .readback => Config.statusBase + 0x280

/-- The 32 bytes of the global block (10.5). -/
def EventWriter.globalBytes (w : EventWriter) : List Byte :=
  littleEndian 2 0x2410 ++ [BitVec.ofNat 8 (causeCode w.cause), 0, w.writeIndex, 0, 0, 0] ++
  littleEndian 2 w.lost.toNat ++ List.replicate 22 0

/-- The eight bytes of the panel record in an output block; 0 when it is absent (10.5). -/
def panelBytes : Option PanelRecord → List Byte
  | none => List.replicate 8 0
  | some p => littleEndian 2 p.width ++ littleEndian 2 p.height ++ littleEndian 4 p.clock

/-- The 64 bytes of the block of output d (R123, R142, 10.5). -/
def State.outputBytes (s : State) (d : OutputId) : List Byte :=
  let o := s.outputs.get d
  let l := s.links.get d
  let c := s.comp.get d
  let m := (s.damage.get d).list
  [BitVec.ofNat 8 (outputStateCode o.state), BitVec.ofNat 8 (resumeCode o.resume), BitVec.ofNat 8 (flag o.lock),
    BitVec.ofNat 8 (linkStateCode l.state)] ++
  littleEndian 2 o.frameCounter.toNat ++
  [BitVec.ofNat 8 c.front.val, BitVec.ofNat 8 (flag o.blank), BitVec.ofNat 8 m.entries.length,
    BitVec.ofNat 8 (flag m.whole), BitVec.ofNat 8 (linkReasonCode l.reason), BitVec.ofNat 8 (flag l.panel.isSome)] ++
  panelBytes l.panel ++
  ([c.missed, o.underflows, l.counters.skipped, l.counters.replays, l.counters.reinits, l.counters.badRefs,
    l.counters.badCrcs].flatMap fun n => littleEndian 2 n.toNat) ++ List.replicate 30 0

/-- The 64 bytes of the readback area (R162, 10.5); the words beyond the entry's are 0. -/
def readbackBytes : Option Readback → List Byte
  | none => List.replicate 64 0
  | some r =>
    [r.table, r.entry, r.selector, 0] ++
    ((List.range 8).flatMap fun w => littleEndian 4 (entryWord r.words w).toNat) ++ List.replicate 28 0

/-- The bytes of a block as its items stand (R169). -/
def State.blockBytes (s : State) (b : Block) : List Byte :=
  match b with
  | .global => s.events.globalBytes
  | .output d => s.outputBytes d
  | .stream k => (s.streams.get k).bytes
  | .readback => readbackBytes s.events.readback

/-- A block is due (R169). -/
def DueMarks.has (m : DueMarks) : Block → Bool
  | .global => m.global
  | .output d => m.output.get d
  | .stream k => m.stream.get k
  | .readback => m.readback

/-- The mark of a block cleared (R169). -/
def DueMarks.clear (m : DueMarks) : Block → DueMarks
  | .global => { m with global := false }
  | .output d => { m with output := m.output.set d false }
  | .stream k => { m with stream := m.stream.set k false }
  | .readback => { m with readback := false }

/-- The order in which due blocks are taken (R170). -/
def blockOrder : List Block := [.global, .output .A, .output .B, .stream .S0, .stream .S1, .readback]

/-- The due block that is taken next (R170). -/
def EventWriter.nextBlock (w : EventWriter) : Option Block := blockOrder.find? w.due.has

/-- The write of a block presented, its items read as they stand and its mark cleared (R169, R170). -/
def State.presentBlock (s : State) (b : Block) : State :=
  { s with events := { s.events with
      due := s.events.due.clear b
      presented := some (.block b (beatsOfBytes (blockAddr b) (s.blockBytes b)))
      recordNext := true } }

/-! ### Choosing what to present (R170, log entry 9) -/

/-- The event writer forms and presents a record next (R166, R170). DESIGN CHOICE: besides R166's three conditions, nothing
is presented and it is a record's turn, so that no record is formed while a block write is presented and ungranted or when a
due block comes first (log entry 9). -/
def EventWriter.recordTurn (w : EventWriter) : Bool :=
  w.presented.isNone && w.recordDue && (w.recordNext || w.nextBlock.isNone)

/-- The block that the event writer presents next (R170). -/
def EventWriter.blockTurn (w : EventWriter) : Option Block :=
  if w.presented.isNone && !(w.recordDue && w.recordNext) then w.nextBlock else none

/-- RECORD_FORM (R166, R170). -/
def execRecordForm (s : State) : Host.Outcome State Fault Refusal :=
  if s.events.recordTurn then .next { s with events := s.events.formRecord } else .next s

/-- STATUS_BLOCK_WRITE (R169, R170). -/
def execStatusBlockWrite (s : State) : Host.Outcome State Fault Refusal :=
  match s.events.blockTurn with
  | none => .next s
  | some b => .next (s.presentBlock b)

/-! ### EVENT_MASK and EVENT_CONSUMED (R165, R167) -/

/-- EVENT_MASK (R165). -/
def State.takeMask (s : State) (w : Word) : State := { s with events := { s.events with mask := maskOf w } }

/-- Slot c lies on the ring path from the consumed index to the write index, both included (R167). -/
def EventWriter.onPath (w : EventWriter) (c : Byte) : Bool :=
  decide ((c - w.consumed).toNat ≤ (w.writeIndex - w.consumed).toNat)

/-- EVENT_CONSUMED (R167, R168). -/
def State.takeConsumed (s : State) (w : Word) : State :=
  let c := BitVec.ofNat 8 (bits w 0 8)
  if s.events.onPath c then { s with events := EventWriter.updateInterrupt { s.events with consumed := c } }
  else s.raise (commandRefused 0 .badIndex (word c.toNat) (word s.events.consumed.toNat))

/-- EVENT_MASK (R165). -/
def execEventMask (w : Word) (s : State) : Host.Outcome State Fault Refusal := .next (s.takeMask w)

/-- EVENT_CONSUMED (R167). -/
def execEventConsumed (w : Word) (s : State) : Host.Outcome State Fault Refusal := .next (s.takeConsumed w)

end Sys2Proof.Machine
end

