-- ==== Sys2Proof/Machine/Resets.lean ====
section
/-! DEFINITION. CLEAR_COUNTERS (R163), the soft reset (R164), the hardware reset (R156, R171) and its release (R171), with
the reset values of R9, R38, R53, R76, R105, R124, R143. -/

namespace Sys2Proof.Machine

/-! ### CLEAR_COUNTERS (R163) -/

/-- The counters of an output 0 (R122, R163). -/
def Output.clearCounters (o : Output) : Output := { o with underflows := 0, frameUnderflows := 0 }

/-- The missed-flip counter 0 (R60, R163). -/
def CompOutput.clearCounters (c : CompOutput) : CompOutput := { c with missed := 0 }

/-- The five counters of a link 0 (R142). -/
def Link.clearCounters (l : Link) : Link := { l with counters := .zero }

/-- The eight counters of a stream 0 (R104). -/
def Stream.clearCounters (x : Stream) : Stream := { x with counters := .zero }

/-- Both sides of a pair changed alike. -/
def PerOutput.map {α : Type} (f : α → α) (p : PerOutput α) : PerOutput α := ⟨f p.A, f p.B⟩

/-- Both sides of a pair changed alike. -/
def PerStream.map {α : Type} (f : α → α) (p : PerStream α) : PerStream α := ⟨f p.S0, f p.S1⟩

/-- CLEAR_COUNTERS (R163). -/
def State.takeClearCounters (s : State) : State :=
  { s with
    comp := s.comp.map CompOutput.clearCounters
    outputs := s.outputs.map Output.clearCounters
    links := s.links.map Link.clearCounters
    streams := s.streams.map Stream.clearCounters
    events := { s.events with lost := 0, due := s.events.due.markBlocks } }

/-! ### SOFT_RESET (R164) -/

/-- An output after a soft reset: the staged timing kept, everything else as after a hardware reset (R124). -/
def Output.softReset (o : Output) : Output := { Output.reset with staged := o.staged }

/-- A link after a reset: every item at its reset value, what it has sent kept (R143, log entry 13). -/
def Link.toReset (l : Link) : Link := { Link.reset with sent := l.sent }

/-- The outputs and their timing generators, fetchers and synthesizers reset (R124); reads of the fetchers in flight
complete without notice (R113). -/
def State.resetOutputs (s : State) : State :=
  let t := bothOutputs.foldl (fun t d => t.stopFetcher d) s
  { t with outputs := t.outputs.map Output.softReset }

/-- The link of d goes to DOWN with HALT, and its record takes the reset values (R140, R143). -/
def State.resetLink (s : State) (d : OutputId) : State :=
  let t := s.runLink d fun d fc l => l.toDown d fc true
  t.setLink d (t.links.get d).toReset

/-- A block write of the readback area whose completion no longer counts (R162). -/
def Flight.cancelReadback : Flight → Flight
  | .blockWrite .readback _ beats => .blockWrite .readback false beats
  | f => f

/-- A presented write of the readback area is not made (R162). -/
def withoutReadback : Option StatRequest → Option StatRequest
  | some (.block .readback _) => none
  | p => p

/-- The pending readback cancelled: its write, if issued, completes in memory without READBACK_DONE; if not, it is not
made (R162). -/
def State.cancelReadback (s : State) : State :=
  { s with
    inFlight := s.inFlight.map Flight.cancelReadback
    events := { s.events with readback := none, due := { s.events.due with readback := false },
                              presented := withoutReadback s.events.presented } }

/-- RESET_DONE (R164, R171). -/
def resetDone (cause : ResetCause) : Event :=
  { kind := .resetDone, source := 0, frame := 0, reason := 0, a := word (causeCode cause), b := 0 }

/-- The compositor after a soft reset: both compositions abandoned, then the values of R76. DESIGN CHOICE: output A's is
abandoned before output B's (log entry 33). -/
def State.resetCompositor (s : State) : State :=
  { bothOutputs.foldl (fun t d => t.abandon d) s with comp := ⟨.reset, .reset⟩, turn := .A }

/-- The links and the link settings record after a soft reset (R140, R143). DESIGN CHOICE: link A goes to DOWN before
link B (log entry 33). -/
def State.resetLinks (s : State) : State :=
  { bothOutputs.foldl (fun t d => t.resetLink d) s with linkSettings := .default }

/-- The layer tables, the streams, the damage records and the table port after a reset (R38, R53, R105, R164). -/
def State.resetTables (s : State) : State :=
  { s with
    layers := State.reset.layers
    streams := State.reset.streams
    damage := State.reset.damage
    port := State.reset.port }

/-- The event writer's part in a soft reset: the cause, RESET_DONE, all five status blocks due (R164). -/
def State.announceReset (s : State) (cause : ResetCause) : State :=
  (({ s with events := { s.events with cause := cause } }).raise (resetDone cause)).mark DueMarks.markBlocks

/-- SOFT_RESET, whole, in R164's order. DESIGN CHOICE: the alternation of records and blocks is kept as it stands, R171's
"keeps all of these items" taken over R170's "after a reset" (log entry 37). -/
def State.takeSoftReset (s : State) : State :=
  s.resetCompositor.resetOutputs.resetLinks.resetTables.cancelReadback.announceReset .soft

/-! ### The hardware reset (R156, R171) -/

/-- The write beats of a request in flight that have not completed. -/
def Flight.writes : Flight → List WriteBeat
  | .hostWrite beats => beats
  | .compWrite beats => beats
  | .recordWrite beats => beats
  | .blockWrite _ _ beats => beats
  | .hostRead _ _ _ => []
  | .scanRead _ _ _ _ _ _ => []
  | .compRead _ _ => []

/-- Memory once the write requests already issued have completed (R156, log entry 10). -/
def State.settledMemory (s : State) : Memory := s.mem.writeBeats (s.inFlight.flatMap Flight.writes)

/-- The reset cause that a hardware reset leaves (R171). -/
def causeOf : HardwareCause → ResetCause
  | .powerOn => .powerOn
  | .resetLine => .resetLine

/-- The part once the reset line is asserted, or at power-on: every reset value, the memory kept, the host's waiting
requests kept, the reset line asserted (R156, R171, log entries 10 to 13). -/
def State.hardwareReset (s : State) (cause : HardwareCause) : State :=
  { State.reset with
    mem := s.settledMemory
    upstream := s.upstream
    nextRequest := s.nextRequest
    hostData := s.hostData
    links := s.links.map Link.toReset
    events := .reset (causeOf cause)
    pending := s.pending }

/-- The reset line is released: RESET_DONE is raised, all five status blocks become due, and waiting requests may be
accepted (R156, R171). -/
def State.releaseReset (s : State) : State :=
  if s.resetAsserted then
    (State.announceReset { s with resetAsserted := false } s.events.cause).acceptWaiting
  else s

/-- CLEAR_COUNTERS (R163). -/
def execClearCounters (s : State) : Host.Outcome State Fault Refusal := .next s.takeClearCounters

/-- SOFT_RESET (R164). -/
def execSoftReset (s : State) : Host.Outcome State Fault Refusal := .next s.takeSoftReset

/-- HARDWARE_RESET (R156, R171). -/
def execHardwareReset (cause : HardwareCause) (s : State) : Host.Outcome State Fault Refusal :=
  .next (s.hardwareReset cause)

/-- RESET_RELEASE (R171). -/
def execResetRelease (s : State) : Host.Outcome State Fault Refusal := .next s.releaseReset

end Sys2Proof.Machine
end

