-- ==== Sys2Proof/Machine/Commands.lean ====
section
/-! DEFINITION. The commands of the COMMAND word (R161) and the control capture (R158). -/

namespace Sys2Proof.Machine

/-- A command refused with BAD_OPERAND for its operand 1 (R161). -/
def State.refuseOperand (s : State) (code : Nat) (operand : Byte) : State :=
  s.raise (commandRefused code .badOperand (word operand.toNat) 1)

/-- A command whose operand 1 is an output (R161). -/
def State.onOutput (s : State) (code : Nat) (operand : Byte) (f : OutputId → State) : State :=
  match outputOfOperand operand with
  | none => s.refuseOperand code operand
  | some d => f d

/-- A command whose operand 1 is a stream (R161). -/
def State.onStream (s : State) (code : Nat) (operand : Byte) (f : StreamId → State) : State :=
  match streamOfOperand operand with
  | none => s.refuseOperand code operand
  | some k => f k

/-! ### Each command -/

/-- COMMIT (R45). -/
def State.takeCommit (s : State) (operand : Byte) : State :=
  s.onOutput 0x01 operand fun d => s.setLayers d { s.layers.get d with commitPending := true }

/-- INVALIDATE (R33). -/
def State.takeInvalidate (s : State) (operand : Byte) : State := s.onOutput 0x02 operand s.invalidate

/-- A stream command refused with BAD_STATE: operand A the stream, operand B its state code (R98, R99). -/
def State.refuseStream (s : State) (code : Nat) (k : StreamId) : State :=
  s.raise (commandRefused code .badState (word (streamNumber k)) (word (streamStateCode (s.streams.get k).state)))

/-- STREAM_START k (R90). -/
def State.startStream (s : State) (k : StreamId) : State :=
  match firstFailure (s.startChecks k) with
  | some (r, step) => s.raise (commandRefused 0x10 r (word (streamNumber k)) (word step))
  | none => s.updateStream k ((s.streams.get k).start k (s.pacingFrame k))

/-- STREAM_PAUSE k (R98). -/
def State.pauseStream (s : State) (k : StreamId) : State :=
  if (s.streams.get k).state = .running then
    s.updateStream k ((s.streams.get k).enter k (s.pacingFrame k) .paused)
  else s.refuseStream 0x11 k

/-- STREAM_RESUME k (R99). -/
def State.resumeStream (s : State) (k : StreamId) : State :=
  if (s.streams.get k).state = .paused then
    s.updateStream k ((s.streams.get k).enter k (s.pacingFrame k) .running)
  else s.refuseStream 0x12 k

/-- STREAM_STOP k (R100). -/
def State.stopStream (s : State) (k : StreamId) : State :=
  let x := s.streams.get k
  if x.state = .stopped then s
  else
    let t := s.updateStream k (x.stop k (s.pacingFrame k))
    let u := if x.shownSlot.isSome then t.damageStream k else t
    u.updateStream k ((u.streams.get k).enter k (u.pacingFrame k) .stopped)

/-- STREAM_START (R90). -/
def State.takeStreamStart (s : State) (operand : Byte) : State := s.onStream 0x10 operand s.startStream

/-- STREAM_PAUSE (R98). -/
def State.takeStreamPause (s : State) (operand : Byte) : State := s.onStream 0x11 operand s.pauseStream

/-- STREAM_RESUME (R99). -/
def State.takeStreamResume (s : State) (operand : Byte) : State := s.onStream 0x12 operand s.resumeStream

/-- STREAM_STOP (R100). -/
def State.takeStreamStop (s : State) (operand : Byte) : State := s.onStream 0x13 operand s.stopStream

/-- OUTPUT_START (R108, R109). -/
def State.takeOutputStart (s : State) (operand : Byte) : State := s.onOutput 0x20 operand s.startOutput

/-- OUTPUT_STOP (R115). -/
def State.takeOutputStop (s : State) (operand : Byte) : State := s.onOutput 0x21 operand s.stopOutput

/-- OUTPUT_FREEZE (R112). -/
def State.takeOutputFreeze (s : State) (operand : Byte) : State := s.onOutput 0x22 operand s.freezeOutput

/-- OUTPUT_THAW (R112). -/
def State.takeOutputThaw (s : State) (operand : Byte) : State := s.onOutput 0x23 operand s.thawOutput

/-- A command code that is not in the table: operand A is operand 1 and operand B operand 2 as written (R161). -/
def State.refuseUnknown (s : State) (code operand1 : Byte) (operand2 : BitVec 16) : State :=
  s.raise (commandRefused code.toNat .unknown (word operand1.toNat) (word operand2.toNat))

/-- A command by its fields (9.3, 10.2). -/
def State.takeCommandFields (s : State) (code operand1 : Byte) (operand2 : BitVec 16) : State :=
  match code.toNat with
  | 0x01 => s.takeCommit operand1
  | 0x02 => s.takeInvalidate operand1
  | 0x10 => s.takeStreamStart operand1
  | 0x11 => s.takeStreamPause operand1
  | 0x12 => s.takeStreamResume operand1
  | 0x13 => s.takeStreamStop operand1
  | 0x20 => s.takeOutputStart operand1
  | 0x21 => s.takeOutputStop operand1
  | 0x22 => s.takeOutputFreeze operand1
  | 0x23 => s.takeOutputThaw operand1
  | 0x30 => s.takeRebalance
  | 0x40 => s.takeReadback operand1 (operand2.truncate 8) ((operand2 >>> 8).truncate 8)
  | 0x41 => s.takeClearCounters
  | 0x7F => s.takeSoftReset
  | _ => s.refuseUnknown code operand1 operand2

/-- A taken COMMAND word (R161, 10.2). -/
def State.takeCommand (s : State) (w : Word) : State :=
  s.takeCommandFields (w.truncate 8) ((w >>> 8).truncate 8) ((w >>> 16).truncate 16)

/-! ### The control capture (R158) -/

/-- The word at address a is taken, if it is one of the five control words (R158). -/
def State.takeWord (s : State) (a : Nat) (w : Word) : State :=
  if a = Config.controlBase then s.selectTable w
  else if a = Config.controlBase + 4 then s.takeTableData w
  else if a = Config.controlBase + 8 then s.takeCommand w
  else if a = Config.controlBase + 12 then s.takeMask w
  else if a = Config.controlBase + 16 then s.takeConsumed w
  else s

/-- The word at address a of a beat is taken, when the beat covers it with all four bytes enabled (R158). -/
def State.captureAt (s : State) (b : WriteBeat) (a : Nat) : State :=
  match b.wordAt a with
  | none => s
  | some w => s.takeWord a w

/-- The control capture's notice of a completed PASS write beat: the word at the lower address first (R158). -/
def State.controlCapture (s : State) (b : WriteBeat) : State := (s.captureAt b b.addr).captureAt b (b.addr + 4)

/-! ### The meanings of the control words and commands as commands of their own (log entry 1) -/

/-- TABLE_SELECT (R159). -/
def execTableSelect (w : Word) (s : State) : Host.Outcome State Fault Refusal := .next (s.selectTable w)

/-- TABLE_DATA (R160); a surface entry may let a waiting WRITE be accepted (R144, R145). -/
def execTableData (w : Word) (s : State) : Host.Outcome State Fault Refusal := .next (s.takeTableData w).acceptWaiting

/-- COMMIT (R45). -/
def execCommit (operand : Byte) (s : State) : Host.Outcome State Fault Refusal := .next (s.takeCommit operand)

/-- INVALIDATE (R33). -/
def execInvalidate (operand : Byte) (s : State) : Host.Outcome State Fault Refusal := .next (s.takeInvalidate operand)

/-- STREAM_START (R90). -/
def execStreamStart (operand : Byte) (s : State) : Host.Outcome State Fault Refusal :=
  .next (s.takeStreamStart operand)

/-- STREAM_PAUSE (R98). -/
def execStreamPause (operand : Byte) (s : State) : Host.Outcome State Fault Refusal :=
  .next (s.takeStreamPause operand)

/-- STREAM_RESUME (R99). -/
def execStreamResume (operand : Byte) (s : State) : Host.Outcome State Fault Refusal :=
  .next (s.takeStreamResume operand)

/-- STREAM_STOP (R100). -/
def execStreamStop (operand : Byte) (s : State) : Host.Outcome State Fault Refusal := .next (s.takeStreamStop operand)

/-- OUTPUT_START (R108, R109). -/
def execOutputStart (operand : Byte) (s : State) : Host.Outcome State Fault Refusal :=
  .next (s.takeOutputStart operand)

/-- OUTPUT_STOP (R115). -/
def execOutputStop (operand : Byte) (s : State) : Host.Outcome State Fault Refusal := .next (s.takeOutputStop operand)

/-- OUTPUT_FREEZE (R112). -/
def execOutputFreeze (operand : Byte) (s : State) : Host.Outcome State Fault Refusal :=
  .next (s.takeOutputFreeze operand)

/-- OUTPUT_THAW (R112). -/
def execOutputThaw (operand : Byte) (s : State) : Host.Outcome State Fault Refusal := .next (s.takeOutputThaw operand)

/-- REBALANCE (R153). -/
def execRebalance (s : State) : Host.Outcome State Fault Refusal := .next s.takeRebalance

/-- READBACK (R162). -/
def execReadback (table entry selector : Byte) (s : State) : Host.Outcome State Fault Refusal :=
  .next (s.takeReadback table entry selector)

/-- UNKNOWN_COMMAND (R161); a code that the table does name is carried out as that command (log entry 21). -/
def execUnknownCommand (code operand1 : Byte) (operand2 : BitVec 16) (s : State) : Host.Outcome State Fault Refusal :=
  .next (s.takeCommandFields code operand1 operand2)

end Sys2Proof.Machine
end

