-- ==== Sys2Proof/Machine/Completions.lean ====
section
/-! DEFINITION. What the memory's completions do (R147): the notice of a PASS write beat, the data of reads, tiles,
records and blocks; and TILE_TAKE. Each command acts on the oldest request in flight, and does nothing when that is not
of its kind (R147, log entries 3 and 16). -/

namespace Sys2Proof.Machine

/-- The oldest request leaves the port, and with the last one a drain ends (R147, R150, R154, log entry 17). -/
def State.removeOldest (s : State) : State := State.endDrain { s with inFlight := s.inFlight.tail }

/-- The beats of a request written to memory (R147). -/
def State.writeMemory (s : State) (beats : List WriteBeat) : State := { s with mem := s.mem.writeBeats beats }

/-- The data of a read's beats, as memory stands at its completion. -/
def State.readMemory (s : State) (addrs : List Nat) : List BeatData := addrs.map s.mem.readBeat

/-! ### Host writes (R147) -/

/-- The three blocks take notice of a completed PASS write beat (R147). -/
def State.notice (s : State) (b : WriteBeat) : State := ((s.damageNotice b).streamNotice b).controlCapture b

/-- The rest of a host write goes back to the head of the requests in flight (R147). -/
def State.restoreWrite (s : State) (rest : List WriteBeat) : State :=
  { s with inFlight := .hostWrite rest :: s.inFlight }

/-- The memory completes one beat of the oldest request, a host write; the request is not counted in flight by what
its own beat causes (R147, R153). -/
def State.completeHostBeat (s : State) (b : WriteBeat) (rest : List WriteBeat) : State :=
  let t := s.writeMemory [b]
  if rest = [] then (t.removeOldest.notice b).acceptWaiting
  else ((State.notice { t with inFlight := t.inFlight.tail } b).restoreWrite rest).acceptWaiting

/-- HOST_WRITE_COMPLETION (R147). -/
def execHostWriteCompletion (s : State) : Host.Outcome State Fault Refusal :=
  match s.inFlight.head? with
  | some (.hostWrite (b :: rest)) => .next (s.completeHostBeat b rest)
  | _ => .next s

/-! ### Host reads (R149) -/

/-- The data of a request put into a read from a beat on. -/
def TrackedRead.fill (start : Nat) (data : List BeatData) (r : TrackedRead) : TrackedRead :=
  { r with down := r.down.mapIdx fun i b =>
      if start ≤ i ∧ i < start + data.length then { b with data := some (data.getD (i - start) 0) } else b }

/-- The data of a request of the read `id` comes back (R149). -/
def State.returnData (s : State) (id start : Nat) (data : List BeatData) : State :=
  { s with tracker := s.tracker.map fun r => if r.id = id then r.fill start data else r }

/-- HOST_READ_COMPLETION (R149). -/
def execHostReadCompletion (s : State) : Host.Outcome State Fault Refusal :=
  match s.inFlight.head? with
  | some (.hostRead id start addrs) =>
    .next ((s.removeOldest.returnData id start (s.readMemory addrs)).returnReads).acceptWaiting
  | _ => .next s

/-! ### Scanout reads (R119, R120) -/

/-- The pixels of a run come back: they enter the FIFO, or are discarded (R119, R120). -/
def State.returnPixels (s : State) (d : OutputId) (r : Run) (data : List BeatData) (live : Bool) : State :=
  if live then s.setOutput d ((s.outputs.get d).returnRun r data) else s

/-- SCAN_READ_COMPLETION (R119). -/
def execScanReadCompletion (s : State) : Host.Outcome State Fault Refusal :=
  match s.inFlight.head? with
  | some (.scanRead d line pixel count addrs live) =>
    .next (s.removeOldest.returnPixels d { line := line, pixel := pixel, count := count } (s.readMemory addrs) live)
  | _ => .next s

/-! ### The compositor (R65, R67, R73) -/

/-- TILE_TAKE (R65, R70). -/
def execTileTake (s : State) : Host.Outcome State Fault Refusal := .next s.tileTake

/-- The beats that a read of a tile has returned, by layer and address. -/
def tileData (layer : Nat) (addrs : List Nat) (data : List BeatData) : List TileData :=
  (addrs.zip data).map fun p => { layer := layer, addr := p.1, data := p.2 }

/-- A live job after one of its reads has returned; the last one forms the row writes (R65). -/
def State.jobRead (s : State) (j : Job) (found : List TileData) : State :=
  { s with job := some (s.formWrites { j with readsOut := j.readsOut - 1, data := j.data ++ found }) }

/-- An abandoned job after one of its requests has completed: the engine is free once none is left (R73). -/
def State.dropJob (s : State) (j : Job) : State := { s with job := if j.idle then none else some j }

/-- A read of the compositor returns (R65, R73). -/
def State.compRead (s : State) (found : List TileData) : State :=
  match s.job with
  | none => s
  | some j => if j.live then s.jobRead j found else s.dropJob { j with readsOut := j.readsOut - 1 }

/-- COMP_READ_COMPLETION (R65). -/
def execCompReadCompletion (s : State) : Host.Outcome State Fault Refusal :=
  match s.inFlight.head? with
  | some (.compRead layer addrs) => .next (s.removeOldest.compRead (tileData layer addrs (s.readMemory addrs)))
  | _ => .next s

/-- A live job after one of its row writes has completed: with the last one the tile completes and the engine is free
(R65, R67). -/
def State.jobWrite (s : State) (j : Job) : State :=
  if j.done then State.completeTile { s with job := none } j.output else { s with job := some j }

/-- A row write of the compositor completes (R65, R73). -/
def State.compWrite (s : State) : State :=
  match s.job with
  | none => s
  | some j =>
    let k := { j with writesOut := j.writesOut - 1 }
    if j.live then s.jobWrite k else s.dropJob k

/-- COMP_WRITE_COMPLETION (R65, R73). -/
def execCompWriteCompletion (s : State) : Host.Outcome State Fault Refusal :=
  match s.inFlight.head? with
  | some (.compWrite beats) => .next ((s.writeMemory beats).removeOldest.compWrite)
  | _ => .next s

/-- The tile in hand has one request left, a row write in flight (R65). -/
def State.lastRow (s : State) : Bool :=
  match s.job with
  | none => false
  | some j => j.live && j.reads.isEmpty && j.writes.isEmpty && j.readsOut == 0 && j.writesOut == 1

/-- TILE_COMPLETION (R65, R67): the memory completes the last row write of the tile in hand. -/
def execTileCompletion (s : State) : Host.Outcome State Fault Refusal :=
  match s.inFlight.head? with
  | some (.compWrite beats) => if s.lastRow then .next ((s.writeMemory beats).removeOldest.compWrite) else .next s
  | _ => .next s

/-! ### Records and blocks (R162, R166, R169) -/

/-- RECORD_WRITE_COMPLETION (R166). -/
def execRecordWriteCompletion (s : State) : Host.Outcome State Fault Refusal :=
  match s.inFlight.head? with
  | some (.recordWrite beats) =>
    let t := (s.writeMemory beats).removeOldest
    .next { t with events := t.events.finishRecord }
  | _ => .next s

/-- READBACK_DONE for the pending readback, which is no longer pending (R162). -/
def State.readbackFinished (s : State) : State :=
  match s.events.readback with
  | none => s
  | some r =>
    { s with events := { s.events with readback := none } }.raise
      { kind := .readbackDone, source := r.table.toNat, frame := 0, reason := 0, a := word r.entry.toNat,
        b := word r.selector.toNat }

/-- The write of a block completes (R162, R169). -/
def State.blockWritten (s : State) (b : Block) (live : Bool) : State :=
  if b = .readback ∧ live then s.readbackFinished else s

/-- STATUS_BLOCK_COMPLETION (R169). -/
def execStatusBlockCompletion (s : State) : Host.Outcome State Fault Refusal :=
  match s.inFlight.head? with
  | some (.blockWrite b live beats) => .next ((s.writeMemory beats).removeOldest.blockWritten b live)
  | _ => .next s

/-- READBACK_DONE (R162): the write of the readback area completes. -/
def execReadbackDone (s : State) : Host.Outcome State Fault Refusal :=
  match s.inFlight.head? with
  | some (.blockWrite .readback true beats) => .next ((s.writeMemory beats).removeOldest.blockWritten .readback true)
  | _ => .next s

end Sys2Proof.Machine
end

