-- ==== Sys2Proof/Machine/LineEvents.lean ====
section
/-! DEFINITION. The events of the timing generators, the synthesizers and the panels, as commands (R110, R113, R117, R126 to
R138). The rows that name a special line start do nothing at another one (log entries 2 and 3). -/

namespace Sys2Proof.Machine

/-- LINE_START (R117, R133); an epoch takes its reactions in the default order (log entry 7). -/
def execLineStart (d : OutputId) (s : State) : Host.Outcome State Fault Refusal := .next (s.lineStart d [])

/-- FRAME_EPOCH (R117): the line start of the epoch line, with the link's own steps before the epoch where the order names
them, after it otherwise (R141). -/
def execFrameEpoch (d : OutputId) (order : List EpochReaction) (s : State) : Host.Outcome State Fault Refusal :=
  if s.epochNext d then
    .next (if order.contains .linkSteps then s.linkBeforeEpoch d order else s.lineStart d order)
  else .next s

/-- ANNOUNCE_TIMEOUT (R129): the line start at which the ANNOUNCING timer reaches 64. -/
def execAnnounceTimeout (d : OutputId) (s : State) : Host.Outcome State Fault Refusal :=
  if s.timerEnds d .announcing 64 then .next (s.lineStart d []) else .next s

/-- CONFIGURING_EXPIRY (R131): the line start at which the CONFIGURING timer reaches 1024. -/
def execConfiguringExpiry (d : OutputId) (s : State) : Host.Outcome State Fault Refusal :=
  if s.timerEnds d .configuring 1024 then .next (s.lineStart d []) else .next s

/-- CONFIRM_TIMEOUT (R135): the line start at which the oldest packet's wait reaches the confirm timeout. -/
def execConfirmTimeout (d : OutputId) (s : State) : Host.Outcome State Fault Refusal :=
  if s.waitEnds d then .next (s.lineStart d []) else .next s

/-- LOCK_COMPLETION (R110). -/
def execLockCompletion (d : OutputId) (s : State) : Host.Outcome State Fault Refusal := .next (s.lockCompletion d)

/-- LOCK_LOSS (R113). -/
def execLockLoss (d : OutputId) (s : State) : Host.Outcome State Fault Refusal := .next (s.lockLoss d)

/-- PANEL_INFO (R130). -/
def State.takePanelInfo (s : State) (d : OutputId) (w h clock : Nat) : State :=
  s.runLink d fun d fc l => l.panelInfo d fc (s.timing d) w h clock

/-- READY_NORMAL: the link reaches NORMAL, and tells its output (R111, R131). -/
def State.takeReadyNormal (s : State) (d : OutputId) : State :=
  let t := s.runLink d fun d fc l => l.readyNormal d fc
  if (s.links.get d).state = .configuring then t.leaveTraining d else t

/-- CONFIRM(q) (R134). -/
def State.takeConfirm (s : State) (d : OutputId) (q : Byte) : State := s.runLink d fun d fc l => l.confirm d fc q

/-- REPLAY_FROM(q) (R135). -/
def State.takeReplayFrom (s : State) (d : OutputId) (q : Byte) : State :=
  s.runLink d fun d fc l => l.replayFrom d fc q

/-- HALT from the panel (R138). -/
def State.takePanelHalt (s : State) (d : OutputId) : State := s.runLink d fun d fc l => l.panelHalt d fc

/-- A bad message from the panel (R126). -/
def State.takeBadMessage (s : State) (d : OutputId) : State := s.setLink d (s.links.get d).badMessage

/-- A message from the panel of d, good or bad (R126). -/
def State.takeMessage (s : State) (d : OutputId) (m : Option PanelMessage) : State :=
  match m with
  | none => s.takeBadMessage d
  | some (.info w h clock) => s.takePanelInfo d w.toNat h.toNat clock.toNat
  | some .readyNormal => s.takeReadyNormal d
  | some (.confirm q) => s.takeConfirm d q
  | some (.replayFrom q) => s.takeReplayFrom d q
  | some .halt => s.takePanelHalt d

/-- PANEL_INFO (R130). -/
def execPanelInfo (d : OutputId) (width height : BitVec 16) (clock : BitVec 32) (s : State) :
    Host.Outcome State Fault Refusal := .next (s.takePanelInfo d width.toNat height.toNat clock.toNat)

/-- READY_NORMAL (R131). -/
def execReadyNormal (d : OutputId) (s : State) : Host.Outcome State Fault Refusal := .next (s.takeReadyNormal d)

/-- CONFIRM(q) (R134). -/
def execConfirm (d : OutputId) (q : Byte) (s : State) : Host.Outcome State Fault Refusal := .next (s.takeConfirm d q)

/-- REPLAY_FROM(q) (R135). -/
def execReplayFrom (d : OutputId) (q : Byte) (s : State) : Host.Outcome State Fault Refusal :=
  .next (s.takeReplayFrom d q)

/-- HALT from the panel (R138). -/
def execPanelHalt (d : OutputId) (s : State) : Host.Outcome State Fault Refusal := .next (s.takePanelHalt d)

/-- BAD_PANEL_MESSAGE (R126): the bytes that arrived; bytes of a good message are taken as that message (log entry
21). -/
def execBadPanelMessage (d : OutputId) (bytes : List Byte) (s : State) : Host.Outcome State Fault Refusal :=
  .next (s.takeMessage d (parsePanelMessage bytes))

end Sys2Proof.Machine
end

