-- ==== Sys2Proof/Machine/Dispatch.lean ====
section
/-! DEFINITION. Dispatch: one arm for each command, each one call of its meaning. -/

namespace Sys2Proof.Machine

/-- What a command does to the part, its queue aside. -/
def exec (i : Instr) (s : State) : Host.Outcome State Fault Refusal :=
  match i with
  | .hostWrite addr beats => Sys2Proof.Machine.execHostWrite addr beats s
  | .hostRead addr beats => Sys2Proof.Machine.execHostRead addr beats s
  | .downstreamGrant => Sys2Proof.Machine.execDownstreamGrant s
  | .hostWriteCompletion => Sys2Proof.Machine.execHostWriteCompletion s
  | .hostReadCompletion => Sys2Proof.Machine.execHostReadCompletion s
  | .scanReadCompletion => Sys2Proof.Machine.execScanReadCompletion s
  | .tileTake => Sys2Proof.Machine.execTileTake s
  | .compReadCompletion => Sys2Proof.Machine.execCompReadCompletion s
  | .tileCompletion => Sys2Proof.Machine.execTileCompletion s
  | .recordForm => Sys2Proof.Machine.execRecordForm s
  | .recordWriteCompletion => Sys2Proof.Machine.execRecordWriteCompletion s
  | .statusBlockWrite => Sys2Proof.Machine.execStatusBlockWrite s
  | .statusBlockCompletion => Sys2Proof.Machine.execStatusBlockCompletion s
  | .readbackDone => Sys2Proof.Machine.execReadbackDone s
  | .tableSelect w => Sys2Proof.Machine.execTableSelect w s
  | .tableData w => Sys2Proof.Machine.execTableData w s
  | .commit operand => Sys2Proof.Machine.execCommit operand s
  | .invalidate operand => Sys2Proof.Machine.execInvalidate operand s
  | .streamStart operand => Sys2Proof.Machine.execStreamStart operand s
  | .streamPause operand => Sys2Proof.Machine.execStreamPause operand s
  | .streamResume operand => Sys2Proof.Machine.execStreamResume operand s
  | .streamStop operand => Sys2Proof.Machine.execStreamStop operand s
  | .outputStart operand => Sys2Proof.Machine.execOutputStart operand s
  | .outputStop operand => Sys2Proof.Machine.execOutputStop operand s
  | .outputFreeze operand => Sys2Proof.Machine.execOutputFreeze operand s
  | .outputThaw operand => Sys2Proof.Machine.execOutputThaw operand s
  | .rebalance => Sys2Proof.Machine.execRebalance s
  | .readback table entry selector => Sys2Proof.Machine.execReadback table entry selector s
  | .clearCounters => Sys2Proof.Machine.execClearCounters s
  | .softReset => Sys2Proof.Machine.execSoftReset s
  | .unknownCommand code operand1 operand2 => Sys2Proof.Machine.execUnknownCommand code operand1 operand2 s
  | .eventMask w => Sys2Proof.Machine.execEventMask w s
  | .eventConsumed w => Sys2Proof.Machine.execEventConsumed w s
  | .lineStart d => Sys2Proof.Machine.execLineStart d s
  | .frameEpoch d order => Sys2Proof.Machine.execFrameEpoch d order s
  | .announceTimeout d => Sys2Proof.Machine.execAnnounceTimeout d s
  | .configuringExpiry d => Sys2Proof.Machine.execConfiguringExpiry d s
  | .confirmTimeout d => Sys2Proof.Machine.execConfirmTimeout d s
  | .lockCompletion d => Sys2Proof.Machine.execLockCompletion d s
  | .lockLoss d => Sys2Proof.Machine.execLockLoss d s
  | .panelInfo d width height clock => Sys2Proof.Machine.execPanelInfo d width height clock s
  | .readyNormal d => Sys2Proof.Machine.execReadyNormal d s
  | .confirm d q => Sys2Proof.Machine.execConfirm d q s
  | .replayFrom d q => Sys2Proof.Machine.execReplayFrom d q s
  | .panelHalt d => Sys2Proof.Machine.execPanelHalt d s
  | .badPanelMessage d bytes => Sys2Proof.Machine.execBadPanelMessage d bytes s
  | .hardwareReset cause => Sys2Proof.Machine.execHardwareReset cause s
  | .resetRelease => Sys2Proof.Machine.execResetRelease s
  | .compWriteCompletion => Sys2Proof.Machine.execCompWriteCompletion s

end Sys2Proof.Machine
end

