-- ==== Sys2Proof/Machine/Step.lean ====
section
/-! DEFINITION. One step of the part, and how the host puts a command in front of it. -/

namespace Sys2Proof.Machine

/-- One step: the command at the front of the queue, with the queue's rest; on an empty queue the part idles (log
entry 4). -/
def step (s : State) : Host.Outcome State Fault Refusal :=
  match s.pending with
  | [] => .next s
  | c :: rest => exec c { s with pending := rest }

/-- The part with the command that a word spells put at the front of its queue; no row of the table gives bits, so no
word spells a command. -/
def State.withFetchWord (s : State) (nbits w : Nat) : State :=
  match decodeTableWord nbits w with
  | none => s
  | some c => { s with pending := c :: s.pending }

end Sys2Proof.Machine
end

