-- ==== Sys2Proof/Safety.lean ====
section
/-! DEFINITION. What a safe state of the part is: the limits that the spec gives its queues, lists, credits and lines. -/

namespace Sys2Proof.Safety

open Sys2Proof.Machine

/-- Memory is in canonical form (log entry 5). -/
def MemoryCanonical (s : State) : Prop := s.mem.wf = true

/-- The interrupt line is asserted exactly while the two indices differ (R168). -/
def InterruptFollows (s : State) : Prop := s.events.interrupt = (s.events.writeIndex != s.events.consumed)

/-- The write queue and the read tracker are within their sizes (R144, R146, R148). -/
def QueuesBounded (s : State) : Prop :=
  s.writeQueue.length ≤ Config.writeQueuePlaces ∧ s.tracker.length ≤ Config.trackerPlaces

/-- No client has more requests in flight than its active count, the active counts sum to at most 24, and so will they
after a drain; the staged PASS count is at least 1 (R150, R152, R153). -/
def CreditsKept (s : State) : Prop :=
  s.activeCredits.sum ≤ Config.creditTotal ∧
    (∀ x, s.drain = some x → x.counts.sum ≤ Config.creditTotal) ∧
    1 ≤ s.stagedCredits.pass ∧
    ∀ c, s.inFlightOf c ≤ s.activeCredits.of c

/-- Neither of two entries contains the other (R19). -/
def Apart (a b : TileRect) : Prop := a.contains b = false ∧ b.contains a = false

/-- A damage record obeys the limits of R19: at most 16 entries, none containing another, none at all under WHOLE. -/
def DamageSound (l : DamageList) : Prop :=
  l.entries.length ≤ Config.damagePlaces ∧ (l.whole = true → l.entries = []) ∧ l.entries.Pairwise Apart

/-- Every entry of a damage record lies within the tile grid of an active area (R19). -/
def WithinArea (cols rows : Nat) (l : DamageList) : Prop :=
  ∀ e ∈ l.entries, e.c0 ≤ e.c1 ∧ e.c1 < cols ∧ e.r0 ≤ e.r1 ∧ e.r1 < rows

/-- Each field, given as offset, size and value, lies in the bytes at its offset, least significant byte first (R172). -/
def FieldsAt (bytes : List Byte) (fields : List (Nat × Nat × Nat)) : Prop :=
  ∀ f ∈ fields, ∀ i, i < f.2.1 → bytes[f.1 + i]? = some (BitVec.ofNat 8 (f.2.2 / 256 ^ i))

/-- Each field, given as word, lowest bit, length and value, lies in the words of an entry at its bits (R172). -/
def WordsHold (ws : List Word) (fields : List (Nat × Nat × Nat × Nat)) : Prop :=
  ∀ f ∈ fields, (ws.getD f.1 0).toNat / 2 ^ f.2.1 % 2 ^ f.2.2.1 = f.2.2.2 % 2 ^ f.2.2.1

/-- The words of an entry as its owner holds it: every bit of every word, the reserved ones 0; `active` chooses the copy of
the tables that have two (9.2, 10.3, R103, R160, R162, R173). The six positions of a stream entry are log entry 15. -/
def HoldsEntry (s : State) (t : TableId) (entry : Nat) (active : Bool) (ws : List Word) : Prop :=
  match t with
  | .surface => ws.length = 6 ∧ ∃ x, s.surface entry = some x ∧ WordsHold ws
      [(0, 0, 32, x.geometry.base), (1, 0, 16, x.geometry.pitch), (1, 16, 16, 0), (2, 0, 16, x.geometry.width),
        (2, 16, 16, x.geometry.height),
        (3, 0, 8, match x.geometry.format with | .none => 0 | .argb32 => 1 | .xrgb32 => 2),
        (3, 8, 8, match x.view with | none => 0 | some r => match r.format with | .rgb16 => 1 | .argb4444 => 2),
        (3, 16, 16, 0), (4, 0, 32, match x.view with | none => 0 | some r => r.base),
        (5, 0, 32, if x.geometry.bound then 1 else 0)]
  | .layer d => ws.length = 6 ∧ ∃ l, (if active then (s.layers.get d).active else (s.layers.get d).staged)[entry]? = some l ∧
      WordsHold ws
        [(0, 0, 8, if l.enabled then 1 else 0), (0, 8, 8, match l.content with | .solid => 0 | .surface => 1 | .stream => 2),
          (0, 16, 8, l.index), (0, 24, 8, match l.blend with | .copy => 0 | .blend => 1), (1, 0, 8, l.opacity.toNat),
          (1, 8, 8, l.mag), (1, 16, 16, 0), (2, 0, 16, l.sx), (2, 16, 16, l.sy), (3, 0, 16, l.sw), (3, 16, 16, l.sh),
          (4, 0, 16, (l.dx % 65536).toNat), (4, 16, 16, (l.dy % 65536).toNat), (5, 0, 8, l.colour.blue.toNat),
          (5, 8, 8, l.colour.green.toNat), (5, 16, 8, l.colour.red.toNat), (5, 24, 8, l.colour.alpha.toNat)]
  | .stream => ws.length = 6 ∧ ∃ k x, entry = streamNumber k ∧ x = s.streams.get k ∧ WordsHold ws
      [(0, 0, 8, x.count), (0, 8, 8, outputNumber x.pacing), (0, 16, 16, 0), (1, 0, 8, x.positions.getD 0 0),
        (1, 8, 8, x.positions.getD 1 0), (1, 16, 8, x.positions.getD 2 0), (1, 24, 8, x.positions.getD 3 0),
        (2, 0, 8, x.positions.getD 4 0), (2, 8, 8, x.positions.getD 5 0), (2, 16, 16, 0), (3, 0, 8, x.rateN),
        (3, 8, 8, x.rateD), (3, 16, 16, 0), (4, 0, 32, 0), (5, 0, 32, 0)]
  | .timing d => ws.length = 8 ∧ ∃ g, g = (if active then (s.outputs.get d).active else (s.outputs.get d).staged) ∧
      WordsHold ws
        [(0, 0, 16, g.width), (0, 16, 16, g.height), (1, 0, 16, g.hTotal), (1, 16, 16, g.vTotal), (2, 0, 32, g.clock),
          (3, 0, 8, g.background.blue.toNat), (3, 8, 8, g.background.green.toNat), (3, 16, 8, g.background.red.toNat),
          (3, 24, 8, g.background.alpha.toNat), (4, 0, 32, g.buffer0), (5, 0, 32, g.buffer1),
          (6, 0, 16, match g.lineMatch with | none => 0xFFFF | some y => y), (6, 16, 16, 0), (7, 0, 32, 0)]
  | .credit => ws.length = 2 ∧ ∃ c, c = (if active then s.activeCredits else s.stagedCredits) ∧ WordsHold ws
      [(0, 0, 8, c.pass), (0, 8, 8, c.scanA), (0, 16, 8, c.scanB), (0, 24, 8, c.comp), (1, 0, 8, c.stat), (1, 8, 24, 0)]
  | .link => ws.length = 2 ∧ WordsHold ws
      [(0, 0, 16, s.linkSettings.confirmTimeout), (0, 16, 16, 0), (1, 0, 8, s.linkSettings.replayLimit),
        (1, 8, 8, s.linkSettings.reinitLimit), (1, 16, 16, 0)]

/-- The packets of a list carry consecutive sequence numbers, and next is the number after the last (R132). -/
def Consecutive (next : Byte) : List Packet → Prop
  | [] => True
  | [p] => p.seq + 1 = next
  | p :: q :: rest => p.seq + 1 = q.seq ∧ Consecutive next (q :: rest)

/-- A link's retry buffer holds at most 8 packets with consecutive numbers up to the next one, and its stable flag is
set in NORMAL alone (R132, R141). -/
def LinkSound (l : Link) : Prop :=
  l.buffer.length ≤ Config.retryPlaces ∧ Consecutive l.nextSeq l.buffer ∧ (l.stable = true → l.state = .normal)

/-- A damage record covers a tile: by WHOLE, or by an entry (R19). -/
def Covers (l : DamageList) (t : Tile) : Prop := l.whole = true ∨ ∃ e ∈ l.entries, e.hasTile t = true

/-- From s to t the link of d has gone to ERROR for a reason: HALT is sent, the buffer emptied, panel record, counts and
counters kept; an output whose timing generator ran is in FAULT with its fetcher stopped and its composition abandoned,
any other stays as it was (R73, R114, R139). -/
def LinkFails (s t : State) (d : OutputId) (why : LinkReason) : Prop :=
  (∃ timer, t.links = s.links.set d { s.links.get d with
    state := .error, reason := some why, buffer := [], nextSeq := 0, pointer := none, replayEnd := none,
    stable := false, timer := timer, sent := (s.links.get d).sent ++ [haltBytes] }) ∧
  (if (s.outputState d).timed then
    t.outputState d = .fault ∧ (t.outputs.get d).resume = none ∧ (t.outputs.get d).fifo = [] ∧
    (t.outputs.get d).begun = false ∧ (t.outputs.get d).fetch = none ∧
    t.outputs.get (otherOutput d) = s.outputs.get (otherOutput d) ∧
    t.comp = s.comp.set d { s.comp.get d with composition := none, awaiting := false, completedSize := 0 }
  else t.outputs = s.outputs ∧ t.comp = s.comp) ∧
  t.damage = s.damage ∧ t.layers = s.layers ∧ t.mem = s.mem ∧ t.surfaces = s.surfaces

end Sys2Proof.Safety
end

