-- ==== Sys2Proof/Certificates/Slice0/Obligations.lean ====
section
/-! DEFINITION. The statements for the provers. -/

open Sys2Proof Sys2Proof.Machine Sys2Proof.Safety

/-! ### The queue of commands -/

/-- A step runs the command at the front of the queue on the state with the queue's rest. The part idles on an empty
queue: the model's choice (log entry 4). -/
def Obligations.StepRunsFrontCommand : Prop :=
  (∀ (c : Instr) (s : State), step { s with pending := c :: s.pending } = exec c s) ∧
  (∀ s : State, s.pending = [] → step s = .next s)

/-- No command touches the queue of commands. Only the completion of a write and a hardware reset change memory. -/
def Obligations.QueueAndMemoryAreKept : Prop :=
  (∀ (c : Instr) (s t : State), exec c s = .next t → t.pending = s.pending) ∧
  (∀ (c : Instr) (s t : State), exec c s = .next t →
    c ≠ .hostWriteCompletion → c ≠ .compWriteCompletion → c ≠ .tileCompletion → c ≠ .recordWriteCompletion →
    c ≠ .statusBlockCompletion → c ≠ .readbackDone → (∀ cause, c ≠ .hardwareReset cause) → t.mem = s.mem)

/-! ### Resets -/

/-- Right after power-on every item that the spec gives a reset value has it. A layer record is disabled, SOLID, with
magnification 1 and COPY; a timing has 0 in every field, so its line-match line is line 0; no mark is due. -/
def Obligations.PowerOnValues : Prop :=
  (∀ i, i < 32 → State.reset.surface i = some ⟨⟨false, 0, 0, 0, 0, .none⟩, none⟩) ∧
  (∀ d, State.reset.damage.get d = ⟨⟨[], false⟩, ⟨[], false⟩⟩) ∧
  (∀ d i, i < 8 →
    (State.reset.layers.get d).staged[i]? = some ⟨false, .solid, 0, 0, 0, 0, 0, 0, 0, 1, 0, .copy, ⟨0, 0, 0, 0⟩⟩ ∧
    (State.reset.layers.get d).active[i]? = some ⟨false, .solid, 0, 0, 0, 0, 0, 0, 0, 1, 0, .copy, ⟨0, 0, 0, 0⟩⟩) ∧
  (∀ d, (State.reset.layers.get d).commitPending = false) ∧
  (∀ d, State.reset.comp.get d = ⟨0, false, 0, none, 0⟩) ∧ State.reset.turn = .A ∧
  (∀ k, (State.reset.streams.get k).state = .stopped ∧ (State.reset.streams.get k).count = 0 ∧
    (State.reset.streams.get k).slots = [] ∧ (State.reset.streams.get k).pacing = .A ∧
    (State.reset.streams.get k).rateN = 0 ∧ (State.reset.streams.get k).rateD = 0 ∧
    (State.reset.streams.get k).phase = 0 ∧ (State.reset.streams.get k).tick = 0 ∧
    (State.reset.streams.get k).expected = 0 ∧ (State.reset.streams.get k).counters = ⟨0, 0, 0, 0, 0, 0, 0, 0⟩) ∧
  (∀ d, (State.reset.outputs.get d).state = .off ∧ (State.reset.outputs.get d).resume = none ∧
    (State.reset.outputs.get d).lock = false ∧ (State.reset.outputs.get d).frameCounter = 0 ∧
    (State.reset.outputs.get d).blank = false ∧ (State.reset.outputs.get d).begun = false ∧
    (State.reset.outputs.get d).fifo = [] ∧ (State.reset.outputs.get d).frameUnderflows = 0 ∧
    (State.reset.outputs.get d).underflows = 0 ∧
    (State.reset.outputs.get d).staged = ⟨0, 0, 0, 0, 0, ⟨0, 0, 0, 0⟩, 0, 0, some 0⟩ ∧
    (State.reset.outputs.get d).active = ⟨0, 0, 0, 0, 0, ⟨0, 0, 0, 0⟩, 0, 0, some 0⟩) ∧
  (∀ d, (State.reset.links.get d).state = .down ∧ (State.reset.links.get d).reason = none ∧
    (State.reset.links.get d).panel = none ∧ (State.reset.links.get d).buffer = [] ∧
    (State.reset.links.get d).nextSeq = 0 ∧ (State.reset.links.get d).pointer = none ∧
    (State.reset.links.get d).replayEnd = none ∧ (State.reset.links.get d).timer = 0 ∧
    (State.reset.links.get d).announceCount = 0 ∧ (State.reset.links.get d).replayRun = 0 ∧
    (State.reset.links.get d).reinitRun = 0 ∧ (State.reset.links.get d).stable = false ∧
    (State.reset.links.get d).counters = ⟨0, 0, 0, 0, 0⟩ ∧ (State.reset.links.get d).settings = ⟨16, 4, 2⟩) ∧
  State.reset.linkSettings = ⟨16, 4, 2⟩ ∧
  State.reset.writeQueue = [] ∧ State.reset.tracker = [] ∧ State.reset.activeCredits = ⟨8, 5, 5, 4, 2⟩ ∧
  State.reset.stagedCredits = ⟨8, 5, 5, 4, 2⟩ ∧ State.reset.drain = none ∧ State.reset.scanNext = .A ∧
  State.reset.port.cursor = none ∧ (∀ w, w < 8 → State.reset.port.assembly[w]? = some none) ∧
  State.reset.events.readback = none ∧ State.reset.events.mask = 0x00035402 ∧ State.reset.events.queue = [] ∧
  State.reset.events.writeIndex = 0 ∧ State.reset.events.consumed = 0 ∧ State.reset.events.lost = 0 ∧
  State.reset.events.seq = 0 ∧ State.reset.events.inWriting = none ∧
  State.reset.events.due = ⟨false, ⟨false, false⟩, ⟨false, false⟩, false⟩ ∧
  State.reset.events.recordNext = true ∧ State.reset.events.interrupt = false ∧
  State.reset.events.cause = .powerOn

/-- HARDWARE_RESET completes from every state: every block has its reset values, writes already issued reach memory,
queued writes are lost, no HALT is sent, and the reset cause is the one given. -/
def Obligations.HardwareResetCompletes : Prop :=
  ∀ (cause : HardwareCause) (s : State), ∃ t, exec (.hardwareReset cause) s = .next t ∧
    t.mem = s.mem.writeBeats (s.inFlight.flatMap Flight.writes) ∧ t.resetAsserted = true ∧
    t.writeQueue = [] ∧ t.tracker = [] ∧ t.inFlight = [] ∧ t.drain = none ∧ t.scanNext = .A ∧
    t.activeCredits = State.reset.activeCredits ∧ t.stagedCredits = State.reset.stagedCredits ∧
    t.surfaces = State.reset.surfaces ∧ t.damage = State.reset.damage ∧ t.layers = State.reset.layers ∧
    t.comp = State.reset.comp ∧ t.turn = .A ∧ t.streams = State.reset.streams ∧ t.outputs = State.reset.outputs ∧
    (∀ d, t.links.get d = { State.reset.links.get d with sent := (s.links.get d).sent }) ∧
    t.linkSettings = State.reset.linkSettings ∧ t.port = State.reset.port ∧
    t.events = { State.reset.events with cause := causeOf cause }

/-- RESET_RELEASE completes while the reset line is asserted and no request waits: RESET_DONE is raised with the reset
cause and all five status blocks become due, and nothing else changes. -/
def Obligations.ResetReleaseCompletes : Prop :=
  ∀ s : State, s.resetAsserted = true → s.upstream = [] →
    exec .resetRelease s = .next
      ((({ s with resetAsserted := false }).raise ⟨.resetDone, 0, 0, 0, word (causeCode s.events.cause), 0⟩).mark
        fun m => ⟨true, ⟨true, true⟩, ⟨true, true⟩, m.readback⟩)

/-- SOFT_RESET completes from every state: it keeps memory, the memory path, the surfaces, the staged timings, the
ring's indices and the mask; it resets compositor, outputs, links, layer tables, streams, damage, table port and
readback; each link that is up sends HALT; the cause is SOFT and all five blocks are due. It raises SLOT_FREED and
LINK_STATE as the rules it calls do, RESET_DONE with operand A 2 after them all, and no other event. It keeps the record
in writing too, and the alternation of records and blocks as it stands: the latter is the model's choice between R170
and R171 (log entry 37, DESIGN CHOICE). -/
def Obligations.SoftResetCompletes : Prop :=
  ∀ s : State, ∃ t, exec .softReset s = .next t ∧
    t.mem = s.mem ∧ t.writeQueue = s.writeQueue ∧ t.tracker = s.tracker ∧ t.upstream = s.upstream ∧
    t.activeCredits = s.activeCredits ∧ t.stagedCredits = s.stagedCredits ∧ t.drain = s.drain ∧
    t.scanNext = s.scanNext ∧ t.inFlight.map Flight.client = s.inFlight.map Flight.client ∧
    t.surfaces = s.surfaces ∧ t.comp = State.reset.comp ∧ t.turn = .A ∧
    (∀ d, t.outputs.get d = { State.reset.outputs.get d with staged := (s.outputs.get d).staged }) ∧
    (∀ d, t.links.get d = { State.reset.links.get d with
      sent := if (s.links.get d).state.up then (s.links.get d).sent ++ [haltBytes] else (s.links.get d).sent }) ∧
    t.linkSettings = ⟨16, 4, 2⟩ ∧ t.layers = State.reset.layers ∧ t.streams = State.reset.streams ∧
    t.damage = State.reset.damage ∧ t.port = State.reset.port ∧
    t.events.writeIndex = s.events.writeIndex ∧ t.events.consumed = s.events.consumed ∧
    t.events.seq = s.events.seq ∧ t.events.mask = s.events.mask ∧ t.events.interrupt = s.events.interrupt ∧
    t.events.inWriting = s.events.inWriting ∧ t.events.recordNext = s.events.recordNext ∧
    t.events.readback = none ∧ t.events.cause = .soft ∧
    t.events.due = ⟨true, ⟨true, true⟩, ⟨true, true⟩, false⟩ ∧
    ∃ raised : List Event, (∀ e ∈ raised, e.kind = .slotFreed ∨ e.kind = .linkState) ∧
      t.events.queue = ((raised.foldl EventWriter.raise s.events).raise ⟨.resetDone, 0, 0, 0, 2, 0⟩).queue ∧
      t.events.lost = ((raised.foldl EventWriter.raise s.events).raise ⟨.resetDone, 0, 0, 0, 2, 0⟩).lost

/-- CLEAR_COUNTERS completes from every state: every reported counter and the lost count 0, all five status blocks due,
nothing else changed and no event raised. -/
def Obligations.ClearCountersCompletes : Prop :=
  ∀ s : State, exec .clearCounters s = .next
    { s with
      comp := ⟨{ s.comp.A with missed := 0 }, { s.comp.B with missed := 0 }⟩
      outputs := ⟨{ s.outputs.A with underflows := 0, frameUnderflows := 0 },
        { s.outputs.B with underflows := 0, frameUnderflows := 0 }⟩
      links := ⟨{ s.links.A with counters := ⟨0, 0, 0, 0, 0⟩ }, { s.links.B with counters := ⟨0, 0, 0, 0, 0⟩ }⟩
      streams := ⟨{ s.streams.S0 with counters := ⟨0, 0, 0, 0, 0, 0, 0, 0⟩ },
        { s.streams.S1 with counters := ⟨0, 0, 0, 0, 0, 0, 0, 0⟩ }⟩
      events := { s.events with
        lost := 0, due := ⟨true, ⟨true, true⟩, ⟨true, true⟩, s.events.due.readback⟩ } }

/-! ### The upstream port -/

/-- HOST_WRITE completes when nothing waits and the write queue has room for the beats it becomes: they join the tail of
the queue under a new request name, and the events of their conversion are raised. A WRITE for which the queue has no
room holds the port and changes nothing else. A WRITE is converted beat by beat, each at its own address; a beat that
gives no downstream beat starts a new stretch of the request. That the events come in the order of the beats is the
model's choice (log entry 32). -/
def Obligations.HostWriteAcceptedOrWaits : Prop :=
  (∀ (s : State) (addr : BitVec 29) (beats : List UpBeat),
    addr.toNat % 8 = 0 → 1 ≤ beats.length → beats.length ≤ 16 → s.resetAsserted = false → s.upstream = [] →
    s.writeQueue.length + (s.convertWrites addr beats).1.length ≤ 32 →
    exec (.hostWrite addr beats) s = .next
      ({ s with writeQueue := s.writeQueue ++ (s.convertWrites addr beats).1
                nextRequest := s.nextRequest + 1 }.raiseAll (s.convertWrites addr beats).2)) ∧
  (∀ (s : State) (addr : BitVec 29) (beats : List UpBeat),
    addr.toNat % 8 = 0 → 1 ≤ beats.length → beats.length ≤ 16 → s.resetAsserted = false → s.upstream = [] →
    32 < s.writeQueue.length + (s.convertWrites addr beats).1.length →
    exec (.hostWrite addr beats) s = .next { s with upstream := [.write addr beats] }) ∧
  (∀ (s : State) (addr : BitVec 29) (beats : List UpBeat), s.convertWrites addr beats = s.convertFrom addr 0 0 beats) ∧
  (∀ (s : State) (addr : BitVec 29) (i stretch : Nat) (b : UpBeat) (bs : List UpBeat)
      (c : List WriteBeat × List Event) (rest : List QueuedBeat × List Event),
    c = s.convertWrite (addr + BitVec.ofNat 29 (8 * i)).toNat b →
    rest = s.convertFrom addr (i + 1) (if c.1 = [] then stretch + 1 else stretch) bs →
    s.convertFrom addr i stretch [] = ([], []) ∧
    s.convertFrom addr i stretch (b :: bs) =
      (c.1.map (fun w => ⟨s.nextRequest, stretch, w⟩) ++ rest.1, c.2 ++ rest.2))

/-- How the upstream port converts a beat. An alias offset maps through the BOUND surface whose alias range holds it,
and is stray when none does. A direct write beat becomes itself. A stray one is dropped and raises ALIAS_FAULT STRAY
with source 255 and the enables. A mapped one becomes two beats: a pixel with both enables, outside the padding of the
last row, is written expanded, any other pixel is disabled, and a pixel with one enable outside that padding raises
ALIAS_FAULT PARTIAL once. A direct read beat reads its address, a stray one nothing, with operand B 256, a mapped one
its 16 bytes. A read answers a direct beat as read, a stray one as 0, a mapped one contracted, 0 in the padding of the
last row. -/
def Obligations.UpstreamBeatsAreConverted : Prop :=
  (∀ (s : State) (o : Nat),
    (s.aliasMapping o = none ↔ ∀ i x r, s.surface i = some x → x.view = some r → x.geometry.bound = true →
      ¬ (r.base ≤ o ∧ o < r.base + x.geometry.pitch / 2 * x.geometry.height)) ∧
    ∀ m, s.aliasMapping o = some m → ∃ x r, s.surface m.surface = some x ∧ x.view = some r ∧
      x.geometry.bound = true ∧ r.base ≤ o ∧ o < r.base + x.geometry.pitch / 2 * x.geometry.height ∧
      m = ⟨m.surface, x.geometry, r.format, x.geometry.base + 2 * (o - r.base),
        (o - r.base) / (x.geometry.pitch / 2), (o - r.base) % (x.geometry.pitch / 2) / 2⟩) ∧
  (∀ (s : State) (addr : Nat) (b : UpBeat),
    (addr < 0x10000000 → s.convertWrite addr b = ([⟨addr, b.enables, b.data⟩], [])) ∧
    (0x10000000 ≤ addr → s.aliasMapping (addr - 0x10000000) = none →
      s.convertWrite addr b = ([], [⟨.aliasFault, 255, 0, 2, word addr, word b.enables.toNat⟩])) ∧
    ∀ (m : Mapping) (padding : Nat → Bool), 0x10000000 ≤ addr → s.aliasMapping (addr - 0x10000000) = some m →
      (∀ i, padding i = decide (m.row + 1 = m.geometry.height ∧ m.geometry.width ≤ m.col + i)) →
      (∃ lo hi, (s.convertWrite addr b).1 = [lo, hi] ∧ lo.addr = m.addr ∧ hi.addr = m.addr + 8 ∧
        ∀ (i : Nat) (w : WriteBeat) (p : Colour), i < 4 → w = (if i < 2 then lo else hi) →
          p = expandPixel m.format (b.data.toNat / 65536 ^ i % 65536) →
          (∀ j, j < 4 → w.enables.getLsbD (4 * (i % 2) + j) =
            (b.enables.getLsbD (2 * i) && b.enables.getLsbD (2 * i + 1) && !padding i)) ∧
          [0, 1, 2, 3].map (fun j => byteOf w.data (4 * (i % 2) + j)) = [p.blue, p.green, p.red, p.alpha]) ∧
      ((∃ i, i < 4 ∧ b.enables.getLsbD (2 * i) ≠ b.enables.getLsbD (2 * i + 1) ∧ padding i = false) →
        (s.convertWrite addr b).2 = [⟨.aliasFault, m.surface, 0, 1, word addr, word b.enables.toNat⟩]) ∧
      ((∀ i, i < 4 → b.enables.getLsbD (2 * i) = b.enables.getLsbD (2 * i + 1) ∨ padding i = true) →
        (s.convertWrite addr b).2 = [])) ∧
  (∀ (s : State) (addr : Nat),
    (addr < 0x10000000 → s.convertRead addr = (.direct, [addr], [])) ∧
    (0x10000000 ≤ addr → s.aliasMapping (addr - 0x10000000) = none →
      s.convertRead addr = (.stray, [], [⟨.aliasFault, 255, 0, 2, word addr, 256⟩])) ∧
    ∀ m, 0x10000000 ≤ addr → s.aliasMapping (addr - 0x10000000) = some m →
      s.convertRead addr = (.mapped m.surface m.format ([0, 1, 2, 3].map fun i =>
        decide (m.row + 1 = m.geometry.height) && decide (m.geometry.width ≤ m.col + i)), [m.addr, m.addr + 8], [])) ∧
  (∀ (us : List ReadBeat) (ds : List BeatData) (x lo hi : BeatData) (k : Nat) (f : AliasFormat) (padding : List Bool),
    answerBeats (.direct :: us) (x :: ds) = x :: answerBeats us ds ∧
    answerBeats (.stray :: us) ds = 0 :: answerBeats us ds ∧
    ∃ y : BeatData, answerBeats (.mapped k f padding :: us) (lo :: hi :: ds) = y :: answerBeats us ds ∧
      ∀ i, i < 4 → y.toNat / 65536 ^ i % 65536 =
        if padding.getD i false then 0
        else contractPixel f (beatPixel (if i < 2 then lo else hi) (i % 2 == 1)))

/-- For both alias formats, contracting the expansion of any 16-bit pixel gives back that pixel. Expansion, channel by
channel: RGB16 has red in bits 15 to 11, green in bits 10 to 5 and blue in bits 4 to 0, a 5-bit value v becoming v times
8 plus the floor of v over 4, a 6-bit value v times 4 plus the floor of v over 16, alpha 255; ARGB4444 has alpha, red,
green and blue in four bits each from bit 15 down, a value v becoming v times 17. Contraction, channel by channel: the
high 5, 6 and 5 bits of red, green and blue for RGB16, whatever alpha is, and the high four bits of each channel for
ARGB4444, each in its place. -/
def Obligations.ContractionUndoesExpansion : Prop :=
  (∀ (f : AliasFormat) (p : Nat), p < 65536 → contractPixel f (expandPixel f p) = p) ∧
  (∀ (p : Nat) (e5 e6 : Nat → Nat) (c : Colour), (∀ v, e5 v = v * 8 + v / 4) → (∀ v, e6 v = v * 4 + v / 16) →
    c = expandPixel .rgb16 p →
    [c.red.toNat, c.green.toNat, c.blue.toNat, c.alpha.toNat] =
      [e5 (p / 2048 % 32), e6 (p / 32 % 64), e5 (p % 32), 255]) ∧
  (∀ (p : Nat) (c : Colour), c = expandPixel .argb4444 p →
    [c.alpha.toNat, c.red.toNat, c.green.toNat, c.blue.toNat] =
      [p / 4096 % 16 * 17, p / 256 % 16 * 17, p / 16 % 16 * 17, p % 16 * 17]) ∧
  (∀ c : Colour,
    contractPixel .rgb16 c = c.red.toNat / 8 * 2048 + c.green.toNat / 4 * 32 + c.blue.toNat / 8 ∧
    contractPixel .argb4444 c =
      c.alpha.toNat / 16 * 4096 + c.red.toNat / 16 * 256 + c.green.toNat / 16 * 16 + c.blue.toNat / 16)

/-- HOST_READ completes when nothing waits, the tracker holds fewer than 4 reads, all of them still waiting for data,
and some beat of the read goes to memory: the read joins the tracker with its beats converted. A read of stray beats
alone is answered at once with zeros when the tracker is empty, and joins the tracker, with no beat to issue, behind the
reads that wait there. With 4 reads in the tracker, or the reset line asserted, the READ holds the port; a READ behind
such a READ waits too. A read is converted beat by beat, each at its own address: the kinds of its beats, the addresses
that go to memory and the events follow one another in that order. That the ALIAS_FAULT events of several stray beats
come in the order of the beats is the model's choice (log entry 32, DESIGN CHOICE). -/
def Obligations.HostReadAccepted : Prop :=
  (∀ (s : State) (addr : BitVec 29) (beats : Nat),
    addr.toNat % 8 = 0 → 1 ≤ beats → beats ≤ 16 → s.resetAsserted = false → s.upstream = [] →
    s.tracker.length < 4 → (∀ r ∈ s.tracker, r.complete = false) → (s.convertReads addr beats).2.1 ≠ [] →
    exec (.hostRead addr beats) s = .next
      ({ s with tracker := s.tracker ++ [TrackedRead.mk s.nextRequest (s.convertReads addr beats).1
                  ((s.convertReads addr beats).2.1.map fun a => DownBeat.mk a none) 0]
                nextRequest := s.nextRequest + 1 }.raiseAll (s.convertReads addr beats).2.2)) ∧
  (∀ (s : State) (addr : BitVec 29) (beats : Nat) (events : List Event),
    addr.toNat % 8 = 0 → 1 ≤ beats → beats ≤ 16 → s.resetAsserted = false → s.upstream = [] →
    s.tracker.length < 4 → (∀ r ∈ s.tracker, r.complete = false) → (s.convertReads addr beats).2.1 = [] →
    events = (s.convertReads addr beats).2.2 →
    (s.tracker = [] → exec (.hostRead addr beats) s = .next
      ({ s with nextRequest := s.nextRequest + 1
                hostData := s.hostData ++ [List.replicate beats 0] }.raiseAll events)) ∧
    (s.tracker ≠ [] → exec (.hostRead addr beats) s = .next
      ({ s with tracker := s.tracker ++ [TrackedRead.mk s.nextRequest (List.replicate beats .stray) [] 0]
                nextRequest := s.nextRequest + 1 }.raiseAll events))) ∧
  (∀ (s : State) (addr : BitVec 29) (beats : Nat), addr.toNat % 8 = 0 → 1 ≤ beats → beats ≤ 16 →
    (s.resetAsserted = true ∨ 4 ≤ s.tracker.length ∧ (s.upstream = [] ∨ ∃ a n rest, s.upstream = .read a n :: rest)) →
    exec (.hostRead addr beats) s = .next { s with upstream := s.upstream ++ [.read addr beats] }) ∧
  (∀ (s : State) (addr : BitVec 29) (n : Nat) (c : ReadBeat × List Nat × List Event)
      (out : List ReadBeat × List Nat × List Event),
    c = s.convertRead (addr + BitVec.ofNat 29 (8 * n)).toNat → out = s.convertReads addr n →
    s.convertReads addr 0 = ([], [], []) ∧
    s.convertReads addr (n + 1) = (out.1 ++ [c.1], out.2.1 ++ c.2.1, out.2.2 ++ c.2.2))

/-- DOWNSTREAM_GRANT completes when the arbiter chooses a client whose request lies in the DRAM: the request joins those
in flight at the tail, and its requester moves on. A grant to PASS of the write queue takes the head run out of the
queue: the longest run of up to 16 beats of one request, between two stray beats of it, at consecutive addresses. What
each client presents: PASS the next run of up to 16 consecutive beats of the oldest read with beats to issue, or, with
no such read or one held back by an older queued write to a beat of it, the head run; SCAN a run of up to 32 pixels of
the front buffer from where the fetcher stands, when the FIFO has room for it; COMP the tile's reads, and its writes
once no read is outstanding; STAT what the event writer presents. Scanout is urgent when it presents a run and fewer
returned pixels than a line lie in its FIFO. What a grant does to the requester: the write queue gives up the run, the
read its issued beats, the fetcher reserves the pixels and moves on while the alternation passes to the other output,
the tile's request is outstanding, the event writer presents nothing. That a run of a read is the longest there is, and
goes on over a stray beat of the read, is the model's choice (log entry 36, DESIGN CHOICE). -/
def Obligations.GrantCompletes : Prop :=
  (∀ (s : State) (c : Client) (f : Flight), s.grantee = some c → s.presents c = some f → f.inMemory = true →
    s.upstream = [] →
    exec .downstreamGrant s = .next { s.afterGrant f with inFlight := s.inFlight ++ [f] }) ∧
  (∀ s : State, s.grantee = some .pass → s.oldestUnissued = none → s.writeQueue ≠ [] → s.upstream = [] →
    (headRun s.writeQueue).all (fun q => decide (q.beat.addr + 8 ≤ 0x10000000)) = true →
    exec .downstreamGrant s = .next
      { s with writeQueue := s.writeQueue.drop (headRun s.writeQueue).length
               inFlight := s.inFlight ++ [.hostWrite ((headRun s.writeQueue).map (·.beat))] }) ∧
  (∀ (q : QueuedBeat) (qs : List QueuedBeat), ∃ n, 1 ≤ n ∧ n ≤ 16 ∧ n ≤ (q :: qs).length ∧
    headRun (q :: qs) = (q :: qs).take n ∧
    (∀ i x, i < n → (q :: qs)[i]? = some x →
      x.request = q.request ∧ x.stretch = q.stretch ∧ x.beat.addr = q.beat.addr + 8 * i) ∧
    (n < 16 → ∀ x, (q :: qs)[n]? = some x →
      ¬ (x.request = q.request ∧ x.stretch = q.stretch ∧ x.beat.addr = q.beat.addr + 8 * n))) ∧
  (∀ (s : State) (write : Option Flight),
    write = (if s.writeQueue = [] then none else some (.hostWrite ((headRun s.writeQueue).map (·.beat)))) →
    ((∀ r ∈ s.tracker, r.down.length ≤ r.issued) → s.presents .pass = write) ∧
    (∀ (r : TrackedRead) (earlier later : List TrackedRead) (held : Prop), s.tracker = earlier ++ r :: later →
      (∀ y ∈ earlier, y.down.length ≤ y.issued) → r.issued < r.down.length →
      (held ↔ r.issued = 0 ∧ ∃ q ∈ s.writeQueue, q.request < r.id ∧ ∃ b ∈ r.down, b.addr = q.beat.addr) →
      (held → s.presents .pass = write) ∧
      (¬ held → s.presents .pass = some (.hostRead r.id r.issued r.nextRun)))) ∧
  (∀ r : TrackedRead, r.issued < r.down.length →
    ∃ n, 1 ≤ n ∧ n ≤ 16 ∧ r.issued + n ≤ r.down.length ∧
      r.nextRun = ((r.down.drop r.issued).take n).map (·.addr) ∧
      ∀ (x y : DownBeat) (i : Nat), r.down[r.issued]? = some x → r.down[r.issued + i]? = some y →
        (i < n → y.addr = x.addr + 8 * i) ∧ (i = n → n < 16 → y.addr ≠ x.addr + 8 * i)) ∧
  (∀ (s : State) (d : OutputId) (o : Output) (p : FetchAt) (n : Nat), o = s.outputs.get d →
    n = min 32 (o.active.width - p.pixel) →
    (o.begun = false ∨ o.fetch = none → s.presents (.scan d) = none) ∧
    (o.begun = true → o.fetch = some p → s.presents (.scan d) =
      if 0 < n ∧ (o.fifo.map (·.pixels.length)).sum + n ≤ 2 * o.active.width then
        some (.scanRead d p.line p.pixel n ((List.range ((n + 1) / 2)).map fun i =>
          (if (s.comp.get d).front = 0 then o.active.buffer0 else o.active.buffer1) +
            p.line * ((o.active.width * 4 + 63) / 64 * 64) + 4 * p.pixel + 8 * i) true)
      else none) ∧
    (o.urgent = true ↔ s.presents (.scan d) ≠ none ∧
      (o.fifo.map fun l => (l.pixels.filter (·.isSome)).length).sum < o.active.width)) ∧
  (∀ s : State, (s.job = none → s.presents .comp = none) ∧
    ∀ j, s.job = some j →
      (∀ r rs, j.reads = r :: rs → s.presents .comp = some (.compRead r.layer r.addrs)) ∧
      (j.reads = [] → ∀ w ws, j.writes = w :: ws →
        s.presents .comp = if j.readsOut = 0 then some (.compWrite w) else none) ∧
      (j.reads = [] → j.writes = [] → s.presents .comp = none)) ∧
  (∀ (s : State) (beats : List WriteBeat) (b : Block),
    (s.events.presented = none → s.presents .stat = none) ∧
    (s.events.presented = some (.record beats) → s.presents .stat = some (.recordWrite beats)) ∧
    (s.events.presented = some (.block b beats) → s.presents .stat = some (.blockWrite b true beats))) ∧
  (∀ (s : State) (id start layer line pixel count : Nat) (addrs : List Nat) (d : OutputId) (live : Bool)
      (blk : Block) (beats : List WriteBeat) (o : Output), o = s.outputs.get d →
    s.afterGrant (.hostWrite beats) = { s with writeQueue := s.writeQueue.drop beats.length } ∧
    s.afterGrant (.hostRead id start addrs) = { s with
      tracker := s.tracker.map fun r => if r.id = id then { r with issued := r.issued + addrs.length } else r } ∧
    (∃ fifo, s.afterGrant (.scanRead d line pixel count addrs live) = { s with
        scanNext := otherOutput d
        outputs := s.outputs.set d { o with
          fifo := fifo
          fetch := if pixel + count < o.active.width then some ⟨line, pixel + count⟩
            else if line + 1 < o.active.height then some ⟨line + 1, 0⟩ else none } } ∧
      ((∀ x ∈ o.fifo, x.line ≠ line) → fifo = o.fifo ++ [⟨line, List.replicate count none⟩]) ∧
      (∀ before l after, o.fifo = before ++ l :: after → l.line = line → (∀ x ∈ before, x.line ≠ line) →
        fifo = before ++ ⟨line, l.pixels ++ List.replicate count none⟩ :: after)) ∧
    s.afterGrant (.compRead layer addrs) = { s with
      job := s.job.map fun j => { j with reads := j.reads.tail, readsOut := j.readsOut + 1 } } ∧
    s.afterGrant (.compWrite beats) = { s with
      job := s.job.map fun j => { j with writes := j.writes.tail, writesOut := j.writesOut + 1 } } ∧
    s.afterGrant (.recordWrite beats) = { s with events := { s.events with presented := none } } ∧
    s.afterGrant (.blockWrite blk live beats) = { s with events := { s.events with presented := none } })

/-- The arbiter's order: a client is granted only when it presents a request and has a credit free; urgent scanout comes
before PASS, PASS before scanout that is not urgent, that before COMP, and COMP before STAT; nothing is granted during a
drain; and of two scanout clients at a level the alternation's is taken. -/
def Obligations.ArbiterOrder : Prop :=
  ∀ s : State,
    (∀ c, s.grantee = some c →
      s.drain = none ∧ (s.presents c).isSome = true ∧ s.inFlightOf c < s.activeCredits.of c) ∧
    (s.drain = none → ∀ d, s.eligible (.scan d) = true → (s.outputs.get d).urgent = true →
      ∃ e, s.grantee = some (.scan e) ∧ (s.outputs.get e).urgent = true) ∧
    (s.drain = none → s.eligible .pass = true →
      (∀ d, s.eligible (.scan d) = true → (s.outputs.get d).urgent = false) → s.grantee = some .pass) ∧
    (s.drain = none → s.eligible .pass = false → (∃ d, s.eligible (.scan d) = true) →
      ∃ e, s.grantee = some (.scan e)) ∧
    (s.drain = none → s.eligible .pass = false → (∀ d, s.eligible (.scan d) = false) →
      (s.eligible .comp = true → s.grantee = some .comp) ∧
      (s.eligible .comp = false → s.eligible .stat = true → s.grantee = some .stat)) ∧
    (s.drain = none → s.eligible (.scan .A) = true → s.eligible (.scan .B) = true →
      (s.outputs.get .A).urgent = (s.outputs.get .B).urgent →
      (s.eligible .pass = true → (s.outputs.get .A).urgent = true) → s.grantee = some (.scan s.scanNext))

/-- HOST_WRITE_COMPLETION completes when the oldest request in flight is a host write: the beat is written and its three
notices are taken in order, and the request leaves with its last beat; that what waits at the upstream port is then
accepted is log entry 6, that the request leaves first log entry 17. A beat that is not the last of its request is
written and noticed alike, and the rest of the request stays the oldest in flight. A last beat during a drain: the drain
goes on while more is in flight, else it ends with REBALANCED, ahead of the notices (log entry 17). The control notice:
each half of the beat with all four bytes enabled gives its word, the lower address first, and a word of the control
page is taken as the command of that word is. The damage notice: each layer of a RUNNING or FROZEN output that shows a
surface the beat is in has the touched pixels mapped through it and inserted, surfaces and then layers ascending. The
stream notice: stream 0 and then stream 1 (log entry 18) takes its captures, then the beat's bytes slot by slot, none in
STOPPED, then its arms slot by slot; a rule that changes the reported bytes makes the status block due. -/
def Obligations.HostWriteCompletes : Prop :=
  (∀ (s : State) (b : WriteBeat) (fs : List Flight), s.inFlight = .hostWrite [b] :: fs → s.drain = none →
    ∃ t, exec .hostWriteCompletion s = .next t ∧
      t = (((({ s with mem := s.mem.writeBeat b, inFlight := fs }).damageNotice b).streamNotice b).controlCapture
        b).acceptWaiting ∧
      t.mem = s.mem.writeBeat b ∧ t.inFlight.length = fs.length) ∧
  (∀ (s : State) (b c : WriteBeat) (rest : List WriteBeat) (fs : List Flight) (u : State),
    s.inFlight = .hostWrite (b :: c :: rest) :: fs →
    u = ((({ s with mem := s.mem.writeBeat b, inFlight := fs }).damageNotice b).streamNotice b).controlCapture b →
    exec .hostWriteCompletion s = .next
      ({ u with inFlight := .hostWrite (c :: rest) :: u.inFlight }).acceptWaiting) ∧
  (∀ (s : State) (b : WriteBeat) (x : Drain) (fs : List Flight) (u : State),
    s.inFlight = .hostWrite [b] :: fs → s.drain = some x →
    u = (if fs = [] then
        ({ s with mem := s.mem.writeBeat b, inFlight := [], activeCredits := x.counts, drain := none }).raise
          ⟨.rebalanced, 0x30, 0, 0, word x.counts.sum, word x.noted⟩
      else { s with mem := s.mem.writeBeat b, inFlight := fs }) →
    exec .hostWriteCompletion s = .next
      (((u.damageNotice b).streamNotice b).controlCapture b).acceptWaiting) ∧
  (∀ (s : State) (b : WriteBeat) (take : State → Nat → Word → State) (lo hi : Option Word),
    (∀ t a w, take t a w =
      if a = 0x0FFFF000 then t.selectTable w else if a = 0x0FFFF004 then t.takeTableData w
      else if a = 0x0FFFF008 then t.takeCommand w else if a = 0x0FFFF00C then t.takeMask w
      else if a = 0x0FFFF010 then t.takeConsumed w else t) →
    lo = (if b.enables.toNat % 16 = 15 then some (b.data.truncate 32) else none) →
    hi = (if b.enables.toNat / 16 = 15 then some ((b.data >>> 32).truncate 32) else none) →
    s.controlCapture b = (match lo, hi with
      | none, none => s
      | some w, none => take s b.addr w
      | none, some v => take s (b.addr + 4) v
      | some w, some v => take (take s b.addr w) (b.addr + 4) v)) ∧
  (∀ (s : State) (w : Word),
    exec (.tableSelect w) s = .next (s.selectTable w) ∧ exec (.eventMask w) s = .next (s.takeMask w) ∧
    exec (.eventConsumed w) s = .next (s.takeConsumed w) ∧
    (s.upstream = [] → exec (.tableData w) s = .next (s.takeTableData w)) ∧
    ∀ (o1 entry selector code : Byte) (o2 : BitVec 16), code.toNat = w.toNat % 256 → o1.toNat = w.toNat / 256 % 256 →
      o2.toNat = w.toNat / 65536 → entry.toNat = o2.toNat % 256 → selector.toNat = o2.toNat / 256 →
      (∀ p ∈ [((0x01 : Byte), Instr.commit o1), (0x02, .invalidate o1), (0x10, .streamStart o1),
          (0x11, .streamPause o1), (0x12, .streamResume o1), (0x13, .streamStop o1), (0x20, .outputStart o1),
          (0x21, .outputStop o1), (0x22, .outputFreeze o1), (0x23, .outputThaw o1), (0x30, .rebalance),
          (0x40, .readback o1 entry selector), (0x41, .clearCounters), (0x7F, .softReset)],
        code = p.1 → exec p.2 s = .next (s.takeCommand w)) ∧
      (code ∉ [0x01, 0x02, 0x10, 0x11, 0x12, 0x13, 0x20, 0x21, 0x22, 0x23, 0x30, 0x40, 0x41, 0x7F] →
        exec (.unknownCommand code o1 o2) s = .next (s.takeCommand w))) ∧
  (∀ (s : State) (b : WriteBeat), { s.damageNotice b with damage := s.damage } = s) ∧
  (∀ (s : State) (b : WriteBeat) (d : OutputId) (rects : List (Int × Int × Nat × Nat)),
    rects = ((List.range 32).flatMap fun i => if (s.geometryOf i).has b then
      (s.activeLayers d).filterMap fun l => if s.shows i l then l.mapPixels ((s.geometryOf i).touched b) else none
      else []) →
    (s.damageNotice b).damage.get d = if (s.outputState d).live then
        ⟨rects.foldl (fun l q => l.insertPixels (s.outputs.get d).active q.1 q.2.1 q.2.2.1 q.2.2.2)
          (s.damage.get d).list, (s.damage.get d).previous⟩
      else s.damage.get d) ∧
  (∀ (s : State) (i : Nat) (l : Layer), s.shows i l = true ↔ l.enabled = true ∧
    (l.content = .surface ∧ l.index = i ∨
      ∃ k, l.content = .stream ∧ l.index = streamNumber k ∧ (s.streams.get k).shownSurface = some i)) ∧
  (∀ (g : Geometry) (b : WriteBeat) (c y : Nat), g.bound = true → g.base % 8 = 0 → g.pitch % 8 = 0 → 0 < g.pitch →
    b.addr % 8 = 0 →
    (b.addr < g.base → g.touched b = []) ∧
    (g.base ≤ b.addr → y = (b.addr - g.base) / g.pitch → c = (b.addr - g.base) % g.pitch / 4 →
      g.touched b =
        (if (y < g.height ∧ c < g.width) ∧ ([0, 1, 2, 3].any fun i => b.enables.getLsbD i) = true then [(c, y)] else []) ++
        (if (y < g.height ∧ c + 1 < g.width) ∧ ([4, 5, 6, 7].any fun i => b.enables.getLsbD i) = true then [(c + 1, y)]
          else []))) ∧
  (∀ (l : Layer) (ps : List (Nat × Nat)) (c y : Nat), ps = [(c, y)] ∨ ps = [(c, y), (c + 1, y)] →
    (∀ a e, a ≤ e →
      (∀ x, a ≤ x ∧ x ≤ e ↔ (x, y) ∈ ps ∧ l.sx ≤ x ∧ x < l.sx + l.sw ∧ l.sy ≤ y ∧ y < l.sy + l.sh) →
      l.mapPixels ps = some (l.dx + (a - l.sx) * l.mag, l.dy + (y - l.sy) * l.mag, (e - a + 1) * l.mag, l.mag)) ∧
    ((∀ x, (x, y) ∈ ps → ¬ (l.sx ≤ x ∧ x < l.sx + l.sw ∧ l.sy ≤ y ∧ y < l.sy + l.sh)) → l.mapPixels ps = none)) ∧
  (∀ (t : Timing) (x y : Int) (w h : Nat) (l : DamageList), l.insertPixels t x y w h =
    if max x 0 ≤ min (x + w - 1) ((t.width : Int) - 1) ∧ max y 0 ≤ min (y + h - 1) ((t.height : Int) - 1) then
      l.insert ((t.width + 15) / 16) ((t.height + 15) / 16)
        ⟨(max x 0).toNat / 16, (min (x + w - 1) ((t.width : Int) - 1)).toNat / 16,
          (max y 0).toNat / 16, (min (y + h - 1) ((t.height : Int) - 1)).toNat / 16⟩
    else l) ∧
  (∀ (s : State) (b : WriteBeat), s.streamNotice b = [StreamId.S0, .S1].foldl (fun t k =>
    ((t.streams.get k).noticeRules t.geometryOf k (t.frameOf (t.streams.get k).pacing) b).foldl
      (fun u f => u.updateStream k (f (u.streams.get k))) t) s) ∧
  (∀ (geo : Nat → Geometry) (k : StreamId) (fc : Count) (b : WriteBeat) (x : Stream),
    x.noticeRules geo k fc b =
      (fun y => (y.captures geo b, [])) ::
        ((if x.state = .stopped then [] else (x.positions.take x.count).zipIdx.map fun p =>
            Stream.land k fc ((geo p.1).width * (geo p.1).height * 4) p.2 ((geo p.1).bytesIn b).length) ++
          ((x.positions.take x.count).zipIdx.filter fun p =>
            decide (64 ≤ (geo p.1).base) && (b.wordAt ((geo p.1).base - 64 + 12)).isSome).map fun p =>
              Stream.arm k fc p.2)) ∧
  (∀ (s : State) (k : StreamId) (out : Stream × List Event),
    (s.updateStream k out).streams = s.streams.set k out.1 ∧
    (out.1.bytes ≠ (s.streams.get k).bytes → (s.updateStream k out).events.due.stream.get k = true))

/-- A write beat stores each enabled byte at its address and leaves every other address as it was. A completed host
write changes memory in its beat's enabled bytes alone. -/
def Obligations.HostWriteMemory : Prop :=
  (∀ (m : Memory) (b : WriteBeat), m.wf = true →
    (∀ i, i < 8 → b.enables.getLsbD i = true →
      (m.writeBeat b).read (b.addr + i) = BitVec.ofNat 8 (b.data.toNat >>> (8 * i))) ∧
    (∀ a, (∀ i, i < 8 → b.enables.getLsbD i = true → a ≠ b.addr + i) → (m.writeBeat b).read a = m.read a)) ∧
  (∀ (s t : State) (b : WriteBeat) (rest : List WriteBeat) (fs : List Flight),
    s.inFlight = .hostWrite (b :: rest) :: fs → exec .hostWriteCompletion s = .next t →
    ∀ a, (∀ i, i < 8 → b.enables.getLsbD i = true → a ≠ b.addr + i) → t.mem.read a = s.mem.read a)

/-- HOST_READ_COMPLETION completes when the oldest request in flight is a host read: its data, as memory holds it, joins
its read, and from the head of the tracker every read whose data has all come back leaves, its answer going to the host.
The one request of the oldest read, a read of one direct beat: its bytes go to the host as memory holds them. -/
def Obligations.HostReadCompletes : Prop :=
  (∀ (s : State) (id start : Nat) (addrs : List Nat) (fs : List Flight) (rs : List TrackedRead),
    s.inFlight = .hostRead id start addrs :: fs → s.drain = none → s.upstream = [] →
    rs = s.tracker.map (fun r => if r.id = id then r.fill start (addrs.map s.mem.readBeat) else r) →
    exec .hostReadCompletion s = .next
      { s with inFlight := fs
               tracker := rs.dropWhile TrackedRead.complete
               hostData := s.hostData ++ (rs.takeWhile TrackedRead.complete).map TrackedRead.answer }) ∧
  ∀ (s : State) (id : Nat) (a : Nat) (fs : List Flight) (rs : List TrackedRead),
    s.inFlight = .hostRead id 0 [a] :: fs → s.drain = none → s.upstream = [] →
    s.tracker = ⟨id, [.direct], [⟨a, none⟩], 1⟩ :: rs →
    (∀ r ∈ rs, r.id ≠ id ∧ r.complete = false) →
    exec .hostReadCompletion s = .next
      { s with inFlight := fs, tracker := rs, hostData := s.hostData ++ [[s.mem.readBeat a]] }

/-- SCAN_READ_COMPLETION completes when the oldest request in flight is a fetcher read: its pixels enter the FIFO, or
are discarded, and nothing else changes. The pixels of a run replace those of its line from its first pixel on, two of
each beat, the low one first; every other pixel of the FIFO stays. REBALANCED ends a drain at the last completion: with
one request in flight during a drain, its completion gives the active counts the pending ones and raises REBALANCED,
whichever of the nine completions it is, and does the rest as with no drain; with more in flight the drain goes on. That
REBALANCED comes ahead of the completion's other effects and events is log entry 17 (DEDUCED); that
STATUS_BLOCK_COMPLETION completes the write of the readback area as READBACK_DONE does is log entry 16 (DEDUCED). -/
def Obligations.ScanReadCompletes : Prop :=
  (∀ (s : State) (d : OutputId) (line pixel count : Nat) (addrs : List Nat) (live : Bool) (fs : List Flight),
    s.inFlight = .scanRead d line pixel count addrs live :: fs → s.drain = none →
    exec .scanReadCompletion s = .next
      (if live then
        ({ s with inFlight := fs }).setOutput d
          ((s.outputs.get d).returnRun ⟨line, pixel, count⟩ (addrs.map s.mem.readBeat))
       else { s with inFlight := fs })) ∧
  (∀ (s : State) (x : Drain) (line pixel count : Nat) (addrs : List Nat) (d : OutputId),
    s.inFlight = [.scanRead d line pixel count addrs false] → s.drain = some x →
    exec .scanReadCompletion s = .next
      (({ s with inFlight := [], activeCredits := x.counts, drain := none }).raise
        ⟨.rebalanced, 0x30, 0, 0, word x.counts.sum, word x.noted⟩)) ∧
  (∀ (s : State) (x : Drain) (f : Flight), s.drain = some x →
    (s.inFlight = [f] → s.removeOldest =
      ({ s with inFlight := [], activeCredits := x.counts, drain := none }).raise
        ⟨.rebalanced, 0x30, 0, 0, word x.counts.sum, word x.noted⟩) ∧
    (∀ g fs, s.inFlight = f :: g :: fs → s.removeOldest = { s with inFlight := g :: fs })) ∧
  (∀ (s : State) (x : Drain) (id start layer line pixel count : Nat) (addrs : List Nat) (d : OutputId) (live : Bool)
      (blk : Block) (beats : List WriteBeat), s.drain = some x →
    ∀ p ∈ [(Instr.hostReadCompletion, Flight.hostRead id start addrs),
        (.scanReadCompletion, .scanRead d line pixel count addrs live), (.compReadCompletion, .compRead layer addrs),
        (.compWriteCompletion, .compWrite beats), (.recordWriteCompletion, .recordWrite beats),
        (.statusBlockCompletion, .blockWrite blk live beats)],
      s.inFlight = [p.2] → ∃ t, exec p.1 s = .next t ∧ t.inFlight = [] ∧ t.drain = none ∧ t.activeCredits = x.counts) ∧
  (∀ (s u : State) (x : Drain) (id start layer line pixel count : Nat) (addrs : List Nat) (d : OutputId)
      (live : Bool) (blk : Block) (b : WriteBeat) (beats : List WriteBeat), s.drain = some x →
    u = ({ s with activeCredits := x.counts, drain := none }).raise
      ⟨.rebalanced, 0x30, 0, 0, word x.counts.sum, word x.noted⟩ →
    ∀ p ∈ [(Instr.hostWriteCompletion, Flight.hostWrite [b]), (.hostReadCompletion, .hostRead id start addrs),
        (.scanReadCompletion, .scanRead d line pixel count addrs live), (.compReadCompletion, .compRead layer addrs),
        (.compWriteCompletion, .compWrite beats), (.tileCompletion, .compWrite beats),
        (.recordWriteCompletion, .recordWrite beats), (.statusBlockCompletion, .blockWrite blk live beats),
        (.readbackDone, .blockWrite .readback true beats)],
      s.inFlight = [p.2] →
      (p.1 = .tileCompletion → ∃ j, s.job = some j ∧ j.live = true ∧ j.reads = [] ∧ j.writes = [] ∧
        j.readsOut = 0 ∧ j.writesOut = 1) →
      exec p.1 s = exec p.1 u ∧ ∃ t, exec p.1 s = .next t) ∧
  (∀ (o : Output) (r : Run) (data : List BeatData), r.count ≤ 2 * data.length →
    o.returnRun r data = { o with fifo := (o.returnRun r data).fifo } ∧
    (o.returnRun r data).fifo.length = o.fifo.length ∧
    ∀ (j : Nat) (l : FifoLine), o.fifo[j]? = some l → ∃ ps, (o.returnRun r data).fifo[j]? = some ⟨l.line, ps⟩ ∧
      ps.length = l.pixels.length ∧ (l.line ≠ r.line → ps = l.pixels) ∧
      (∀ i, i < r.pixel ∨ r.pixel + r.count ≤ i → ps[i]? = l.pixels[i]?) ∧
      (∀ i w, l.line = r.line → i < r.count → r.pixel + i < l.pixels.length → data[i / 2]? = some w →
        ps[r.pixel + i]? = some (some (beatPixel w (decide (i % 2 = 1))).rgb)))

/-- REBALANCE completes when none drains and the staged counts sum to at most 24: with requests in flight it drains,
with none it takes effect at once. A REBALANCE during a drain is refused with BUSY, one whose staged counts sum above 24
with CREDIT_SUM. -/
def Obligations.RebalanceTakenOrRefused : Prop :=
  (∀ s : State, s.drain = none → s.stagedCredits.sum ≤ 24 →
    (s.inFlight ≠ [] → exec .rebalance s = .next { s with drain := some ⟨s.stagedCredits, s.inFlight.length⟩ }) ∧
    (s.inFlight = [] → exec .rebalance s = .next
      (({ s with activeCredits := s.stagedCredits }).raise
        ⟨.rebalanced, 0x30, 0, 0, word s.stagedCredits.sum, 0⟩))) ∧
  (∀ s : State,
    (s.drain ≠ none → exec .rebalance s = .next
      (s.raise ⟨.commandRefused, 0x30, 0, 10, word s.stagedCredits.sum, 1⟩)) ∧
    (s.drain = none → 24 < s.stagedCredits.sum → exec .rebalance s = .next
      (s.raise ⟨.commandRefused, 0x30, 0, 11, word s.stagedCredits.sum, 2⟩)))

/-! ### The compositor -/

/-- TILE_TAKE completes when the engine is free and a composition has a tile left: the output whose turn it is, or the
other one when that has none, has its tile become the one in progress, the next tile moves on, the turn passes to the
other output, and the engine has its reads to make; with the engine busy or no tile left nothing changes. The reads of a
tile go layer by layer from 0 up, none of a disabled layer or of one without a source (log entry 14). A layer is read
source row by source row from the top, each row in one request of at most 9 beats, those from the first to the last
source column that the tile's screen pixels need within the source's width and height. -/
def Obligations.TileTakeCompletes : Prop :=
  (∀ (s : State) (d : OutputId) (k : Composition) (x : Tile), s.job = none →
    (d = s.turn ∨ d = otherOutput s.turn ∧
      ∀ k', (s.comp.get s.turn).composition = some k' → k'.region.length ≤ k'.next) →
    (s.comp.get d).composition = some k → k.region[k.next]? = some x →
    ∃ t j, exec .tileTake s = .next t ∧ t.turn = otherOutput d ∧ t.job = some j ∧
      t.comp = s.comp.set d { s.comp.get d with
        composition := some { k with next := k.next + 1, inProgress := some x } } ∧
      j = t.formWrites ⟨d, x, true, tileReads (s.outputs.get d).active x k, 0, [], [], 0⟩ ∧
      j.output = d ∧ j.tile = x ∧ j.live = true ∧ j.readsOut = 0 ∧ j.writesOut = 0 ∧
      j.reads = tileReads (s.outputs.get d).active x k ∧
      t.mem = s.mem ∧ t.inFlight = s.inFlight ∧ t.outputs = s.outputs ∧ t.links = s.links ∧
      t.streams = s.streams ∧ t.damage = s.damage ∧ t.layers = s.layers ∧ t.surfaces = s.surfaces ∧
      t.events = s.events) ∧
  (∀ s : State, (s.job ≠ none ∨ (∀ d k, (s.comp.get d).composition = some k → k.region.length ≤ k.next)) →
    exec .tileTake s = .next s) ∧
  (∀ (t : Timing) (x : Tile) (k : Composition) (reads : Nat → List TileRead),
    (∀ (i : Nat) (l : Layer), k.layers[i]? = some l →
      (l.enabled = false ∨ k.sources[i]? = some none → reads i = []) ∧
      (∀ g, l.enabled = true → k.sources[i]? = some (some g) → reads i = layerReads t x i l g)) →
    tileReads t x k = (List.range 8).flatMap reads) ∧
  (∀ (t : Timing) (x : Tile) (i : Nat) (l : Layer) (g : Geometry) (cols rows : List Nat),
    cols.Pairwise (· < ·) → rows.Pairwise (· < ·) →
    (∀ c, c ∈ cols ↔ c < g.width ∧ ∃ p : Nat, (16 * x.col ≤ p ∧ p < 16 * x.col + 16 ∧ p < t.width) ∧
      (l.dx ≤ p ∧ p < l.dx + (l.sw * l.mag : Nat)) ∧ c = l.sx + ((p : Int) - l.dx).toNat / l.mag) →
    (∀ r, r ∈ rows ↔ r < g.height ∧ ∃ p : Nat, (16 * x.row ≤ p ∧ p < 16 * x.row + 16 ∧ p < t.height) ∧
      (l.dy ≤ p ∧ p < l.dy + (l.sh * l.mag : Nat)) ∧ r = l.sy + ((p : Int) - l.dy).toNat / l.mag) →
    (cols = [] → layerReads t x i l g = []) ∧
    (∀ c z, cols.head? = some c → cols.getLast? = some z → layerReads t x i l g = rows.map fun r =>
      ⟨i, (List.range ((g.base + g.pitch * r + 4 * z) / 8 + 1 - (g.base + g.pitch * r + 4 * c) / 8)).map fun n =>
        (g.base + g.pitch * r + 4 * c) / 8 * 8 + 8 * n⟩) ∧
    ∀ q ∈ layerReads t x i l g, q.addrs.length ≤ 9)

/-- COMP_READ_COMPLETION completes when the oldest request in flight is a compositor read of a live tile: its beats join
the tile's data, and the last one of the tile forms the row writes. For an abandoned tile the data is discarded, and the
last of its requests frees the engine. The row writes, formed when a live tile has no read left: one for each tile row
inside the active area, top row first, at the row's place in the back buffer, two composed pixels a beat as blue, green,
red and 255 with every byte enabled; an odd last pixel has a beat of four enabled bytes. A composed pixel starts as the
background colour and takes each layer from 0 up: one that does not contribute leaves it, COPY replaces it, BLEND mixes
it with the effective alpha. A layer contributes inside its destination rectangle when enabled: its solid colour, or the
source pixel that the magnification gives, within the source's width and height, with alpha 255 from XRGB32. The source
pixel is the one of its four bytes in the beat that the layer's read returned. -/
def Obligations.CompReadCompletes : Prop :=
  (∀ (s : State) (layer : Nat) (addrs : List Nat) (fs : List Flight) (j : Job),
    s.inFlight = .compRead layer addrs :: fs → s.drain = none → s.job = some j → j.live = false →
    exec .compReadCompletion s = .next
      { s with inFlight := fs
               job := if j.readsOut ≤ 1 ∧ j.writesOut = 0 then none else some { j with readsOut := j.readsOut - 1 } }) ∧
  (∀ (s : State) (layer : Nat) (addrs : List Nat) (fs : List Flight) (j : Job),
    s.inFlight = .compRead layer addrs :: fs → s.drain = none → s.job = some j → j.live = true →
    exec .compReadCompletion s = .next
      { s with inFlight := fs
               job := some (s.formWrites { j with
                 readsOut := j.readsOut - 1
                 data := j.data ++ (addrs.zip (addrs.map s.mem.readBeat)).map fun p => ⟨layer, p.1, p.2⟩ }) }) ∧
  (∀ (s : State) (j : Job) (k : Composition) (t : Timing) (base rows cols : Nat),
    (s.comp.get j.output).composition = some k → t = (s.outputs.get j.output).active →
    base = (if (s.comp.get j.output).front = 0 then t.buffer1 else t.buffer0) →
    rows = min 16 (t.height - 16 * j.tile.row) → cols = min 16 (t.width - 16 * j.tile.col) →
    (¬ (j.live = true ∧ j.reads = [] ∧ j.readsOut = 0) → s.formWrites j = j) ∧
    (j.live = true → j.reads = [] → j.readsOut = 0 → ∃ writes, s.formWrites j = { j with writes := writes } ∧
      writes.length = rows ∧ ∀ r, r < rows → ∃ beats, writes[r]? = some beats ∧ beats.length = (cols + 1) / 2 ∧
        ∀ n, n < (cols + 1) / 2 → ∃ b, beats[n]? = some b ∧
          b.addr = base + (16 * j.tile.row + r) * ((t.width * 4 + 63) / 64 * 64) + 64 * j.tile.col + 8 * n ∧
          b.enables = (if 2 * n + 1 < cols then 0xFF else 0x0F) ∧
          ∀ i c, i < 2 → 2 * n + i < cols →
            c = composePixel t k j.data (16 * j.tile.col + (2 * n + i)) (16 * j.tile.row + r) →
            [0, 1, 2, 3].map (fun m => byteOf b.data (4 * i + m)) = [c.blue, c.green, c.red, 255])) ∧
  (∀ (t : Timing) (k : Composition) (data : List TileData) (px py : Nat) (w : Nat → Rgb),
    w 0 = ⟨t.background.red, t.background.green, t.background.blue⟩ →
    (∀ i l g, k.layers[i]? = some l → k.sources[i]? = some g →
      (contribution data i l g px py = none → w (i + 1) = w i) ∧
      (∀ c pa, contribution data i l g px py = some (c, pa) →
        (l.blend = .copy → w (i + 1) = c) ∧
        (∀ (a : Nat) (f : Byte → Byte → Byte), l.blend = .blend → a = (pa * l.opacity.toNat + 127) / 255 →
          (∀ s d, f s d = BitVec.ofNat 8 ((s.toNat * a + d.toNat * (255 - a) + 127) / 255)) →
          w (i + 1) = ⟨f c.red (w i).red, f c.green (w i).green, f c.blue (w i).blue⟩))) →
    composePixel t k data px py = w 8) ∧
  (∀ (data : List TileData) (i px py x y : Nat) (l : Layer) (g : Option Geometry) (inside : Prop),
    (inside ↔ l.dx ≤ px ∧ px < l.dx + (l.sw * l.mag : Nat) ∧ l.dy ≤ py ∧ py < l.dy + (l.sh * l.mag : Nat)) →
    x = l.sx + ((px : Int) - l.dx).toNat / l.mag → y = l.sy + ((py : Int) - l.dy).toNat / l.mag →
    (l.enabled = false ∨ ¬ inside → contribution data i l g px py = none) ∧
    (l.enabled = true → inside →
      (l.content = .solid → contribution data i l g px py =
        some (⟨l.colour.red, l.colour.green, l.colour.blue⟩, l.colour.alpha.toNat)) ∧
      (l.content ≠ .solid → g = none → contribution data i l g px py = none) ∧
      ∀ q, l.content ≠ .solid → g = some q →
        (q.width ≤ x ∨ q.height ≤ y → contribution data i l g px py = none) ∧
        (∀ c, x < q.width → y < q.height → c = readPixel data i (q.base + q.pitch * y + 4 * x) →
          contribution data i l g px py =
            some (⟨c.red, c.green, c.blue⟩, if q.format = .xrgb32 then 255 else c.alpha.toNat)))) ∧
  (∀ (data earlier later : List TileData) (i a : Nat) (x : TileData) (c : Colour), a % 4 = 0 →
    data = earlier ++ x :: later → x.layer = i → x.addr = a / 8 * 8 →
    (∀ e ∈ earlier, e.layer ≠ i ∨ e.addr ≠ a / 8 * 8) → c = readPixel data i a →
    [c.blue, c.green, c.red, c.alpha] = [0, 1, 2, 3].map fun m => byteOf x.data (a % 8 + m))

/-- COMP_WRITE_COMPLETION completes when the oldest request in flight is a row write of a live tile with more to do: the
row is in memory and one request fewer is outstanding. The last request of an abandoned tile frees the engine. -/
def Obligations.CompWriteCompletes : Prop :=
  (∀ (s : State) (beats : List WriteBeat) (fs : List Flight) (j : Job),
    s.inFlight = .compWrite beats :: fs → s.drain = none → s.job = some j → j.live = true →
    (j.writes ≠ [] ∨ 1 < j.writesOut) →
    exec .compWriteCompletion s = .next
      { s with mem := s.mem.writeBeats beats, inFlight := fs, job := some { j with writesOut := j.writesOut - 1 } }) ∧
  (∀ (s : State) (beats : List WriteBeat) (fs : List Flight) (j : Job),
    s.inFlight = .compWrite beats :: fs → s.drain = none → s.job = some j → j.live = false → j.readsOut = 0 →
    j.writesOut = 1 →
    exec .compWriteCompletion s = .next { s with mem := s.mem.writeBeats beats, inFlight := fs, job := none })

/-- TILE_COMPLETION completes when the oldest request in flight is the one request left of a live tile. With tiles left
the composition goes on; with the last tile it ends: its record is removed, its size kept, it awaits the flip, and its
holds are released: each slot it lists loses the hold of its output, and a RETIRED slot with no hold left becomes FREE
and raises SLOT_FREED; any other slot keeps its state. -/
def Obligations.TileCompletionCompletes : Prop :=
  (∀ (s : State) (beats : List WriteBeat) (fs : List Flight) (j : Job) (k : Composition),
    s.inFlight = .compWrite beats :: fs → s.drain = none → s.job = some j → j.live = true → j.reads = [] →
    j.writes = [] → j.readsOut = 0 → j.writesOut = 1 → (s.comp.get j.output).composition = some k →
    ∃ t, exec .tileCompletion s = .next t ∧ t.mem = s.mem.writeBeats beats ∧ t.inFlight = fs ∧ t.job = none ∧
      (k.next < k.region.length → t.comp = s.comp.set j.output { s.comp.get j.output with
        composition := some { k with inProgress := none } } ∧ t.streams = s.streams ∧ t.events = s.events) ∧
      (k.region.length ≤ k.next → t.comp = s.comp.set j.output { s.comp.get j.output with
        composition := none, completedSize := k.region.length, awaiting := true } ∧
        ∀ q i sl, (s.streams.get q).slots[i]? = some sl →
          (t.streams.get q).slots[i]? = some (if ⟨q, i⟩ ∈ k.holds then
              { sl with
                holds := sl.holds.set j.output false
                state := if sl.state = .retired ∧ sl.holds.get (otherOutput j.output) = false then .free
                  else sl.state }
            else sl))) ∧
  (∀ (k : StreamId) (fc : Count) (d : OutputId) (i : Nat) (x : Stream) (sl : Slot), x.slots[i]? = some sl →
    x.releaseHold k fc d i =
      if sl.state = .retired ∧ sl.holds.get (otherOutput d) = false then
        ({ x with slots := x.slots.set i { sl with holds := sl.holds.set d false, state := .free } },
          [⟨.slotFreed, streamNumber k, fc, 0, word i, 4⟩])
      else ({ x with slots := x.slots.set i { sl with holds := sl.holds.set d false } }, []))

/-- Every blended channel lies between its two inputs; it is the source when the effective alpha is 255 and what lies
beneath when it is 0. -/
def Obligations.BlendStaysBetween : Prop :=
  ∀ s d a : Nat, s ≤ 255 → d ≤ 255 → a ≤ 255 →
    min s d ≤ blendChannel s d a ∧ blendChannel s d a ≤ max s d ∧ blendChannel s d 255 = s ∧ blendChannel s d 0 = d ∧
      effectiveAlpha a 255 = a ∧ effectiveAlpha a d ≤ 255

/-! ### Damage -/

/-- INVALIDATE completes for operand 0 or 1: while the output is RUNNING or FROZEN the list is emptied with WHOLE set
and the previous snapshot kept, otherwise nothing changes; another operand is refused with BAD_OPERAND. The next
composition then takes every tile of the active area and leaves WHOLE in the previous snapshot, so that the one after
takes them all again. -/
def Obligations.InvalidateCompletes : Prop :=
  (∀ (s : State) (operand : Byte) (d : OutputId), outputOfOperand operand = some d →
    (s.outputState d = .running ∨ s.outputState d = .frozen →
      exec (.invalidate operand) s = .next
        { s with damage := s.damage.set d ⟨⟨[], true⟩, (s.damage.get d).previous⟩ }) ∧
    (s.outputState d ≠ .running → s.outputState d ≠ .frozen → exec (.invalidate operand) s = .next s)) ∧
  (∀ (s : State) (operand : Byte), operand ≠ 0 → operand ≠ 1 →
    exec (.invalidate operand) s = .next (s.raise ⟨.commandRefused, 0x02, 0, 2, word operand.toNat, 1⟩)) ∧
  (∀ (t : Timing) (previous : DamageList), region t ⟨⟨[], true⟩, previous⟩ = t.walk) ∧
  (∀ (u : State) (d : OutputId), (u.damage.get d).list = ⟨[], true⟩ →
    ((u.startComposition d).damage.get d).previous = ⟨[], true⟩) ∧
  (∀ (t : Timing) (l : DamageList), region t ⟨l, ⟨[], true⟩⟩ = t.walk)

/-- An insertion keeps the limits of a damage list: at most 16 entries, none containing another, none under WHOLE; and
what a rectangle of pixels inserts keeps every entry within the active area. An insertion loses no tile: what the list
covered before and the tiles of the rectangle are covered after. Its result: under WHOLE, or when an entry contains the
rectangle, the list stays. Else the entries that the rectangle contains go; with a place free the rectangle is appended;
with none the entry whose box grows least, at the lowest position of equals, is replaced in its place by its box with
the rectangle, and the entries that the box contains go. WHOLE is set, and the list emptied, exactly when what is placed
covers the whole grid. -/
def Obligations.InsertionOfDamage : Prop :=
  (∀ (cols rows : Nat) (r : TileRect) (l : DamageList), DamageSound l → DamageSound (l.insert cols rows r)) ∧
  (∀ (cols rows : Nat) (r : TileRect) (l : DamageList) (t : Tile),
    Covers l t ∨ r.hasTile t = true → Covers (l.insert cols rows r) t) ∧
  (∀ a b : TileRect,
    (a.contains b = true ↔ a.c0 ≤ b.c0 ∧ b.c1 ≤ a.c1 ∧ a.r0 ≤ b.r0 ∧ b.r1 ≤ a.r1) ∧
    a.area = (a.c1 + 1 - a.c0) * (a.r1 + 1 - a.r0) ∧
    a.box b = ⟨min a.c0 b.c0, max a.c1 b.c1, min a.r0 b.r0, max a.r1 b.r1⟩) ∧
  (∀ (cols rows : Nat) (r : TileRect) (l : DamageList) (kept : List TileRect),
    kept = (l.entries.filter fun e => !r.contains e) →
    (l.whole = true ∨ (∃ e ∈ l.entries, e.contains r = true) → l.insert cols rows r = l) ∧
    (l.whole = false → (∀ e ∈ l.entries, e.contains r = false) → kept.length < 16 →
      l.insert cols rows r =
        if r.c0 = 0 ∧ cols ≤ r.c1 + 1 ∧ r.r0 = 0 ∧ rows ≤ r.r1 + 1 then ⟨[], true⟩ else ⟨kept ++ [r], false⟩) ∧
    (∀ before e after box, l.whole = false → (∀ e ∈ l.entries, e.contains r = false) → 16 ≤ kept.length →
      kept = before ++ e :: after → box = e.box r →
      (∀ x ∈ before, box.area - e.area < (x.box r).area - x.area) →
      (∀ x ∈ after, box.area - e.area ≤ (x.box r).area - x.area) →
      l.insert cols rows r =
        if box.c0 = 0 ∧ cols ≤ box.c1 + 1 ∧ box.r0 = 0 ∧ rows ≤ box.r1 + 1 then ⟨[], true⟩
        else ⟨(before.filter fun x => !box.contains x) ++ box :: after.filter fun x => !box.contains x, false⟩)) ∧
  (∀ (t : Timing) (x y : Int) (w h : Nat) (l : DamageList), WithinArea t.cols t.rows l →
    WithinArea t.cols t.rows (l.insertPixels t x y w h))

/-! ### The event writer -/

/-- RECORD_FORM completes when an event waits, no record is in writing, nothing is presented, the ring is not full and
it is a record's turn, by the alternation or because no block is due: the oldest event becomes the record of slot write
index, the record sequence grows, the lost count becomes 0. At any other moment RECORD_FORM changes nothing.
RECORD_WRITE_COMPLETION completes when the oldest request in flight is a record write: the write index grows, the global
block becomes due, and the interrupt line is asserted exactly when the indices now differ. The 32 bytes of a record are
its fields, each at its offset, least significant byte first, the reserved bytes 0; they are written as four beats with
every byte enabled. That a record is formed only when nothing is presented and it is a record's turn, so that it takes
its queue place, its sequence number and the lost count no sooner, is the model's choice: R166 names the other three
conditions alone (log entry 9, DESIGN CHOICE). -/
def Obligations.RecordsAreWritten : Prop :=
  (∀ (s : State) (e : Event) (rest : List Event), s.events.queue = e :: rest → s.events.inWriting = none →
    s.events.presented = none → s.events.writeIndex + 1 ≠ s.events.consumed →
    (s.events.recordNext = true ∨ ∀ b, s.events.due.has b = false) →
    exec .recordForm s = .next
      { s with events := { s.events with
        queue := rest
        seq := s.events.seq + 1
        lost := 0
        due := if s.events.lost = 0 then s.events.due else { s.events.due with global := true }
        inWriting := some ⟨s.events.writeIndex, s.events.seq, s.events.lost, e⟩
        presented := some (.record (beatsOfBytes (0x0FFFC000 + 32 * s.events.writeIndex.toNat)
          (Record.bytes ⟨s.events.writeIndex, s.events.seq, s.events.lost, e⟩)))
        recordNext := false } }) ∧
  (∀ s : State, (s.events.queue = [] ∨ s.events.inWriting ≠ none ∨ s.events.presented ≠ none ∨
      s.events.writeIndex + 1 = s.events.consumed ∨
      s.events.recordNext = false ∧ ∃ b, s.events.due.has b = true) →
    exec .recordForm s = .next s) ∧
  (∀ (s : State) (beats : List WriteBeat) (fs : List Flight), s.inFlight = .recordWrite beats :: fs →
    s.drain = none →
    exec .recordWriteCompletion s = .next
      { s with mem := s.mem.writeBeats beats
               inFlight := fs
               events := { s.events with
                 writeIndex := s.events.writeIndex + 1
                 inWriting := none
                 due := { s.events.due with global := true }
                 interrupt := s.events.writeIndex + 1 != s.events.consumed } }) ∧
  (∀ r : Record, r.bytes.length = 32 ∧ FieldsAt r.bytes
    [(0, 2, r.seq.toNat), (2, 1, r.event.kind.code), (3, 1, r.event.source), (4, 2, r.event.frame.toNat),
      (6, 1, r.event.reason), (7, 1, 0), (8, 2, r.lost.toNat), (10, 2, 0), (12, 4, r.event.a.toNat),
      (16, 4, r.event.b.toNat), (20, 12, 0)]) ∧
  ([EventKind.resetDone, .epoch, .flip, .flipMissed, .lineMatch, .commitApplied, .stagedDropped, .frameShown,
    .slotFreed, .streamCondition, .streamState, .outputState, .lockChange, .linkState, .scanUnderflow, .commandRefused,
    .tableRefused, .valueClamped, .aliasFault, .readbackDone, .rebalanced].map EventKind.code =
      (List.range 21).map (· + 1)) ∧
  (∀ (a n i : Nat) (bytes : List Byte), bytes.length = 8 * n →
    (beatsOfBytes a bytes).length = n ∧
    (i < n → ∃ b, (beatsOfBytes a bytes)[i]? = some b ∧ b.addr = a + 8 * i ∧ b.enables = 0xFF ∧
      ∀ m, m < 8 → bytes[8 * i + m]? = some (byteOf b.data m)))

/-- STATUS_BLOCK_WRITE completes when a block is due, nothing is presented and no record comes before it (no event
waits, a record is in writing, the ring is full, or it is a block's turn): the first due block in the order global,
output A, output B, stream 0, stream 1, readback area is presented with its items as they stand, and its mark is
cleared. At any other moment STATUS_BLOCK_WRITE changes nothing. That every block presented puts a record next,
contested or not, is the model's choice (log entry 9, DESIGN CHOICE). STATUS_BLOCK_COMPLETION completes when the oldest
request in flight is the write of a status block: the block is in memory and the request leaves. Each block lies at its
address of the status page, and its bytes are its fields, each at its offset, least significant byte first, with the
codes of states, reasons and causes, the reserved bytes 0. -/
def Obligations.StatusBlocksAreWritten : Prop :=
  (∀ (s : State) (earlier later : List Block) (b : Block),
    [.global, .output .A, .output .B, .stream .S0, .stream .S1, .readback] = earlier ++ b :: later →
    (∀ x ∈ earlier, s.events.due.has x = false) → s.events.due.has b = true → s.events.presented = none →
    (s.events.queue = [] ∨ s.events.inWriting ≠ none ∨ s.events.writeIndex + 1 = s.events.consumed ∨
      s.events.recordNext = false) →
    exec .statusBlockWrite s = .next
      { s with events := { s.events with
        due := s.events.due.clear b
        presented := some (.block b (beatsOfBytes (blockAddr b) (s.blockBytes b)))
        recordNext := true } }) ∧
  (∀ s : State, (s.events.presented ≠ none ∨ (∀ b, s.events.due.has b = false) ∨
      s.events.queue ≠ [] ∧ s.events.inWriting = none ∧ s.events.writeIndex + 1 ≠ s.events.consumed ∧
        s.events.recordNext = true) →
    exec .statusBlockWrite s = .next s) ∧
  (∀ (s : State) (b : Block) (beats : List WriteBeat) (fs : List Flight),
    s.inFlight = .blockWrite b true beats :: fs → b ≠ .readback → s.drain = none →
    exec .statusBlockCompletion s = .next { s with mem := s.mem.writeBeats beats, inFlight := fs }) ∧
  (∀ (s : State) (d : OutputId) (k : StreamId) (o : Output) (l : Link) (c : CompOutput) (m : DamageList) (x : Stream)
      (flag : Bool → Nat), o = s.outputs.get d → l = s.links.get d → c = s.comp.get d → m = (s.damage.get d).list →
      x = s.streams.get k → (∀ b, flag b = if b then 1 else 0) →
    ([Block.global, .output .A, .output .B, .stream .S0, .stream .S1, .readback].map blockAddr =
      [0x0FFFE000, 0x0FFFE080, 0x0FFFE100, 0x0FFFE180, 0x0FFFE200, 0x0FFFE280]) ∧
    (s.blockBytes .global).length = 32 ∧ FieldsAt (s.blockBytes .global)
      [(0, 2, 0x2410), (2, 1, causeCode s.events.cause), (3, 1, 0), (4, 1, s.events.writeIndex.toNat), (5, 3, 0),
        (8, 2, s.events.lost.toNat), (10, 22, 0)] ∧
    (s.blockBytes (.output d)).length = 64 ∧ FieldsAt (s.blockBytes (.output d))
      [(0, 1, outputStateCode o.state), (1, 1, resumeCode o.resume), (2, 1, flag o.lock), (3, 1, linkStateCode l.state),
        (4, 2, o.frameCounter.toNat), (6, 1, c.front.val), (7, 1, flag o.blank), (8, 1, m.entries.length),
        (9, 1, flag m.whole), (10, 1, linkReasonCode l.reason), (11, 1, flag l.panel.isSome),
        (12, 2, (l.panel.map (·.width)).getD 0), (14, 2, (l.panel.map (·.height)).getD 0),
        (16, 4, (l.panel.map (·.clock)).getD 0), (20, 2, c.missed.toNat), (22, 2, o.underflows.toNat),
        (24, 2, l.counters.skipped.toNat), (26, 2, l.counters.replays.toNat), (28, 2, l.counters.reinits.toNat),
        (30, 2, l.counters.badRefs.toNat), (32, 2, l.counters.badCrcs.toNat), (34, 30, 0)] ∧
    (s.blockBytes (.stream k)).length = 64 ∧ FieldsAt (s.blockBytes (.stream k))
      ([(0, 1, streamStateCode x.state), (1, 1, x.count), (2, 1, x.shownSlot.getD 0xFF), (3, 1, x.expected),
        (4, 4, x.tick.toNat), (8, 2, x.phase)] ++
        ((List.range 6).map fun j => (10 + j, 1, (x.slots[j]?.map fun sl => slotStateCode sl.state).getD 0xFF)) ++
        [(16, 2, x.counters.shown.toNat), (18, 2, x.counters.dropped.toNat), (20, 2, x.counters.underrun.toNat),
        (22, 2, x.counters.short.toNat), (24, 2, x.counters.overrun.toNat), (26, 2, x.counters.lateWrite.toNat),
        (28, 2, x.counters.outOfOrder.toNat), (30, 2, x.counters.unarmedWrite.toNat), (32, 32, 0)]) ∧
    ∀ r, s.events.readback = some r → (s.blockBytes .readback).length = 64 ∧ FieldsAt (s.blockBytes .readback)
      ([(0, 1, r.table.toNat), (1, 1, r.entry.toNat), (2, 1, r.selector.toNat), (3, 1, 0)] ++
        ((List.range 8).map fun i => (4 + 4 * i, 4, (r.words.getD i 0).toNat)) ++ [(36, 28, 0)])) ∧
  ([OutputState.off, .locking, .training, .running, .frozen, .fault].map outputStateCode = List.range 6 ∧
    [none, some ResumeState.running, some .frozen].map resumeCode = [0, 3, 4] ∧
    [LinkState.down, .announcing, .configuring, .normal, .replay, .error].map linkStateCode = List.range 6 ∧
    [none, some LinkReason.noPanel, some .panelMismatch, some .panelChanged, some .reinitLimit].map linkReasonCode =
      List.range 5 ∧
    [ResetCause.powerOn, .resetLine, .soft].map causeCode = List.range 3 ∧
    [StreamState.stopped, .priming, .running, .paused, .ended].map streamStateCode = List.range 5 ∧
    [SlotState.free, .filling, .ready, .shown, .retired].map slotStateCode = List.range 5)

/-- READBACK completes when none is pending, the entry exists and the selector is 0 or 1: the entry's words are copied
and the readback area becomes due. READBACK_DONE completes when the oldest request in flight is the write of the
readback area: no readback is pending any more, and READBACK_DONE is raised with the table, the entry and the selector.
A READBACK is refused with BUSY while one is pending, else with RANGE when the table or the entry does not exist, else
with BAD_OPERAND for another selector; operand B is the step; that the last carries operand 1 as operand A is log entry
28 (DEDUCED). The words of an entry are, for each table, the fields of the record that its owner holds, at the bits of
10.3, the reserved ones 0; selector 1 gives the active copy of a layer, a timing and the credit counts, selector 0 the
staged one, and the tables of one copy give it to either. That the six positions of a stream entry come back as written
is log entry 15 (DEDUCED). -/
def Obligations.ReadbackIsWritten : Prop :=
  (∀ (s : State) (table entry selector : Byte) (i : TableId), s.events.readback = none →
    tableOfId table.toNat = some i → entry.toNat < tableEntries i → selector.toNat ≤ 1 →
    exec (.readback table entry selector) s = .next
      { s with events := { s.events with
        readback := some ⟨table, entry, selector, s.entryWords i entry.toNat (selector.toNat == 1)⟩
        due := { s.events.due with readback := true } } }) ∧
  (∀ (s : State) (beats : List WriteBeat) (fs : List Flight) (r : Readback),
    s.inFlight = .blockWrite .readback true beats :: fs → s.drain = none → s.events.readback = some r →
    exec .readbackDone s = .next
      (({ s with mem := s.mem.writeBeats beats, inFlight := fs, events := { s.events with readback := none } }).raise
        ⟨.readbackDone, r.table.toNat, 0, 0, word r.entry.toNat, word r.selector.toNat⟩)) ∧
  (∀ (s : State) (table entry selector : Byte),
    (s.events.readback ≠ none → exec (.readback table entry selector) s = .next
      (s.raise ⟨.commandRefused, 0x40, 0, 10, word table.toNat, 1⟩)) ∧
    (s.events.readback = none → (∀ i, tableOfId table.toNat = some i → tableEntries i ≤ entry.toNat) →
      exec (.readback table entry selector) s = .next
        (s.raise ⟨.commandRefused, 0x40, 0, 4, word table.toNat, 2⟩)) ∧
    (∀ i, s.events.readback = none → tableOfId table.toNat = some i → entry.toNat < tableEntries i →
      1 < selector.toNat → exec (.readback table entry selector) s = .next
        (s.raise ⟨.commandRefused, 0x40, 0, 2, word table.toNat, 3⟩))) ∧
  (∀ (s : State) (t : TableId) (entry : Nat) (active : Bool), entry < tableEntries t →
    HoldsEntry s t entry active (s.entryWords t entry active)) ∧
  ([1, 2, 3, 4, 5, 6, 7, 8].map tableOfId = [some .surface, some (.layer .A), some (.layer .B), some .stream,
      some (.timing .A), some (.timing .B), some .credit, some .link] ∧
    [TableId.surface, .layer .A, .layer .B, .stream, .timing .A, .timing .B, .credit, .link].map tableEntries =
      [32, 8, 8, 2, 1, 1, 1, 1])

/-- EVENT_MASK completes from every state: kinds 1 to 21 take the bits written, the other bits are ignored, and nothing
else changes. A raised event is discarded when its kind is disabled, joins the tail of the queue when that holds fewer
than 16 events, and is lost otherwise. A beat that carries COMMAND and EVENT_MASK has the command taken first. -/
def Obligations.MaskAndRaisedEvents : Prop :=
  (∀ (s : State) (w : Word), ∃ m : Word,
    exec (.eventMask w) s = .next { s with events := { s.events with mask := m } } ∧
    ∀ i, i < 32 → m.getLsbD i = (decide (1 ≤ i) && decide (i ≤ 21) && w.getLsbD i)) ∧
  (∀ (w : EventWriter) (e : Event),
    (w.mask.getLsbD e.kind.code = false → w.raise e = w) ∧
    (w.mask.getLsbD e.kind.code = true → w.queue.length < 16 → w.raise e = { w with queue := w.queue ++ [e] }) ∧
    (w.mask.getLsbD e.kind.code = true → 16 ≤ w.queue.length →
      (w.lost ≠ 65535 → w.raise e = { w with lost := w.lost + 1, due := { w.due with global := true } }) ∧
      (w.lost = 65535 → w.raise e = w))) ∧
  (∀ (s : State) (b : WriteBeat), b.addr = 0x0FFFF008 → b.enables = 0xFF →
    s.controlCapture b = (s.takeCommand (b.data.truncate 32)).takeMask ((b.data >>> 32).truncate 32))

/-! ### The table port -/

/-- EVENT_CONSUMED completes for a slot on the ring path: it becomes the consumed index and the interrupt line follows;
any other slot is refused with BAD_INDEX. -/
def Obligations.EventConsumedCompletes : Prop :=
  ∀ (s : State) (w : Word) (c : Byte), c.toNat = w.toNat % 256 →
    ((c - s.events.consumed).toNat ≤ (s.events.writeIndex - s.events.consumed).toNat →
      exec (.eventConsumed w) s = .next
        { s with events := { s.events with consumed := c, interrupt := s.events.writeIndex != c } }) ∧
    ((s.events.writeIndex - s.events.consumed).toNat < (c - s.events.consumed).toNat →
      exec (.eventConsumed w) s = .next
        (s.raise ⟨.commandRefused, 0, 0, 12, word c.toNat, word s.events.consumed.toNat⟩))

/-- TABLE_SELECT completes from every state: the cursor names the table, entry and word when they exist and is invalid
otherwise, the assembly is emptied, and nothing else changes. An invalid cursor is reported at the next TABLE_DATA. -/
def Obligations.TableSelectCompletes : Prop :=
  ∀ (s : State) (w : Word),
    (∀ i, tableOfId (w.toNat % 256) = some i → w.toNat / 256 % 256 < tableEntries i →
      w.toNat / 65536 % 256 < tableWords i →
      exec (.tableSelect w) s = .next
        { s with port := ⟨some ⟨i, w.toNat / 256 % 256, w.toNat / 65536 % 256⟩, Vector.replicate 8 none⟩ }) ∧
    ((∀ i, tableOfId (w.toNat % 256) = some i →
        tableEntries i ≤ w.toNat / 256 % 256 ∨ tableWords i ≤ w.toNat / 65536 % 256) →
      exec (.tableSelect w) s = .next { s with port := ⟨none, Vector.replicate 8 none⟩ }) ∧
    (∀ v : Word, s.port.cursor = none → s.upstream = [] →
      exec (.tableData v) s = .next (s.raise ⟨.tableRefused, 0, 0, 13, v, 0⟩))

/-- TABLE_DATA completes under a valid cursor whose table takes words: a word that is not the final one is stored and
the cursor moves to the next word; the final one hands the entry to its owner, the words not stored being the owner's
own, and the cursor then moves to word 0 of the next entry. A word for the staged layer table of an output whose commit
is pending is dropped: the assembly is discarded, the cursor moves on, and STAGED_DROPPED names the table, the entry and
the word. The owner's own words are the fields of its record, the staged copy where it has two, at the bits of 10.3, the
reserved ones 0; that the six positions of a stream entry are among them is log entry 15 (DEDUCED). -/
def Obligations.TableDataCompletes : Prop :=
  (∀ (s : State) (w : Word) (c : Cursor), s.port.cursor = some c → s.dropsWords c.table = false → s.upstream = [] →
    (c.word + 1 < tableWords c.table →
      exec (.tableData w) s = .next
        { s with port := ⟨some { c with word := c.word + 1 }, s.port.assembly.setIfInBounds c.word (some w)⟩ }) ∧
    (c.word + 1 = tableWords c.table → ∃ t, exec (.tableData w) s = .next t ∧
      t = { s.applyEntry c.table c.entry
              ((List.range (tableWords c.table)).map fun i =>
                (((s.port.assembly.setIfInBounds c.word (some w))[i]?).getD none).getD
                  ((s.entryWords c.table c.entry false).getD i 0)) with
            port := ⟨some ⟨c.table, if c.entry + 1 < tableEntries c.table then c.entry + 1 else 0, 0⟩,
              Vector.replicate 8 none⟩ })) ∧
  (∀ (s : State) (w : Word) (d : OutputId) (entry i : Nat), s.port.cursor = some ⟨.layer d, entry, i⟩ →
    (s.layers.get d).commitPending = true → s.upstream = [] →
    exec (.tableData w) s = .next
      (({ s with port := ⟨some (Cursor.next ⟨.layer d, entry, i⟩), Vector.replicate 8 none⟩ }).raise
        ⟨.stagedDropped, 2 + outputNumber d, 0, 0, word entry, word i⟩)) ∧
  (∀ (s : State) (t : TableId) (entry : Nat), entry < tableEntries t →
    HoldsEntry s t entry false (s.entryWords t entry false) ∧
    [TableId.surface, .layer .A, .layer .B, .stream, .timing .A, .timing .B, .credit, .link].map tableWords =
      [6, 6, 6, 6, 8, 8, 2, 2])

/-- What each table does with an assembled entry. The checks of a surface, layer or stream entry are listed with the
reason code and operand B of a refusal: the first that fails refuses the entry with TABLE_REFUSED and changes nothing
else. A surface entry that passes binds or unbinds the record and damages the layers that show it; one that overlaps an
alias range is refused with the lowest surface it overlaps. A layer entry replaces its staged record, the magnification
clamped to 1 to 4. A stream entry writes the record and fresh slots, N clamped to D. That the record keeps all six
surface positions as written, those beyond the slot count too, is the model's choice, DEDUCED from R103: R81 takes the
slot surfaces alone (log entry 15). A timing entry is staged as written. Credit counts and link settings are clamped.
Every value clamped raises VALUE_CLAMPED; that several come in ascending order is the model's choice (log entry 35,
DESIGN CHOICE). The fields of each entry are the bits of its words that 10.3 gives them, a destination coordinate in
two's complement, a colour blue, green, red, alpha from bit 0 up. -/
def Obligations.TableEntriesApply : Prop :=
  (∀ (s : State) (i : Nat) (ws : List Word) (e : SurfaceEntry) (checks : List (Bool × Nat × Nat)), e = surfaceEntry ws →
    checks =
      [(decide (e.binding ≤ 1), 6, 1),
       (decide ((s.streams.get .S0).state = .stopped ∨ i ∉ (s.streams.get .S0).positions.take (s.streams.get .S0).count),
         9, 0),
       (decide ((s.streams.get .S1).state = .stopped ∨ i ∉ (s.streams.get .S1).positions.take (s.streams.get .S1).count),
         9, 1)] ++
      (if e.binding = 0 then [] else
        [(decide (e.formatCode = 1 ∨ e.formatCode = 2), 6, 3), (decide (e.aliasCode ≤ 2), 6, 4),
         (decide (e.base % 64 = 0), 7, 5), (decide (e.aliasCode ≠ 0 → e.aliasBase % 64 = 0), 7, 6),
         (decide (1 ≤ e.width ∧ e.width ≤ 2048 ∧ 1 ≤ e.height ∧ e.height ≤ 2048), 5, 7),
         (decide (e.pitch % 64 = 0 ∧ e.width * 4 ≤ e.pitch ∧ e.pitch ≤ 16384), 5, 8),
         (decide (e.base + e.pitch * (e.height - 1) + e.width * 4 ≤ 0x0FFFC000), 5, 9),
         (decide (e.aliasCode ≠ 0 → e.aliasBase + e.pitch / 2 * e.height ≤ 0x10000000), 5, 10)]) →
    (∀ earlier later code b, checks = earlier ++ (false, code, b) :: later → (∀ c ∈ earlier, c.1 = true) →
      s.applySurface i ws = s.raise ⟨.tableRefused, 1, 0, code, word i, word b⟩) ∧
    (∀ (overlaps : Nat → Prop) (x : Surface), (∀ j, overlaps j ↔ j ≠ i ∧ ∃ y r, s.surface j = some y ∧
        y.view = some r ∧ y.geometry.bound = true ∧ e.aliasBase < r.base + y.geometry.pitch / 2 * y.geometry.height ∧
        r.base < e.aliasBase + e.pitch / 2 * e.height) →
      (∀ c ∈ checks, c.1 = true) →
      (∀ j, e.binding = 1 → e.aliasCode ≠ 0 → overlaps j → (∀ m, m < j → ¬ overlaps m) →
        s.applySurface i ws = s.raise ⟨.tableRefused, 1, 0, 8, word i, word j⟩) ∧
      ((e.binding = 0 ∧ x = ⟨⟨false, 0, 0, 0, 0, .none⟩, none⟩ ∨
          e.binding = 1 ∧ (e.aliasCode ≠ 0 → ∀ j, ¬ overlaps j) ∧
          x = ⟨⟨true, e.base, e.pitch, e.width, e.height, if e.formatCode = 1 then .argb32 else .xrgb32⟩,
            if e.aliasCode = 0 then none
            else some ⟨e.aliasBase, if e.aliasCode = 1 then .rgb16 else .argb4444⟩⟩) →
        ∃ D, s.applySurface i ws = { s with surfaces := s.surfaces.setIfInBounds i x, damage := D } ∧
          ∀ d, D.get d = if (s.outputState d).live then
              ⟨(((s.layers.get d).active.toList.filter fun l => l.enabled && (l.content == .surface && l.index == i)).map
                fun l => (l.dx, l.dy, l.sw * l.mag, l.sh * l.mag)).foldl
                  (fun l q => l.insertPixels (s.outputs.get d).active q.1 q.2.1 q.2.2.1 q.2.2.2) (s.damage.get d).list,
                (s.damage.get d).previous⟩
            else s.damage.get d))) ∧
  (∀ (s : State) (d : OutputId) (i : Nat) (ws : List Word) (e : LayerEntry) (checks : List (Bool × Nat × Nat)),
    e = layerEntry ws →
    checks =
      [(decide (e.enabled ≤ 1), 6, 1), (decide (e.content ≤ 2), 6, 2), (decide (e.blend ≤ 1), 6, 3),
       (decide ((e.content = 1 → e.index ≤ 31) ∧ (2 ≤ e.content → e.index ≤ 1)), 4, 4),
       (decide (e.sx ≤ 2047 ∧ e.sy ≤ 2047 ∧ e.sw ≤ 2047 ∧ e.sh ≤ 2047), 5, 5),
       (decide (-4096 ≤ e.dx ∧ e.dx ≤ 4095 ∧ -4096 ≤ e.dy ∧ e.dy ≤ 4095), 5, 6)] →
    (∀ earlier later code step, checks = earlier ++ (false, code, step) :: later → (∀ c ∈ earlier, c.1 = true) →
      s.applyLayer d i ws = s.raise ⟨.tableRefused, 2 + outputNumber d, 0, code, word i, word step⟩) ∧
    ((∀ c ∈ checks, c.1 = true) → s.applyLayer d i ws =
      ({ s with layers := s.layers.set d { s.layers.get d with
          staged := (s.layers.get d).staged.setIfInBounds i
            ⟨e.enabled == 1, if e.content = 0 then .solid else if e.content = 1 then .surface else .stream, e.index,
              e.sx, e.sy, e.sw, e.sh, e.dx, e.dy, max 1 (min 4 e.mag), e.opacity,
              if e.blend = 0 then .copy else .blend, e.colour⟩ } }).raiseAll
        (if e.mag < 1 ∨ 4 < e.mag then [⟨.valueClamped, 2 + outputNumber d, 0, 0, word i, word e.mag⟩] else []))) ∧
  (∀ (s : State) (k : StreamId) (ws : List Word) (e : StreamEntry) (slots : List Nat) (checks : List (Bool × Nat × Nat)),
    e = streamEntry ws → slots = e.positions.take e.count →
    checks =
      [(decide ((s.streams.get k).state = .stopped), 3, 1),
       (decide (∀ sl ∈ (s.streams.get k).slots, sl.state ≠ .retired), 3, 2),
       (decide (e.pacing ≤ 1), 6, 3), (decide (2 ≤ e.count ∧ e.count ≤ 6), 4, 4),
       (decide (1 ≤ e.rateN ∧ e.rateN ≤ 120 ∧ 1 ≤ e.rateD ∧ e.rateD ≤ 120), 4, 5),
       (decide (∀ j ∈ slots, (s.geometryOf j).bound = true), 5, 6), (decide slots.Nodup, 5, 7),
       (decide (∀ i ∈ slots, ∀ j ∈ slots, (s.geometryOf i).width = (s.geometryOf j).width ∧
         (s.geometryOf i).height = (s.geometryOf j).height), 5, 8),
       (decide (∀ j ∈ slots, 64 ≤ (s.geometryOf j).base), 5, 9),
       (decide (∀ j ∈ slots, j ∉ (s.streams.get (otherStream k)).positions.take (s.streams.get (otherStream k)).count),
         5, 10)] →
    (∀ earlier later code step, checks = earlier ++ (false, code, step) :: later → (∀ c ∈ earlier, c.1 = true) →
      s.applyStream k ws = s.raise ⟨.tableRefused, 4, 0, code, word (streamNumber k), word step⟩) ∧
    ((∀ c ∈ checks, c.1 = true) → s.applyStream k ws =
      ({ s with
        streams := s.streams.set k
          ⟨.stopped, e.count, e.positions, if e.pacing = 0 then .A else .B, min e.rateN e.rateD, e.rateD, 0, 0, 0,
            (s.streams.get k).counters,
            List.replicate e.count ⟨.free, ⟨0, 0, 0⟩, ⟨0, 0, false, false⟩, 0, ⟨false, false⟩, false, false⟩⟩
        events := { s.events with
          due := { s.events.due with stream := s.events.due.stream.set k true } } }).raiseAll
        (if e.rateD < e.rateN then [⟨.valueClamped, 4, 0, 0, word (streamNumber k), word e.rateN⟩] else []))) ∧
  (∀ (s : State) (d : OutputId) (ws : List Word), s.applyTiming d ws =
    { s with outputs := s.outputs.set d { s.outputs.get d with
      staged := ⟨bits (ws.getD 0 0) 0 16, bits (ws.getD 0 0) 16 16, bits (ws.getD 1 0) 0 16, bits (ws.getD 1 0) 16 16,
        (ws.getD 2 0).toNat, colourOf (ws.getD 3 0), (ws.getD 4 0).toNat, (ws.getD 5 0).toNat,
        if bits (ws.getD 6 0) 0 16 = 0xFFFF then none else some (bits (ws.getD 6 0) 0 16)⟩ } }) ∧
  (∀ (s : State) (ws : List Word) (c : Credits), c = creditEntry ws → s.applyCredit ws =
    ({ s with stagedCredits := ⟨max 1 (min 16 c.pass), max 1 (min 16 c.scanA), max 1 (min 16 c.scanB),
        max 1 (min 16 c.comp), max 1 (min 16 c.stat)⟩ }).raiseAll
      (([(0, c.pass), (1, c.scanA), (2, c.scanB), (3, c.comp), (4, c.stat)].filter fun f : Nat × Nat =>
        decide (f.2 < 1 ∨ 16 < f.2)).map fun f : Nat × Nat => ⟨.valueClamped, 7, 0, 0, word f.1, word f.2⟩)) ∧
  (∀ (s : State) (ws : List Word) (x : LinkSettings), x = linkEntry ws → s.applyLinkSettings ws =
    ({ s with linkSettings := ⟨max 4 (min 64 x.confirmTimeout), min 8 x.replayLimit, min 3 x.reinitLimit⟩ }).raiseAll
      (([(0, x.confirmTimeout, 4, 64), (1, x.replayLimit, 0, 8), (2, x.reinitLimit, 0, 3)].filter
        fun f : Nat × Nat × Nat × Nat => decide (f.2.1 < f.2.2.1 ∨ f.2.2.2 < f.2.1)).map
        fun f : Nat × Nat × Nat × Nat => ⟨.valueClamped, 8, 0, 0, word f.1, word f.2.1⟩)) ∧
  (∀ (ws : List Word) (w : Nat → Nat) (signed : Nat → Int) (c : Colour), (∀ i, w i = (ws.getD i 0).toNat) →
    (∀ n, signed n = if n < 0x8000 then (n : Int) else (n : Int) - 0x10000) →
    [c.blue, c.green, c.red, c.alpha] = [0, 1, 2, 3].map (fun i => BitVec.ofNat 8 (w 5 / 256 ^ i)) →
    surfaceEntry ws = ⟨w 0, w 1 % 65536, w 2 % 65536, w 2 / 65536, w 3 % 256, w 3 / 256 % 256, w 4, w 5⟩ ∧
    layerEntry ws = ⟨w 0 % 256, w 0 / 256 % 256, w 0 / 65536 % 256, w 0 / 16777216, BitVec.ofNat 8 (w 1),
      w 1 / 256 % 256, w 2 % 65536, w 2 / 65536, w 3 % 65536, w 3 / 65536, signed (w 4 % 65536),
      signed (w 4 / 65536), c⟩ ∧
    streamEntry ws = ⟨w 0 % 256, w 0 / 256 % 256, [w 1 % 256, w 1 / 256 % 256, w 1 / 65536 % 256, w 1 / 16777216,
      w 2 % 256, w 2 / 256 % 256], w 3 % 256, w 3 / 256 % 256⟩ ∧
    creditEntry ws = ⟨w 0 % 256, w 0 / 256 % 256, w 0 / 65536 % 256, w 0 / 16777216, w 1 % 256⟩ ∧
    linkEntry ws = ⟨w 0 % 65536, w 1 % 256, w 1 / 256 % 256⟩ ∧
    (∀ (v : Word) (lo len : Nat), bits v lo len = v.toNat / 2 ^ lo % 2 ^ len) ∧
    (∀ v : Word, [(colourOf v).blue, (colourOf v).green, (colourOf v).red, (colourOf v).alpha] =
      [0, 1, 2, 3].map (fun i => BitVec.ofNat 8 (v.toNat / 256 ^ i))))

/-! ### Commands on outputs and streams -/

/-- A command on an output or a stream with an operand other than 0 or 1 is refused with BAD_OPERAND and changes
nothing. UNKNOWN_COMMAND completes: a code that is not in the table is refused with UNKNOWN, the operands as written. -/
def Obligations.RefusedCommands : Prop :=
  (∀ (s : State) (operand : Byte), operand ≠ 0 → operand ≠ 1 →
    ∀ p ∈ [(0x01, Instr.commit operand), (0x02, .invalidate operand), (0x10, .streamStart operand),
        (0x11, .streamPause operand), (0x12, .streamResume operand), (0x13, .streamStop operand),
        (0x20, .outputStart operand), (0x21, .outputStop operand), (0x22, .outputFreeze operand),
        (0x23, .outputThaw operand)],
      exec p.2 s = .next (s.raise ⟨.commandRefused, p.1, 0, 2, word operand.toNat, 1⟩)) ∧
  (∀ (s : State) (code operand1 : Byte) (operand2 : BitVec 16), commandCodes.contains code = false →
    exec (.unknownCommand code operand1 operand2) s = .next
      (s.raise ⟨.commandRefused, code.toNat, 0, 1, word operand1.toNat, word operand2.toNat⟩))

/-- COMMIT completes in every state of the output: commit-pending is set and nothing else changes. -/
def Obligations.CommitCompletes : Prop :=
  ∀ (s : State) (operand : Byte) (d : OutputId), outputOfOperand operand = some d →
    exec (.commit operand) s = .next
      { s with layers := s.layers.set d { s.layers.get d with commitPending := true } }

/-- OUTPUT_FREEZE completes in RUNNING and OUTPUT_THAW in FROZEN: the state changes, the status block becomes due,
OUTPUT_STATE is raised, and nothing else changes. In every other state OUTPUT_FREEZE and OUTPUT_THAW are refused with
BAD_STATE. -/
def Obligations.FreezeAndThaw : Prop :=
  (∀ (s : State) (operand : Byte) (d : OutputId), outputOfOperand operand = some d →
    (s.outputState d = .running → exec (.outputFreeze operand) s = .next
      (((s.setOutput d { s.outputs.get d with state := .frozen }).markOutput d).raise
        ⟨.outputState, outputNumber d, (s.outputs.get d).frameCounter, 0, 4, 3⟩)) ∧
    (s.outputState d = .frozen → exec (.outputThaw operand) s = .next
      (((s.setOutput d { s.outputs.get d with state := .running }).markOutput d).raise
        ⟨.outputState, outputNumber d, (s.outputs.get d).frameCounter, 0, 3, 4⟩))) ∧
  (∀ (s : State) (operand : Byte) (d : OutputId), outputOfOperand operand = some d →
    (s.outputState d ≠ .running → exec (.outputFreeze operand) s = .next
      (s.raise ⟨.commandRefused, 0x22, 0, 3, word (outputNumber d), word (outputStateCode (s.outputState d))⟩)) ∧
    (s.outputState d ≠ .frozen → exec (.outputThaw operand) s = .next
      (s.raise ⟨.commandRefused, 0x23, 0, 3, word (outputNumber d), word (outputStateCode (s.outputState d))⟩)))

/-- OUTPUT_START completes when the output is OFF and its staged timing passes every check: timing and link settings are
captured, the output is LOCKING, and the other output, its link, memory, layers, damage and streams stay as they were.
An OFF output whose staged timing fails a check is refused with GEOMETRY and the number of the first step that fails. In
every other state it is refused with BAD_STATE. -/
def Obligations.OutputStartCompletes : Prop :=
  (∀ (s : State) (operand : Byte) (d : OutputId), outputOfOperand operand = some d → (s.outputs.get d).state ≠ .off →
    exec (.outputStart operand) s = .next (s.raise ⟨.commandRefused, 0x20, 0, 3, word (outputNumber d), 1⟩)) ∧
  (∀ (s : State) (operand : Byte) (d : OutputId) (g : Timing) (earlier later : List (Bool × Nat)) (step : Nat),
    outputOfOperand operand = some d → g = (s.outputs.get d).staged → (s.outputs.get d).state = .off →
    [(decide (16 ≤ g.width ∧ g.width ≤ 2048 ∧ 16 ≤ g.height ∧ g.height ≤ 2048), 2),
     (decide (g.width + 16 ≤ g.hTotal ∧ g.hTotal ≤ 4095), 3), (decide (g.height + 2 ≤ g.vTotal ∧ g.vTotal ≤ 4095), 4),
     (decide (25000 ≤ g.clock ∧ g.clock ≤ 165000), 5), (decide (g.buffer0 % 64 = 0 ∧ g.buffer1 % 64 = 0), 6),
     (decide (g.buffer0 + g.pitch * g.height ≤ 0x0FFFC000 ∧ g.buffer1 + g.pitch * g.height ≤ 0x0FFFC000), 7),
     (decide (g.buffer1 + g.pitch * g.height ≤ g.buffer0 ∨ g.buffer0 + g.pitch * g.height ≤ g.buffer1), 8),
     (decide (∀ y ∈ g.lineMatch, y + 1 ≤ g.vTotal), 9)] = earlier ++ (false, step) :: later →
    (∀ c ∈ earlier, c.1 = true) →
    exec (.outputStart operand) s = .next (s.raise ⟨.commandRefused, 0x20, 0, 5, word (outputNumber d), word step⟩)) ∧
  ∀ (s : State) (operand : Byte) (d : OutputId) (g : Timing), outputOfOperand operand = some d →
    g = (s.outputs.get d).staged → (s.outputs.get d).state = .off →
    16 ≤ g.width → g.width ≤ 2048 → 16 ≤ g.height → g.height ≤ 2048 → g.width + 16 ≤ g.hTotal → g.hTotal ≤ 4095 →
    g.height + 2 ≤ g.vTotal → g.vTotal ≤ 4095 → 25000 ≤ g.clock → g.clock ≤ 165000 → g.buffer0 % 64 = 0 →
    g.buffer1 % 64 = 0 → g.buffer0 + g.pitch * g.height ≤ 0x0FFFC000 → g.buffer1 + g.pitch * g.height ≤ 0x0FFFC000 →
    (g.buffer0 + g.pitch * g.height ≤ g.buffer1 ∨ g.buffer1 + g.pitch * g.height ≤ g.buffer0) →
    (∀ y, g.lineMatch = some y → y < g.vTotal) →
    ∃ t, exec (.outputStart operand) s = .next t ∧
      t.outputs = s.outputs.set d { s.outputs.get d with
        state := .locking, active := g, resume := none, begun := false, frameUnderflows := 0, fifo := [],
        fetch := none, lock := false } ∧
      t.links = s.links.set d { s.links.get d with
        settings := s.linkSettings, panel := none, reinitRun := 0, replayRun := 0, buffer := [], nextSeq := 0,
        pointer := none, replayEnd := none } ∧
      t.events = { s.events.raise ⟨.outputState, outputNumber d, (s.outputs.get d).frameCounter, 0, 1, 0⟩ with
        due := { (s.events.raise ⟨.outputState, outputNumber d, (s.outputs.get d).frameCounter, 0, 1, 0⟩).due with
          output := s.events.due.output.set d true } } ∧
      t.mem = s.mem ∧ t.layers = s.layers ∧ t.damage = s.damage ∧ t.comp = s.comp ∧ t.streams = s.streams ∧
      t.surfaces = s.surfaces ∧ t.inFlight = s.inFlight

/-- OUTPUT_STOP completes in every state. From OFF it clears commit-pending alone. From any other state the output is
OFF with lock, blank and resume state cleared and its FIFO empty, its link is DOWN, its damage records are empty, its
commit is withdrawn, its composition is gone and its holds are released; active timing, frame counter, counters and
layer tables are kept. -/
def Obligations.OutputStopCompletes : Prop :=
  ∀ (s : State) (operand : Byte) (d : OutputId), outputOfOperand operand = some d →
    (s.outputState d = .off → exec (.outputStop operand) s = .next
      { s with layers := s.layers.set d { s.layers.get d with commitPending := false } }) ∧
    (s.outputState d ≠ .off → ∃ t, exec (.outputStop operand) s = .next t ∧
      t.outputs = s.outputs.set d { s.outputs.get d with
        state := .off, resume := none, lock := false, blank := false, begun := false, fifo := [], fetch := none } ∧
      (t.links.get d).state = .down ∧ (t.links.get d).buffer = [] ∧
      (t.links.get d).sent = (if (s.links.get d).state.up then (s.links.get d).sent ++ [haltBytes]
        else (s.links.get d).sent) ∧
      t.links.get (otherOutput d) = s.links.get (otherOutput d) ∧
      t.damage = s.damage.set d ⟨⟨[], false⟩, ⟨[], false⟩⟩ ∧
      t.layers = s.layers.set d { s.layers.get d with commitPending := false } ∧
      t.comp = s.comp.set d { s.comp.get d with composition := none, awaiting := false, completedSize := 0 } ∧
      t.mem = s.mem ∧ t.surfaces = s.surfaces ∧
      ((s.comp.get d).composition = none → t.streams = s.streams) ∧
      (∀ k q i sl, (s.comp.get d).composition = some k → (s.streams.get q).slots[i]? = some sl →
        (t.streams.get q).slots[i]? = some (if ⟨q, i⟩ ∈ k.holds then
            { sl with
              holds := sl.holds.set d false
              state := if sl.state = .retired ∧ sl.holds.get (otherOutput d) = false then .free else sl.state }
          else sl)))

/-- STREAM_START completes when its four checks hold: the stream is PRIMING; from STOPPED its tick, phase and expected
slot are 0 and its seen flags clear, from ENDED everything else is kept; only this stream, its status block's mark and
the event queue change. In every other state it is refused with BAD_STATE. The first check that fails decides: a slot
count outside 2 to 6 is refused with RANGE at step 2, slot surfaces not all BOUND or not of equal size with GEOMETRY at
step 3, a base below 64 with GEOMETRY at step 4; nothing else changes. -/
def Obligations.StreamStartCompletes : Prop :=
  (∀ (s : State) (operand : Byte) (k : StreamId), streamOfOperand operand = some k →
    (s.streams.get k).state ≠ .stopped → (s.streams.get k).state ≠ .ended →
    exec (.streamStart operand) s = .next (s.raise ⟨.commandRefused, 0x10, 0, 3, word (streamNumber k), 1⟩)) ∧
  (∀ (s : State) (operand : Byte) (k : StreamId) (x : Stream) (earlier later : List (Bool × Nat × Nat)) (code step : Nat),
    streamOfOperand operand = some k → x = s.streams.get k →
    [(decide (x.state = .stopped ∨ x.state = .ended), 3, 1), (decide (2 ≤ x.count ∧ x.count ≤ 6), 4, 2),
      (s.slotsBound x.surfaces && s.slotsEqual x.surfaces, 5, 3), (s.slotsBased x.surfaces, 5, 4)] =
      earlier ++ (false, code, step) :: later → (∀ c ∈ earlier, c.1 = true) →
    exec (.streamStart operand) s = .next
      (s.raise ⟨.commandRefused, 0x10, 0, code, word (streamNumber k), word step⟩)) ∧
  ∀ (s : State) (operand : Byte) (k : StreamId), streamOfOperand operand = some k →
    ((s.streams.get k).state = .stopped ∨ (s.streams.get k).state = .ended) →
    2 ≤ (s.streams.get k).count → (s.streams.get k).count ≤ 6 →
    s.slotsBound (s.streams.get k).surfaces = true → s.slotsEqual (s.streams.get k).surfaces = true →
    s.slotsBased (s.streams.get k).surfaces = true →
    ∃ x, ((s.streams.get k).state = .ended → x = { s.streams.get k with state := .priming }) ∧
      ((s.streams.get k).state = .stopped → x = { s.streams.get k with
        state := .priming, expected := 0, tick := 0, phase := 0,
        slots := (s.streams.get k).slots.map fun sl => { sl with lateSeen := false, unarmedSeen := false } }) ∧
      exec (.streamStart operand) s = .next
        (((s.mark (·.markStream k)).setStream k x).raise
          ⟨.streamState, streamNumber k, s.frameOf (s.streams.get k).pacing, 0, 1,
            word (streamStateCode (s.streams.get k).state)⟩)

/-- STREAM_PAUSE completes in RUNNING and STREAM_RESUME in PAUSED: the state alone changes in the stream, its status
block becomes due and STREAM_STATE is raised. In every other state they are refused with BAD_STATE. -/
def Obligations.PauseAndResumeComplete : Prop :=
  (∀ (s : State) (operand : Byte) (k : StreamId), streamOfOperand operand = some k →
    ((s.streams.get k).state ≠ .running → exec (.streamPause operand) s = .next
      (s.raise ⟨.commandRefused, 0x11, 0, 3, word (streamNumber k), word (streamStateCode (s.streams.get k).state)⟩)) ∧
    ((s.streams.get k).state ≠ .paused → exec (.streamResume operand) s = .next
      (s.raise ⟨.commandRefused, 0x12, 0, 3, word (streamNumber k), word (streamStateCode (s.streams.get k).state)⟩))) ∧
  ∀ (s : State) (operand : Byte) (k : StreamId), streamOfOperand operand = some k →
    ((s.streams.get k).state = .running → exec (.streamPause operand) s = .next
      (((s.mark (·.markStream k)).setStream k { s.streams.get k with state := .paused }).raise
        ⟨.streamState, streamNumber k, s.frameOf (s.streams.get k).pacing, 0, 3, 2⟩)) ∧
    ((s.streams.get k).state = .paused → exec (.streamResume operand) s = .next
      (((s.mark (·.markStream k)).setStream k { s.streams.get k with state := .running }).raise
        ⟨.streamState, streamNumber k, s.frameOf (s.streams.get k).pacing, 0, 2, 3⟩))

/-- STREAM_STOP completes in every state. A STOPPED stream is left as it is. Any other is STOPPED with every slot FREE
or, where a composition holds it, RETIRED; its configuration, tick, phase and counters are kept. When a slot was SHOWN,
each RUNNING or FROZEN output has the destination rectangle of each enabled layer that shows the stream inserted into
its damage list, layers ascending; otherwise no damage record changes. -/
def Obligations.StreamStopCompletes : Prop :=
  ∀ (s : State) (operand : Byte) (k : StreamId), streamOfOperand operand = some k →
    ((s.streams.get k).state = .stopped → exec (.streamStop operand) s = .next s) ∧
    ((s.streams.get k).state ≠ .stopped → ∃ t, exec (.streamStop operand) s = .next t ∧
      t.streams.get k = { s.streams.get k with
        state := .stopped
        slots := (s.streams.get k).slots.map fun sl =>
          if sl.state = .free then sl else { sl with state := if sl.held then .retired else .free } } ∧
      t.streams.get (otherStream k) = s.streams.get (otherStream k) ∧ t.mem = s.mem ∧ t.outputs = s.outputs ∧
      t.links = s.links ∧ t.layers = s.layers ∧ t.comp = s.comp ∧ t.inFlight = s.inFlight ∧
      ∀ e, t.damage.get e = if (∃ sl ∈ (s.streams.get k).slots, sl.state = .shown) ∧ (s.outputState e).live = true then
          ⟨(((s.layers.get e).active.toList.filter fun l =>
              l.enabled && (l.content == .stream && l.index == streamNumber k)).map
            fun l => (l.dx, l.dy, l.sw * l.mag, l.sh * l.mag)).foldl
              (fun l q => l.insertPixels (s.outputs.get e).active q.1 q.2.1 q.2.2.1 q.2.2.2) (s.damage.get e).list,
            (s.damage.get e).previous⟩
        else s.damage.get e)

/-! ### Timing generators, synthesizers and panels -/

/-- LOCK_COMPLETION completes while the output is LOCKING: lock set, line 0, TRAINING, and its link sends ANNOUNCE and
is ANNOUNCING with an empty buffer. LOCK_LOSS completes while the output is TRAINING, RUNNING or FROZEN: lock cleared,
the resume state set, the fetcher stopped, LOCKING, and the link DOWN without HALT; the composition, the damage and the
layers are kept. In FAULT either changes the lock flag alone and reports it; in every other state neither changes
anything: no such indication comes there (R110), and the model's choice is log entry 3. -/
def Obligations.LockChanges : Prop :=
  (∀ (s : State) (d : OutputId),
    (s.outputState d = .off ∨ (s.outputState d).timed = true → exec (.lockCompletion d) s = .next s) ∧
    (s.outputState d = .off ∨ s.outputState d = .locking → exec (.lockLoss d) s = .next s) ∧
    (s.outputState d = .fault →
      exec (.lockCompletion d) s = .next (((s.setOutput d { s.outputs.get d with lock := true }).markOutput d).raise
        ⟨.lockChange, outputNumber d, (s.outputs.get d).frameCounter, 0, 1, 5⟩) ∧
      exec (.lockLoss d) s = .next (((s.setOutput d { s.outputs.get d with lock := false }).markOutput d).raise
        ⟨.lockChange, outputNumber d, (s.outputs.get d).frameCounter, 0, 0, 5⟩))) ∧
  (∀ (s : State) (d : OutputId), s.outputState d = .locking → (s.links.get d).state = .down →
    ∃ t, exec (.lockCompletion d) s = .next t ∧
      t.outputs = s.outputs.set d { s.outputs.get d with state := .training, lock := true, line := 0, begun := false } ∧
      t.links = s.links.set d { s.links.get d with
        state := .announcing, announceCount := 1, timer := 0, buffer := [], nextSeq := 0, pointer := none,
        replayEnd := none, replayRun := 0, sent := (s.links.get d).sent ++ [announceBytes] } ∧
      t.events = (((({ s.events with due := s.events.due.markOutput d }).raise
        ⟨.lockChange, outputNumber d, (s.outputs.get d).frameCounter, 0, 1, 2⟩).raise
        ⟨.outputState, outputNumber d, (s.outputs.get d).frameCounter, 0, 2, 1⟩).raise
        ⟨.linkState, outputNumber d, (s.outputs.get d).frameCounter, 0, 1, 0⟩) ∧
      t.mem = s.mem ∧ t.layers = s.layers ∧ t.damage = s.damage ∧ t.comp = s.comp ∧ t.streams = s.streams) ∧
  (∀ (s : State) (d : OutputId), (s.outputState d).timed = true →
    ∃ t, exec (.lockLoss d) s = .next t ∧
      t.outputs = s.outputs.set d { s.outputs.get d with
        state := .locking, lock := false, fifo := [], begun := false, fetch := none,
        resume := if s.outputState d = .running then some .running
          else if s.outputState d = .frozen then some .frozen else (s.outputs.get d).resume } ∧
      (t.links.get d).state = .down ∧ (t.links.get d).buffer = [] ∧ (t.links.get d).sent = (s.links.get d).sent ∧
      (t.links.get d).panel = (s.links.get d).panel ∧ (t.links.get d).reinitRun = (s.links.get d).reinitRun ∧
      t.comp = s.comp ∧ t.damage = s.damage ∧ t.layers = s.layers ∧ t.streams = s.streams ∧ t.mem = s.mem)

/-- PANEL_INFO completes in ANNOUNCING: a panel of the active size and a sufficient clock, the same as the panel record
if there is one, is recorded, CONFIGURE is sent and the link is CONFIGURING. A panel of another size than the panel
record takes the link to ERROR with PANEL_CHANGED, one that does not fit the active timing with PANEL_MISMATCH: it is
recorded all the same, HALT is sent, and an output that is TRAINING, RUNNING or FROZEN is in FAULT. In every other link
state nothing changes. That PANEL_CHANGED replaces the panel record follows log entry 30. The bytes of ANNOUNCE,
CONFIGURE and HALT are the kind byte and the fields, most significant byte first, and then the CRC-16 of all of them. -/
def Obligations.PanelInfoCompletes : Prop :=
  (∀ (s : State) (d : OutputId) (w h : BitVec 16) (clock : BitVec 32) (why : LinkReason),
    (s.links.get d).state = .announcing →
    ((∃ p, (s.links.get d).panel = some p ∧ (p.width ≠ w.toNat ∨ p.height ≠ h.toNat)) ∧ why = .panelChanged ∨
      (∀ p, (s.links.get d).panel = some p → p.width = w.toNat ∧ p.height = h.toNat) ∧
        ((s.outputs.get d).active.width ≠ w.toNat ∨ (s.outputs.get d).active.height ≠ h.toNat ∨
          clock.toNat < (s.outputs.get d).active.clock) ∧ why = .panelMismatch) →
    ∃ t, exec (.panelInfo d w h clock) s = .next t ∧
      t.links = s.links.set d { s.links.get d with
        state := .error, reason := some why, panel := some ⟨w.toNat, h.toNat, clock.toNat⟩, buffer := [],
        nextSeq := 0, pointer := none, replayEnd := none, stable := false,
        sent := (s.links.get d).sent ++ [haltBytes] } ∧
      ((s.outputState d).timed = true → t.outputState d = .fault) ∧ t.mem = s.mem ∧ t.damage = s.damage ∧
      t.layers = s.layers) ∧
  (∀ (s : State) (d : OutputId) (w h : BitVec 16) (clock : BitVec 32), (s.links.get d).state ≠ .announcing →
    exec (.panelInfo d w h clock) s = .next s) ∧
  (∀ (s : State) (d : OutputId) (w h : BitVec 16) (clock : BitVec 32), (s.links.get d).state = .announcing →
    (∀ p, (s.links.get d).panel = some p → p.width = w.toNat ∧ p.height = h.toNat) →
    (s.outputs.get d).active.width = w.toNat → (s.outputs.get d).active.height = h.toNat →
    (s.outputs.get d).active.clock ≤ clock.toNat →
    ∃ t, exec (.panelInfo d w h clock) s = .next t ∧
      t.links = s.links.set d { s.links.get d with
        state := .configuring, timer := 0, panel := some ⟨w.toNat, h.toNat, clock.toNat⟩,
        sent := (s.links.get d).sent ++
          [configureBytes w.toNat h.toNat (s.outputs.get d).active.clock] } ∧
      t.outputs = s.outputs ∧ t.mem = s.mem ∧ t.comp = s.comp ∧ t.damage = s.damage ∧ t.layers = s.layers ∧
      t.streams = s.streams) ∧
  (∀ (w h clock : Nat) (bytes : List Byte) (crc : BitVec 16),
    bytes = [0x02, BitVec.ofNat 8 (w / 256), BitVec.ofNat 8 w, BitVec.ofNat 8 (h / 256), BitVec.ofNat 8 h,
      BitVec.ofNat 8 (clock / 16777216), BitVec.ofNat 8 (clock / 65536), BitVec.ofNat 8 (clock / 256),
      BitVec.ofNat 8 clock] →
    crc = crc16 bytes →
    configureBytes w h clock = bytes ++ [BitVec.ofNat 8 (crc.toNat / 256), BitVec.ofNat 8 crc.toNat]) ∧
  (∀ crc, crc = crc16 [0x04] → haltBytes = [0x04, BitVec.ofNat 8 (crc.toNat / 256), BitVec.ofNat 8 crc.toNat]) ∧
  (∀ bytes crc, bytes = [0x01, 1, 0x08, 0x00, 0x08, 0x00] → crc = crc16 bytes →
    announceBytes = bytes ++ [BitVec.ofNat 8 (crc.toNat / 256), BitVec.ofNat 8 crc.toNat])

/-- READY_NORMAL completes in CONFIGURING: the link is NORMAL, and a TRAINING output goes to RUNNING for the first time
with frame counter 0, blank set, front index 0 and WHOLE in both damage records, or to its resume state. In every other
link state nothing changes. -/
def Obligations.ReadyNormalCompletes : Prop :=
  (∀ (s : State) (d : OutputId), (s.links.get d).state ≠ .configuring → exec (.readyNormal d) s = .next s) ∧
  ∀ (s : State) (d : OutputId), (s.links.get d).state = .configuring →
    ∃ t, exec (.readyNormal d) s = .next t ∧ (t.links.get d).state = .normal ∧
      (t.links.get d).sent = (s.links.get d).sent ∧ t.mem = s.mem ∧ t.layers = s.layers ∧ t.streams = s.streams ∧
      (s.outputState d ≠ .training → t.outputs = s.outputs ∧ t.damage = s.damage ∧ t.comp = s.comp) ∧
      (s.outputState d = .training → (s.outputs.get d).resume = none →
        t.outputs = s.outputs.set d { s.outputs.get d with
          state := .running, frameCounter := 0, blank := true, begun := false, fifo := [] } ∧
        t.comp = s.comp.set d { s.comp.get d with front := 0 } ∧
        t.damage = s.damage.set d ⟨⟨[], true⟩, ⟨[], true⟩⟩) ∧
      (∀ r, s.outputState d = .training → (s.outputs.get d).resume = some r →
        t.outputs = s.outputs.set d { s.outputs.get d with
          state := if r = .running then .running else .frozen, begun := false, fifo := [] } ∧
        t.comp = s.comp ∧ t.damage = s.damage)

/-- CONFIRM(q) completes in NORMAL with q in the buffer: packet q and those older leave, and the consecutive replay
count is 0. In REPLAY the same holds, and the replay goes on while its end is still in the buffer, a pointer to a
removed packet moving to the oldest that remains; otherwise the link is NORMAL again. A CONFIRM or a REPLAY_FROM whose
number is not in the buffer is ignored and counted, and in every other link state neither changes anything. -/
def Obligations.ConfirmCompletes : Prop :=
  (∀ (s : State) (d : OutputId) (q : Byte) (older newer : List Packet) (p : Packet),
    (s.links.get d).state = .normal → (s.links.get d).buffer = older ++ p :: newer → p.seq = q →
    (∀ x ∈ older, x.seq ≠ q) →
    exec (.confirm d q) s = .next
      (s.setLink d { s.links.get d with buffer := newer, replayRun := 0 })) ∧
  (∀ (s : State) (d : OutputId) (q r e : Byte) (older newer : List Packet) (p : Packet),
    (s.links.get d).state = .replay → (s.links.get d).buffer = older ++ p :: newer → p.seq = q →
    (∀ x ∈ older, x.seq ≠ q) → (s.links.get d).pointer = some r → (s.links.get d).replayEnd = some e →
    ((∃ x ∈ newer, x.seq = e) → (∃ x ∈ newer, x.seq = r) → exec (.confirm d q) s = .next
      (s.setLink d { s.links.get d with buffer := newer, replayRun := 0 })) ∧
    ((∃ x ∈ newer, x.seq = e) → (∀ x ∈ newer, x.seq ≠ r) → exec (.confirm d q) s = .next
      (s.setLink d { s.links.get d with
        buffer := newer, replayRun := 0, pointer := newer.head?.map (·.seq) })) ∧
    ((∀ x ∈ newer, x.seq ≠ e) → ∃ t, exec (.confirm d q) s = .next t ∧
      t.links = s.links.set d { s.links.get d with
        state := .normal, buffer := newer, replayRun := 0, pointer := none, replayEnd := none } ∧
      t.outputs = s.outputs ∧ t.mem = s.mem ∧ t.comp = s.comp ∧ t.damage = s.damage ∧ t.layers = s.layers ∧
      t.streams = s.streams)) ∧
  (∀ (s : State) (d : OutputId) (q : Byte), (s.links.get d).state ≠ .normal → (s.links.get d).state ≠ .replay →
    exec (.confirm d q) s = .next s ∧ exec (.replayFrom d q) s = .next s) ∧
  (∀ (s : State) (d : OutputId) (q : Byte),
    ((s.links.get d).state = .normal ∨ (s.links.get d).state = .replay) →
    (∀ p ∈ (s.links.get d).buffer, p.seq ≠ q) →
    ∀ c ∈ [Instr.confirm d q, .replayFrom d q],
      exec c s = .next (s.setLink d { s.links.get d with
        counters := { (s.links.get d).counters with badRefs := bump (s.links.get d).counters.badRefs } }))

/-- REPLAY_FROM(q) completes in NORMAL and REPLAY with q in the buffer and the replay limit not reached: the packets
older than q leave, and a replay from q to the newest packet starts. Beyond the replay limit the link is re-initialized,
as at a HALT from the panel. -/
def Obligations.ReplayFromCompletes : Prop :=
  (∀ (s : State) (d : OutputId) (q : Byte), ((s.links.get d).state = .normal ∨ (s.links.get d).state = .replay) →
    (∃ p ∈ (s.links.get d).buffer, p.seq = q) → (s.links.get d).settings.replayLimit < (s.links.get d).replayRun + 1 →
    exec (.replayFrom d q) s = exec (.panelHalt d) s) ∧
  ∀ (s : State) (d : OutputId) (q : Byte) (older newer : List Packet) (p : Packet),
    ((s.links.get d).state = .normal ∨ (s.links.get d).state = .replay) → (s.links.get d).buffer = older ++ p :: newer → p.seq = q →
    (∀ x ∈ older, x.seq ≠ q) → (s.links.get d).replayRun + 1 ≤ (s.links.get d).settings.replayLimit →
    ∃ t, exec (.replayFrom d q) s = .next t ∧
      t.links = s.links.set d { s.links.get d with
        state := .replay, buffer := p :: newer, replayRun := (s.links.get d).replayRun + 1,
        counters := { (s.links.get d).counters with replays := bump (s.links.get d).counters.replays },
        pointer := some q, replayEnd := some ((newer.getLastD p).seq), stable := false } ∧
      t.outputs = s.outputs ∧ t.mem = s.mem ∧ t.comp = s.comp ∧ t.damage = s.damage ∧ t.layers = s.layers ∧
      t.streams = s.streams

/-- HALT from the panel completes in NORMAL or REPLAY. Below the re-initialization limit the link sends HALT and
ANNOUNCE and is ANNOUNCING with an empty buffer, the output going on; at the limit it is in ERROR with REINIT_LIMIT, its
count and counters kept, and an output in TRAINING, RUNNING or FROZEN is in FAULT with its composition abandoned, while
an output in any other state stays as it was. In every other link state nothing changes. -/
def Obligations.PanelHaltCompletes : Prop :=
  (∀ (s : State) (d : OutputId), (s.links.get d).state ≠ .normal → (s.links.get d).state ≠ .replay →
    exec (.panelHalt d) s = .next s) ∧
  ∀ (s : State) (d : OutputId), ((s.links.get d).state = .normal ∨ (s.links.get d).state = .replay) →
    ((s.links.get d).reinitRun + 1 ≤ (s.links.get d).settings.reinitLimit →
      ∃ t, exec (.panelHalt d) s = .next t ∧
        t.links = s.links.set d { s.links.get d with
          state := .announcing, buffer := [], nextSeq := 0, pointer := none, replayEnd := none, replayRun := 0,
          stable := false, announceCount := 1, timer := 0, reinitRun := (s.links.get d).reinitRun + 1,
          counters := { (s.links.get d).counters with reinits := bump (s.links.get d).counters.reinits },
          sent := (s.links.get d).sent ++ [haltBytes] ++ [announceBytes] } ∧
        t.outputs = s.outputs ∧ t.mem = s.mem ∧ t.damage = s.damage ∧ t.comp = s.comp) ∧
    ((s.links.get d).settings.reinitLimit < (s.links.get d).reinitRun + 1 →
      ∃ t, exec (.panelHalt d) s = .next t ∧ LinkFails s t d .reinitLimit ∧
        (t.links.get d).timer = (s.links.get d).timer)

/-- BAD_PANEL_MESSAGE completes: bytes that fail the check of R126 are discarded, and counted while the link receives.
The bytes of a good message are those of one of the five kinds, 0x81 to 0x85, its fields in order and each most
significant byte first, followed by the CRC-8 of all of them; bytes of any other kind, length or check value are bad.
The CRC-8 starts at 0 and takes each byte from its most significant bit on: shift left, and exclusive-or 0x07 when the
bit that leaves differs from the bit that comes. A BAD_PANEL_MESSAGE that carries the bytes of a good message is taken
as that message: the model's choice (log entry 21, DESIGN CHOICE). -/
def Obligations.BadPanelMessageCompletes : Prop :=
  (∀ (s : State) (d : OutputId) (bytes : List Byte), parsePanelMessage bytes = none →
    ((s.links.get d).state.up = true → exec (.badPanelMessage d bytes) s = .next (s.setLink d { s.links.get d with
      counters := { (s.links.get d).counters with badCrcs := bump (s.links.get d).counters.badCrcs } })) ∧
    ((s.links.get d).state.up = false → exec (.badPanelMessage d bytes) s = .next s)) ∧
  (∀ (bytes body : List Byte) (m : PanelMessage),
    body = (match m with
      | .info w h clock => [0x81, BitVec.ofNat 8 (w.toNat / 256), BitVec.ofNat 8 w.toNat,
          BitVec.ofNat 8 (h.toNat / 256), BitVec.ofNat 8 h.toNat, BitVec.ofNat 8 (clock.toNat / 16777216),
          BitVec.ofNat 8 (clock.toNat / 65536), BitVec.ofNat 8 (clock.toNat / 256), BitVec.ofNat 8 clock.toNat]
      | .readyNormal => [0x82]
      | .confirm q => [0x83, q]
      | .replayFrom q => [0x84, q]
      | .halt => [0x85]) →
    (parsePanelMessage bytes = some m ↔ bytes = body ++ [crc8 body])) ∧
  crc8 [] = 0 ∧
  (∀ (bytes : List Byte) (b : Byte), crc8 (bytes ++ [b]) = [7, 6, 5, 4, 3, 2, 1, 0].foldl
    (fun (r : BitVec 8) i => if r.msb != b.getLsbD i then (r <<< 1) ^^^ 0x07 else r <<< 1) (crc8 bytes)) ∧
  crc8 [0x01] = 0x07 ∧ crc8 [0x31, 0x32, 0x33, 0x34, 0x35, 0x36, 0x37, 0x38, 0x39] = 0xF4 ∧
  (∀ (s : State) (d : OutputId) (bytes : List Byte) (m : PanelMessage), parsePanelMessage bytes = some m →
    exec (.badPanelMessage d bytes) s = exec (match m with
      | .info w h clock => .panelInfo d w h clock
      | .readyNormal => .readyNormal d
      | .confirm q => .confirm d q
      | .replayFrom q => .replayFrom d q
      | .halt => .panelHalt d) s)

/-- LINE_START completes in TRAINING while the link is ANNOUNCING and its timer runs on: the generator moves to the next
line, the timer grows by 1, and nothing else changes: no epoch, no LINE_MATCH, no fetch, no line handed. LINE_START
completes at an active line of a RUNNING or FROZEN output whose link is NORMAL with an empty buffer: the line of the
FIFO, or background colour, is sent as a new LINE and joins the buffer; an underflow is counted. With a full buffer
whose oldest packet does not reach the confirm timeout, every wait grows by 1 and the line is skipped and counted. At a
blanking line with nothing for the link to do, the line moves on; the fetch line begins a frame unless blank is set. In
REPLAY a blanking line start sends the packet at the pointer again, its wait 0: the pointer moves on, or after the
replay end the link is NORMAL. At each of these lines LINE_MATCH is raised exactly when it is the line-match line. The
order within a line start is log entry 8. While the timing generator is stopped LINE_START changes nothing: that such a
command can stand in the queue is the model's, log entry 3. The same at every line start that is no epoch, TRAINING,
RUNNING or FROZEN: what the output does, the line it hands, LINE_MATCH, and then the link's own steps. Those steps
without a timeout: DOWN and ERROR do nothing; in ANNOUNCING and CONFIGURING the timer grows by 1; in NORMAL and REPLAY
every wait grows by 1, and in REPLAY the packet at the pointer is sent again; a handed line is then sent in NORMAL or
REPLAY when fewer than 8 packets are buffered, and skipped otherwise. The bytes of a LINE are its kind, its sequence
number, its line number, red, green and blue of each pixel, and the CRC-16 of all of them but the kind byte, most
significant byte first. The CRC-16 starts at 0xFFFF and takes each byte from its most significant bit on: shift left,
and exclusive-or 0x1021 when the bit that leaves differs from the bit that comes. -/
def Obligations.LineStartCompletes : Prop :=
  (∀ (s : State) (d : OutputId), (s.outputState d).timed = false → exec (.lineStart d) s = .next s) ∧
  (∀ (s : State) (d : OutputId) (y : Nat), (s.outputState d).live = true → (s.outputs.get d).nextLine = y →
    y < (s.outputs.get d).active.height →
    (s.links.get d).state = .normal → 8 ≤ (s.links.get d).buffer.length →
    (∀ p, (s.links.get d).buffer.head? = some p → p.wait + 1 < (s.links.get d).settings.confirmTimeout) →
    ∃ t, exec (.lineStart d) s = .next t ∧
      t.outputs = s.outputs.set d { (s.outputs.get d).afterHandOff y with line := y } ∧
      t.links = s.links.set d { s.links.get d with
        buffer := (s.links.get d).buffer.map fun x => { x with wait := x.wait + 1 }
        counters := { (s.links.get d).counters with skipped := bump (s.links.get d).counters.skipped } } ∧
      t.events = (if (s.outputs.get d).active.lineMatch = some y then s.events.raise ⟨.lineMatch, outputNumber d,
        (s.outputs.get d).frameCounter, 0, word y, word (outputStateCode (s.outputState d))⟩ else s.events) ∧
      t.mem = s.mem ∧ t.comp = s.comp ∧ t.damage = s.damage ∧ t.layers = s.layers ∧
      t.streams = s.streams) ∧
  (∀ (s : State) (d : OutputId), s.outputState d = .training → (s.links.get d).state = .announcing →
    (s.links.get d).timer + 1 < 64 →
    exec (.lineStart d) s = .next
      ((s.setOutput d { s.outputs.get d with
          line := if (s.outputs.get d).line + 1 < (s.outputs.get d).active.vTotal then (s.outputs.get d).line + 1
            else 0 }).setLink d
        { s.links.get d with timer := (s.links.get d).timer + 1 })) ∧
  (∀ (s : State) (d : OutputId) (y : Nat), (s.outputState d).live = true → (s.outputs.get d).nextLine = y →
    y < (s.outputs.get d).active.height →
    (s.links.get d).state = .normal → (s.links.get d).buffer = [] →
    ∃ t, exec (.lineStart d) s = .next t ∧
      t.outputs = s.outputs.set d { (s.outputs.get d).afterHandOff y with line := y } ∧
      t.links = s.links.set d { s.links.get d with
        buffer := [⟨(s.links.get d).nextSeq, y, payloadOf ((s.outputs.get d).linePixels y), 0⟩],
        nextSeq := (s.links.get d).nextSeq + 1,
        sent := (s.links.get d).sent ++
          [lineBytes (s.links.get d).nextSeq y (payloadOf ((s.outputs.get d).linePixels y))] } ∧
      t.events = (if (s.outputs.get d).active.lineMatch = some y then s.events.raise ⟨.lineMatch, outputNumber d,
        (s.outputs.get d).frameCounter, 0, word y, word (outputStateCode (s.outputState d))⟩ else s.events) ∧
      t.mem = s.mem ∧ t.comp = s.comp ∧ t.damage = s.damage ∧ t.layers = s.layers ∧
      t.streams = s.streams) ∧
  (∀ (s : State) (d : OutputId) (y : Nat), (s.outputState d).live = true → (s.outputs.get d).nextLine = y →
    (s.outputs.get d).active.height < y →
    ((s.links.get d).state.up = false ∨ (s.links.get d).state = .normal ∧ (s.links.get d).buffer = []) →
    exec (.lineStart d) s = .next
      { s with
        outputs := s.outputs.set d
          (if y = (s.outputs.get d).active.height + 1 ∧ (s.outputs.get d).blank = false then
            { s.outputs.get d with line := y, begun := true, fetch := some ⟨0, 0⟩, fifo := [] }
          else { s.outputs.get d with line := y })
        events := (if (s.outputs.get d).active.lineMatch = some y then s.events.raise ⟨.lineMatch, outputNumber d,
        (s.outputs.get d).frameCounter, 0, word y, word (outputStateCode (s.outputState d))⟩ else s.events) }) ∧
  (∀ (s : State) (d : OutputId) (y : Nat) (p : Packet) (older newer : List Packet), (s.outputState d).live = true →
    (s.outputs.get d).nextLine = y → (s.outputs.get d).active.height + 1 < y → (s.links.get d).state = .replay →
    (s.links.get d).buffer = older ++ p :: newer → (s.links.get d).pointer = some p.seq →
    (∀ x ∈ older ++ newer, x.seq ≠ p.seq) →
    (∀ x, (s.links.get d).buffer.head? = some x → x.wait + 1 < (s.links.get d).settings.confirmTimeout) →
    ((s.links.get d).replayEnd ≠ some p.seq → exec (.lineStart d) s = .next
      { s with
        outputs := s.outputs.set d { s.outputs.get d with line := y }
        links := s.links.set d { s.links.get d with
          buffer := older.map (fun x : Packet => { x with wait := x.wait + 1 }) ++ { p with wait := 0 } ::
            newer.map (fun x : Packet => { x with wait := x.wait + 1 })
          pointer := some (p.seq + 1)
          sent := (s.links.get d).sent ++ [lineBytes p.seq p.line p.payload] }
        events := (if (s.outputs.get d).active.lineMatch = some y then s.events.raise ⟨.lineMatch, outputNumber d,
        (s.outputs.get d).frameCounter, 0, word y, word (outputStateCode (s.outputState d))⟩ else s.events) }) ∧
    ((s.links.get d).replayEnd = some p.seq → exec (.lineStart d) s = .next
      ((({ s with
        outputs := s.outputs.set d { s.outputs.get d with line := y }
        links := s.links.set d { s.links.get d with
          state := .normal
          buffer := older.map (fun x : Packet => { x with wait := x.wait + 1 }) ++ { p with wait := 0 } ::
            newer.map (fun x : Packet => { x with wait := x.wait + 1 })
          pointer := none
          replayEnd := none
          sent := (s.links.get d).sent ++ [lineBytes p.seq p.line p.payload] }
        events := (if (s.outputs.get d).active.lineMatch = some y then s.events.raise ⟨.lineMatch, outputNumber d,
        (s.outputs.get d).frameCounter, 0, word y, word (outputStateCode (s.outputState d))⟩ else s.events) }).raise
          ⟨.linkState, outputNumber d, (s.outputs.get d).frameCounter, 0, 3, 4⟩).markOutput d))) ∧
  (∀ (seq : Byte) (y : Nat) (payload bytes : List Byte) (crc : BitVec 16),
    bytes = seq :: BitVec.ofNat 8 (y / 256) :: BitVec.ofNat 8 y :: payload → crc = crc16 bytes →
    lineBytes seq y payload = 0x03 :: bytes ++ [BitVec.ofNat 8 (crc.toNat / 256), BitVec.ofNat 8 crc.toNat]) ∧
  (∀ pixels : List Rgb, (payloadOf pixels).length = 3 * pixels.length ∧ ∀ i c, pixels[i]? = some c →
    [0, 1, 2].map (fun j => (payloadOf pixels)[3 * i + j]?) = [some c.red, some c.green, some c.blue]) ∧
  crc16 [] = 0xFFFF ∧
  (∀ (bytes : List Byte) (b : Byte), crc16 (bytes ++ [b]) = [7, 6, 5, 4, 3, 2, 1, 0].foldl
    (fun (r : BitVec 16) i => if r.msb != b.getLsbD i then (r <<< 1) ^^^ 0x1021 else r <<< 1) (crc16 bytes)) ∧
  (∀ (s : State) (d : OutputId) (y : Nat) (g : Timing) (h : Option HandedLine) (out : Link × List Event) (o : Output)
      (flights : List Flight) (w : EventWriter) (u : State),
    (s.outputState d).timed = true → y = (s.outputs.get d).nextLine → g = (s.outputs.get d).active →
    ((s.outputState d).live = true → y ≠ g.height) →
    h = (if (s.outputState d).live = true ∧ y < g.height then
      some ⟨y, payloadOf ((s.outputs.get d).linePixels y)⟩ else none) →
    out = (s.links.get d).lineStart d (s.outputs.get d).frameCounter h →
    (out.1.state = .error → (s.links.get d).state = .error) →
    o = (if (s.outputState d).live = false then { s.outputs.get d with line := y }
      else if y < g.height then { (s.outputs.get d).afterHandOff y with line := y }
      else if y = g.height + 1 ∧ (s.outputs.get d).blank = false then
        { s.outputs.get d with line := y, begun := true, fetch := some ⟨0, 0⟩, fifo := [] }
      else { s.outputs.get d with line := y }) →
    flights = (if (s.outputState d).live = true ∧ y < g.height then
      s.inFlight.map (Flight.discardScan d fun l => l == y) else s.inFlight) →
    w = (if (s.outputState d).live = true ∧ g.lineMatch = some y then s.events.raise ⟨.lineMatch, outputNumber d,
      (s.outputs.get d).frameCounter, 0, word y, word (outputStateCode (s.outputState d))⟩ else s.events) →
    u = { s with
      outputs := s.outputs.set d o, inFlight := flights, links := s.links.set d out.1, events := w } →
    exec (.lineStart d) s = .next (if out.2 = [] then u else (u.raiseAll out.2).markOutput d)) ∧
  (∀ (d : OutputId) (fc : Count) (l : Link) (h : Option HandedLine) (aged : List Packet → List Packet)
      (taken : Link → Link),
    (∀ ps, aged ps = ps.map fun p : Packet => { p with wait := p.wait + 1 }) →
    (∀ x, taken x = match h with
      | none => x
      | some g => if (x.state = .normal ∨ x.state = .replay) ∧ x.buffer.length < 8 then
          { x with
            buffer := x.buffer ++ [⟨x.nextSeq, g.line, g.payload, 0⟩], nextSeq := x.nextSeq + 1
            sent := x.sent ++ [lineBytes x.nextSeq g.line g.payload] }
        else { x with counters := { x.counters with skipped := bump x.counters.skipped } }) →
    (l.state = .down ∨ l.state = .error → l.lineStart d fc h = (l, [])) ∧
    (l.state = .announcing ∧ l.timer + 1 < 64 ∨ l.state = .configuring ∧ l.timer + 1 < 1024 →
      l.lineStart d fc h = (taken { l with timer := l.timer + 1 }, [])) ∧
    ((∀ p, l.buffer.head? = some p → p.wait + 1 < l.settings.confirmTimeout) →
      (l.state = .normal → l.lineStart d fc h = (taken { l with buffer := aged l.buffer }, [])) ∧
      (l.state = .replay → ∀ (p : Packet) (older newer : List Packet) (x : Link), l.buffer = older ++ p :: newer →
        l.pointer = some p.seq → (∀ q ∈ older ++ newer, q.seq ≠ p.seq) →
        x = { l with
          buffer := aged older ++ { p with wait := 0 } :: aged newer
          sent := l.sent ++ [lineBytes p.seq p.line p.payload] } →
        l.lineStart d fc h =
          if l.replayEnd = some p.seq then
            (taken { x with state := .normal, pointer := none, replayEnd := none },
              [⟨.linkState, outputNumber d, fc, 0, 3, 4⟩])
          else (taken { x with pointer := some (p.seq + 1) }, []))))

/-- The pixels of a handed line: the background colour while blank is set or frame begun clear; otherwise each returned
pixel, and background for the rest. The line underflows exactly when the frame is begun, blank is clear and a pixel has
not been returned: a line wholly returned does not. It then adds 1 to both counts, which saturate; that the count of the
frame does too is log entry 24. Line y then leaves the FIFO; a fetch position in line y moves to pixel 0 of the next
line, or is finished after the last active line, and any other stays; requests of line y in flight will have their data
discarded, and no other request; the rest of the output stays as it was. -/
def Obligations.HandedLinePixels : Prop :=
  (∀ (o : Output) (y i : Nat), i < o.active.width →
    ((o.blank = true ∨ o.begun = false) → (o.linePixels y)[i]? = some o.active.background.rgb ∧
      o.underflowed y = false) ∧
    (o.blank = false → o.begun = true →
      (∀ c, (o.fifoLine y)[i]? = some (some c) → (o.linePixels y)[i]? = some c) ∧
      ((o.fifoLine y)[i]? = none ∨ (o.fifoLine y)[i]? = some none →
        (o.linePixels y)[i]? = some o.active.background.rgb ∧ o.underflowed y = true)) ∧
    (o.underflowed y = true → (o.afterHandOff y).underflows = bump o.underflows ∧
      (o.afterHandOff y).frameUnderflows = bump o.frameUnderflows) ∧
    (o.underflowed y = false → (o.afterHandOff y).underflows = o.underflows ∧
      (o.afterHandOff y).frameUnderflows = o.frameUnderflows)) ∧
  (∀ (o : Output) (y : Nat), (∀ i, i < o.active.width → ∃ c, (o.fifoLine y)[i]? = some (some c)) →
    o.underflowed y = false) ∧
  (∀ (o : Output) (y : Nat),
    o.afterHandOff y = { o with
      fifo := o.fifo.filter fun l => decide (l.line ≠ y), fetch := (o.afterHandOff y).fetch,
      underflows := (o.afterHandOff y).underflows, frameUnderflows := (o.afterHandOff y).frameUnderflows } ∧
    (o.fetch = none → (o.afterHandOff y).fetch = none) ∧
    ∀ p, o.fetch = some p → (o.afterHandOff y).fetch =
      if p.line = y then (if y + 1 < o.active.height then some ⟨y + 1, 0⟩ else none) else some p) ∧
  (∀ (d e : OutputId) (y line pixel count : Nat) (addrs : List Nat) (live : Bool) (f : Flight),
    Flight.discardScan d (fun l => l == y) (.scanRead e line pixel count addrs live) =
      .scanRead e line pixel count addrs (if e = d ∧ line = y then false else live) ∧
    (f.client ≠ .scan .A → f.client ≠ .scan .B → Flight.discardScan d (fun l => l == y) f = f))

/-- FRAME_EPOCH completes at the line start of the epoch line of a RUNNING or FROZEN output, in every order of the
reactions: the frame counter grows by 1, the frame underflows become 0, a pending commit makes the active table the
staged one; the other output and memory stay as they were. The link's own line-start steps are taken before the epoch in
an order that names them, after it in any other (log entry 7); taken first, they may end in ERROR, and the output is
then in FAULT and declares no epoch. The reactions are those of the compositor, of the layer tables, of each stream and
of the link, one after the other in the order given. A pending commit inserts, for each changed layer ascending, the
destination rectangles of the old and of the new record where enabled, into the list of an output that takes insertions,
and raises COMMIT_APPLIED with the count and the set of the changed layers. A stream paced by the output takes its
epoch; when the SHOWN slot changes, the destination rectangle of each enabled layer that shows the stream is inserted,
in both outputs. At an epoch the output engine raises SCAN_UNDERFLOW for a frame that had underflows, then EPOCH, both
with the new frame counter; the underflow count of the frame becomes 0 and the status block is due. When the epoch line
is the line-match line, LINE_MATCH comes after all reactions and before the link's own steps (log entry 8, DEDUCED). A
LINE_START that falls on the epoch line is a FRAME_EPOCH with no order given (log entry 7). -/
def Obligations.FrameEpochCompletes : Prop :=
  (∀ (s : State) (d : OutputId) (order : List EpochReaction) (early late : Link), (s.outputState d).live = true →
    (s.outputs.get d).nextLine = (s.outputs.get d).active.height →
    early = ((s.links.get d).lineStart d (s.outputs.get d).frameCounter none).1 →
    late = ((s.links.get d).epoch.lineStart d ((s.outputs.get d).frameCounter + 1) none).1 →
    (.linkSteps ∈ order → early.state = .error → (s.links.get d).state = .error) →
    ∃ t, exec (.frameEpoch d order) s = .next t ∧
      (t.outputs.get d).frameCounter = (s.outputs.get d).frameCounter + 1 ∧
      (t.outputs.get d).frameUnderflows = 0 ∧ (t.outputs.get d).line = (s.outputs.get d).active.height ∧
      (t.outputs.get d).active = (s.outputs.get d).active ∧
      t.outputs.get (otherOutput d) = s.outputs.get (otherOutput d) ∧
      t.layers.get (otherOutput d) = s.layers.get (otherOutput d) ∧
      (t.layers.get d).staged = (s.layers.get d).staged ∧ (t.layers.get d).commitPending = false ∧
      ((s.layers.get d).commitPending = true → (t.layers.get d).active = (s.layers.get d).staged) ∧
      ((s.layers.get d).commitPending = false → (t.layers.get d).active = (s.layers.get d).active) ∧
      t.links = s.links.set d (if .linkSteps ∈ order then early.epoch else late) ∧
      t.mem = s.mem ∧ t.writeQueue = s.writeQueue ∧ t.surfaces = s.surfaces) ∧
  (∀ (s : State) (d : OutputId) (order : List EpochReaction) (early : Link), (s.outputState d).live = true →
    (s.outputs.get d).nextLine = (s.outputs.get d).active.height → .linkSteps ∈ order →
    early = ((s.links.get d).lineStart d (s.outputs.get d).frameCounter none).1 → early.state = .error →
    (s.links.get d).state ≠ .error →
    ∃ t, exec (.frameEpoch d order) s = .next t ∧ t.outputState d = .fault ∧
      (t.outputs.get d).frameCounter = (s.outputs.get d).frameCounter ∧ t.links = s.links.set d early ∧
      t.layers = s.layers ∧ t.damage = s.damage ∧ t.mem = s.mem) ∧
  (∀ (s : State) (d : OutputId) (order : List EpochReaction) (react : State → EpochReaction → State) (y : Nat),
    (s.outputState d).live = true → y = (s.outputs.get d).active.height → (s.outputs.get d).nextLine = y →
    order.Nodup → (∀ r, r ∈ order ↔ r ≠ .linkSteps) →
    (∀ t k, react t .compositor = t.compositorEpoch d ∧ react t .layerTables = t.layerEpoch d ∧
      react t (.stream k) = t.streamEpoch d k ∧ react t .link = t.setLink d (t.links.get d).epoch) →
    exec (.frameEpoch d order) s = .next
      (((order.foldl react ((s.setOutput d { s.outputs.get d with line := y }).declareEpoch d)).lineMatchAt d y).runLink
        d fun d fc l => l.lineStart d fc none)) ∧
  (∀ (s : State) (d : OutputId) (t : LayerTables) (changed : List Nat) (rects : List (Int × Int × Nat × Nat)),
    t = s.layers.get d → changed = ((List.range 8).filter fun i => decide (t.active[i]? ≠ t.staged[i]?)) →
    rects = (changed.flatMap fun i => ((t.active[i]?.toList ++ t.staged[i]?.toList).filter (·.enabled)).map fun l =>
      (l.dx, l.dy, l.sw * l.mag, l.sh * l.mag)) →
    (t.commitPending = false → s.layerEpoch d = s) ∧
    (t.commitPending = true → s.layerEpoch d =
      ({ s with
        layers := s.layers.set d { t with active := t.staged, commitPending := false }
        damage := s.damage.set d (if (s.outputState d).live then
            ⟨rects.foldl (fun (l : DamageList) (q : Int × Int × Nat × Nat) =>
                l.insertPixels (s.outputs.get d).active q.1 q.2.1 q.2.2.1 q.2.2.2) (s.damage.get d).list,
              (s.damage.get d).previous⟩
          else s.damage.get d) }).raise
        ⟨.commitApplied, outputNumber d, (s.outputs.get d).frameCounter, 0, word changed.length,
          word (changed.map (2 ^ ·)).sum⟩)) ∧
  (∀ (s : State) (d : OutputId) (k : StreamId) (out : EpochOut),
    out = (s.streams.get k).epoch k (s.outputs.get d).frameCounter →
    ((s.streams.get k).pacing ≠ d → s.streamEpoch d k = s) ∧
    ((s.streams.get k).pacing = d → s.streamEpoch d k =
      if out.shownChanged then (s.updateStream k (out.stream, out.events)).damageStream k
      else s.updateStream k (out.stream, out.events))) ∧
  (∀ (s : State) (k : StreamId) (d : OutputId),
    { s.damageStream k with damage := s.damage } = s ∧
    (s.damageStream k).damage.get d = if (s.outputState d).live then
        ⟨(((s.layers.get d).active.toList.filter fun l =>
            l.enabled && (l.content == .stream && l.index == streamNumber k)).map
          fun l => (l.dx, l.dy, l.sw * l.mag, l.sh * l.mag)).foldl
            (fun l q => l.insertPixels (s.outputs.get d).active q.1 q.2.1 q.2.2.1 q.2.2.2) (s.damage.get d).list,
          (s.damage.get d).previous⟩
      else s.damage.get d) ∧
  (∀ (s : State) (d : OutputId) (o : Output), o = s.outputs.get d →
    (s.declareEpoch d).outputs = s.outputs.set d { o with frameCounter := o.frameCounter + 1, frameUnderflows := 0 } ∧
    (s.declareEpoch d).events.due.output.get d = true ∧
    (o.frameUnderflows = 0 → (s.declareEpoch d).events.queue = (s.events.raise
      ⟨.epoch, outputNumber d, o.frameCounter + 1, 0, word (outputStateCode o.state), 0⟩).queue) ∧
    (o.frameUnderflows ≠ 0 → (s.declareEpoch d).events.queue = ((s.events.raise
      ⟨.scanUnderflow, outputNumber d, o.frameCounter + 1, 0, word o.frameUnderflows.toNat,
        word o.underflows.toNat⟩).raise
      ⟨.epoch, outputNumber d, o.frameCounter + 1, 0, word (outputStateCode o.state),
        word o.frameUnderflows.toNat⟩).queue)) ∧
  (∀ (s : State) (d : OutputId), (s.outputState d).live = true →
    (s.outputs.get d).nextLine = (s.outputs.get d).active.height → exec (.lineStart d) s = exec (.frameEpoch d []) s)

/-- The compositor at an epoch in RUNNING: a composition in progress is a missed flip; a finished one flips; in FROZEN
it takes no step. Then, flip or not, a composition starts if the damage list or the previous snapshot holds anything.
Its region is the tiles of the active area that either covers, each once, in walk order: rows from the top, in a row
columns from the left; its start moves the list into the snapshot and empties the list, copies the layers and, for each
enabled layer, the geometry of its surface or of the SHOWN slot's surface, and places one hold of the output on each
slot recorded. -/
def Obligations.CompositorAtAnEpoch : Prop :=
  (∀ (s : State) (d : OutputId),
    (s.outputState d ≠ .running → s.compositorEpoch d = s) ∧
    (∀ k, s.outputState d = .running → (s.comp.get d).composition = some k →
      s.compositorEpoch d = ((s.setComp d { s.comp.get d with missed := bump (s.comp.get d).missed }).markOutput
        d).raise ⟨.flipMissed, outputNumber d, (s.outputs.get d).frameCounter, 0, word k.left,
          word (bump (s.comp.get d).missed).toNat⟩) ∧
    (s.outputState d = .running → (s.comp.get d).composition = none → (s.comp.get d).awaiting = true →
      (s.damage.get d).list = ⟨[], false⟩ → (s.damage.get d).previous = ⟨[], false⟩ →
      s.compositorEpoch d = (((s.setComp d { s.comp.get d with front := (s.comp.get d).back, awaiting := false }).setOutput
        d { s.outputs.get d with blank := false }).markOutput d).raise
          ⟨.flip, outputNumber d, (s.outputs.get d).frameCounter, 0, word (s.comp.get d).back.val,
            word (s.comp.get d).completedSize⟩) ∧
    (∀ f : State, s.outputState d = .running → (s.comp.get d).composition = none →
      f = (if (s.comp.get d).awaiting then
          (((s.setComp d { s.comp.get d with front := (s.comp.get d).back, awaiting := false }).setOutput d
            { s.outputs.get d with blank := false }).markOutput d).raise
              ⟨.flip, outputNumber d, (s.outputs.get d).frameCounter, 0, word (s.comp.get d).back.val,
                word (s.comp.get d).completedSize⟩
        else s) →
      ((s.damage.get d).list = ⟨[], false⟩ → (s.damage.get d).previous = ⟨[], false⟩ → s.compositorEpoch d = f) ∧
      ((s.damage.get d).list ≠ ⟨[], false⟩ ∨ (s.damage.get d).previous ≠ ⟨[], false⟩ →
        s.compositorEpoch d = f.startComposition d))) ∧
  (∀ (s : State) (d : OutputId),
    (∀ t : Tile, t ∈ region (s.outputs.get d).active (s.damage.get d) ↔
      (t.col < (s.outputs.get d).active.cols ∧ t.row < (s.outputs.get d).active.rows ∧
        (Covers (s.damage.get d).list t ∨ Covers (s.damage.get d).previous t))) ∧
    (region (s.outputs.get d).active (s.damage.get d)).Pairwise
      (fun a b => a.row < b.row ∨ a.row = b.row ∧ a.col < b.col) ∧
    (s.startComposition d).damage = s.damage.set d ⟨⟨[], false⟩, (s.damage.get d).list⟩ ∧
    ∃ k, (s.startComposition d).comp = s.comp.set d { s.comp.get d with composition := some k } ∧
      k.region = region (s.outputs.get d).active (s.damage.get d) ∧ k.next = 0 ∧ k.inProgress = none ∧
      k.layers = (s.layers.get d).active ∧
      (∀ (i : Nat) (l : Layer), (s.layers.get d).active[i]? = some l →
        (l.enabled = false ∨ l.content = .solid → k.sources[i]? = some none ∧ k.frames[i]? = some none) ∧
        (l.enabled = true → l.content = .surface →
          k.sources[i]? = some (some (s.geometryOf l.index)) ∧ k.frames[i]? = some none) ∧
        (∀ q, l.enabled = true → l.content = .stream → l.index = streamNumber q →
          ((s.streams.get q).shownSlot = none → k.sources[i]? = some none ∧ k.frames[i]? = some none) ∧
          (∀ j u, (s.streams.get q).shownSlot = some j → (s.streams.get q).surfaces[j]? = some u →
            k.sources[i]? = some (some (s.geometryOf u)) ∧ k.frames[i]? = some (some ⟨q, j⟩)))) ∧
      k.holds.Nodup ∧ (∀ n, n ∈ k.holds ↔ ∃ i : Nat, k.frames[i]? = some (some n)) ∧
      (∀ q j sl, (s.streams.get q).slots[j]? = some sl →
        ((s.startComposition d).streams.get q).slots[j]? = some
          (if ⟨q, j⟩ ∈ k.holds then { sl with holds := sl.holds.set d true } else sl)))

/-- A RUNNING stream's phase at an epoch: P grows by N; from D on it is reduced by D, and otherwise the tick and the
slots stay as they are. In STOPPED, PAUSED and ENDED the epoch changes nothing. PRIMING shows the first READY slot in
search order, takes T from it and runs. At a tick advance a first READY slot with DISCONTINUITY is shown, T its due
tick; else of the READY slots due by T the newest is shown, the last met of equals, the other due ones dropped in search
order; with all READY early nothing; with none READY the stream is ENDED after LAST, else UNDERRUN. Showing a slot frees
the former one, or retires it if held, and raises FRAME_SHOWN. An arm of the expected slot, FREE, opens it: FILLING with
byte count 0, the frame header taken, the expected slot advanced; another slot FILLING is freed as SHORT before that:
that its STREAM_CONDITION comes ahead of its SLOT_FREED is log entry 31, DEDUCED from the example of 5.4, for no rule
states that order. In STOPPED an arm is ignored; an arm of another slot is OUT_OF_ORDER, of a slot not FREE an OVERRUN.
A beat's header words are captured in every state. Its bytes fill a FILLING slot, READY at the frame size; in a FREE
slot they are an UNARMED_WRITE, else a LATE_WRITE, once per arming cycle. -/
def Obligations.StreamPhaseAndArms : Prop :=
  (∀ (k : StreamId) (fc : Count) (x : Stream),
    (x.state = .running → x.phase + x.rateN < x.rateD →
      x.epoch k fc = ⟨{ x with phase := x.phase + x.rateN }, [], false⟩) ∧
    (x.state = .running → x.rateD ≤ x.phase + x.rateN → (x.epoch k fc).stream.phase = x.phase + x.rateN - x.rateD) ∧
    (x.state = .running → x.rateD ≤ x.phase + x.rateN → x.readySlots = [] → x.shownLast = false →
      (x.epoch k fc).stream.tick = x.tick + 1 ∧ (x.epoch k fc).stream.state = .running ∧
      (x.epoch k fc).stream.slots = x.slots ∧
      (x.epoch k fc).stream.counters = { x.counters with underrun := bump x.counters.underrun }) ∧
    (x.state = .stopped ∨ x.state = .paused ∨ x.state = .ended → x.epoch k fc = ⟨x, [], false⟩)) ∧
  (∀ (k : StreamId) (fc : Count) (j : Nat) (x : Stream) (sl : Slot), x.state ≠ .stopped → x.slots[j]? = some sl →
    (j = x.expected → sl.state = .free → (∀ y ∈ x.slots, y.state ≠ .filling) →
      x.arm k fc j = ({ x with
        slots := x.slots.set j { sl with
          state := .filling, byteCount := 0, frame := sl.header.frame, lateSeen := false, unarmedSeen := false }
        expected := if j + 1 < x.count then j + 1 else 0 }, [])) ∧
    (j ≠ x.expected → x.arm k fc j = ({ x with counters := { x.counters with
        outOfOrder := bump x.counters.outOfOrder } },
      [⟨.streamCondition, streamNumber k, fc, 6, word j, word (bump x.counters.outOfOrder).toNat⟩])) ∧
    (j = x.expected → sl.state ≠ .free → x.arm k fc j = ({ x with counters := { x.counters with
        overrun := bump x.counters.overrun } },
      [⟨.streamCondition, streamNumber k, fc, 4, word j, word (bump x.counters.overrun).toNat⟩]))) ∧
  (∀ x : Stream,
    x.shownSlot = (x.slots.findIdx? fun sl => sl.state == .shown) ∧
    ∀ order : List Nat, order = (match x.shownSlot with
      | some j => (List.range (x.count - 1)).map fun i => (j + 1 + i) % x.count
      | none => (List.range x.count).map fun i => (x.expected + i) % x.count) →
      x.readySlots = order.filter fun j => (x.slots[j]?.map (·.state)) == some .ready) ∧
  (∀ (k : StreamId) (fc : Count) (j : Nat) (x : Stream) (sl : Slot), x.slots[j]? = some sl →
    (x.shownSlot = none → Stream.show k fc j x = ({ x with
        slots := x.slots.set j { sl with state := .shown }
        counters := { x.counters with shown := bump x.counters.shown } },
      [⟨.frameShown, streamNumber k, fc, 0, word j, sl.frame.frameNumber⟩])) ∧
    (∀ i sh, x.shownSlot = some i → x.slots[i]? = some sh → i ≠ j → Stream.show k fc j x = ({ x with
        slots := (x.slots.set i { sh with state := if sh.holds.A || sh.holds.B then .retired else .free }).set j
          { sl with state := .shown }
        counters := { x.counters with shown := bump x.counters.shown } },
      (if sh.holds.A || sh.holds.B then [] else [⟨.slotFreed, streamNumber k, fc, 0, word i, 3⟩]) ++
        [⟨.frameShown, streamNumber k, fc, 0, word j, sl.frame.frameNumber⟩]))) ∧
  (∀ (k : StreamId) (fc : Count) (x : Stream), x.state = .priming →
    (x.readySlots = [] → x.epoch k fc = ⟨x, [], false⟩) ∧
    (∀ j js y, x.readySlots = j :: js →
      y = Stream.show k fc j { x with tick := (x.frameOf j).dueTick, phase := 0 } →
      x.epoch k fc = ⟨{ y.1 with state := .running }, y.2 ++ [⟨.streamState, streamNumber k, fc, 0, 2, 1⟩], true⟩)) ∧
  (∀ (k : StreamId) (fc : Count) (x : Stream), x.state = .running → x.rateD ≤ x.phase + x.rateN →
    (∀ j, x.readySlots = [] → x.shownSlot = some j →
      ((x.frameOf j).last = true → x.epoch k fc =
        ⟨{ x with state := .ended, phase := x.phase + x.rateN - x.rateD, tick := x.tick + 1 },
          [⟨.streamState, streamNumber k, fc, 0, 4, 2⟩], false⟩) ∧
      ((x.frameOf j).last = false → x.epoch k fc =
        ⟨{ x with
            phase := x.phase + x.rateN - x.rateD
            tick := x.tick + 1
            counters := { x.counters with underrun := bump x.counters.underrun } },
          [⟨.streamCondition, streamNumber k, fc, 2, word j, word (bump x.counters.underrun).toNat⟩], false⟩)) ∧
    (∀ r rs, x.readySlots = r :: rs →
      (∀ y, (x.frameOf r).discontinuity = true →
        y = Stream.show k fc r { x with phase := x.phase + x.rateN - x.rateD, tick := (x.frameOf r).dueTick } →
        x.epoch k fc = ⟨y.1, y.2, true⟩) ∧
      ((x.frameOf r).discontinuity = false →
        (∀ i ∈ x.readySlots, (x.tick + 1 - (x.frameOf i).dueTick).toInt < 0) →
        x.epoch k fc = ⟨{ x with phase := x.phase + x.rateN - x.rateD, tick := x.tick + 1 }, [], false⟩) ∧
      (∀ (j : Nat) (before after : List Nat) (y : Stream × List Event), (x.frameOf r).discontinuity = false →
        (x.readySlots.filter fun i => decide (0 ≤ (x.tick + 1 - (x.frameOf i).dueTick).toInt)) = before ++ j :: after →
        (∀ i ∈ before, (x.tick + 1 - (x.frameOf j).dueTick).toNat ≤ (x.tick + 1 - (x.frameOf i).dueTick).toNat) →
        (∀ i ∈ after, (x.tick + 1 - (x.frameOf j).dueTick).toNat < (x.tick + 1 - (x.frameOf i).dueTick).toNat) →
        y = (before ++ after).foldl (fun out i =>
          ({ out.1 with
              slots := out.1.slots.modify i fun sl => { sl with state := .free }
              counters := { out.1.counters with dropped := bump out.1.counters.dropped } },
            out.2 ++ [⟨.streamCondition, streamNumber k, fc, 1, word i, word (bump out.1.counters.dropped).toNat⟩,
              ⟨.slotFreed, streamNumber k, fc, 0, word i, 2⟩]))
          ({ x with phase := x.phase + x.rateN - x.rateD, tick := x.tick + 1 }, []) →
        x.epoch k fc = ⟨(Stream.show k fc j y.1).1, y.2 ++ (Stream.show k fc j y.1).2, true⟩))) ∧
  (∀ (k : StreamId) (fc : Count) (i j : Nat) (x : Stream) (sl f : Slot),
    (x.state = .stopped → x.arm k fc j = (x, [])) ∧
    (x.state ≠ .stopped → j = x.expected → x.slots[j]? = some sl → sl.state = .free →
      (x.slots.findIdx? fun y => y.state == .filling) = some i → x.slots[i]? = some f →
      x.arm k fc j = ({ x with
          slots := (x.slots.set i { f with state := .free }).set j { sl with
            state := .filling, byteCount := 0, frame := sl.header.frame, lateSeen := false, unarmedSeen := false }
          counters := { x.counters with short := bump x.counters.short }
          expected := if j + 1 < x.count then j + 1 else 0 },
        [⟨.streamCondition, streamNumber k, fc, 3, word i, word (bump x.counters.short).toNat⟩,
          ⟨.slotFreed, streamNumber k, fc, 0, word i, 1⟩]))) ∧
  (∀ (geo : Nat → Geometry) (b : WriteBeat) (x : Stream),
    x.captures geo b = { x with slots := (x.captures geo b).slots } ∧
    ∀ (j i : Nat) (sl : Slot) (v : Nat → Option Word), x.slots[j]? = some sl →
      (x.positions.take x.count)[j]? = some i →
      (∀ w, v w = if 64 ≤ (geo i).base then b.wordAt ((geo i).base - 64 + 4 * w) else none) →
      (x.captures geo b).slots[j]? = some { sl with header :=
        ⟨(v 0).getD sl.header.frameNumber, (v 1).getD sl.header.dueTick, (v 2).getD sl.header.flags⟩ }) ∧
  (∀ (k : StreamId) (fc : Count) (size j n : Nat) (x : Stream) (sl : Slot), x.slots[j]? = some sl →
    x.land k fc size j 0 = (x, []) ∧
    (0 < n → sl.state = .filling → x.land k fc size j n = ({ x with slots := x.slots.set j { sl with
      byteCount := sl.byteCount + n, state := if size ≤ sl.byteCount + n then .ready else .filling } }, [])) ∧
    (0 < n → sl.state = .free → x.land k fc size j n = if sl.unarmedSeen then (x, []) else
      ({ x with
          slots := x.slots.set j { sl with unarmedSeen := true }
          counters := { x.counters with unarmedWrite := bump x.counters.unarmedWrite } },
        [⟨.streamCondition, streamNumber k, fc, 7, word j, word (bump x.counters.unarmedWrite).toNat⟩])) ∧
    (0 < n → sl.state = .ready ∨ sl.state = .shown ∨ sl.state = .retired → x.land k fc size j n =
      if sl.lateSeen then (x, []) else
      ({ x with
          slots := x.slots.set j { sl with lateSeen := true }
          counters := { x.counters with lateWrite := bump x.counters.lateWrite } },
        [⟨.streamCondition, streamNumber k, fc, 5, word j, word (bump x.counters.lateWrite).toNat⟩])))

/-- ANNOUNCE_TIMEOUT, CONFIGURING_EXPIRY and CONFIRM_TIMEOUT are the line start at which the timer reaches 64, the timer
reaches 1024, or the oldest packet's wait reaches the confirm timeout; at any other line start they change nothing (log
entries 2 and 3). At a line start that is no epoch: below the 16th ANNOUNCE is sent again, after the 16th the link is in
ERROR with NO_PANEL. A CONFIGURING expiry, and a confirm timeout beyond the replay limit, in NORMAL or REPLAY, is a
re-initialization: below the limit HALT and then ANNOUNCE, with the output going on, TRAINING, RUNNING or FROZEN; at the
limit ERROR with REINIT_LIMIT. Each ERROR sends HALT and takes the output to FAULT with its composition abandoned. A
confirm timeout below the replay limit starts a replay from the oldest packet, which is sent again at once, its wait 0,
the others' grown by 1; the link is in REPLAY, or after a replay of one packet in NORMAL. A line handed at such a line
start is skipped and counted while the link is not NORMAL or REPLAY or its buffer is full, and sent as a new LINE
otherwise. That the line handed at a line start that ends in ERROR is not counted as skipped is the model's choice (log
entry 34, DESIGN CHOICE). What the other line starts and the epoch's own do is LINE_START's and FRAME_EPOCH's. -/
def Obligations.LinkTimeouts : Prop :=
  (∀ (s : State) (d : OutputId) (l : Link), l = s.links.get d →
    ∀ c ∈ [(Instr.announceTimeout d, decide (l.state = .announcing ∧ 64 ≤ l.timer + 1)),
      (.configuringExpiry d, decide (l.state = .configuring ∧ 1024 ≤ l.timer + 1)),
      (.confirmTimeout d, decide ((l.state = .normal ∨ l.state = .replay) ∧
        ∃ p ∈ l.buffer.take 1, l.settings.confirmTimeout ≤ p.wait + 1))],
      exec c.1 s = if (s.outputState d).timed = true ∧ c.2 = true then exec (.lineStart d) s else .next s) ∧
  (∀ (s : State) (d : OutputId), s.outputState d = .training → (s.links.get d).state = .announcing →
    (s.links.get d).timer = 63 → (s.links.get d).announceCount < 16 → exec (.announceTimeout d) s = .next
      ((s.setOutput d { s.outputs.get d with line := (s.outputs.get d).nextLine }).setLink d
        { s.links.get d with
          timer := 0, announceCount := (s.links.get d).announceCount + 1,
          sent := (s.links.get d).sent ++ [announceBytes] })) ∧
  (∀ (s : State) (d : OutputId) (y : Nat), (s.outputState d).timed = true → y = (s.outputs.get d).nextLine →
    ((s.outputState d).live = true → y ≠ (s.outputs.get d).active.height) →
    (s.links.get d).state = .announcing → 63 ≤ (s.links.get d).timer →
    ((s.links.get d).announceCount < 16 →
      ∃ t o, exec (.announceTimeout d) s = .next t ∧ t.outputs = s.outputs.set d o ∧ o.line = y ∧
        o.state = s.outputState d ∧
        ((s.outputState d).live = false ∨ (s.outputs.get d).active.height + 1 < y →
          o = { s.outputs.get d with line := y }) ∧
        t.links = s.links.set d { s.links.get d with
          timer := 0, announceCount := (s.links.get d).announceCount + 1
          counters := { (s.links.get d).counters with
            skipped := if (s.outputState d).live = true ∧ y < (s.outputs.get d).active.height then
              bump (s.links.get d).counters.skipped else (s.links.get d).counters.skipped }
          sent := (s.links.get d).sent ++ [announceBytes] } ∧
        t.mem = s.mem ∧ t.damage = s.damage ∧ t.comp = s.comp ∧ t.layers = s.layers ∧ t.streams = s.streams) ∧
    (16 ≤ (s.links.get d).announceCount →
      ∃ t, exec (.announceTimeout d) s = .next t ∧ LinkFails s t d .noPanel)) ∧
  (∀ (s : State) (d : OutputId) (y : Nat) (c : Instr), (s.outputState d).timed = true →
    y = (s.outputs.get d).nextLine → ((s.outputState d).live = true → y ≠ (s.outputs.get d).active.height) →
    (c = .configuringExpiry d ∧ (s.links.get d).state = .configuring ∧ 1023 ≤ (s.links.get d).timer ∨
      c = .confirmTimeout d ∧ ((s.links.get d).state = .normal ∨ (s.links.get d).state = .replay) ∧
      (s.links.get d).settings.replayLimit < (s.links.get d).replayRun + 1 ∧
      ∃ p rest, (s.links.get d).buffer = p :: rest ∧ (s.links.get d).settings.confirmTimeout ≤ p.wait + 1) →
    ((s.links.get d).reinitRun + 1 ≤ (s.links.get d).settings.reinitLimit →
      ∃ t o, exec c s = .next t ∧ t.outputs = s.outputs.set d o ∧ o.line = y ∧ o.state = s.outputState d ∧
        ((s.outputState d).live = false ∨ (s.outputs.get d).active.height + 1 < y →
          o = { s.outputs.get d with line := y }) ∧
        t.links = s.links.set d { s.links.get d with
          state := .announcing, buffer := [], nextSeq := 0, pointer := none, replayEnd := none, replayRun := 0,
          stable := false, announceCount := 1, timer := 0, reinitRun := (s.links.get d).reinitRun + 1,
          counters := { (s.links.get d).counters with
            reinits := bump (s.links.get d).counters.reinits
            skipped := if (s.outputState d).live = true ∧ y < (s.outputs.get d).active.height then
              bump (s.links.get d).counters.skipped else (s.links.get d).counters.skipped },
          sent := (s.links.get d).sent ++ [haltBytes] ++ [announceBytes] } ∧
        t.mem = s.mem ∧ t.damage = s.damage ∧ t.comp = s.comp ∧ t.layers = s.layers ∧ t.streams = s.streams) ∧
    ((s.links.get d).settings.reinitLimit < (s.links.get d).reinitRun + 1 →
      ∃ t, exec c s = .next t ∧ LinkFails s t d .reinitLimit)) ∧
  (∀ (s : State) (d : OutputId) (y : Nat) (p : Packet) (rest : List Packet) (x : Link) (payload : List Byte),
    (s.outputState d).timed = true → y = (s.outputs.get d).nextLine →
    ((s.outputState d).live = true → y ≠ (s.outputs.get d).active.height) →
    ((s.links.get d).state = .normal ∨ (s.links.get d).state = .replay) → (s.links.get d).buffer = p :: rest →
    (∀ x ∈ rest, x.seq ≠ p.seq) → (s.links.get d).settings.confirmTimeout ≤ p.wait + 1 →
    (s.links.get d).replayRun + 1 ≤ (s.links.get d).settings.replayLimit →
    x = { s.links.get d with
        state := if rest = [] then .normal else .replay
        stable := false, replayRun := (s.links.get d).replayRun + 1
        counters := { (s.links.get d).counters with replays := bump (s.links.get d).counters.replays }
        buffer := { p with wait := 0 } :: rest.map fun q => { q with wait := q.wait + 1 }
        pointer := if rest = [] then none else some (p.seq + 1)
        replayEnd := if rest = [] then none else some (rest.getLastD p).seq
        sent := (s.links.get d).sent ++ [lineBytes p.seq p.line p.payload] } →
    payload = payloadOf ((s.outputs.get d).linePixels y) →
    ∃ t o, exec (.confirmTimeout d) s = .next t ∧ t.outputs = s.outputs.set d o ∧ o.line = y ∧
      o.state = s.outputState d ∧
      ((s.outputState d).live = false ∨ (s.outputs.get d).active.height + 1 < y →
        o = { s.outputs.get d with line := y }) ∧
      t.links = s.links.set d
        (if (s.outputState d).live = false ∨ (s.outputs.get d).active.height < y then x
        else if rest.length + 1 < 8 then { x with
          buffer := x.buffer ++ [⟨x.nextSeq, y, payload, 0⟩], nextSeq := x.nextSeq + 1
          sent := x.sent ++ [lineBytes x.nextSeq y payload] }
        else { x with counters := { x.counters with skipped := bump x.counters.skipped } }) ∧
      t.mem = s.mem ∧ t.damage = s.damage ∧ t.comp = s.comp ∧ t.layers = s.layers ∧ t.streams = s.streams)

/-- Every rule of a link keeps its retry buffer at 8 packets or fewer with consecutive sequence numbers, and its stable
flag to NORMAL. At a frame epoch a link whose stable flag is set has its consecutive re-initialization count back at 0,
and the flag then says whether the link is NORMAL; no other rule sets it. A re-initialization just before the epoch
keeps the count, one just after the epoch counts from 0. -/
def Obligations.LinkRulesKeepTheBuffer : Prop :=
  (∀ (d : OutputId) (fc : Count) (l : Link), LinkSound l →
    (∀ h, LinkSound (l.lineStart d fc h).1) ∧ (∀ q, LinkSound (l.confirm d fc q).1) ∧
    (∀ q, LinkSound (l.replayFrom d fc q).1) ∧ (∀ t w h c, LinkSound (l.panelInfo d fc t w h c).1) ∧
    LinkSound (l.readyNormal d fc).1 ∧ LinkSound (l.panelHalt d fc).1 ∧ LinkSound l.badMessage ∧
    LinkSound (l.bringUp d fc).1 ∧ (∀ halt, LinkSound (l.toDown d fc halt).1) ∧ LinkSound l.epoch ∧
    (∀ x, LinkSound (l.start x))) ∧
  (∀ (d : OutputId) (fc : Count) (l : Link),
    l.epoch = { l with reinitRun := if l.stable then 0 else l.reinitRun, stable := decide (l.state = .normal) } ∧
    (∀ x ∈ [(l.readyNormal d fc).1, (l.panelHalt d fc).1, l.badMessage, (l.bringUp d fc).1] ++
        ([true, false].map fun halt => (l.toDown d fc halt).1), x.stable = true → l.stable = true) ∧
    (∀ h, (l.lineStart d fc h).1.stable = true → l.stable = true) ∧
    (∀ q, (l.confirm d fc q).1.stable = true → l.stable = true) ∧
    (∀ q, (l.replayFrom d fc q).1.stable = true → l.stable = true) ∧
    (∀ t w h c, (l.panelInfo d fc t w h c).1.stable = true → l.stable = true) ∧
    (∀ x, (l.start x).stable = true → l.stable = true) ∧
    (l.state = .normal ∨ l.state = .replay →
      ((l.panelHalt d fc).1.epoch).reinitRun = (l.panelHalt d fc).1.reinitRun) ∧
    (l.state = .normal ∨ l.state = .replay → l.stable = true → (l.epoch.panelHalt d fc).1.reinitRun =
      if 1 ≤ l.settings.reinitLimit then 1 else 0))

/-! ### What every step keeps -/

/-- Every step keeps memory in canonical form. -/
def Obligations.MemoryStaysCanonical : Prop :=
  ∀ s t : State, MemoryCanonical s → step s = .next t → MemoryCanonical t

/-- Every step keeps the interrupt line asserted exactly while the write index differs from the consumed index. -/
def Obligations.InterruptLineFollowsIndices : Prop :=
  ∀ s t : State, InterruptFollows s → step s = .next t → InterruptFollows t

/-- Every step keeps the requests in flight of each client within its active count, and the active counts within 24.
Under these limits the port never holds more than 24 requests. -/
def Obligations.CreditsStayWithinLimits : Prop :=
  (∀ s t : State, CreditsKept s → step s = .next t → CreditsKept t) ∧
  (∀ s : State, CreditsKept s → s.inFlight.length ≤ 24)

/-- Every step keeps the write queue within 32 beats and the read tracker within 4 reads. -/
def Obligations.QueuesStayBounded : Prop :=
  ∀ s t : State, QueuesBounded s → step s = .next t → QueuesBounded t

/-- What every step keeps holds right after power-on. -/
def Obligations.InvariantsHoldAtReset : Prop :=
  MemoryCanonical State.reset ∧ InterruptFollows State.reset ∧ CreditsKept State.reset ∧ QueuesBounded State.reset
end

