-- ==== Sys2Proof/Laws/State.lean ====
section
/-! SUPPORT. What each update of the state leaves in each field, every lemma true by rfl; and the two sides of a pair. -/

namespace Sys2Proof.Machine

/-! ### Pairs -/

@[simp] theorem PerOutput.get_set_same {α : Type} (p : PerOutput α) (d : OutputId) (v : α) : (p.set d v).get d = v := by
  cases d <;> rfl

@[simp] theorem PerOutput.get_set_other {α : Type} (p : PerOutput α) (d e : OutputId) (v : α) (h : e ≠ d) :
    (p.set d v).get e = p.get e := by
  cases d <;> cases e <;> first | rfl | exact absurd rfl h

@[simp] theorem PerOutput.set_get {α : Type} (p : PerOutput α) (d : OutputId) : p.set d (p.get d) = p := by
  cases d <;> rfl

@[simp] theorem PerOutput.set_set {α : Type} (p : PerOutput α) (d : OutputId) (v w : α) :
    (p.set d v).set d w = p.set d w := by
  cases d <;> rfl

@[simp] theorem PerStream.get_set_same {α : Type} (p : PerStream α) (k : StreamId) (v : α) : (p.set k v).get k = v := by
  cases k <;> rfl

@[simp] theorem PerStream.get_set_other {α : Type} (p : PerStream α) (k j : StreamId) (v : α) (h : j ≠ k) :
    (p.set k v).get j = p.get j := by
  cases k <;> cases j <;> first | rfl | exact absurd rfl h

@[simp] theorem PerStream.set_get {α : Type} (p : PerStream α) (k : StreamId) : p.set k (p.get k) = p := by
  cases k <;> rfl

@[simp] theorem otherOutput_ne (d : OutputId) : otherOutput d ≠ d := by cases d <;> decide

@[simp] theorem ne_otherOutput (d : OutputId) : d ≠ otherOutput d := by cases d <;> decide

@[simp] theorem otherStream_ne (k : StreamId) : otherStream k ≠ k := by cases k <;> decide

/-! ### Fields -/

@[simp] theorem State.setOutput_mem (s : State) (d : OutputId) (v : Output) : (s.setOutput d v).mem = s.mem := rfl
@[simp] theorem State.setOutput_resetAsserted (s : State) (d : OutputId) (v : Output) : (s.setOutput d v).resetAsserted = s.resetAsserted := rfl
@[simp] theorem State.setOutput_upstream (s : State) (d : OutputId) (v : Output) : (s.setOutput d v).upstream = s.upstream := rfl
@[simp] theorem State.setOutput_nextRequest (s : State) (d : OutputId) (v : Output) : (s.setOutput d v).nextRequest = s.nextRequest := rfl
@[simp] theorem State.setOutput_writeQueue (s : State) (d : OutputId) (v : Output) : (s.setOutput d v).writeQueue = s.writeQueue := rfl
@[simp] theorem State.setOutput_tracker (s : State) (d : OutputId) (v : Output) : (s.setOutput d v).tracker = s.tracker := rfl
@[simp] theorem State.setOutput_hostData (s : State) (d : OutputId) (v : Output) : (s.setOutput d v).hostData = s.hostData := rfl
@[simp] theorem State.setOutput_inFlight (s : State) (d : OutputId) (v : Output) : (s.setOutput d v).inFlight = s.inFlight := rfl
@[simp] theorem State.setOutput_activeCredits (s : State) (d : OutputId) (v : Output) : (s.setOutput d v).activeCredits = s.activeCredits := rfl
@[simp] theorem State.setOutput_stagedCredits (s : State) (d : OutputId) (v : Output) : (s.setOutput d v).stagedCredits = s.stagedCredits := rfl
@[simp] theorem State.setOutput_drain (s : State) (d : OutputId) (v : Output) : (s.setOutput d v).drain = s.drain := rfl
@[simp] theorem State.setOutput_scanNext (s : State) (d : OutputId) (v : Output) : (s.setOutput d v).scanNext = s.scanNext := rfl
@[simp] theorem State.setOutput_surfaces (s : State) (d : OutputId) (v : Output) : (s.setOutput d v).surfaces = s.surfaces := rfl
@[simp] theorem State.setOutput_damage (s : State) (d : OutputId) (v : Output) : (s.setOutput d v).damage = s.damage := rfl
@[simp] theorem State.setOutput_layers (s : State) (d : OutputId) (v : Output) : (s.setOutput d v).layers = s.layers := rfl
@[simp] theorem State.setOutput_comp (s : State) (d : OutputId) (v : Output) : (s.setOutput d v).comp = s.comp := rfl
@[simp] theorem State.setOutput_turn (s : State) (d : OutputId) (v : Output) : (s.setOutput d v).turn = s.turn := rfl
@[simp] theorem State.setOutput_job (s : State) (d : OutputId) (v : Output) : (s.setOutput d v).job = s.job := rfl
@[simp] theorem State.setOutput_streams (s : State) (d : OutputId) (v : Output) : (s.setOutput d v).streams = s.streams := rfl
@[simp] theorem State.setOutput_outputs (s : State) (d : OutputId) (v : Output) : (s.setOutput d v).outputs = s.outputs.set d v := rfl
@[simp] theorem State.setOutput_links (s : State) (d : OutputId) (v : Output) : (s.setOutput d v).links = s.links := rfl
@[simp] theorem State.setOutput_linkSettings (s : State) (d : OutputId) (v : Output) : (s.setOutput d v).linkSettings = s.linkSettings := rfl
@[simp] theorem State.setOutput_port (s : State) (d : OutputId) (v : Output) : (s.setOutput d v).port = s.port := rfl
@[simp] theorem State.setOutput_events (s : State) (d : OutputId) (v : Output) : (s.setOutput d v).events = s.events := rfl
@[simp] theorem State.setOutput_pending (s : State) (d : OutputId) (v : Output) : (s.setOutput d v).pending = s.pending := rfl

@[simp] theorem State.setLink_mem (s : State) (d : OutputId) (v : Link) : (s.setLink d v).mem = s.mem := rfl
@[simp] theorem State.setLink_resetAsserted (s : State) (d : OutputId) (v : Link) : (s.setLink d v).resetAsserted = s.resetAsserted := rfl
@[simp] theorem State.setLink_upstream (s : State) (d : OutputId) (v : Link) : (s.setLink d v).upstream = s.upstream := rfl
@[simp] theorem State.setLink_nextRequest (s : State) (d : OutputId) (v : Link) : (s.setLink d v).nextRequest = s.nextRequest := rfl
@[simp] theorem State.setLink_writeQueue (s : State) (d : OutputId) (v : Link) : (s.setLink d v).writeQueue = s.writeQueue := rfl
@[simp] theorem State.setLink_tracker (s : State) (d : OutputId) (v : Link) : (s.setLink d v).tracker = s.tracker := rfl
@[simp] theorem State.setLink_hostData (s : State) (d : OutputId) (v : Link) : (s.setLink d v).hostData = s.hostData := rfl
@[simp] theorem State.setLink_inFlight (s : State) (d : OutputId) (v : Link) : (s.setLink d v).inFlight = s.inFlight := rfl
@[simp] theorem State.setLink_activeCredits (s : State) (d : OutputId) (v : Link) : (s.setLink d v).activeCredits = s.activeCredits := rfl
@[simp] theorem State.setLink_stagedCredits (s : State) (d : OutputId) (v : Link) : (s.setLink d v).stagedCredits = s.stagedCredits := rfl
@[simp] theorem State.setLink_drain (s : State) (d : OutputId) (v : Link) : (s.setLink d v).drain = s.drain := rfl
@[simp] theorem State.setLink_scanNext (s : State) (d : OutputId) (v : Link) : (s.setLink d v).scanNext = s.scanNext := rfl
@[simp] theorem State.setLink_surfaces (s : State) (d : OutputId) (v : Link) : (s.setLink d v).surfaces = s.surfaces := rfl
@[simp] theorem State.setLink_damage (s : State) (d : OutputId) (v : Link) : (s.setLink d v).damage = s.damage := rfl
@[simp] theorem State.setLink_layers (s : State) (d : OutputId) (v : Link) : (s.setLink d v).layers = s.layers := rfl
@[simp] theorem State.setLink_comp (s : State) (d : OutputId) (v : Link) : (s.setLink d v).comp = s.comp := rfl
@[simp] theorem State.setLink_turn (s : State) (d : OutputId) (v : Link) : (s.setLink d v).turn = s.turn := rfl
@[simp] theorem State.setLink_job (s : State) (d : OutputId) (v : Link) : (s.setLink d v).job = s.job := rfl
@[simp] theorem State.setLink_streams (s : State) (d : OutputId) (v : Link) : (s.setLink d v).streams = s.streams := rfl
@[simp] theorem State.setLink_outputs (s : State) (d : OutputId) (v : Link) : (s.setLink d v).outputs = s.outputs := rfl
@[simp] theorem State.setLink_links (s : State) (d : OutputId) (v : Link) : (s.setLink d v).links = s.links.set d v := rfl
@[simp] theorem State.setLink_linkSettings (s : State) (d : OutputId) (v : Link) : (s.setLink d v).linkSettings = s.linkSettings := rfl
@[simp] theorem State.setLink_port (s : State) (d : OutputId) (v : Link) : (s.setLink d v).port = s.port := rfl
@[simp] theorem State.setLink_events (s : State) (d : OutputId) (v : Link) : (s.setLink d v).events = s.events := rfl
@[simp] theorem State.setLink_pending (s : State) (d : OutputId) (v : Link) : (s.setLink d v).pending = s.pending := rfl

@[simp] theorem State.setComp_mem (s : State) (d : OutputId) (v : CompOutput) : (s.setComp d v).mem = s.mem := rfl
@[simp] theorem State.setComp_resetAsserted (s : State) (d : OutputId) (v : CompOutput) : (s.setComp d v).resetAsserted = s.resetAsserted := rfl
@[simp] theorem State.setComp_upstream (s : State) (d : OutputId) (v : CompOutput) : (s.setComp d v).upstream = s.upstream := rfl
@[simp] theorem State.setComp_nextRequest (s : State) (d : OutputId) (v : CompOutput) : (s.setComp d v).nextRequest = s.nextRequest := rfl
@[simp] theorem State.setComp_writeQueue (s : State) (d : OutputId) (v : CompOutput) : (s.setComp d v).writeQueue = s.writeQueue := rfl
@[simp] theorem State.setComp_tracker (s : State) (d : OutputId) (v : CompOutput) : (s.setComp d v).tracker = s.tracker := rfl
@[simp] theorem State.setComp_hostData (s : State) (d : OutputId) (v : CompOutput) : (s.setComp d v).hostData = s.hostData := rfl
@[simp] theorem State.setComp_inFlight (s : State) (d : OutputId) (v : CompOutput) : (s.setComp d v).inFlight = s.inFlight := rfl
@[simp] theorem State.setComp_activeCredits (s : State) (d : OutputId) (v : CompOutput) : (s.setComp d v).activeCredits = s.activeCredits := rfl
@[simp] theorem State.setComp_stagedCredits (s : State) (d : OutputId) (v : CompOutput) : (s.setComp d v).stagedCredits = s.stagedCredits := rfl
@[simp] theorem State.setComp_drain (s : State) (d : OutputId) (v : CompOutput) : (s.setComp d v).drain = s.drain := rfl
@[simp] theorem State.setComp_scanNext (s : State) (d : OutputId) (v : CompOutput) : (s.setComp d v).scanNext = s.scanNext := rfl
@[simp] theorem State.setComp_surfaces (s : State) (d : OutputId) (v : CompOutput) : (s.setComp d v).surfaces = s.surfaces := rfl
@[simp] theorem State.setComp_damage (s : State) (d : OutputId) (v : CompOutput) : (s.setComp d v).damage = s.damage := rfl
@[simp] theorem State.setComp_layers (s : State) (d : OutputId) (v : CompOutput) : (s.setComp d v).layers = s.layers := rfl
@[simp] theorem State.setComp_comp (s : State) (d : OutputId) (v : CompOutput) : (s.setComp d v).comp = s.comp.set d v := rfl
@[simp] theorem State.setComp_turn (s : State) (d : OutputId) (v : CompOutput) : (s.setComp d v).turn = s.turn := rfl
@[simp] theorem State.setComp_job (s : State) (d : OutputId) (v : CompOutput) : (s.setComp d v).job = s.job := rfl
@[simp] theorem State.setComp_streams (s : State) (d : OutputId) (v : CompOutput) : (s.setComp d v).streams = s.streams := rfl
@[simp] theorem State.setComp_outputs (s : State) (d : OutputId) (v : CompOutput) : (s.setComp d v).outputs = s.outputs := rfl
@[simp] theorem State.setComp_links (s : State) (d : OutputId) (v : CompOutput) : (s.setComp d v).links = s.links := rfl
@[simp] theorem State.setComp_linkSettings (s : State) (d : OutputId) (v : CompOutput) : (s.setComp d v).linkSettings = s.linkSettings := rfl
@[simp] theorem State.setComp_port (s : State) (d : OutputId) (v : CompOutput) : (s.setComp d v).port = s.port := rfl
@[simp] theorem State.setComp_events (s : State) (d : OutputId) (v : CompOutput) : (s.setComp d v).events = s.events := rfl
@[simp] theorem State.setComp_pending (s : State) (d : OutputId) (v : CompOutput) : (s.setComp d v).pending = s.pending := rfl

@[simp] theorem State.setDamage_mem (s : State) (d : OutputId) (v : Damage) : (s.setDamage d v).mem = s.mem := rfl
@[simp] theorem State.setDamage_resetAsserted (s : State) (d : OutputId) (v : Damage) : (s.setDamage d v).resetAsserted = s.resetAsserted := rfl
@[simp] theorem State.setDamage_upstream (s : State) (d : OutputId) (v : Damage) : (s.setDamage d v).upstream = s.upstream := rfl
@[simp] theorem State.setDamage_nextRequest (s : State) (d : OutputId) (v : Damage) : (s.setDamage d v).nextRequest = s.nextRequest := rfl
@[simp] theorem State.setDamage_writeQueue (s : State) (d : OutputId) (v : Damage) : (s.setDamage d v).writeQueue = s.writeQueue := rfl
@[simp] theorem State.setDamage_tracker (s : State) (d : OutputId) (v : Damage) : (s.setDamage d v).tracker = s.tracker := rfl
@[simp] theorem State.setDamage_hostData (s : State) (d : OutputId) (v : Damage) : (s.setDamage d v).hostData = s.hostData := rfl
@[simp] theorem State.setDamage_inFlight (s : State) (d : OutputId) (v : Damage) : (s.setDamage d v).inFlight = s.inFlight := rfl
@[simp] theorem State.setDamage_activeCredits (s : State) (d : OutputId) (v : Damage) : (s.setDamage d v).activeCredits = s.activeCredits := rfl
@[simp] theorem State.setDamage_stagedCredits (s : State) (d : OutputId) (v : Damage) : (s.setDamage d v).stagedCredits = s.stagedCredits := rfl
@[simp] theorem State.setDamage_drain (s : State) (d : OutputId) (v : Damage) : (s.setDamage d v).drain = s.drain := rfl
@[simp] theorem State.setDamage_scanNext (s : State) (d : OutputId) (v : Damage) : (s.setDamage d v).scanNext = s.scanNext := rfl
@[simp] theorem State.setDamage_surfaces (s : State) (d : OutputId) (v : Damage) : (s.setDamage d v).surfaces = s.surfaces := rfl
@[simp] theorem State.setDamage_damage (s : State) (d : OutputId) (v : Damage) : (s.setDamage d v).damage = s.damage.set d v := rfl
@[simp] theorem State.setDamage_layers (s : State) (d : OutputId) (v : Damage) : (s.setDamage d v).layers = s.layers := rfl
@[simp] theorem State.setDamage_comp (s : State) (d : OutputId) (v : Damage) : (s.setDamage d v).comp = s.comp := rfl
@[simp] theorem State.setDamage_turn (s : State) (d : OutputId) (v : Damage) : (s.setDamage d v).turn = s.turn := rfl
@[simp] theorem State.setDamage_job (s : State) (d : OutputId) (v : Damage) : (s.setDamage d v).job = s.job := rfl
@[simp] theorem State.setDamage_streams (s : State) (d : OutputId) (v : Damage) : (s.setDamage d v).streams = s.streams := rfl
@[simp] theorem State.setDamage_outputs (s : State) (d : OutputId) (v : Damage) : (s.setDamage d v).outputs = s.outputs := rfl
@[simp] theorem State.setDamage_links (s : State) (d : OutputId) (v : Damage) : (s.setDamage d v).links = s.links := rfl
@[simp] theorem State.setDamage_linkSettings (s : State) (d : OutputId) (v : Damage) : (s.setDamage d v).linkSettings = s.linkSettings := rfl
@[simp] theorem State.setDamage_port (s : State) (d : OutputId) (v : Damage) : (s.setDamage d v).port = s.port := rfl
@[simp] theorem State.setDamage_events (s : State) (d : OutputId) (v : Damage) : (s.setDamage d v).events = s.events := rfl
@[simp] theorem State.setDamage_pending (s : State) (d : OutputId) (v : Damage) : (s.setDamage d v).pending = s.pending := rfl

@[simp] theorem State.setLayers_mem (s : State) (d : OutputId) (v : LayerTables) : (s.setLayers d v).mem = s.mem := rfl
@[simp] theorem State.setLayers_resetAsserted (s : State) (d : OutputId) (v : LayerTables) : (s.setLayers d v).resetAsserted = s.resetAsserted := rfl
@[simp] theorem State.setLayers_upstream (s : State) (d : OutputId) (v : LayerTables) : (s.setLayers d v).upstream = s.upstream := rfl
@[simp] theorem State.setLayers_nextRequest (s : State) (d : OutputId) (v : LayerTables) : (s.setLayers d v).nextRequest = s.nextRequest := rfl
@[simp] theorem State.setLayers_writeQueue (s : State) (d : OutputId) (v : LayerTables) : (s.setLayers d v).writeQueue = s.writeQueue := rfl
@[simp] theorem State.setLayers_tracker (s : State) (d : OutputId) (v : LayerTables) : (s.setLayers d v).tracker = s.tracker := rfl
@[simp] theorem State.setLayers_hostData (s : State) (d : OutputId) (v : LayerTables) : (s.setLayers d v).hostData = s.hostData := rfl
@[simp] theorem State.setLayers_inFlight (s : State) (d : OutputId) (v : LayerTables) : (s.setLayers d v).inFlight = s.inFlight := rfl
@[simp] theorem State.setLayers_activeCredits (s : State) (d : OutputId) (v : LayerTables) : (s.setLayers d v).activeCredits = s.activeCredits := rfl
@[simp] theorem State.setLayers_stagedCredits (s : State) (d : OutputId) (v : LayerTables) : (s.setLayers d v).stagedCredits = s.stagedCredits := rfl
@[simp] theorem State.setLayers_drain (s : State) (d : OutputId) (v : LayerTables) : (s.setLayers d v).drain = s.drain := rfl
@[simp] theorem State.setLayers_scanNext (s : State) (d : OutputId) (v : LayerTables) : (s.setLayers d v).scanNext = s.scanNext := rfl
@[simp] theorem State.setLayers_surfaces (s : State) (d : OutputId) (v : LayerTables) : (s.setLayers d v).surfaces = s.surfaces := rfl
@[simp] theorem State.setLayers_damage (s : State) (d : OutputId) (v : LayerTables) : (s.setLayers d v).damage = s.damage := rfl
@[simp] theorem State.setLayers_layers (s : State) (d : OutputId) (v : LayerTables) : (s.setLayers d v).layers = s.layers.set d v := rfl
@[simp] theorem State.setLayers_comp (s : State) (d : OutputId) (v : LayerTables) : (s.setLayers d v).comp = s.comp := rfl
@[simp] theorem State.setLayers_turn (s : State) (d : OutputId) (v : LayerTables) : (s.setLayers d v).turn = s.turn := rfl
@[simp] theorem State.setLayers_job (s : State) (d : OutputId) (v : LayerTables) : (s.setLayers d v).job = s.job := rfl
@[simp] theorem State.setLayers_streams (s : State) (d : OutputId) (v : LayerTables) : (s.setLayers d v).streams = s.streams := rfl
@[simp] theorem State.setLayers_outputs (s : State) (d : OutputId) (v : LayerTables) : (s.setLayers d v).outputs = s.outputs := rfl
@[simp] theorem State.setLayers_links (s : State) (d : OutputId) (v : LayerTables) : (s.setLayers d v).links = s.links := rfl
@[simp] theorem State.setLayers_linkSettings (s : State) (d : OutputId) (v : LayerTables) : (s.setLayers d v).linkSettings = s.linkSettings := rfl
@[simp] theorem State.setLayers_port (s : State) (d : OutputId) (v : LayerTables) : (s.setLayers d v).port = s.port := rfl
@[simp] theorem State.setLayers_events (s : State) (d : OutputId) (v : LayerTables) : (s.setLayers d v).events = s.events := rfl
@[simp] theorem State.setLayers_pending (s : State) (d : OutputId) (v : LayerTables) : (s.setLayers d v).pending = s.pending := rfl

@[simp] theorem State.setStream_mem (s : State) (k : StreamId) (v : Stream) : (s.setStream k v).mem = s.mem := rfl
@[simp] theorem State.setStream_resetAsserted (s : State) (k : StreamId) (v : Stream) : (s.setStream k v).resetAsserted = s.resetAsserted := rfl
@[simp] theorem State.setStream_upstream (s : State) (k : StreamId) (v : Stream) : (s.setStream k v).upstream = s.upstream := rfl
@[simp] theorem State.setStream_nextRequest (s : State) (k : StreamId) (v : Stream) : (s.setStream k v).nextRequest = s.nextRequest := rfl
@[simp] theorem State.setStream_writeQueue (s : State) (k : StreamId) (v : Stream) : (s.setStream k v).writeQueue = s.writeQueue := rfl
@[simp] theorem State.setStream_tracker (s : State) (k : StreamId) (v : Stream) : (s.setStream k v).tracker = s.tracker := rfl
@[simp] theorem State.setStream_hostData (s : State) (k : StreamId) (v : Stream) : (s.setStream k v).hostData = s.hostData := rfl
@[simp] theorem State.setStream_inFlight (s : State) (k : StreamId) (v : Stream) : (s.setStream k v).inFlight = s.inFlight := rfl
@[simp] theorem State.setStream_activeCredits (s : State) (k : StreamId) (v : Stream) : (s.setStream k v).activeCredits = s.activeCredits := rfl
@[simp] theorem State.setStream_stagedCredits (s : State) (k : StreamId) (v : Stream) : (s.setStream k v).stagedCredits = s.stagedCredits := rfl
@[simp] theorem State.setStream_drain (s : State) (k : StreamId) (v : Stream) : (s.setStream k v).drain = s.drain := rfl
@[simp] theorem State.setStream_scanNext (s : State) (k : StreamId) (v : Stream) : (s.setStream k v).scanNext = s.scanNext := rfl
@[simp] theorem State.setStream_surfaces (s : State) (k : StreamId) (v : Stream) : (s.setStream k v).surfaces = s.surfaces := rfl
@[simp] theorem State.setStream_damage (s : State) (k : StreamId) (v : Stream) : (s.setStream k v).damage = s.damage := rfl
@[simp] theorem State.setStream_layers (s : State) (k : StreamId) (v : Stream) : (s.setStream k v).layers = s.layers := rfl
@[simp] theorem State.setStream_comp (s : State) (k : StreamId) (v : Stream) : (s.setStream k v).comp = s.comp := rfl
@[simp] theorem State.setStream_turn (s : State) (k : StreamId) (v : Stream) : (s.setStream k v).turn = s.turn := rfl
@[simp] theorem State.setStream_job (s : State) (k : StreamId) (v : Stream) : (s.setStream k v).job = s.job := rfl
@[simp] theorem State.setStream_streams (s : State) (k : StreamId) (v : Stream) : (s.setStream k v).streams = s.streams.set k v := rfl
@[simp] theorem State.setStream_outputs (s : State) (k : StreamId) (v : Stream) : (s.setStream k v).outputs = s.outputs := rfl
@[simp] theorem State.setStream_links (s : State) (k : StreamId) (v : Stream) : (s.setStream k v).links = s.links := rfl
@[simp] theorem State.setStream_linkSettings (s : State) (k : StreamId) (v : Stream) : (s.setStream k v).linkSettings = s.linkSettings := rfl
@[simp] theorem State.setStream_port (s : State) (k : StreamId) (v : Stream) : (s.setStream k v).port = s.port := rfl
@[simp] theorem State.setStream_events (s : State) (k : StreamId) (v : Stream) : (s.setStream k v).events = s.events := rfl
@[simp] theorem State.setStream_pending (s : State) (k : StreamId) (v : Stream) : (s.setStream k v).pending = s.pending := rfl

@[simp] theorem State.raise_mem (s : State) (e : Event) : (s.raise e).mem = s.mem := rfl
@[simp] theorem State.raise_resetAsserted (s : State) (e : Event) : (s.raise e).resetAsserted = s.resetAsserted := rfl
@[simp] theorem State.raise_upstream (s : State) (e : Event) : (s.raise e).upstream = s.upstream := rfl
@[simp] theorem State.raise_nextRequest (s : State) (e : Event) : (s.raise e).nextRequest = s.nextRequest := rfl
@[simp] theorem State.raise_writeQueue (s : State) (e : Event) : (s.raise e).writeQueue = s.writeQueue := rfl
@[simp] theorem State.raise_tracker (s : State) (e : Event) : (s.raise e).tracker = s.tracker := rfl
@[simp] theorem State.raise_hostData (s : State) (e : Event) : (s.raise e).hostData = s.hostData := rfl
@[simp] theorem State.raise_inFlight (s : State) (e : Event) : (s.raise e).inFlight = s.inFlight := rfl
@[simp] theorem State.raise_activeCredits (s : State) (e : Event) : (s.raise e).activeCredits = s.activeCredits := rfl
@[simp] theorem State.raise_stagedCredits (s : State) (e : Event) : (s.raise e).stagedCredits = s.stagedCredits := rfl
@[simp] theorem State.raise_drain (s : State) (e : Event) : (s.raise e).drain = s.drain := rfl
@[simp] theorem State.raise_scanNext (s : State) (e : Event) : (s.raise e).scanNext = s.scanNext := rfl
@[simp] theorem State.raise_surfaces (s : State) (e : Event) : (s.raise e).surfaces = s.surfaces := rfl
@[simp] theorem State.raise_damage (s : State) (e : Event) : (s.raise e).damage = s.damage := rfl
@[simp] theorem State.raise_layers (s : State) (e : Event) : (s.raise e).layers = s.layers := rfl
@[simp] theorem State.raise_comp (s : State) (e : Event) : (s.raise e).comp = s.comp := rfl
@[simp] theorem State.raise_turn (s : State) (e : Event) : (s.raise e).turn = s.turn := rfl
@[simp] theorem State.raise_job (s : State) (e : Event) : (s.raise e).job = s.job := rfl
@[simp] theorem State.raise_streams (s : State) (e : Event) : (s.raise e).streams = s.streams := rfl
@[simp] theorem State.raise_outputs (s : State) (e : Event) : (s.raise e).outputs = s.outputs := rfl
@[simp] theorem State.raise_links (s : State) (e : Event) : (s.raise e).links = s.links := rfl
@[simp] theorem State.raise_linkSettings (s : State) (e : Event) : (s.raise e).linkSettings = s.linkSettings := rfl
@[simp] theorem State.raise_port (s : State) (e : Event) : (s.raise e).port = s.port := rfl
@[simp] theorem State.raise_events (s : State) (e : Event) : (s.raise e).events = s.events.raise e := rfl
@[simp] theorem State.raise_pending (s : State) (e : Event) : (s.raise e).pending = s.pending := rfl

@[simp] theorem State.raiseAll_mem (s : State) (es : List Event) : (s.raiseAll es).mem = s.mem := rfl
@[simp] theorem State.raiseAll_resetAsserted (s : State) (es : List Event) : (s.raiseAll es).resetAsserted = s.resetAsserted := rfl
@[simp] theorem State.raiseAll_upstream (s : State) (es : List Event) : (s.raiseAll es).upstream = s.upstream := rfl
@[simp] theorem State.raiseAll_nextRequest (s : State) (es : List Event) : (s.raiseAll es).nextRequest = s.nextRequest := rfl
@[simp] theorem State.raiseAll_writeQueue (s : State) (es : List Event) : (s.raiseAll es).writeQueue = s.writeQueue := rfl
@[simp] theorem State.raiseAll_tracker (s : State) (es : List Event) : (s.raiseAll es).tracker = s.tracker := rfl
@[simp] theorem State.raiseAll_hostData (s : State) (es : List Event) : (s.raiseAll es).hostData = s.hostData := rfl
@[simp] theorem State.raiseAll_inFlight (s : State) (es : List Event) : (s.raiseAll es).inFlight = s.inFlight := rfl
@[simp] theorem State.raiseAll_activeCredits (s : State) (es : List Event) : (s.raiseAll es).activeCredits = s.activeCredits := rfl
@[simp] theorem State.raiseAll_stagedCredits (s : State) (es : List Event) : (s.raiseAll es).stagedCredits = s.stagedCredits := rfl
@[simp] theorem State.raiseAll_drain (s : State) (es : List Event) : (s.raiseAll es).drain = s.drain := rfl
@[simp] theorem State.raiseAll_scanNext (s : State) (es : List Event) : (s.raiseAll es).scanNext = s.scanNext := rfl
@[simp] theorem State.raiseAll_surfaces (s : State) (es : List Event) : (s.raiseAll es).surfaces = s.surfaces := rfl
@[simp] theorem State.raiseAll_damage (s : State) (es : List Event) : (s.raiseAll es).damage = s.damage := rfl
@[simp] theorem State.raiseAll_layers (s : State) (es : List Event) : (s.raiseAll es).layers = s.layers := rfl
@[simp] theorem State.raiseAll_comp (s : State) (es : List Event) : (s.raiseAll es).comp = s.comp := rfl
@[simp] theorem State.raiseAll_turn (s : State) (es : List Event) : (s.raiseAll es).turn = s.turn := rfl
@[simp] theorem State.raiseAll_job (s : State) (es : List Event) : (s.raiseAll es).job = s.job := rfl
@[simp] theorem State.raiseAll_streams (s : State) (es : List Event) : (s.raiseAll es).streams = s.streams := rfl
@[simp] theorem State.raiseAll_outputs (s : State) (es : List Event) : (s.raiseAll es).outputs = s.outputs := rfl
@[simp] theorem State.raiseAll_links (s : State) (es : List Event) : (s.raiseAll es).links = s.links := rfl
@[simp] theorem State.raiseAll_linkSettings (s : State) (es : List Event) : (s.raiseAll es).linkSettings = s.linkSettings := rfl
@[simp] theorem State.raiseAll_port (s : State) (es : List Event) : (s.raiseAll es).port = s.port := rfl
@[simp] theorem State.raiseAll_events (s : State) (es : List Event) : (s.raiseAll es).events = es.foldl EventWriter.raise s.events := rfl
@[simp] theorem State.raiseAll_pending (s : State) (es : List Event) : (s.raiseAll es).pending = s.pending := rfl

@[simp] theorem State.mark_mem (s : State) (f : DueMarks → DueMarks) : (s.mark f).mem = s.mem := rfl
@[simp] theorem State.mark_resetAsserted (s : State) (f : DueMarks → DueMarks) : (s.mark f).resetAsserted = s.resetAsserted := rfl
@[simp] theorem State.mark_upstream (s : State) (f : DueMarks → DueMarks) : (s.mark f).upstream = s.upstream := rfl
@[simp] theorem State.mark_nextRequest (s : State) (f : DueMarks → DueMarks) : (s.mark f).nextRequest = s.nextRequest := rfl
@[simp] theorem State.mark_writeQueue (s : State) (f : DueMarks → DueMarks) : (s.mark f).writeQueue = s.writeQueue := rfl
@[simp] theorem State.mark_tracker (s : State) (f : DueMarks → DueMarks) : (s.mark f).tracker = s.tracker := rfl
@[simp] theorem State.mark_hostData (s : State) (f : DueMarks → DueMarks) : (s.mark f).hostData = s.hostData := rfl
@[simp] theorem State.mark_inFlight (s : State) (f : DueMarks → DueMarks) : (s.mark f).inFlight = s.inFlight := rfl
@[simp] theorem State.mark_activeCredits (s : State) (f : DueMarks → DueMarks) : (s.mark f).activeCredits = s.activeCredits := rfl
@[simp] theorem State.mark_stagedCredits (s : State) (f : DueMarks → DueMarks) : (s.mark f).stagedCredits = s.stagedCredits := rfl
@[simp] theorem State.mark_drain (s : State) (f : DueMarks → DueMarks) : (s.mark f).drain = s.drain := rfl
@[simp] theorem State.mark_scanNext (s : State) (f : DueMarks → DueMarks) : (s.mark f).scanNext = s.scanNext := rfl
@[simp] theorem State.mark_surfaces (s : State) (f : DueMarks → DueMarks) : (s.mark f).surfaces = s.surfaces := rfl
@[simp] theorem State.mark_damage (s : State) (f : DueMarks → DueMarks) : (s.mark f).damage = s.damage := rfl
@[simp] theorem State.mark_layers (s : State) (f : DueMarks → DueMarks) : (s.mark f).layers = s.layers := rfl
@[simp] theorem State.mark_comp (s : State) (f : DueMarks → DueMarks) : (s.mark f).comp = s.comp := rfl
@[simp] theorem State.mark_turn (s : State) (f : DueMarks → DueMarks) : (s.mark f).turn = s.turn := rfl
@[simp] theorem State.mark_job (s : State) (f : DueMarks → DueMarks) : (s.mark f).job = s.job := rfl
@[simp] theorem State.mark_streams (s : State) (f : DueMarks → DueMarks) : (s.mark f).streams = s.streams := rfl
@[simp] theorem State.mark_outputs (s : State) (f : DueMarks → DueMarks) : (s.mark f).outputs = s.outputs := rfl
@[simp] theorem State.mark_links (s : State) (f : DueMarks → DueMarks) : (s.mark f).links = s.links := rfl
@[simp] theorem State.mark_linkSettings (s : State) (f : DueMarks → DueMarks) : (s.mark f).linkSettings = s.linkSettings := rfl
@[simp] theorem State.mark_port (s : State) (f : DueMarks → DueMarks) : (s.mark f).port = s.port := rfl
@[simp] theorem State.mark_events (s : State) (f : DueMarks → DueMarks) : (s.mark f).events = { s.events with due := f s.events.due } := rfl
@[simp] theorem State.mark_pending (s : State) (f : DueMarks → DueMarks) : (s.mark f).pending = s.pending := rfl

@[simp] theorem State.markOutput_mem (s : State) (d : OutputId) : (s.markOutput d).mem = s.mem := rfl
@[simp] theorem State.markOutput_resetAsserted (s : State) (d : OutputId) : (s.markOutput d).resetAsserted = s.resetAsserted := rfl
@[simp] theorem State.markOutput_upstream (s : State) (d : OutputId) : (s.markOutput d).upstream = s.upstream := rfl
@[simp] theorem State.markOutput_nextRequest (s : State) (d : OutputId) : (s.markOutput d).nextRequest = s.nextRequest := rfl
@[simp] theorem State.markOutput_writeQueue (s : State) (d : OutputId) : (s.markOutput d).writeQueue = s.writeQueue := rfl
@[simp] theorem State.markOutput_tracker (s : State) (d : OutputId) : (s.markOutput d).tracker = s.tracker := rfl
@[simp] theorem State.markOutput_hostData (s : State) (d : OutputId) : (s.markOutput d).hostData = s.hostData := rfl
@[simp] theorem State.markOutput_inFlight (s : State) (d : OutputId) : (s.markOutput d).inFlight = s.inFlight := rfl
@[simp] theorem State.markOutput_activeCredits (s : State) (d : OutputId) : (s.markOutput d).activeCredits = s.activeCredits := rfl
@[simp] theorem State.markOutput_stagedCredits (s : State) (d : OutputId) : (s.markOutput d).stagedCredits = s.stagedCredits := rfl
@[simp] theorem State.markOutput_drain (s : State) (d : OutputId) : (s.markOutput d).drain = s.drain := rfl
@[simp] theorem State.markOutput_scanNext (s : State) (d : OutputId) : (s.markOutput d).scanNext = s.scanNext := rfl
@[simp] theorem State.markOutput_surfaces (s : State) (d : OutputId) : (s.markOutput d).surfaces = s.surfaces := rfl
@[simp] theorem State.markOutput_damage (s : State) (d : OutputId) : (s.markOutput d).damage = s.damage := rfl
@[simp] theorem State.markOutput_layers (s : State) (d : OutputId) : (s.markOutput d).layers = s.layers := rfl
@[simp] theorem State.markOutput_comp (s : State) (d : OutputId) : (s.markOutput d).comp = s.comp := rfl
@[simp] theorem State.markOutput_turn (s : State) (d : OutputId) : (s.markOutput d).turn = s.turn := rfl
@[simp] theorem State.markOutput_job (s : State) (d : OutputId) : (s.markOutput d).job = s.job := rfl
@[simp] theorem State.markOutput_streams (s : State) (d : OutputId) : (s.markOutput d).streams = s.streams := rfl
@[simp] theorem State.markOutput_outputs (s : State) (d : OutputId) : (s.markOutput d).outputs = s.outputs := rfl
@[simp] theorem State.markOutput_links (s : State) (d : OutputId) : (s.markOutput d).links = s.links := rfl
@[simp] theorem State.markOutput_linkSettings (s : State) (d : OutputId) : (s.markOutput d).linkSettings = s.linkSettings := rfl
@[simp] theorem State.markOutput_port (s : State) (d : OutputId) : (s.markOutput d).port = s.port := rfl
@[simp] theorem State.markOutput_events (s : State) (d : OutputId) : (s.markOutput d).events = { s.events with due := s.events.due.markOutput d } := rfl
@[simp] theorem State.markOutput_pending (s : State) (d : OutputId) : (s.markOutput d).pending = s.pending := rfl

end Sys2Proof.Machine
end

