-- ==== Sys2Proof/Laws/Streams.lean ====
section
/-! SUPPORT. What each rule of a stream does to its slots (R84 to R88, R91 to R96), and what placing and releasing holds does
(R71, R72, R101). -/

namespace Sys2Proof.Machine

/-! ### The outcome of a rule (R103) -/

/-- A raised event leaves the streams' due marks. -/
theorem EventWriter.raise_dueStream (w : EventWriter) (e : Event) : (w.raise e).due.stream = w.due.stream := by
  unfold EventWriter.raise
  split
  · split
    · rfl
    · unfold EventWriter.lose; split <;> rfl
  · rfl

/-- Raised events leave the streams' due marks. -/
theorem EventWriter.raiseAll_dueStream (es : List Event) (w : EventWriter) :
    (es.foldl EventWriter.raise w).due.stream = w.due.stream := by
  induction es generalizing w with
  | nil => rfl
  | cons e es ih => exact (ih _).trans (w.raise_dueStream e)

/-- The outcome of a rule of stream k becomes the stream. -/
theorem State.updateStream_streams (s : State) (k : StreamId) (out : Stream × List Event) :
    (s.updateStream k out).streams = s.streams.set k out.1 := by
  unfold State.updateStream; split <;> rfl

/-- A rule that changes the bytes that the block of stream k reports makes the block due (R103). -/
theorem State.updateStream_due (s : State) (k : StreamId) (out : Stream × List Event)
    (h : out.1.bytes ≠ (s.streams.get k).bytes) : (s.updateStream k out).events.due.stream.get k = true := by
  unfold State.updateStream
  rw [if_neg h, State.raiseAll_events, EventWriter.raiseAll_dueStream]
  cases k <;> rfl

/-! ### One slot -/

/-- A slot that is not FREE becomes FREE and raises SLOT_FREED with its former state (R83). -/
theorem Stream.freeSlot_eq (k : StreamId) (fc : Count) (j : Nat) (x : Stream) (sl : Slot) (h : x.slots[j]? = some sl)
    (hs : sl.state ≠ .free) :
    x.freeSlot k fc j = ({ x with slots := x.slots.set j { sl with state := .free } },
      [⟨.slotFreed, streamNumber k, fc, 0, word j, word (slotStateCode sl.state)⟩]) := by
  unfold Stream.freeSlot; rw [h]; exact if_neg hs

/-- A stream's list of slots has slot j when it is found there. -/
theorem lt_of_slot {x : Stream} {j : Nat} {sl : Slot} (h : x.slots[j]? = some sl) : j < x.slots.length :=
  (List.getElem?_eq_some_iff.mp h).1

/-! ### Showing a slot (R91, R95) -/

/-- With no SHOWN slot, slot j becomes SHOWN and FRAME_SHOWN is raised (R91, R95). -/
theorem Stream.show_first (k : StreamId) (fc : Count) (j : Nat) (x : Stream) (sl : Slot) (h : x.slots[j]? = some sl)
    (hn : x.shownSlot = none) :
    Stream.show k fc j x = ({ x with
        slots := x.slots.set j { sl with state := .shown }
        counters := { x.counters with shown := bump x.counters.shown } },
      [⟨.frameShown, streamNumber k, fc, 0, word j, sl.frame.frameNumber⟩]) := by
  simp [Stream.show, Stream.leaveShown, hn, andThen, Stream.makeShown, h, Stream.frameOf, Stream.setSlot, streamEvent]

/-- The former SHOWN slot leaves that state, RETIRED if it is held and FREE otherwise, and slot j becomes SHOWN (R91,
R95). -/
theorem Stream.show_next (k : StreamId) (fc : Count) (i j : Nat) (x : Stream) (sl sh : Slot) (h : x.slots[j]? = some sl)
    (hi : x.shownSlot = some i) (hsh : x.slots[i]? = some sh) (hst : sh.state = .shown) (hne : i ≠ j) :
    Stream.show k fc j x = ({ x with
        slots := (x.slots.set i { sh with state := if sh.held then .retired else .free }).set j
          { sl with state := .shown }
        counters := { x.counters with shown := bump x.counters.shown } },
      (if sh.held then [] else [⟨.slotFreed, streamNumber k, fc, 0, word i, 3⟩]) ++
        [⟨.frameShown, streamNumber k, fc, 0, word j, sl.frame.frameNumber⟩]) := by
  have hil := lt_of_slot hsh
  have hget : ∀ v : Slot, (x.slots.set i v)[j]? = some sl := by
    intro v; rw [List.getElem?_set_ne hne]; exact h
  cases hh : sh.held
  · simp [Stream.show, Stream.leaveShown, hi, Stream.leaveSlot, hsh, hh, Stream.freeSlot, hst, andThen, Stream.makeShown,
      Stream.setSlot, Stream.frameOf, hget, streamEvent, slotStateCode, word]
  · simp [Stream.show, Stream.leaveShown, hi, Stream.leaveSlot, hsh, hh, andThen, Stream.makeShown,
      Stream.setSlot, Stream.frameOf, hget, streamEvent]

/-! ### Epochs (R91 to R96) -/

/-- Priming with no READY slot (R91). -/
theorem Stream.epoch_priming_none (k : StreamId) (fc : Count) (x : Stream) (h : x.state = .priming)
    (hr : x.readySlots = []) : x.epoch k fc = ⟨x, [], false⟩ := by
  simp [Stream.epoch, h, hr, epochOut]

theorem Stream.show_state (k : StreamId) (fc : Count) (j : Nat) (x : Stream) :
    (Stream.show k fc j x).1.state = x.state := by
  have leave : (x.leaveShown k fc).1.state = x.state := by
    unfold Stream.leaveShown Stream.leaveSlot Stream.freeSlot
    split
    · rfl
    · split
      · rfl
      · split
        · rfl
        · split
          · rfl
          · split <;> rfl
  unfold Stream.show andThen Stream.makeShown
  dsimp only
  split
  · exact leave
  · exact leave

/-- Priming shows the first READY slot, sets T and P, and the stream is RUNNING (R91). -/
theorem Stream.epoch_priming (k : StreamId) (fc : Count) (x : Stream) (j : Nat) (js : List Nat) (h : x.state = .priming)
    (hr : x.readySlots = j :: js) (y : Stream × List Event)
    (hy : y = Stream.show k fc j { x with tick := (x.frameOf j).dueTick, phase := 0 }) :
    x.epoch k fc = ⟨{ y.1 with state := .running }, y.2 ++ [⟨.streamState, streamNumber k, fc, 0, 2, 1⟩], true⟩ := by
  have hs : y.1.state = .priming := by rw [hy, Stream.show_state]; exact h
  have e : x.epoch k fc = epochOut (x.prime k fc j) true := by
    unfold Stream.epoch; rw [h, hr]
  rw [e]
  unfold Stream.prime andThen Stream.enter epochOut
  rw [← hy]
  dsimp only
  rw [hs]
  rfl

/-- At an epoch in RUNNING at which the tick advances, the selection follows (R92). -/
theorem Stream.epoch_advance (k : StreamId) (fc : Count) (x : Stream) (h : x.state = .running)
    (ht : x.rateD ≤ x.phase + x.rateN) :
    x.epoch k fc = Stream.select k fc { x with phase := x.phase + x.rateN - x.rateD, tick := x.tick + 1 } := by
  unfold Stream.epoch
  rw [h]
  dsimp only
  rw [if_pos ht]
  unfold Stream.advance
  rw [if_pos ht, h]

/-- A tick advance whose first READY slot carries DISCONTINUITY (R93). -/
theorem Stream.epoch_discontinuity (k : StreamId) (fc : Count) (x : Stream) (j : Nat) (js : List Nat)
    (h : x.state = .running) (ht : x.rateD ≤ x.phase + x.rateN) (hr : x.readySlots = j :: js)
    (hd : (x.frameOf j).discontinuity = true) (y : Stream × List Event)
    (hy : y = Stream.show k fc j
      { x with phase := x.phase + x.rateN - x.rateD, tick := (x.frameOf j).dueTick }) :
    x.epoch k fc = ⟨y.1, y.2, true⟩ := by
  have hq : ({ x with phase := x.phase + x.rateN - x.rateD, tick := x.tick + 1 } : Stream).discontinuity = some j := by
    unfold Stream.discontinuity
    rw [show ({ x with phase := x.phase + x.rateN - x.rateD, tick := x.tick + 1 } : Stream).readySlots = j :: js from hr]
    exact if_pos hd
  rw [x.epoch_advance k fc h ht, Stream.select, hq, hy]
  rfl

/-- A selection without a READY slot (R96). -/
theorem Stream.select_none (k : StreamId) (fc : Count) (x : Stream) (hr : x.readySlots = []) :
    x.select k fc =
      epochOut (if x.shownLast then x.enter k fc .ended else x.condition k fc .underrun (x.shownSlot.getD 0)) false := by
  have hq : x.discontinuity = none := by unfold Stream.discontinuity; rw [hr]
  have hn : x.newest = none := by unfold Stream.newest Stream.candidates; rw [hr]; rfl
  rw [Stream.select, hq, hn]
  dsimp only
  rw [Stream.noCandidate, if_pos hr]

/-- A tick advance that finds no READY slot after a SHOWN frame with LAST ends the stream (R96). -/
theorem Stream.epoch_ended (k : StreamId) (fc : Count) (x : Stream) (h : x.state = .running)
    (ht : x.rateD ≤ x.phase + x.rateN) (hr : x.readySlots = []) (hl : x.shownLast = true) :
    x.epoch k fc =
      ⟨{ x with state := .ended, phase := x.phase + x.rateN - x.rateD, tick := x.tick + 1 },
        [⟨.streamState, streamNumber k, fc, 0, 4, 2⟩], false⟩ := by
  have hl' : ({ x with phase := x.phase + x.rateN - x.rateD, tick := x.tick + 1 } : Stream).shownLast = true := hl
  have hr' : ({ x with phase := x.phase + x.rateN - x.rateD, tick := x.tick + 1 } : Stream).readySlots = [] := hr
  rw [x.epoch_advance k fc h ht, Stream.select_none k fc _ hr', if_pos hl']
  unfold Stream.enter epochOut
  dsimp only
  rw [h]
  rfl

/-- A tick advance that finds no READY slot after a SHOWN frame without LAST is an UNDERRUN (R96). -/
theorem Stream.epoch_underrun (k : StreamId) (fc : Count) (x : Stream) (j : Nat) (h : x.state = .running)
    (ht : x.rateD ≤ x.phase + x.rateN) (hr : x.readySlots = []) (hs : x.shownSlot = some j) (hl : x.shownLast = false) :
    x.epoch k fc =
      ⟨{ x with phase := x.phase + x.rateN - x.rateD, tick := x.tick + 1,
                counters := { x.counters with underrun := bump x.counters.underrun } },
        [⟨.streamCondition, streamNumber k, fc, 2, word j, word (bump x.counters.underrun).toNat⟩], false⟩ := by
  have hl' : ¬ ({ x with phase := x.phase + x.rateN - x.rateD, tick := x.tick + 1 } : Stream).shownLast = true :=
    Bool.eq_false_iff.mp hl
  have hs' : ({ x with phase := x.phase + x.rateN - x.rateD, tick := x.tick + 1 } : Stream).shownSlot = some j := hs
  have hr' : ({ x with phase := x.phase + x.rateN - x.rateD, tick := x.tick + 1 } : Stream).readySlots = [] := hr
  rw [x.epoch_advance k fc h ht, Stream.select_none k fc _ hr', if_neg hl', hs']
  rfl

/-- A slot is a candidate when T minus its due tick, taken as signed, is 0 or more (R94). -/
theorem Stream.candidates_eq (x : Stream) :
    x.candidates = x.readySlots.filter fun j => decide (0 ≤ (x.tick - (x.frameOf j).dueTick).toInt) := by
  unfold Stream.candidates
  congr 1
  funext j
  simp only [Stream.isDue]
  rw [BitVec.msb_eq_toInt]
  generalize (x.tick - (x.frameOf j).dueTick).toInt = i
  rw [← decide_not]
  exact decide_eq_decide.mpr Int.not_lt

/-- A tick advance whose READY slots are all early (R96). -/
theorem Stream.epoch_early (k : StreamId) (fc : Count) (x : Stream) (j : Nat) (js : List Nat) (h : x.state = .running)
    (ht : x.rateD ≤ x.phase + x.rateN) (hr : x.readySlots = j :: js) (hd : (x.frameOf j).discontinuity = false)
    (he : ∀ i ∈ x.readySlots, (x.tick + 1 - (x.frameOf i).dueTick).toInt < 0) :
    x.epoch k fc = ⟨{ x with phase := x.phase + x.rateN - x.rateD, tick := x.tick + 1 }, [], false⟩ := by
  have hq : ({ x with phase := x.phase + x.rateN - x.rateD, tick := x.tick + 1 } : Stream).discontinuity = none := by
    unfold Stream.discontinuity
    rw [show ({ x with phase := x.phase + x.rateN - x.rateD, tick := x.tick + 1 } : Stream).readySlots = j :: js from hr]
    exact if_neg (Bool.eq_false_iff.mp hd)
  have hc : ({ x with phase := x.phase + x.rateN - x.rateD, tick := x.tick + 1 } : Stream).candidates = [] := by
    rw [Stream.candidates_eq, List.filter_eq_nil_iff]
    intro i hi
    rw [decide_eq_true_eq, Int.not_le]
    exact he i hi
  have hn : ({ x with phase := x.phase + x.rateN - x.rateD, tick := x.tick + 1 } : Stream).newest = none := by
    unfold Stream.newest; rw [hc]
  have hr' : ({ x with phase := x.phase + x.rateN - x.rateD, tick := x.tick + 1 } : Stream).readySlots ≠ [] := by
    rw [show ({ x with phase := x.phase + x.rateN - x.rateD, tick := x.tick + 1 } : Stream).readySlots = j :: js from hr]
    exact List.cons_ne_nil j js
  rw [x.epoch_advance k fc h ht, Stream.select, hq, hn]
  dsimp only
  rw [Stream.noCandidate, if_neg hr']
  rfl

/-- The candidate chosen: the least difference, the one met last among equals (R94). -/
theorem Stream.newestFrom_eq (x : Stream) (j : Nat) (after : List Nat)
    (ha : ∀ i ∈ after, (x.tick - (x.frameOf j).dueTick).toNat < (x.tick - (x.frameOf i).dueTick).toNat) :
    x.newestFrom j after = j := by
  induction after with
  | nil => rfl
  | cons a as ih =>
    have := ha a List.mem_cons_self
    rw [Stream.newestFrom, if_neg (by omega)]
    exact ih fun i hi => ha i (List.mem_cons_of_mem a hi)

theorem Stream.newestFrom_before (x : Stream) (j : Nat) (before after : List Nat) (best : Nat)
    (hbest : (x.tick - (x.frameOf j).dueTick).toNat ≤ (x.tick - (x.frameOf best).dueTick).toNat)
    (hb : ∀ i ∈ before, (x.tick - (x.frameOf j).dueTick).toNat ≤ (x.tick - (x.frameOf i).dueTick).toNat)
    (ha : ∀ i ∈ after, (x.tick - (x.frameOf j).dueTick).toNat < (x.tick - (x.frameOf i).dueTick).toNat) :
    x.newestFrom best (before ++ j :: after) = j := by
  induction before generalizing best with
  | nil =>
    rw [List.nil_append, Stream.newestFrom, if_pos hbest]
    exact x.newestFrom_eq j after ha
  | cons b bs ih =>
    have hbs := fun i hi => hb i (List.mem_cons_of_mem b hi)
    rw [List.cons_append, Stream.newestFrom]
    split
    · exact ih b (hb b List.mem_cons_self) hbs
    · exact ih best hbest hbs

theorem Stream.newest_eq (x : Stream) (j : Nat) (before after : List Nat) (hc : x.candidates = before ++ j :: after)
    (hb : ∀ i ∈ before, (x.tick - (x.frameOf j).dueTick).toNat ≤ (x.tick - (x.frameOf i).dueTick).toNat)
    (ha : ∀ i ∈ after, (x.tick - (x.frameOf j).dueTick).toNat < (x.tick - (x.frameOf i).dueTick).toNat) :
    x.newest = some j := by
  unfold Stream.newest
  rw [hc]
  cases before with
  | nil => rw [List.nil_append]; exact congrArg some (x.newestFrom_eq j after ha)
  | cons b bs =>
    exact congrArg some (x.newestFrom_before j bs after b (hb b List.mem_cons_self)
      (fun i hi => hb i (List.mem_cons_of_mem b hi)) ha)

/-- The slots in search order are distinct (R82). -/
theorem nodup_ring (e n m : Nat) (h : m ≤ n) : ((List.range m).map fun i => (e + i) % n).Nodup := by
  rw [List.nodup_iff_pairwise_ne, List.pairwise_map]
  refine List.Pairwise.imp_of_mem ?_ (List.pairwise_lt_range (n := m))
  intro a b ha hb hab
  rw [List.mem_range] at ha hb
  have hn : 0 < n := by omega
  have key : ∀ i, i < n → (e + i) % n = if e % n + i < n then e % n + i else e % n + i - n := by
    intro i hi
    rw [Nat.add_mod, Nat.mod_eq_of_lt hi]
    have := Nat.mod_lt e hn
    split
    · next h => exact Nat.mod_eq_of_lt h
    · next h => rw [Nat.mod_eq_sub_mod (by omega), Nat.mod_eq_of_lt (by omega)]
  rw [key a (by omega), key b (by omega)]
  split <;> split <;> omega

theorem Stream.readySlots_nodup (x : Stream) : x.readySlots.Nodup := by
  unfold Stream.readySlots Stream.searchOrder
  refine List.Pairwise.filter _ ?_
  split
  · exact nodup_ring _ _ _ (Nat.sub_le _ _)
  · exact nodup_ring _ _ _ (Nat.le_refl _)

/-- A dropped READY slot: counted, FREE, DROPPED and then SLOT_FREED (R94). -/
theorem Stream.dropSlot_eq (k : StreamId) (fc : Count) (j : Nat) (x : Stream) (sl : Slot) (h : x.slots[j]? = some sl)
    (hs : sl.state = .ready) :
    x.dropSlot k fc j =
      ({ x with slots := x.slots.set j { sl with state := .free },
                counters := { x.counters with dropped := bump x.counters.dropped } },
        [⟨.streamCondition, streamNumber k, fc, 1, word j, word (bump x.counters.dropped).toNat⟩,
          ⟨.slotFreed, streamNumber k, fc, 0, word j, 2⟩]) := by
  simp [Stream.dropSlot, andThen, Stream.condition, StreamCounters.count, Stream.freeSlot, h, hs, Stream.setSlot,
    streamEvent, conditionCode, slotStateCode, word]

/-- Dropping READY slots one after the other, each once (R94). -/
theorem Stream.dropOthers_eq (k : StreamId) (fc : Count) (chosen : Nat) (js : List Nat) (out : Stream × List Event)
    (hn : js.Nodup) (hr : ∀ i ∈ js, ∃ sl, out.1.slots[i]? = some sl ∧ sl.state = .ready) (hc : chosen ∉ js) :
    js.foldl (fun out j => if j = chosen then out else andThen out (·.dropSlot k fc j)) out =
      js.foldl (fun out i =>
        ({ out.1 with
            slots := out.1.slots.modify i fun sl => { sl with state := .free }
            counters := { out.1.counters with dropped := bump out.1.counters.dropped } },
          out.2 ++ [⟨.streamCondition, streamNumber k, fc, 1, word i, word (bump out.1.counters.dropped).toNat⟩,
            ⟨.slotFreed, streamNumber k, fc, 0, word i, 2⟩])) out := by
  induction js generalizing out with
  | nil => rfl
  | cons i is ih =>
    rw [List.nodup_cons] at hn
    obtain ⟨sl, hsl, hst⟩ := hr i List.mem_cons_self
    have hi : i ≠ chosen := fun h => hc (h ▸ List.mem_cons_self)
    have hset : out.1.slots.set i { sl with state := .free } =
        out.1.slots.modify i fun sl => { sl with state := .free } := by
      apply List.ext_getElem?
      intro m
      rw [List.getElem?_set, List.getElem?_modify]
      by_cases him : i = m
      · subst him; rw [if_pos rfl, if_pos (lt_of_slot hsl), hsl]; simp
      · simp [him]
    rw [List.foldl_cons, List.foldl_cons, if_neg hi, andThen, out.1.dropSlot_eq k fc i sl hsl hst, hset]
    refine ih _ hn.2 (fun m hm => ?_) fun h => hc (List.mem_cons_of_mem i h)
    have hmi : i ≠ m := fun h => hn.1 (h ▸ hm)
    obtain ⟨y, hy, hys⟩ := hr m (List.mem_cons_of_mem i hm)
    refine ⟨y, ?_, hys⟩
    simpa [List.getElem?_modify, hmi] using hy

/-- A tick advance shows the newest due frame and drops every other candidate (R94, R95). -/
theorem Stream.epoch_select (k : StreamId) (fc : Count) (x : Stream) (r j : Nat) (rs before after : List Nat)
    (h : x.state = .running) (ht : x.rateD ≤ x.phase + x.rateN) (hr : x.readySlots = r :: rs)
    (hd : (x.frameOf r).discontinuity = false)
    (hc : (x.readySlots.filter fun i => decide (0 ≤ (x.tick + 1 - (x.frameOf i).dueTick).toInt)) = before ++ j :: after)
    (hb : ∀ i ∈ before, (x.tick + 1 - (x.frameOf j).dueTick).toNat ≤ (x.tick + 1 - (x.frameOf i).dueTick).toNat)
    (ha : ∀ i ∈ after, (x.tick + 1 - (x.frameOf j).dueTick).toNat < (x.tick + 1 - (x.frameOf i).dueTick).toNat)
    (y : Stream × List Event)
    (hy : y = (before ++ after).foldl (fun out i =>
        ({ out.1 with
            slots := out.1.slots.modify i fun sl => { sl with state := .free }
            counters := { out.1.counters with dropped := bump out.1.counters.dropped } },
          out.2 ++ [⟨.streamCondition, streamNumber k, fc, 1, word i, word (bump out.1.counters.dropped).toNat⟩,
            ⟨.slotFreed, streamNumber k, fc, 0, word i, 2⟩]))
        ({ x with phase := x.phase + x.rateN - x.rateD, tick := x.tick + 1 }, [])) :
    x.epoch k fc = ⟨(Stream.show k fc j y.1).1, y.2 ++ (Stream.show k fc j y.1).2, true⟩ := by
  have hq : ({ x with phase := x.phase + x.rateN - x.rateD, tick := x.tick + 1 } : Stream).discontinuity = none := by
    unfold Stream.discontinuity
    rw [show ({ x with phase := x.phase + x.rateN - x.rateD, tick := x.tick + 1 } : Stream).readySlots = r :: rs from hr]
    exact if_neg (Bool.eq_false_iff.mp hd)
  have hcand : ({ x with phase := x.phase + x.rateN - x.rateD, tick := x.tick + 1 } : Stream).candidates =
      before ++ j :: after := (Stream.candidates_eq _).trans hc
  have hnew : ({ x with phase := x.phase + x.rateN - x.rateD, tick := x.tick + 1 } : Stream).newest = some j :=
    Stream.newest_eq _ j before after hcand hb ha
  have hnd : (before ++ j :: after).Nodup := hc ▸ List.Pairwise.filter _ x.readySlots_nodup
  have hmem : ∀ i ∈ before ++ after, i ∈ x.readySlots := by
    intro i hi
    have : i ∈ before ++ j :: after := by
      rcases List.mem_append.mp hi with h | h
      · exact List.mem_append_left _ h
      · exact List.mem_append_right _ (List.mem_cons_of_mem j h)
    rw [← hc] at this
    exact (List.mem_filter.mp this).1
  have hj : j ∉ before ++ after := by
    rw [List.nodup_append] at hnd
    intro hi
    rcases List.mem_append.mp hi with h | h
    · exact hnd.2.2 j h j List.mem_cons_self rfl
    · exact (List.nodup_cons.mp hnd.2.1).1 h
  have hnd' : (before ++ after).Nodup :=
    hnd.sublist (List.Sublist.append_left (List.sublist_cons_self j after) before)
  have hdrop : Stream.dropOthers k fc j (before ++ j :: after)
      { x with phase := x.phase + x.rateN - x.rateD, tick := x.tick + 1 } = y := by
    unfold Stream.dropOthers
    rw [List.foldl_append, List.foldl_cons, if_pos rfl, ← List.foldl_append, hy]
    refine Stream.dropOthers_eq k fc j _ _ hnd' (fun i hi => ?_) hj
    have := hmem i hi
    unfold Stream.readySlots at this
    have h2 := (List.mem_filter.mp this).2
    cases hs : x.slots[i]? with
    | none => rw [hs] at h2; exact nomatch h2
    | some sl => rw [hs] at h2; exact ⟨sl, rfl, by simpa using h2⟩
  rw [x.epoch_advance k fc h ht, Stream.select, hq, hnew]
  dsimp only
  rw [hcand, hdrop]
  rfl

/-! ### Arms and bytes (R84 to R88) -/

/-- An arm in STOPPED is ignored (R85). -/
theorem Stream.arm_stopped (k : StreamId) (fc : Count) (j : Nat) (x : Stream) (h : x.state = .stopped) :
    x.arm k fc j = (x, []) := if_pos h

/-- An arm of the expected FREE slot while slot i is FILLING discards slot i as SHORT (R85). -/
theorem Stream.arm_short (k : StreamId) (fc : Count) (i j : Nat) (x : Stream) (sl f : Slot) (h : x.state ≠ .stopped)
    (hj : j = x.expected) (hsl : x.slots[j]? = some sl) (hfree : sl.state = .free)
    (hi : (x.slots.findIdx? fun y => y.state == .filling) = some i) (hf : x.slots[i]? = some f) :
    x.arm k fc j = ({ x with
        slots := (x.slots.set i { f with state := .free }).set j { sl with
          state := .filling, byteCount := 0, frame := sl.header.frame, lateSeen := false, unarmedSeen := false }
        counters := { x.counters with short := bump x.counters.short }
        expected := if j + 1 < x.count then j + 1 else 0 },
      [⟨.streamCondition, streamNumber k, fc, 3, word i, word (bump x.counters.short).toNat⟩,
        ⟨.slotFreed, streamNumber k, fc, 0, word i, 1⟩]) := by
  have hfs : f.state = .filling := by
    obtain ⟨hlt, hp, -⟩ := List.findIdx?_eq_some_iff_getElem.mp hi
    rw [List.getElem?_eq_getElem hlt] at hf
    rw [← Option.some.inj hf]
    simpa using hp
  have hne : i ≠ j := by
    rintro rfl
    rw [hsl] at hf
    rw [Option.some.inj hf, hfs] at hfree
    exact nomatch hfree
  have hget : ∀ v : Slot, (x.slots.set i v)[j]? = some sl := by
    intro v; rw [List.getElem?_set_ne hne]; exact hsl
  subst hj
  simp [Stream.arm, h, hsl, hfree, Stream.discardFilling, hi, Stream.condition, StreamCounters.count, andThen,
    Stream.freeSlot, hf, hfs, Stream.setSlot, Stream.openSlot, hget, Stream.nextPosition, streamEvent, conditionCode,
    slotStateCode, word]

/-- The header words of slot j after a beat (R84). -/
theorem Stream.captures_slot (geo : Nat → Geometry) (b : WriteBeat) (x : Stream) (j i : Nat) (sl : Slot)
    (h : x.slots[j]? = some sl) (hi : (x.positions.take x.count)[j]? = some i) (v : Nat → Option Word)
    (hv : ∀ w, v w = if 64 ≤ (geo i).base then b.wordAt ((geo i).base - 64 + 4 * w) else none) :
    (x.captures geo b).slots[j]? = some { sl with header :=
      ⟨(v 0).getD sl.header.frameNumber, (v 1).getD sl.header.dueTick, (v 2).getD sl.header.flags⟩ } := by
  have hw : ∀ w, headerValue (geo i) b w = v w := by
    intro w
    rw [hv w]
    unfold headerValue headerWord
    by_cases hb : 64 ≤ (geo i).base
    · simp [hb]
    · simp [hb]
  have hi' : x.surfaces[j]? = some i := hi
  simp [Stream.captures, List.getElem?_mapIdx, h, hi', HeaderWords.capture, hw]

/-- Captures change the header words alone (R84). -/
theorem Stream.captures_rest (geo : Nat → Geometry) (b : WriteBeat) (x : Stream) :
    x.captures geo b = { x with slots := (x.captures geo b).slots } := rfl

/-- Bytes for a FILLING slot (R87). -/
theorem Stream.land_filling (k : StreamId) (fc : Count) (size j n : Nat) (x : Stream) (sl : Slot)
    (h : x.slots[j]? = some sl) (hn : 0 < n) (hs : sl.state = .filling) :
    x.land k fc size j n = ({ x with slots := x.slots.set j { sl with
      byteCount := sl.byteCount + n, state := if size ≤ sl.byteCount + n then .ready else .filling } }, []) := by
  simp [Stream.land, h, hs, Nat.ne_of_gt hn, Stream.setSlot]

/-- Bytes for a FREE slot (R88). -/
theorem Stream.land_free (k : StreamId) (fc : Count) (size j n : Nat) (x : Stream) (sl : Slot)
    (h : x.slots[j]? = some sl) (hn : 0 < n) (hs : sl.state = .free) :
    x.land k fc size j n = if sl.unarmedSeen then (x, []) else
      ({ x with slots := x.slots.set j { sl with unarmedSeen := true },
                counters := { x.counters with unarmedWrite := bump x.counters.unarmedWrite } },
        [⟨.streamCondition, streamNumber k, fc, 7, word j, word (bump x.counters.unarmedWrite).toNat⟩]) := by
  simp [Stream.land, h, hs, Nat.ne_of_gt hn, Stream.setSlot, Stream.condition, StreamCounters.count, streamEvent,
    conditionCode]

/-- Bytes for a READY, SHOWN or RETIRED slot (R88). -/
theorem Stream.land_late (k : StreamId) (fc : Count) (size j n : Nat) (x : Stream) (sl : Slot)
    (h : x.slots[j]? = some sl) (hn : 0 < n) (hs : sl.state = .ready ∨ sl.state = .shown ∨ sl.state = .retired) :
    x.land k fc size j n = if sl.lateSeen then (x, []) else
      ({ x with slots := x.slots.set j { sl with lateSeen := true },
                counters := { x.counters with lateWrite := bump x.counters.lateWrite } },
        [⟨.streamCondition, streamNumber k, fc, 5, word j, word (bump x.counters.lateWrite).toNat⟩]) := by
  rcases hs with hs | hs | hs <;>
    simp [Stream.land, h, hs, Nat.ne_of_gt hn, Stream.setSlot, Stream.condition, StreamCounters.count, streamEvent,
      conditionCode]

/-! ### Holds (R71, R72, R101) -/

/-- The release of a hold of d from slot j: a RETIRED slot with no hold left becomes FREE and raises SLOT_FREED, any other
keeps its state (R72, R101). -/
theorem Stream.releaseHold_eq (k : StreamId) (fc : Count) (d : OutputId) (j : Nat) (x : Stream) (sl : Slot)
    (h : x.slots[j]? = some sl) :
    x.releaseHold k fc d j =
      if sl.state = .retired ∧ sl.holds.get (otherOutput d) = false then
        ({ x with slots := x.slots.set j { sl with holds := sl.holds.set d false, state := .free } },
          [⟨.slotFreed, streamNumber k, fc, 0, word j, 4⟩])
      else ({ x with slots := x.slots.set j { sl with holds := sl.holds.set d false } }, []) := by
  have hj := lt_of_slot h
  have hheld : (({ sl with holds := sl.holds.set d false } : Slot).held) = sl.holds.get (otherOutput d) := by
    cases d <;> simp [Slot.held, PerOutput.set, PerOutput.get, otherOutput]
  have hset : x.setHold d j false = { x with slots := x.slots.set j { sl with holds := sl.holds.set d false } } := by
    unfold Stream.setHold; rw [h]; rfl
  unfold Stream.releaseHold
  rw [hset]
  simp only [List.getElem?_set_self hj, hheld]
  split
  · next hc => simp [Stream.freeSlot, List.getElem?_set_self hj, hc.1, Stream.setSlot, streamEvent, slotStateCode, word]
  · rfl

/-- A slot that does not exist has no hold to release. -/
theorem Stream.releaseHold_none (k : StreamId) (fc : Count) (d : OutputId) (j : Nat) (x : Stream)
    (h : x.slots[j]? = none) : x.releaseHold k fc d j = (x, []) := by
  have hset : x.setHold d j false = x := by unfold Stream.setHold; rw [h]
  unfold Stream.releaseHold
  rw [hset]
  simp only [h]

/-- A slot after its hold of d is released (R72, R101). -/
theorem releasedSlot_idem (d : OutputId) (sl : Slot) (f : Slot → Slot)
    (hf : ∀ sl, f sl = { sl with
        holds := sl.holds.set d false
        state := if sl.state = .retired ∧ sl.holds.get (otherOutput d) = false then .free else sl.state }) : f (f sl) = f sl := by
  rw [hf (f sl), hf sl]
  by_cases h : sl.state = .retired ∧ sl.holds.get (otherOutput d) = false
  · simp only [if_pos h, PerOutput.set_set, reduceCtorEq, false_and, if_false]
  · simp only [if_neg h, PerOutput.set_set, PerOutput.get_set_other _ _ _ _ (otherOutput_ne d)]

theorem Stream.releaseHold_slot (k : StreamId) (fc : Count) (d : OutputId) (i j : Nat) (x : Stream) (sl : Slot)
    (f : Slot → Slot)
    (hf : ∀ sl, f sl = { sl with
        holds := sl.holds.set d false
        state := if sl.state = .retired ∧ sl.holds.get (otherOutput d) = false then .free else sl.state })
    (h : x.slots[j]? = some sl) :
    (x.releaseHold k fc d i).1.slots[j]? = some (if i = j then f sl else sl) := by
  cases hi : x.slots[i]? with
  | none =>
    rw [x.releaseHold_none k fc d i hi]
    have : i ≠ j := by rintro rfl; rw [hi] at h; exact nomatch h
    rw [if_neg this]; exact h
  | some y =>
    have hl := lt_of_slot hi
    rw [x.releaseHold_eq k fc d i y hi]
    by_cases hij : i = j
    · subst hij
      rw [hi] at h
      obtain rfl := Option.some.inj h
      rw [if_pos rfl, hf]
      split <;> simp_all
    · rw [if_neg hij]
      split <;> simpa [List.getElem?_set, hij] using h

/-- The slots after the holds of a composition of d are released (R72, R101). -/
theorem State.releaseHolds_slot (s : State) (d : OutputId) (names : List SlotName) (k : StreamId) (j : Nat) (sl : Slot)
    (h : (s.streams.get k).slots[j]? = some sl) :
    ((s.releaseHolds d names).streams.get k).slots[j]? = some (if ⟨k, j⟩ ∈ names then
        { sl with
        holds := sl.holds.set d false
        state := if sl.state = .retired ∧ sl.holds.get (otherOutput d) = false then .free else sl.state }
      else sl) := by
  let f : Slot → Slot := fun sl => { sl with
        holds := sl.holds.set d false
        state := if sl.state = .retired ∧ sl.holds.get (otherOutput d) = false then .free else sl.state }
  suffices ∀ (t : State) (y : Slot), (t.streams.get k).slots[j]? = some y →
      ((t.releaseHolds d names).streams.get k).slots[j]? = some (if ⟨k, j⟩ ∈ names then f y else y) from this s sl h
  unfold State.releaseHolds
  induction names with
  | nil => intro t y hy; simpa using hy
  | cons n ns ih =>
    intro t y hy
    rw [List.foldl_cons]
    have hstream : ∀ out, ((t.updateStream n.stream out).streams.get k) =
        if n.stream = k then out.1 else t.streams.get k := by
      intro out
      have e : (t.updateStream n.stream out).streams = t.streams.set n.stream out.1 := by
        unfold State.updateStream; split <;> rfl
      rw [e]
      split
      · next hk => rw [hk, PerStream.get_set_same]
      · next hk => rw [PerStream.get_set_other _ _ _ _ (Ne.symm hk)]
    have hstep : ((t.updateStream n.stream ((t.streams.get n.stream).releaseHold n.stream (t.pacingFrame n.stream) d
        n.slot)).streams.get k).slots[j]? = some (if n = ⟨k, j⟩ then f y else y) := by
      rw [hstream]
      by_cases hk : n.stream = k
      · rw [if_pos hk, hk, Stream.releaseHold_slot k _ d n.slot j _ y f (fun _ => rfl) hy]
        by_cases hj : n.slot = j
        · have : n = ⟨k, j⟩ := by cases n; simp_all
          rw [if_pos hj, if_pos this]
        · have : n ≠ ⟨k, j⟩ := by rintro rfl; exact hj rfl
          rw [if_neg hj, if_neg this]
      · have : n ≠ ⟨k, j⟩ := by rintro rfl; exact hk rfl
        rw [if_neg hk, if_neg this]; exact hy
    rw [ih _ _ hstep]
    by_cases hn : n = ⟨k, j⟩
    · subst hn
      simp only [if_true, List.mem_cons, true_or]
      split
      · rw [releasedSlot_idem d y f fun _ => rfl]
      · rfl
    · have : (⟨k, j⟩ : SlotName) ∈ n :: ns ↔ (⟨k, j⟩ : SlotName) ∈ ns := by
        simp [List.mem_cons, Ne.symm hn]
      simp only [hn, if_false, this]

/-- Releasing holds changes the streams and raises events, nothing else. -/
theorem State.releaseHolds_rest (s : State) (d : OutputId) (names : List SlotName) :
    ∃ xs w, s.releaseHolds d names = { s with streams := xs, events := w } := by
  unfold State.releaseHolds
  induction names generalizing s with
  | nil => exact ⟨s.streams, s.events, rfl⟩
  | cons n ns ih =>
    rw [List.foldl_cons]
    obtain ⟨xs, w, h⟩ := ih (s.updateStream n.stream ((s.streams.get n.stream).releaseHold n.stream
      (s.pacingFrame n.stream) d n.slot))
    refine ⟨xs, w, h.trans ?_⟩
    unfold State.updateStream; split <;> rfl

/-- The end of a composition: its record goes, its size is kept, it awaits the flip; the rest is the release of its holds
(R67, R72). -/
theorem State.endComposition_eq (s : State) (d : OutputId) (k : Composition) :
    ∃ xs w, s.endComposition d k = { s with
        comp := s.comp.set d { s.comp.get d with
          composition := none, completedSize := k.region.length, awaiting := true }
        streams := xs
        events := w } ∧
      ∀ q i sl, (s.streams.get q).slots[i]? = some sl → (xs.get q).slots[i]? = some (if ⟨q, i⟩ ∈ k.holds then
          { sl with
            holds := sl.holds.set d false
            state := if sl.state = .retired ∧ sl.holds.get (otherOutput d) = false then .free else sl.state }
        else sl) := by
  have e : s.endComposition d k = (s.setComp d { s.comp.get d with
    composition := none, completedSize := k.region.length, awaiting := true }).releaseHolds d k.holds := rfl
  obtain ⟨xs, w, h⟩ := State.releaseHolds_rest (s.setComp d { s.comp.get d with
    composition := none, completedSize := k.region.length, awaiting := true }) d k.holds
  refine ⟨xs, w, e.trans h, fun q i sl hsl => ?_⟩
  have := State.releaseHolds_slot (s.setComp d { s.comp.get d with
    composition := none, completedSize := k.region.length, awaiting := true }) d k.holds q i sl hsl
  rwa [h] at this

/-- The streams after a composition of d is abandoned: as they were when there is none, and otherwise with its holds
released (R72, R73). -/
theorem State.abandon_streams (s : State) (d : OutputId) :
    ((s.comp.get d).composition = none → (s.abandon d).streams = s.streams) ∧
    ∀ k q i sl, (s.comp.get d).composition = some k → (s.streams.get q).slots[i]? = some sl →
      ((s.abandon d).streams.get q).slots[i]? = some (if ⟨q, i⟩ ∈ k.holds then
          { sl with
            holds := sl.holds.set d false
            state := if sl.state = .retired ∧ sl.holds.get (otherOutput d) = false then .free else sl.state }
        else sl) := by
  have job : ∀ (t : State) (j : Option Job), (match j with
      | none => t
      | some j => if j.output = d then
          { t with job := if j.idle then none else some { j with live := false, reads := [], writes := [] } }
        else t).streams = t.streams := by
    intro t j
    cases j with
    | none => rfl
    | some j => dsimp only; split <;> rfl
  unfold State.abandon
  dsimp only
  refine ⟨fun h => ?_, fun k q i sl h hsl => ?_⟩
  · rw [h]; exact job _ _
  · rw [h]
    apply State.releaseHolds_slot
    exact (congrArg (fun xs : PerStream Stream => (xs.get q).slots[i]?) (job _ s.job)).trans hsl

/-- The slots after a hold of d is placed on each slot named (R71). -/
theorem State.placeHolds_slot (s : State) (d : OutputId) (names : List SlotName) (k : StreamId) (j : Nat) (sl : Slot)
    (h : (s.streams.get k).slots[j]? = some sl) :
    ((s.placeHolds d names).streams.get k).slots[j]? = some
      (if ⟨k, j⟩ ∈ names then { sl with holds := sl.holds.set d true } else sl) := by
  suffices ∀ (t : State) (y : Slot), (t.streams.get k).slots[j]? = some y →
      ((t.placeHolds d names).streams.get k).slots[j]? = some
        (if ⟨k, j⟩ ∈ names then { y with holds := y.holds.set d true } else y) from this s sl h
  unfold State.placeHolds
  induction names with
  | nil => intro t y hy; simpa using hy
  | cons n ns ih =>
    intro t y hy
    rw [List.foldl_cons]
    have hstep : ((t.setStream n.stream ((t.streams.get n.stream).setHold d n.slot true)).streams.get k).slots[j]? =
        some (if n = ⟨k, j⟩ then { y with holds := y.holds.set d true } else y) := by
      rw [State.setStream_streams]
      by_cases hk : n.stream = k
      · rw [hk, PerStream.get_set_same]
        unfold Stream.setHold
        cases hi : (t.streams.get k).slots[n.slot]? with
        | none =>
          have : n ≠ ⟨k, j⟩ := by rintro rfl; rw [hi] at hy; exact nomatch hy
          rw [if_neg this]; exact hy
        | some z =>
          by_cases hj : n.slot = j
          · have : n = ⟨k, j⟩ := by cases n; simp_all
            rw [if_pos this]
            subst hj
            rw [hi] at hy
            obtain rfl := Option.some.inj hy
            simp [Stream.setSlot, List.getElem?_set_self (lt_of_slot hi)]
          · have : n ≠ ⟨k, j⟩ := by rintro rfl; exact hj rfl
            rw [if_neg this]
            simpa [Stream.setSlot, List.getElem?_set, hj] using hy
      · have : n ≠ ⟨k, j⟩ := by rintro rfl; exact hk rfl
        rw [PerStream.get_set_other _ _ _ _ (Ne.symm hk), if_neg this]; exact hy
    rw [ih _ _ hstep]
    by_cases hn : n = ⟨k, j⟩
    · subst hn
      simp only [if_true, List.mem_cons, true_or]
      split
      · cases d <;> rfl
      · rfl
    · have : (⟨k, j⟩ : SlotName) ∈ n :: ns ↔ (⟨k, j⟩ : SlotName) ∈ ns := by
        simp [List.mem_cons, Ne.symm hn]
      simp only [hn, if_false, this]

end Sys2Proof.Machine
end

