-- ==== Sys2Proof/Laws/Composition.lean ====
section
/-! SUPPORT. The compositor at an epoch: what it records of a composition that starts, and the holds it places (R58 to R62,
R71). -/

namespace Sys2Proof.Machine

/-! ### Holds of a composition (R62, R71) -/

/-- The step that collects the distinct slots. -/
theorem holdsOf_foldl (frames : List (Option SlotName)) (hs : List SlotName) (h : hs.Nodup) :
    (frames.foldl (fun hs f => match f with
      | none => hs
      | some n => if hs.contains n then hs else hs ++ [n]) hs).Nodup ∧
    ∀ n, n ∈ frames.foldl (fun hs f => match f with
      | none => hs
      | some n => if hs.contains n then hs else hs ++ [n]) hs ↔ n ∈ hs ∨ some n ∈ frames := by
  induction frames generalizing hs with
  | nil => exact ⟨h, fun n => by simp⟩
  | cons f fs ih =>
    rw [List.foldl_cons]
    cases f with
    | none =>
      obtain ⟨h1, h2⟩ := ih hs h
      exact ⟨h1, fun n => (h2 n).trans (by simp)⟩
    | some m =>
      dsimp only
      split
      · next hc =>
        obtain ⟨h1, h2⟩ := ih hs h
        refine ⟨h1, fun n => (h2 n).trans ?_⟩
        have hm : m ∈ hs := by simpa using hc
        constructor
        · rintro (h | h)
          · exact Or.inl h
          · exact Or.inr (List.mem_cons_of_mem _ h)
        · rintro (h | h)
          · exact Or.inl h
          · rcases List.mem_cons.mp h with h | h
            · exact Or.inl (by rw [Option.some.inj h]; exact hm)
            · exact Or.inr h
      · next hc =>
        have hm : m ∉ hs := by simpa using hc
        obtain ⟨h1, h2⟩ := ih (hs ++ [m]) (List.nodup_append.mpr ⟨h, by simp, by
          intro a ha b hb
          rw [List.mem_singleton.mp hb]
          rintro rfl
          exact hm ha⟩)
        refine ⟨h1, fun n => (h2 n).trans ?_⟩
        simp only [List.mem_append, List.mem_cons, List.not_mem_nil, or_false, Option.some.injEq]
        exact or_assoc

/-- The holds list each slot once (R71). -/
theorem holdsOf_nodup (frames : List (Option SlotName)) : (holdsOf frames).Nodup :=
  (holdsOf_foldl frames [] List.nodup_nil).1

/-- The holds are the slots recorded as stream frames (R71). -/
theorem mem_holdsOf (frames : List (Option SlotName)) (n : SlotName) : n ∈ holdsOf frames ↔ some n ∈ frames := by
  refine ((holdsOf_foldl frames [] List.nodup_nil).2 n).trans ?_
  simp

/-- Placing holds changes the streams alone. -/
theorem State.placeHolds_rest (s : State) (d : OutputId) (names : List SlotName) :
    ∃ xs, s.placeHolds d names = { s with streams := xs } := by
  unfold State.placeHolds
  induction names generalizing s with
  | nil => exact ⟨s.streams, rfl⟩
  | cons n ns ih =>
    rw [List.foldl_cons]
    obtain ⟨xs, h⟩ := ih (s.setStream n.stream ((s.streams.get n.stream).setHold d n.slot true))
    exact ⟨xs, h⟩

/-! ### The start of a composition (R61, R62, R71) -/

/-- A start makes the record, moves the list into the previous snapshot and places the holds. -/
theorem State.startComposition_eq (s : State) (d : OutputId) :
    ∃ xs, s.startComposition d = { s with
        damage := s.damage.set d ⟨⟨[], false⟩, (s.damage.get d).list⟩
        comp := s.comp.set d { s.comp.get d with composition := some (s.newComposition d) }
        streams := xs } ∧
      ∀ q j sl, (s.streams.get q).slots[j]? = some sl → (xs.get q).slots[j]? = some
        (if ⟨q, j⟩ ∈ (s.newComposition d).holds then { sl with holds := sl.holds.set d true } else sl) := by
  have e : s.startComposition d = State.placeHolds { s with
      damage := s.damage.set d ⟨⟨[], false⟩, (s.damage.get d).list⟩
      comp := s.comp.set d { s.comp.get d with composition := some (s.newComposition d) } } d
    (s.newComposition d).holds := rfl
  obtain ⟨xs, h⟩ := State.placeHolds_rest { s with
      damage := s.damage.set d ⟨⟨[], false⟩, (s.damage.get d).list⟩
      comp := s.comp.set d { s.comp.get d with composition := some (s.newComposition d) } } d
    (s.newComposition d).holds
  refine ⟨xs, e.trans h, fun q j sl hsl => ?_⟩
  have := State.placeHolds_slot { s with
      damage := s.damage.set d ⟨⟨[], false⟩, (s.damage.get d).list⟩
      comp := s.comp.set d { s.comp.get d with composition := some (s.newComposition d) } } d
    (s.newComposition d).holds q j sl hsl
  rwa [h] at this

/-- The source geometry and the stream frame that a start records for layer i (R62). -/
theorem State.newComposition_layer (s : State) (d : OutputId) (i : Nat) (l : Layer)
    (h : (s.layers.get d).active[i]? = some l) :
    (s.newComposition d).sources[i]? = some (s.layerSource l) ∧ (s.newComposition d).frames[i]? = some (s.layerFrame l) := by
  simp [State.newComposition, h]

/-- A slot is held when a layer's stream frame names it (R71). -/
theorem State.newComposition_holds (s : State) (d : OutputId) (n : SlotName) :
    n ∈ (s.newComposition d).holds ↔ ∃ i : Nat, (s.newComposition d).frames[i]? = some (some n) := by
  unfold State.newComposition
  dsimp only
  rw [mem_holdsOf, List.mem_iff_getElem?]
  simp only [Vector.getElem?_toList]

/-- A disabled or SOLID layer has neither (R62). -/
theorem State.layer_solid (s : State) (l : Layer) (h : l.enabled = false ∨ l.content = .solid) :
    s.layerSource l = none ∧ s.layerFrame l = none := by
  unfold State.layerSource State.layerFrame
  rcases h with h | h
  · simp [h]
  · rw [h]; split <;> simp

/-- An enabled SURFACE layer has its surface's geometry (R62). -/
theorem State.layer_surface (s : State) (l : Layer) (he : l.enabled = true) (h : l.content = .surface) :
    s.layerSource l = some (s.geometryOf l.index) ∧ s.layerFrame l = none := by
  simp [State.layerSource, State.layerFrame, he, h]

/-- An enabled STREAM layer whose stream shows no slot has neither (R62). -/
theorem State.layer_stream_none (s : State) (l : Layer) (q : StreamId) (he : l.enabled = true) (h : l.content = .stream)
    (hi : l.index = streamNumber q) (hs : (s.streams.get q).shownSlot = none) :
    s.layerSource l = none ∧ s.layerFrame l = none := by
  have hq : streamOfIndex l.index = q := by rw [hi]; cases q <;> rfl
  simp [State.layerSource, State.layerFrame, he, h, hq, State.shownName, hs]

/-- An enabled STREAM layer has the geometry of its stream's SHOWN slot (R62). -/
theorem State.layer_stream (s : State) (l : Layer) (q : StreamId) (j u : Nat) (he : l.enabled = true)
    (h : l.content = .stream) (hi : l.index = streamNumber q) (hs : (s.streams.get q).shownSlot = some j)
    (hu : (s.streams.get q).surfaces[j]? = some u) :
    s.layerSource l = some (s.geometryOf u) ∧ s.layerFrame l = some ⟨q, j⟩ := by
  have hq : streamOfIndex l.index = q := by rw [hi]; cases q <;> rfl
  simp [State.layerSource, State.layerFrame, he, h, hq, State.shownName, hs, State.slotGeometry, hu]

/-! ### The epoch (R58) -/

/-- A damage record holds nothing stale when it is empty. -/
theorem DamageList.stale_eq (l : DamageList) : l.stale = decide (l ≠ ⟨[], false⟩) := by
  obtain ⟨es, w⟩ := l
  cases w <;> cases es <;> simp [DamageList.stale]

/-- At an epoch in RUNNING with no composition in progress: a finished one flips, and then one starts if anything is
stale (R58). -/
theorem State.compositorEpoch_idle (s : State) (d : OutputId) (hr : s.outputState d = .running)
    (hc : (s.comp.get d).composition = none) :
    s.compositorEpoch d = if (s.damage.get d).list ≠ ⟨[], false⟩ ∨ (s.damage.get d).previous ≠ ⟨[], false⟩ then
        (s.flipIfAwaiting d).startComposition d
      else s.flipIfAwaiting d := by
  have hd : (s.flipIfAwaiting d).damage = s.damage := by
    unfold State.flipIfAwaiting; split <;> rfl
  unfold State.compositorEpoch
  rw [if_pos hr, hc]
  dsimp only
  unfold State.startIfStale
  rw [hd, DamageList.stale_eq, DamageList.stale_eq]
  simp only [Bool.or_eq_true, decide_eq_true_eq]

end Sys2Proof.Machine
end

