-- ==== Sys2Proof/Laws/Conversion.lean ====
section
/-! SUPPORT. The alias converter, case by case (R10 to R17, R145), and what a read returns (R149). -/

namespace Sys2Proof.Machine

/-! ### Bytes of a beat -/

/-- The eight bytes that make a beat are its bytes. -/
theorem byteOf_beatOf (b0 b1 b2 b3 b4 b5 b6 b7 : Byte) :
    [0, 1, 2, 3, 4, 5, 6, 7].map (byteOf (beatOf [b0, b1, b2, b3, b4, b5, b6, b7])) =
      [b0, b1, b2, b3, b4, b5, b6, b7] := by
  have h (b : Byte) : b.toNat < 256 := b.isLt
  have := h b0; have := h b1; have := h b2; have := h b3
  have := h b4; have := h b5; have := h b6; have := h b7
  simp only [byteOf, beatOf, List.foldr_cons, List.foldr_nil, List.map_cons, List.map_nil, List.cons.injEq, and_true]
  refine ⟨?_, ?_, ?_, ?_, ?_, ?_, ?_, ?_⟩ <;> apply BitVec.eq_of_toNat_eq <;>
    simp only [BitVec.toNat_ofNat, Nat.shiftRight_eq_div_pow] <;> omega

/-- The enables of a downstream beat, bit by bit: four for the low pixel, four for the high one (R12). -/
theorem pairEnables_bit (lo hi : Bool) (j : Nat) (hj : j < 4) :
    (pairEnables lo hi).getLsbD j = lo ∧ (pairEnables lo hi).getLsbD (4 + j) = hi := by
  match j, hj with
  | 0, _ => cases lo <;> cases hi <;> decide
  | 1, _ => cases lo <;> cases hi <;> decide
  | 2, _ => cases lo <;> cases hi <;> decide
  | 3, _ => cases lo <;> cases hi <;> decide

/-- The bytes of a downstream beat: blue, green, red and alpha of each of its two pixels (R1, R12). -/
theorem Mapping.pairBeat_bytes (m : Mapping) (b : UpBeat) (i : Nat) :
    [0, 1, 2, 3, 4, 5, 6, 7].map (byteOf (m.pairBeat b i).data) =
      pixelBytes (expandPixel m.format (aliasPixel b.data i)) ++
        pixelBytes (expandPixel m.format (aliasPixel b.data (i + 1))) :=
  byteOf_beatOf _ _ _ _ _ _ _ _

/-! ### Where an alias beat maps (R10) -/

/-- A mapping through one record is R10's. -/
theorem Surface.mapping_some {x : Surface} {i o : Nat} {m : Mapping} (h : x.mapping i o = some m) :
    ∃ r, x.view = some r ∧ x.geometry.bound = true ∧ r.base ≤ o ∧ o < r.base + x.geometry.pitch / 2 * x.geometry.height ∧
      m = ⟨i, x.geometry, r.format, x.geometry.base + 2 * (o - r.base), (o - r.base) / (x.geometry.pitch / 2),
        (o - r.base) % (x.geometry.pitch / 2) / 2⟩ := by
  unfold Surface.mapping at h
  split at h
  · exact nomatch h
  · next r hr =>
    split at h
    · next ho =>
      simp only [Surface.holdsOffset, hr, Bool.and_eq_true, decide_eq_true_eq, aliasLength] at ho
      exact ⟨r, hr, ho.1.1, ho.1.2, of_decide_eq_true ho.2, (Option.some.inj h).symm⟩
    · exact nomatch h

/-- A record whose alias range does not hold the offset gives no mapping, and the other way round. -/
theorem Surface.mapping_none {x : Surface} {i o : Nat} : x.mapping i o = none ↔
    ∀ r, x.view = some r → x.geometry.bound = true →
      ¬ (r.base ≤ o ∧ o < r.base + x.geometry.pitch / 2 * x.geometry.height) := by
  unfold Surface.mapping Surface.holdsOffset
  cases hv : x.view with
  | none => simp
  | some r => simp; rfl

/-- The mapping of an offset is R10's, through the record it names. -/
theorem State.aliasMapping_some (s : State) (o : Nat) (m : Mapping) (h : s.aliasMapping o = some m) :
    ∃ x r, s.surface m.surface = some x ∧ x.view = some r ∧ x.geometry.bound = true ∧ r.base ≤ o ∧
      o < r.base + x.geometry.pitch / 2 * x.geometry.height ∧
      m = ⟨m.surface, x.geometry, r.format, x.geometry.base + 2 * (o - r.base),
        (o - r.base) / (x.geometry.pitch / 2), (o - r.base) % (x.geometry.pitch / 2) / 2⟩ := by
  obtain ⟨⟨x, i⟩, hmem, hm⟩ := List.exists_of_findSome?_eq_some h
  obtain ⟨r, hr, hb, h1, h2, he⟩ := Surface.mapping_some hm
  have hx := List.mem_zipIdx_iff_getElem?.mp hmem
  have hi : m.surface = i := by rw [he]
  refine ⟨x, r, ?_, hr, hb, h1, h2, ?_⟩
  · rw [hi]; simpa [State.surface] using hx
  · rw [hi]; exact he

/-- An offset is stray exactly when no BOUND surface's alias range holds it (R10). -/
theorem State.aliasMapping_none (s : State) (o : Nat) : s.aliasMapping o = none ↔
    ∀ i x r, s.surface i = some x → x.view = some r → x.geometry.bound = true →
      ¬ (r.base ≤ o ∧ o < r.base + x.geometry.pitch / 2 * x.geometry.height) := by
  unfold State.aliasMapping
  rw [List.findSome?_eq_none_iff]
  constructor
  · intro h i x r hx hr hb
    refine Surface.mapping_none.mp (h (x, i) (List.mem_zipIdx_iff_getElem?.mpr ?_)) r hr hb
    simpa [State.surface] using hx
  · rintro h ⟨x, i⟩ hmem
    refine Surface.mapping_none.mpr fun r hr hb => h i x r ?_ hr hb
    have hx := List.mem_zipIdx_iff_getElem?.mp hmem
    simpa [State.surface] using hx

/-! ### Beats converted -/

/-- A direct write beat becomes itself (R145). -/
theorem State.convertWrite_direct (s : State) (addr : Nat) (b : UpBeat) (h : addr < 0x10000000) :
    s.convertWrite addr b = ([⟨addr, b.enables, b.data⟩], []) := if_pos h

/-- A stray write beat is dropped and reported (R14). -/
theorem State.convertWrite_stray (s : State) (addr : Nat) (b : UpBeat) (h : 0x10000000 ≤ addr)
    (hm : s.aliasMapping (addr - 0x10000000) = none) :
    s.convertWrite addr b = ([], [⟨.aliasFault, 255, 0, 2, word addr, word b.enables.toNat⟩]) := by
  refine (if_neg (Nat.not_lt.mpr h)).trans ?_
  rw [show s.aliasMapping (addr - Config.aliasBase) = none from hm]; rfl

/-- A mapped write beat becomes two downstream beats, and reports partial pixels once (R12, R13, R15). -/
theorem State.convertWrite_mapped (s : State) (addr : Nat) (b : UpBeat) (m : Mapping) (h : 0x10000000 ≤ addr)
    (hm : s.aliasMapping (addr - 0x10000000) = some m) :
    s.convertWrite addr b = ([m.pairBeat b 0, m.pairBeat b 2],
      if [0, 1, 2, 3].any (m.isPartial b) then [⟨.aliasFault, m.surface, 0, 1, word addr, word b.enables.toNat⟩]
      else []) := by
  refine (if_neg (Nat.not_lt.mpr h)).trans ?_
  rw [show s.aliasMapping (addr - Config.aliasBase) = some m from hm]; rfl

/-- A direct read beat goes to its address (R145). -/
theorem State.convertRead_direct (s : State) (addr : Nat) (h : addr < 0x10000000) :
    s.convertRead addr = (.direct, [addr], []) := if_pos h

/-- A stray read beat is not sent, and reported (R17). -/
theorem State.convertRead_stray (s : State) (addr : Nat) (h : 0x10000000 ≤ addr)
    (hm : s.aliasMapping (addr - 0x10000000) = none) :
    s.convertRead addr = (.stray, [], [⟨.aliasFault, 255, 0, 2, word addr, 256⟩]) := by
  refine (if_neg (Nat.not_lt.mpr h)).trans ?_
  rw [show s.aliasMapping (addr - Config.aliasBase) = none from hm]; rfl

/-- A mapped read beat reads its 16 bytes (R16). -/
theorem State.convertRead_mapped (s : State) (addr : Nat) (m : Mapping) (h : 0x10000000 ≤ addr)
    (hm : s.aliasMapping (addr - 0x10000000) = some m) :
    s.convertRead addr =
      (.mapped m.surface m.format ([0, 1, 2, 3].map m.lastRowPadding), [m.addr, m.addr + 8], []) := by
  refine (if_neg (Nat.not_lt.mpr h)).trans ?_
  rw [show s.aliasMapping (addr - Config.aliasBase) = some m from hm]

/-! ### Contraction (R16) -/

/-- A contracted pixel has 16 bits. -/
theorem contractPixel_lt (f : AliasFormat) (c : Colour) : contractPixel f c < 65536 := by
  have h (b : Byte) : b.toNat < 256 := b.isLt
  have := h c.alpha; have := h c.red; have := h c.green; have := h c.blue
  cases f <;> (unfold contractPixel; dsimp only; omega)

/-- The four pixels of the beat that a mapped read returns: contracted, 0 in the padding of the last row (R16). -/
theorem contractBeats_pixel (f : AliasFormat) (padding : List Bool) (lo hi : BeatData) (i : Nat) (h : i < 4) :
    aliasPixel (contractBeats f padding lo hi) i =
      if padding.getD i false then 0 else contractPixel f (beatPixel (if i < 2 then lo else hi) (i % 2 == 1)) := by
  have key : ∀ p0 p1 p2 p3 : Nat, p0 < 65536 → p1 < 65536 → p2 < 65536 → p3 < 65536 → ∀ i, i < 4 →
      aliasPixel (BitVec.ofNat 64 (p0 + 0x10000 * p1 + 0x100000000 * p2 + 0x1000000000000 * p3)) i =
        if i = 0 then p0 else if i = 1 then p1 else if i = 2 then p2 else p3 := by
    intro p0 p1 p2 p3 h0 h1 h2 h3 i hi
    simp only [aliasPixel, BitVec.toNat_ofNat]
    match i, hi with
    | 0, _ => simp; omega
    | 1, _ => simp; omega
    | 2, _ => simp; omega
    | 3, _ => simp; omega
  have hp (i : Nat) (c : Colour) : (if padding.getD i false then 0 else contractPixel f c) < 65536 := by
    split
    · decide
    · exact contractPixel_lt f c
  refine (key _ _ _ _ (hp 0 _) (hp 1 _) (hp 2 _) (hp 3 _) i h).trans ?_
  match i, h with
  | 0, _ => rfl
  | 1, _ => rfl
  | 2, _ => rfl
  | 3, _ => rfl

end Sys2Proof.Machine
end

