-- ==== Sys2Proof/Laws/Damage.lean ====
section
/-! SUPPORT. What the sources of damage insert: the rectangles of a write beat (R22, R27, R28) and of layers (R6, R31),
one after the other into the list of each output that takes them. -/

namespace Sys2Proof.Machine

/-! ### One rectangle (R22) -/

/-- A rectangle with a pixel in the active area is inserted as the tiles it touches, any other inserts nothing (R22). -/
theorem DamageList.insertPixels_eq (t : Timing) (x y : Int) (w h : Nat) (l : DamageList) :
    l.insertPixels t x y w h =
      if max x 0 ≤ min (x + w - 1) ((t.width : Int) - 1) ∧ max y 0 ≤ min (y + h - 1) ((t.height : Int) - 1) then
        l.insert t.cols t.rows ⟨(max x 0).toNat / 16, (min (x + w - 1) ((t.width : Int) - 1)).toNat / 16,
          (max y 0).toNat / 16, (min (y + h - 1) ((t.height : Int) - 1)).toNat / 16⟩
      else l := by
  unfold DamageList.insertPixels clipTiles
  dsimp only
  by_cases hc : max x 0 ≤ min (x + w - 1) ((t.width : Int) - 1) ∧ max y 0 ≤ min (y + h - 1) ((t.height : Int) - 1)
  · rw [if_pos hc, if_pos hc]
  · rw [if_neg hc, if_neg hc]

/-- Rectangles handed to the list of d one after the other: all taken in RUNNING and FROZEN, none otherwise (R21). -/
theorem State.damagePixels_all (d : OutputId) (qs : List (Int × Int × Nat × Nat)) (s : State) :
    qs.foldl (fun t q => t.damagePixels d q.1 q.2.1 q.2.2.1 q.2.2.2) s =
      { s with
        damage := s.damage.set d
          (if (s.outputState d).live then
            ⟨qs.foldl (fun l q => l.insertPixels (s.outputs.get d).active q.1 q.2.1 q.2.2.1 q.2.2.2) (s.damage.get d).list,
              (s.damage.get d).previous⟩
          else s.damage.get d) } := by
  induction qs generalizing s with
  | nil => cases d <;> simp [PerOutput.set, PerOutput.get]
  | cons q qs ih =>
    rw [List.foldl_cons, ih]
    cases hl : (s.outputState d).live
    · have h : s.damagePixels d q.1 q.2.1 q.2.2.1 q.2.2.2 = s := by simp [State.damagePixels, hl]
      rw [h, hl]; rfl
    · have h : s.damagePixels d q.1 q.2.1 q.2.2.1 q.2.2.2 = s.setDamage d
          ⟨(s.damage.get d).list.insertPixels (s.outputs.get d).active q.1 q.2.1 q.2.2.1 q.2.2.2,
            (s.damage.get d).previous⟩ := by simp [State.damagePixels, hl]
      have hl' : ((s.setDamage d
          ⟨(s.damage.get d).list.insertPixels (s.outputs.get d).active q.1 q.2.1 q.2.2.1 q.2.2.2,
            (s.damage.get d).previous⟩).outputState d).live = true := hl
      rw [h, hl']
      simp [State.setDamage]

/-! ### A write beat (R27, R28) -/

/-- The damage of a surface is its layers' rectangles handed over in ascending layer index (R27). -/
theorem State.damageSurface_eq (s : State) (d : OutputId) (b : WriteBeat) (i : Nat) :
    s.damageSurface d b i =
      (if (s.geometryOf i).has b then
        (s.activeLayers d).filterMap fun l => if s.shows i l then l.mapPixels ((s.geometryOf i).touched b) else none
       else []).foldl (fun t q => t.damagePixels d q.1 q.2.1 q.2.2.1 q.2.2.2) s := by
  unfold State.damageSurface
  split
  · generalize s.activeLayers d = ls
    suffices ∀ t : State, ls.foldl
        (fun t l => if s.shows i l then t.damageThrough d ((s.geometryOf i).touched b) l else t) t =
        (ls.filterMap fun l => if s.shows i l then l.mapPixels ((s.geometryOf i).touched b) else none).foldl
          (fun t q => t.damagePixels d q.1 q.2.1 q.2.2.1 q.2.2.2) t from this s
    induction ls with
    | nil => intro t; rfl
    | cons l ls ih =>
      intro t
      rw [List.foldl_cons, ih, List.filterMap_cons]
      cases s.shows i l
      · rfl
      · simp only [if_true, State.damageThrough]
        cases l.mapPixels ((s.geometryOf i).touched b) with
        | none => rfl
        | some q => rfl
  · rfl

/-- The rectangles of one output's surfaces, in ascending surface index and then layer index (R27). -/
theorem State.damageSurfaces_eq (s : State) (d : OutputId) (b : WriteBeat) (is : List Nat) :
    is.foldl (fun t i => t.damageSurface d b i) s =
      (is.flatMap fun i => if (s.geometryOf i).has b then
        (s.activeLayers d).filterMap fun l => if s.shows i l then l.mapPixels ((s.geometryOf i).touched b) else none
       else []).foldl (fun t q => t.damagePixels d q.1 q.2.1 q.2.2.1 q.2.2.2) s := by
  suffices ∀ t : State, t.surfaces = s.surfaces → t.layers = s.layers → t.streams = s.streams →
      is.foldl (fun t i => t.damageSurface d b i) t =
      (is.flatMap fun i => if (s.geometryOf i).has b then
        (s.activeLayers d).filterMap fun l => if s.shows i l then l.mapPixels ((s.geometryOf i).touched b) else none
       else []).foldl (fun t q => t.damagePixels d q.1 q.2.1 q.2.2.1 q.2.2.2) t from this s rfl rfl rfl
  induction is with
  | nil => intro t _ _ _; rfl
  | cons i is ih =>
    intro t h1 h2 h3
    have hg : t.geometryOf i = s.geometryOf i := by unfold State.geometryOf State.surface; rw [h1]
    have ha : t.activeLayers d = s.activeLayers d := by unfold State.activeLayers; rw [h2]
    have hs : t.shows i = s.shows i := by funext l; unfold State.shows; rw [h3]
    rw [List.foldl_cons, List.flatMap_cons, List.foldl_append, State.damageSurface_eq, hg, ha, hs,
      State.damagePixels_all]
    exact ih _ h1 h2 h3

/-- The notice of a write beat changes the damage lists alone: of each output that is RUNNING or FROZEN, by the
rectangles of its layers (R27). -/
theorem State.damageNotice_eq (s : State) (b : WriteBeat) (rects : OutputId → List (Int × Int × Nat × Nat))
    (hr : ∀ d, rects d = (List.range 32).flatMap fun i => if (s.geometryOf i).has b then
      (s.activeLayers d).filterMap fun l => if s.shows i l then l.mapPixels ((s.geometryOf i).touched b) else none
      else []) :
    s.damageNotice b = { s with
      damage := (s.damage.set .A
        (if (s.outputState .A).live then
          ⟨(rects .A).foldl (fun l q => l.insertPixels (s.outputs.get .A).active q.1 q.2.1 q.2.2.1 q.2.2.2)
            (s.damage.get .A).list, (s.damage.get .A).previous⟩
        else s.damage.get .A)).set .B
        (if (s.outputState .B).live then
          ⟨(rects .B).foldl (fun l q => l.insertPixels (s.outputs.get .B).active q.1 q.2.1 q.2.2.1 q.2.2.2)
            (s.damage.get .B).list, (s.damage.get .B).previous⟩
        else s.damage.get .B) } := by
  unfold State.damageNotice bothOutputs
  rw [List.foldl_cons, List.foldl_cons, List.foldl_nil, State.damageSurfaces_eq, State.damageSurfaces_eq, ← hr .A,
    State.damagePixels_all, State.damagePixels_all, hr .B]
  rfl

/-- The damage records of d after the notice of a write beat (R27). -/
theorem State.damageNotice_get (s : State) (b : WriteBeat) (d : OutputId) (rects : List (Int × Int × Nat × Nat))
    (hr : rects = (List.range 32).flatMap fun i => if (s.geometryOf i).has b then
      (s.activeLayers d).filterMap fun l => if s.shows i l then l.mapPixels ((s.geometryOf i).touched b) else none
      else []) :
    (s.damageNotice b).damage.get d = if (s.outputState d).live then
        ⟨rects.foldl (fun l q => l.insertPixels (s.outputs.get d).active q.1 q.2.1 q.2.2.1 q.2.2.2)
          (s.damage.get d).list, (s.damage.get d).previous⟩
      else s.damage.get d := by
  rw [State.damageNotice_eq s b _ fun _ => rfl]
  subst hr
  cases d <;> rfl

/-- A layer shows a surface by its own content, or as the SHOWN slot of its stream (R27). -/
theorem State.shows_iff (s : State) (i : Nat) (l : Layer) : s.shows i l = true ↔ l.enabled = true ∧
    (l.content = .surface ∧ l.index = i ∨
      ∃ k, l.content = .stream ∧ l.index = streamNumber k ∧ (s.streams.get k).shownSurface = some i) := by
  simp only [State.shows, bothStreams, Layer.showsSurface, Layer.showsStream, List.any_cons, List.any_nil, Bool.or_false,
    Bool.and_eq_true, Bool.or_eq_true, beq_iff_eq, and_congr_right_iff]
  intro _
  constructor
  · rintro (h | ⟨⟨h1, h2⟩, h3⟩ | ⟨⟨h1, h2⟩, h3⟩)
    · exact Or.inl h
    · exact Or.inr ⟨.S0, h1, h2, h3⟩
    · exact Or.inr ⟨.S1, h1, h2, h3⟩
  · rintro (h | ⟨k, h1, h2, h3⟩)
    · exact Or.inl h
    · cases k
      · exact Or.inr (Or.inl ⟨⟨h1, h2⟩, h3⟩)
      · exact Or.inr (Or.inr ⟨⟨h1, h2⟩, h3⟩)

/-! ### Layers (R6, R31) -/

/-- The damage of layers changes the lists alone: of each live output, by the destination rectangles of its enabled
active layers that p names, in ascending layer index (R6, R31). -/
theorem State.damageLayersOf_eq (s : State) (d : OutputId) (p : Layer → Bool) :
    s.damageLayersOf d p =
      (((s.activeLayers d).filter fun l => l.enabled && p l).map fun l =>
        (l.dx, l.dy, l.sw * l.mag, l.sh * l.mag)).foldl
          (fun t q => t.damagePixels d q.1 q.2.1 q.2.2.1 q.2.2.2) s := by
  unfold State.damageLayersOf
  rw [List.foldl_map, List.foldl_filter]
  rfl

/-- The damage records of d after the damage of layers (R6, R31). -/
theorem State.damageLayers_eq (s : State) (p : Layer → Bool) (rects : OutputId → List (Int × Int × Nat × Nat))
    (hr : ∀ d, rects d = ((s.activeLayers d).filter fun l => l.enabled && p l).map fun l =>
      (l.dx, l.dy, l.sw * l.mag, l.sh * l.mag)) :
    s.damageLayers p = { s with
      damage := (s.damage.set .A
        (if (s.outputState .A).live then
          ⟨(rects .A).foldl (fun l q => l.insertPixels (s.outputs.get .A).active q.1 q.2.1 q.2.2.1 q.2.2.2)
            (s.damage.get .A).list, (s.damage.get .A).previous⟩
        else s.damage.get .A)).set .B
        (if (s.outputState .B).live then
          ⟨(rects .B).foldl (fun l q => l.insertPixels (s.outputs.get .B).active q.1 q.2.1 q.2.2.1 q.2.2.2)
            (s.damage.get .B).list, (s.damage.get .B).previous⟩
        else s.damage.get .B) } := by
  unfold State.damageLayers bothOutputs
  rw [List.foldl_cons, List.foldl_cons, List.foldl_nil, State.damageLayersOf_eq, State.damageLayersOf_eq, ← hr .A,
    State.damagePixels_all, State.damagePixels_all, hr .B]
  rfl

/-! ### The pixels of a beat (R28) -/

/-- The place of a byte of an aligned beat: the row of the beat, the beat's byte in the row and the byte's number
(R2). -/
theorem Geometry.place_add (g : Geometry) (a i : Nat) (hb : g.bound = true) (h1 : g.base % 8 = 0) (h2 : g.pitch % 8 = 0)
    (h3 : a % 8 = 0) (h4 : g.base ≤ a) (h5 : 0 < g.pitch) (hi : i < 8) :
    g.place (a + i) =
      if (a - g.base) / g.pitch < g.height ∧ (a - g.base) % g.pitch + i < 4 * g.width then
        some ((a - g.base) / g.pitch, (a - g.base) % g.pitch + i)
      else none := by
  have e : a + i - g.base = (a - g.base) + i := by omega
  have h8 : (a - g.base) % g.pitch % 8 = 0 := by
    rw [Nat.mod_mod_of_dvd _ (Nat.dvd_of_mod_eq_zero h2)]; omega
  have hlt : (a - g.base) % g.pitch < g.pitch := Nat.mod_lt _ h5
  have hlt' : (a - g.base) % g.pitch + i < g.pitch := by omega
  have hm : ((a - g.base) + i) % g.pitch = (a - g.base) % g.pitch + i := by
    rw [Nat.add_mod, Nat.mod_eq_of_lt (show i < g.pitch by omega), Nat.mod_eq_of_lt hlt']
  have hd : ((a - g.base) + i) / g.pitch = (a - g.base) / g.pitch := by
    rw [Nat.div_eq_iff h5]
    have := Nat.div_add_mod (a - g.base) g.pitch
    have hc := Nat.mul_comm g.pitch ((a - g.base) / g.pitch)
    omega
  unfold Geometry.place
  rw [e, hm, hd]
  simp [hb, Nat.le_add_right_of_le h4]

/-- The enabled bytes of one half of a beat, all in one pixel. -/
theorem Geometry.touched_half (g : Geometry) (b : WriteBeat) (half : List Nat) (y c : Nat) (p : Prop) [Decidable p]
    (h : ∀ i ∈ half, g.place (b.addr + i) = if p then some (y, 4 * c + i % 4) else none) :
    (half.filter fun i => b.enables.getLsbD i).findSome? (fun i => (g.place (b.addr + i)).map fun q => (q.2 / 4, q.1)) =
      if p ∧ (half.any fun i => b.enables.getLsbD i) = true then some (c, y) else none := by
  induction half with
  | nil => simp
  | cons i half ih =>
    have ih' := ih fun j hj => h j (List.mem_cons_of_mem i hj)
    have hi := h i List.mem_cons_self
    cases he : b.enables.getLsbD i
    · simp only [List.filter_cons, he, List.any_cons, Bool.false_or]; exact ih'
    · simp only [List.filter_cons, he, List.any_cons, Bool.true_or, and_true, if_true, List.findSome?_cons, hi]
      by_cases hp : p
      · simp only [hp, if_true, Option.map_some]
        have : (4 * c + i % 4) / 4 = c := by omega
        rw [this]
      · simp only [hp, if_false, Option.map_none]
        rw [ih']; simp [hp]

/-- The pixels that a beat touches in a surface: at most the two of its halves, each when one of its bytes is enabled
and its place lies in the pixel area (R28). -/
theorem Geometry.touched_eq (g : Geometry) (b : WriteBeat) (c y : Nat) (hb : g.bound = true) (h1 : g.base % 8 = 0)
    (h2 : g.pitch % 8 = 0) (h3 : b.addr % 8 = 0) (h4 : g.base ≤ b.addr) (h5 : 0 < g.pitch)
    (hy : y = (b.addr - g.base) / g.pitch) (hc : c = (b.addr - g.base) % g.pitch / 4) :
    g.touched b =
      (if (y < g.height ∧ c < g.width) ∧ ([0, 1, 2, 3].any fun i => b.enables.getLsbD i) = true then [(c, y)] else []) ++
      (if (y < g.height ∧ c + 1 < g.width) ∧ ([4, 5, 6, 7].any fun i => b.enables.getLsbD i) = true then [(c + 1, y)]
        else []) := by
  have h8 : (b.addr - g.base) % g.pitch % 8 = 0 := by
    rw [Nat.mod_mod_of_dvd _ (Nat.dvd_of_mod_eq_zero h2)]; omega
  have ho : (b.addr - g.base) % g.pitch = 4 * c := by omega
  have hp : ∀ i, i < 8 → g.place (b.addr + i) = if y < g.height ∧ 4 * c + i < 4 * g.width then some (y, 4 * c + i)
      else none := by
    intro i hi
    rw [g.place_add b.addr i hb h1 h2 h3 h4 h5 hi, ho, hy]
  have lo := g.touched_half b [0, 1, 2, 3] y c (y < g.height ∧ c < g.width) (by
    intro i hi
    simp only [List.mem_cons, List.not_mem_nil, or_false] at hi
    rw [hp i (by omega), show i % 4 = i by omega]
    have : 4 * c + i < 4 * g.width ↔ c < g.width := by omega
    simp only [this])
  have hi := g.touched_half b [4, 5, 6, 7] y (c + 1) (y < g.height ∧ c + 1 < g.width) (by
    intro i hi
    simp only [List.mem_cons, List.not_mem_nil, or_false] at hi
    rw [hp i (by omega), show 4 * (c + 1) + i % 4 = 4 * c + i by omega]
    have : 4 * c + i < 4 * g.width ↔ c + 1 < g.width := by omega
    simp only [this])
  unfold Geometry.touched
  simp only [List.filterMap_cons, List.filterMap_nil, lo, hi]
  split <;> split <;> simp_all

/-- A beat below the surface touches no pixel of it (R28). -/
theorem Geometry.touched_below (g : Geometry) (b : WriteBeat) (h1 : g.base % 8 = 0) (h3 : b.addr % 8 = 0)
    (h4 : b.addr < g.base) : g.touched b = [] := by
  have hp : ∀ i, i < 8 → g.place (b.addr + i) = none := by
    intro i hi; unfold Geometry.place; rw [if_neg]; omega
  unfold Geometry.touched
  simp only [List.filterMap_eq_nil_iff, List.findSome?_eq_none_iff, List.mem_filter]
  rintro half hh i ⟨hi, -⟩
  have : i < 8 := by
    simp only [List.mem_cons, List.not_mem_nil, or_false] at hh
    rcases hh with rfl | rfl <;> simp at hi <;> omega
  rw [hp i this]; rfl

/-- One or two touched pixels of a row mapped through a layer: from the first to the last column that its source
rectangle shows, and nothing where it shows none (R28). -/
theorem Layer.mapPixels_eq (l : Layer) (ps : List (Nat × Nat)) (c y : Nat)
    (hps : ps = [(c, y)] ∨ ps = [(c, y), (c + 1, y)]) :
    (∀ a e, a ≤ e →
      (∀ x, a ≤ x ∧ x ≤ e ↔ (x, y) ∈ ps ∧ l.sx ≤ x ∧ x < l.sx + l.sw ∧ l.sy ≤ y ∧ y < l.sy + l.sh) →
      l.mapPixels ps = some (l.dx + (a - l.sx) * l.mag, l.dy + (y - l.sy) * l.mag, (e - a + 1) * l.mag, l.mag)) ∧
    ((∀ x, (x, y) ∈ ps → ¬ (l.sx ≤ x ∧ x < l.sx + l.sw ∧ l.sy ≤ y ∧ y < l.sy + l.sh)) → l.mapPixels ps = none) := by
  have filt : ∀ x, (decide (l.sx ≤ x) && decide (x < l.sx + l.sw) && decide (l.sy ≤ y) && decide (y < l.sy + l.sh)) =
      decide (l.sx ≤ x ∧ x < l.sx + l.sw ∧ l.sy ≤ y ∧ y < l.sy + l.sh) := by
    intro x; simp [Bool.and_assoc]
  constructor
  · intro a e hae h
    have ha := (h a).mp ⟨Nat.le_refl a, hae⟩
    have he := (h e).mp ⟨hae, Nat.le_refl e⟩
    rcases hps with rfl | rfl
    · simp only [List.mem_cons, Prod.mk.injEq, and_true, List.not_mem_nil, or_false] at ha he
      obtain ⟨rfl, ha⟩ := ha
      obtain ⟨rfl, -⟩ := he
      simp [Layer.mapPixels, ha]
    · simp only [List.mem_cons, Prod.mk.injEq, and_true, List.not_mem_nil, or_false] at ha he h
      have hc := h c
      have hc1 := h (c + 1)
      unfold Layer.mapPixels
      rw [List.filter_cons, List.filter_cons, List.filter_nil]
      simp only [filt]
      by_cases i0 : l.sx ≤ c ∧ c < l.sx + l.sw ∧ l.sy ≤ y ∧ y < l.sy + l.sh
      · by_cases i1 : l.sx ≤ c + 1 ∧ c + 1 < l.sx + l.sw ∧ l.sy ≤ y ∧ y < l.sy + l.sh
        · obtain rfl : a = c := by omega
          obtain rfl : e = a + 1 := by omega
          rw [if_pos (decide_eq_true i0), if_pos (decide_eq_true i1)]
          have : a + 1 + 1 - a = a + 1 - a + 1 := by omega
          simp [this]
        · obtain rfl : a = c := by omega
          obtain rfl : e = a := by omega
          rw [if_pos (decide_eq_true i0), if_neg (by simpa using i1)]
          simp
      · have i1 : l.sx ≤ c + 1 ∧ c + 1 < l.sx + l.sw ∧ l.sy ≤ y ∧ y < l.sy + l.sh := by omega
        obtain rfl : a = c + 1 := by omega
        obtain rfl : e = c + 1 := by omega
        rw [if_neg (by simpa using i0), if_pos (decide_eq_true i1)]
        simp
  · intro h
    have key : ps.filter (fun p => decide (l.sx ≤ p.1) && decide (p.1 < l.sx + l.sw) && decide (l.sy ≤ p.2) &&
        decide (p.2 < l.sy + l.sh)) = [] := by
      rw [List.filter_eq_nil_iff]
      intro p hp
      have hy : p.2 = y := by
        rcases hps with rfl | rfl <;> simp at hp
        · rw [hp]
        · rcases hp with rfl | rfl <;> rfl
      have := h p.1 (by rw [← hy]; exact hp)
      simp only [hy, filt, decide_eq_true_eq]
      exact this
    unfold Layer.mapPixels
    rw [key]

/-! ### The result of an insertion (R23 to R25) -/

/-- A search that no entry improves keeps its best. -/
theorem leastGrowthFrom_stays (r : TileRect) (best least i : Nat) (es : List TileRect) (h : ∀ x ∈ es, least ≤ growth x r) :
    leastGrowthFrom r best least i es = best := by
  induction es generalizing i with
  | nil => rfl
  | cons e es ih =>
    simp only [List.mem_cons, forall_eq_or_imp] at h
    rw [leastGrowthFrom, if_neg (Nat.not_lt.mpr h.1), ih _ h.2]

/-- A search finds the first entry of least growth. -/
theorem leastGrowthFrom_moves (r e : TileRect) (before after : List TileRect) (best least i : Nat)
    (hl : growth e r < least) (hb : ∀ x ∈ before, growth e r < growth x r) (ha : ∀ x ∈ after, growth e r ≤ growth x r) :
    leastGrowthFrom r best least i (before ++ e :: after) = i + before.length := by
  induction before generalizing best least i with
  | nil => rw [List.nil_append, leastGrowthFrom, if_pos hl, leastGrowthFrom_stays _ _ _ _ _ ha]; rfl
  | cons x xs ih =>
    simp only [List.mem_cons, forall_eq_or_imp] at hb
    rw [List.cons_append, leastGrowthFrom]
    split
    · rw [ih _ _ _ hb.1 hb.2, List.length_cons]; omega
    · rw [ih _ _ _ hl hb.2, List.length_cons]; omega

/-- The entry that grows least is merged, the one at the lowest position of equals (R24). -/
theorem leastGrowth_eq (r e : TileRect) (before after : List TileRect)
    (hb : ∀ x ∈ before, growth e r < growth x r) (ha : ∀ x ∈ after, growth e r ≤ growth x r) :
    leastGrowth r (before ++ e :: after) = before.length := by
  cases before with
  | nil => exact leastGrowthFrom_stays _ _ _ _ _ ha
  | cons x xs =>
    simp only [List.mem_cons, forall_eq_or_imp] at hb
    rw [List.cons_append, leastGrowth, leastGrowthFrom_moves r e xs after _ _ _ hb.1 hb.2 ha, List.length_cons]; omega

/-- Away from the position a merge keeps what the box does not contain. -/
theorem mergeFrom_eq (box : TileRect) (es : List TileRect) (n p : Nat) (h : p < n ∨ n + es.length ≤ p) :
    ((es.zipIdx n).filterMap fun x => if x.2 = p then some box else if box.contains x.1 then none else some x.1) =
      es.filter fun x => !box.contains x := by
  induction es generalizing n with
  | nil => rfl
  | cons e es ih =>
    rw [List.zipIdx_cons, List.filterMap_cons, if_neg (by simp at h; simp; omega), ih (n + 1) (by simp at h; omega)]
    cases hb : box.contains e <;> simp [hb]

/-- A merge puts the box at the position and removes what it contains (R24). -/
theorem mergeAt_eq (box e : TileRect) (before after : List TileRect) :
    mergeAt box before.length (before ++ e :: after) =
      (before.filter fun x => !box.contains x) ++ box :: after.filter fun x => !box.contains x := by
  unfold mergeAt
  rw [List.zipIdx_append, List.filterMap_append, mergeFrom_eq _ _ _ _ (by omega)]
  rw [List.zipIdx_cons, List.filterMap_cons, if_pos (by simp), mergeFrom_eq _ _ _ _ (by omega)]

/-! ### Entries within the active area (R19) -/

open Sys2Proof.Safety in
/-- An insertion of tiles of the grid keeps every entry within it. -/
theorem DamageList.insert_within (cols rows : Nat) (r : TileRect) (l : DamageList) (hl : WithinArea cols rows l)
    (hr : r.c0 ≤ r.c1 ∧ r.c1 < cols ∧ r.r0 ≤ r.r1 ∧ r.r1 < rows) : WithinArea cols rows (l.insert cols rows r) := by
  have hp : ∀ (x : TileRect) es, (∀ e ∈ es, e.c0 ≤ e.c1 ∧ e.c1 < cols ∧ e.r0 ≤ e.r1 ∧ e.r1 < rows) →
      WithinArea cols rows (placed cols rows x es) := by
    intro x es h; unfold placed; split
    · intro e he; cases he
    · exact h
  unfold DamageList.insert
  split
  · exact hl
  split
  · exact hl
  dsimp only
  split
  · apply hp; intro e he
    simp only [List.mem_append, List.mem_filter, List.mem_singleton] at he
    rcases he with ⟨he, -⟩ | rfl
    · exact hl e he
    · exact hr
  · next hk =>
    generalize hkk : (l.entries.filter fun e => !r.contains e) = kept at hk ⊢
    have hkept : ∀ e ∈ kept, e.c0 ≤ e.c1 ∧ e.c1 < cols ∧ e.r0 ≤ e.r1 ∧ e.r1 < rows := by
      intro e he; rw [← hkk, List.mem_filter] at he; exact hl e he.1
    have hx : ∀ p, (kept.getD p r).c0 ≤ (kept.getD p r).c1 ∧ (kept.getD p r).c1 < cols ∧
        (kept.getD p r).r0 ≤ (kept.getD p r).r1 ∧ (kept.getD p r).r1 < rows := by
      intro p
      by_cases hp : p < kept.length
      · rw [List.getD_eq_getElem?_getD, List.getElem?_eq_getElem hp]; exact hkept _ (List.getElem_mem hp)
      · rw [List.getD_eq_getElem?_getD, List.getElem?_eq_none (by omega)]; exact hr
    apply hp; intro e he
    unfold mergeAt at he
    rw [List.mem_filterMap] at he
    obtain ⟨⟨a, i⟩, ha, he⟩ := he
    have ha := hkept _ (List.fst_mem_of_mem_zipIdx ha)
    dsimp only at he
    split at he
    · obtain rfl := Option.some.inj he
      have := hx (leastGrowth r kept)
      simp only [TileRect.box]; omega
    · split at he
      · cases he
      · obtain rfl := Option.some.inj he; exact ha

open Sys2Proof.Safety in
/-- What a rectangle of pixels inserts lies within the active area (R19, R22). -/
theorem DamageList.insertPixels_within (t : Timing) (x y : Int) (w h : Nat) (l : DamageList)
    (hl : WithinArea t.cols t.rows l) : WithinArea t.cols t.rows (l.insertPixels t x y w h) := by
  unfold DamageList.insertPixels
  split
  · exact hl
  · next r hr =>
    apply DamageList.insert_within _ _ _ _ hl
    unfold clipTiles at hr
    dsimp only at hr
    split at hr
    · next hc =>
      obtain rfl := Option.some.inj hr
      simp only [Timing.cols, Timing.rows]
      omega
    · cases hr

end Sys2Proof.Machine
end

