-- ==== Sys2Proof/Laws/Lines.lean ====
section
/-! SUPPORT. What a line start does: to the output at a line without an active line's business (R117 to R119), to the link
in NORMAL and in REPLAY (R133, R136). -/

namespace Sys2Proof.Machine

/-! ### The output's part -/

/-- A line start with the generator running: the line moves on, the output acts on it, and then the link (R117, R133). -/
theorem State.lineStart_live (s : State) (d : OutputId) (y : Nat) (order : List EpochReaction)
    (hl : (s.outputState d).live = true) (hn : (s.outputs.get d).nextLine = y) (out : State × Option HandedLine)
    (ho : out = (s.setOutput d { s.outputs.get d with line := y }).outputLine d y order) :
    s.lineStart d order = out.1.runLink d fun d fc l => l.lineStart d fc out.2 := by
  have ht : (s.outputState d).timed = true := by
    generalize s.outputState d = o at hl
    cases o <;> first | rfl | cases hl
  subst ho hn
  unfold State.lineStart
  dsimp only
  rw [if_pos ht, if_pos hl]

/-- At a line behind the active ones and the epoch line: LINE_MATCH, and on the fetch line the begin of a frame unless blank
is set (R118, R119). -/
theorem State.outputLine_blank (t : State) (d : OutputId) (y : Nat) (order : List EpochReaction)
    (h : (t.outputs.get d).active.height < y) :
    t.outputLine d y order = ({ t with
      outputs := if y = (t.outputs.get d).active.height + 1 ∧ (t.outputs.get d).blank = false then t.outputs.set d
          { t.outputs.get d with begun := true, fetch := some ⟨0, 0⟩, fifo := [] } else t.outputs
      events := if (t.outputs.get d).active.lineMatch = some y then t.events.raise ⟨.lineMatch, outputNumber d,
        (t.outputs.get d).frameCounter, 0, word y, word (outputStateCode (t.outputs.get d).state)⟩ else t.events },
      none) := by
  unfold State.outputLine
  dsimp only
  rw [if_neg (show ¬ y = (t.outputs.get d).active.height by omega),
    if_neg (show ¬ y < (t.outputs.get d).active.height by omega)]
  unfold State.lineMatchAt State.beginFetch
  dsimp only
  by_cases hm : (t.outputs.get d).active.lineMatch = some y
  · rw [if_pos hm, if_pos hm]
    by_cases hy : y = (t.outputs.get d).active.height + 1
    · rw [if_pos hy]
      by_cases hb : (t.outputs.get d).blank = true
      · simp [hb, State.raise, State.outputEvent, State.frameOf]
      · simp [hb, hy, State.raise, State.outputEvent, State.frameOf, State.setOutput]
    · simp [hy, State.raise, State.outputEvent, State.frameOf]
  · rw [if_neg hm, if_neg hm]
    by_cases hy : y = (t.outputs.get d).active.height + 1
    · rw [if_pos hy]
      by_cases hb : (t.outputs.get d).blank = true
      · simp [hb]
      · simp [hb, hy, State.setOutput]
    · simp [hy]

/-- At an active line: LINE_MATCH, and the line leaves the output (R118, R120). -/
theorem State.outputLine_active (t : State) (d : OutputId) (y : Nat) (order : List EpochReaction)
    (h : y < (t.outputs.get d).active.height) :
    t.outputLine d y order = ({ t with
      outputs := t.outputs.set d ((t.outputs.get d).afterHandOff y)
      inFlight := t.inFlight.map (Flight.discardScan d fun l => l == y)
      events := if (t.outputs.get d).active.lineMatch = some y then t.events.raise ⟨.lineMatch, outputNumber d,
        (t.outputs.get d).frameCounter, 0, word y, word (outputStateCode (t.outputs.get d).state)⟩ else t.events },
      some ((t.outputs.get d).handed y)) := by
  unfold State.outputLine
  dsimp only
  rw [if_neg (show ¬ y = (t.outputs.get d).active.height by omega),
    if_neg (show ¬ y = (t.outputs.get d).active.height + 1 by omega), if_pos h]
  unfold State.lineMatchAt State.handOff State.discardScans
  dsimp only
  split <;> simp [State.raise, State.outputEvent, State.frameOf, State.setOutput]

/-- A line start of a live output behind its epoch line is the link's outcome on the state whose line has moved on (R117 to
R119, R133). -/
theorem State.lineStart_blank (s : State) (d : OutputId) (y : Nat) (order : List EpochReaction)
    (hl : (s.outputState d).live = true) (hn : (s.outputs.get d).nextLine = y)
    (hh : (s.outputs.get d).active.height < y) :
    s.lineStart d order = State.applyLink { s with
        outputs := s.outputs.set d
          (if y = (s.outputs.get d).active.height + 1 ∧ (s.outputs.get d).blank = false then
            { s.outputs.get d with line := y, begun := true, fetch := some ⟨0, 0⟩, fifo := [] }
          else { s.outputs.get d with line := y })
        events := (if (s.outputs.get d).active.lineMatch = some y then s.events.raise ⟨.lineMatch, outputNumber d,
          (s.outputs.get d).frameCounter, 0, word y, word (outputStateCode (s.outputState d))⟩ else s.events) } d
      (Link.lineStart d (s.outputs.get d).frameCounter none (s.links.get d)) := by
  rw [s.lineStart_live d y order hl hn _ rfl, State.outputLine_blank _ d y order (by simpa using hh)]
  unfold State.runLink
  congr 1
  · simp only [State.setOutput, PerOutput.get_set_same, PerOutput.set_set]
    congr 1
    · split <;> rfl
  · simp only [State.frameOf, State.setOutput, PerOutput.get_set_same, PerOutput.set_set]
    split <;> simp

/-! ### The link's part -/

/-- A link that is not up takes no part in a line start (R133). -/
theorem Link.lineStart_down (d : OutputId) (fc : Count) (h : Option HandedLine) (l : Link) (hu : l.state.up = false) :
    l.lineStart d fc h = (l, []) := by simp [Link.lineStart, hu]

/-- A carrying link without an expired wait: the waits grow, a replay takes its step, and then the handed line (R133). -/
theorem Link.lineStart_carries (d : OutputId) (fc : Count) (h : Option HandedLine) (l : Link)
    (hs : l.state.carries = true)
    (hw : ∀ p, l.buffer.head? = some p → p.wait + 1 < l.settings.confirmTimeout) (out : LinkOut)
    (ho : out = Link.stepReplay d fc { l with buffer := l.buffer.map Packet.age }) :
    l.lineStart d fc h = (out.1.takeHanded h, out.2) := by
  have hu : l.state.up = true := by
    generalize l.state = st at hs
    cases st <;> first | rfl | cases hs
  have ht : l.stepTimer d fc = (l, []) := by
    unfold Link.stepTimer
    generalize l.state = st at hs
    cases st <;> first | rfl | cases hs
  have hb : l.stepWaits d fc = ({ l with buffer := l.buffer.map Packet.age }, []) := by
    unfold Link.stepWaits
    cases hl : l.buffer with
    | nil =>
      obtain ⟨⟩ := l
      simp only at hl
      subst hl
      simp
    | cons p ps =>
      rw [hl] at hw
      have := hw p rfl
      rw [if_pos ⟨hs, by simp⟩]
      dsimp only
      rw [if_neg]
      simp [Link.expired, Packet.age]
      exact this
  unfold Link.lineStart
  rw [if_pos hu, ht]
  simp only [linkThen, hb, List.nil_append, List.append_nil, ← ho]

/-- The packet at the pointer is sent again, its wait 0; the pointer moves on, or the replay is finished at its end (R136). -/
theorem Link.stepReplay_at (d : OutputId) (fc : Count) (l : Link) (p : Packet) (older newer : List Packet)
    (hs : l.state = .replay) (hb : l.buffer = older ++ p :: newer) (hp : l.pointer = some p.seq)
    (hne : ∀ x ∈ older ++ newer, x.seq ≠ p.seq) (x : Link)
    (hx : x = { l with
      buffer := older ++ { p with wait := 0 } :: newer
      sent := l.sent ++ [lineBytes p.seq p.line p.payload] }) :
    l.stepReplay d fc = if l.replayEnd = some p.seq then x.finishReplay d fc else ({ x with pointer := some (p.seq + 1) }, []) := by
  have hfind : (older ++ p :: newer).find? (fun x => x.seq == p.seq) = some p := by
    rw [List.find?_append, List.find?_eq_none.mpr]
    · simp
    · intro z hz
      simpa using hne z (List.mem_append_left _ hz)
  have keep : ∀ zs : List Packet, (∀ z ∈ zs, z.seq ≠ p.seq) →
      zs.map (fun z => if z.seq = p.seq then { z with wait := 0 } else z) = zs := by
    intro zs hz
    conv => rhs; rw [← List.map_id zs]
    exact List.map_congr_left fun z h => if_neg (hz z h)
  have hr : l.resend p.seq p = x := by
    subst hx
    unfold Link.resend
    rw [hb, List.map_append, List.map_cons, keep older fun z h => hne z (List.mem_append_left _ h),
      keep newer fun z h => hne z (List.mem_append_right _ h), if_pos rfl]
    rfl
  unfold Link.stepReplay
  rw [if_pos hs, hp]
  dsimp only
  rw [hb, hfind]
  dsimp only
  rw [hr]

/-- A handed line at a link that is up: sent in NORMAL or REPLAY with fewer than 8 packets buffered, skipped otherwise
(R133 steps 4 and 5). -/
theorem Link.takeHanded_up (x : Link) (h : Option HandedLine) (hx : x.state.up = true) :
    x.takeHanded h = match h with
      | none => x
      | some g => if (x.state = .normal ∨ x.state = .replay) ∧ x.buffer.length < 8 then
          { x with
            buffer := x.buffer ++ [⟨x.nextSeq, g.line, g.payload, 0⟩], nextSeq := x.nextSeq + 1
            sent := x.sent ++ [lineBytes x.nextSeq g.line g.payload] }
        else { x with counters := { x.counters with skipped := bump x.counters.skipped } } := by
  cases h with
  | none => rfl
  | some g =>
    have hc : (x.state.carries = true ∧ x.buffer.length < Config.retryPlaces) ↔
        ((x.state = .normal ∨ x.state = .replay) ∧ x.buffer.length < 8) := by
      cases x.state <;> simp [LinkState.carries, Config.retryPlaces]
    unfold Link.takeHanded Link.take Link.skipLine
    dsimp only
    by_cases k : (x.state = .normal ∨ x.state = .replay) ∧ x.buffer.length < 8
    · rw [if_pos k, if_pos (hc.mpr k)]
      rfl
    · rw [if_neg k, if_neg (fun g => k (hc.mp g)), if_pos hx]

/-- The bring-up timer below its limit runs on, and nothing else happens before the handed line (R129, R131, R133). -/
theorem Link.lineStart_bringUp (d : OutputId) (fc : Count) (h : Option HandedLine) (l : Link)
    (hs : l.state = .announcing ∧ l.timer + 1 < 64 ∨ l.state = .configuring ∧ l.timer + 1 < 1024) :
    l.lineStart d fc h = (Link.takeHanded h { l with timer := l.timer + 1 }, []) := by
  have hu : l.state = .announcing ∨ l.state = .configuring := hs.imp And.left And.left
  have hst : l.stepTimer d fc = ({ l with timer := l.timer + 1 }, []) := by
    rcases hs with ⟨e, k⟩ | ⟨e, k⟩
    · have : l.stepTimer d fc = l.announceTimer d fc := by unfold Link.stepTimer; split <;> simp_all
      rw [this]
      exact if_pos k
    · have : l.stepTimer d fc = l.configureTimer d fc := by unfold Link.stepTimer; split <;> simp_all
      rw [this]
      exact if_pos k
  have h1 : Link.stepWaits d fc { l with timer := l.timer + 1 } = ({ l with timer := l.timer + 1 }, []) := by
    unfold Link.stepWaits
    rw [if_neg]
    rintro ⟨g, -⟩
    rcases hu with e | e <;> (dsimp only at g; rw [e] at g; cases g)
  have h2 : Link.stepReplay d fc { l with timer := l.timer + 1 } = ({ l with timer := l.timer + 1 }, []) := by
    unfold Link.stepReplay
    rw [if_neg]
    rcases hu with e | e <;> (dsimp only; rw [e]; decide)
  unfold Link.lineStart
  rw [if_pos (by rcases hu with e | e <;> rw [e] <;> rfl), hst]
  simp only [linkThen, h1, h2, List.append_nil]

/-! ### Timeouts (R129, R131, R133, R135, R138) -/

/-- A re-initialization below its limit sends HALT and ANNOUNCE and announces from an empty buffer (R129, R138). -/
theorem Link.reinit_under (d : OutputId) (fc : Count) (l : Link) (h : l.reinitRun + 1 ≤ l.settings.reinitLimit)
    (hs : l.state ≠ .announcing) : (l.reinit d fc).1 = { l with
      state := .announcing, buffer := [], nextSeq := 0, pointer := none, replayEnd := none, replayRun := 0,
      stable := false, announceCount := 1, timer := 0, reinitRun := l.reinitRun + 1,
      counters := { l.counters with reinits := bump l.counters.reinits },
      sent := l.sent ++ [haltBytes] ++ [announceBytes] } := by
  unfold Link.reinit
  rw [if_neg (by omega)]
  unfold Link.announce Link.enter
  rw [if_neg (by exact hs)]
  rfl

/-- A re-initialization at its limit is an entry to ERROR (R138, R139). -/
theorem Link.reinit_limit (d : OutputId) (fc : Count) (l : Link) (h : l.settings.reinitLimit < l.reinitRun + 1) :
    (l.reinit d fc).1 = { l with
      state := .error, reason := some .reinitLimit, buffer := [], nextSeq := 0, pointer := none, replayEnd := none,
      stable := false, sent := l.sent ++ [haltBytes] } := by
  unfold Link.reinit
  rw [if_pos h]
  rfl

/-- Once step 1 or 2 has taken a link to ANNOUNCING or ERROR, the rest of the line start is the handed line (R133). -/
theorem Link.lineStart_after (d : OutputId) (fc : Count) (h : Option HandedLine) (l x : Link) (hu : l.state.up = true)
    (hx : (linkThen (l.stepTimer d fc) (·.stepWaits d fc)).1 = x) (hs : x.state ≠ .replay) :
    (l.lineStart d fc h).1 = x.takeHanded h := by
  subst hx
  unfold Link.lineStart
  rw [if_pos hu]
  show (Link.stepReplay d fc _).1.takeHanded h = _
  unfold Link.stepReplay
  rw [if_neg hs]

/-- The link at the line start of a CONFIGURING expiry, or of a confirm timeout beyond the replay limit, is as after a
re-initialization; its bring-up timer may have moved on before (R131, R133, R135). -/
theorem Link.lineStart_reinit (d : OutputId) (fc : Count) (h : Option HandedLine) (l : Link)
    (hc : l.state = .configuring ∧ 1023 ≤ l.timer ∨ l.state.carries = true ∧ l.settings.replayLimit < l.replayRun + 1 ∧
      ∃ p rest, l.buffer = p :: rest ∧ l.settings.confirmTimeout ≤ p.wait + 1) :
    ∃ (timer : Nat) (buffer : List Packet), (l.lineStart d fc h).1 =
      (Link.reinit d fc { l with timer := timer, buffer := buffer }).1.takeHanded h := by
  have hre : ∀ x : Link, (x.reinit d fc).1.state = .announcing ∨ (x.reinit d fc).1.state = .error := by
    intro x
    unfold Link.reinit Link.announce Link.enter
    split
    · exact Or.inr rfl
    · split
      · next h => exact Or.inl h
      · exact Or.inl rfl
  have stop : ∀ x : Link, (x.state = .announcing ∨ x.state = .error) → x.stepWaits d fc = (x, []) := by
    intro x hx
    unfold Link.stepWaits
    rw [if_neg]
    rintro ⟨g, -⟩
    rcases hx with e | e <;> rw [e] at g <;> cases g
  have fin : ∀ x : Link, (x.state = .announcing ∨ x.state = .error) → x.state ≠ .replay := by
    intro x hx e
    rcases hx with g | g <;> rw [e] at g <;> cases g
  rcases hc with ⟨hs, ht⟩ | ⟨hs, hr, p, rest, hb, hw⟩
  · refine ⟨l.timer + 1, l.buffer, Link.lineStart_after d fc h l _ (by rw [hs]; rfl) ?_ (fin _ (hre _))⟩
    have e : l.stepTimer d fc = Link.reinit d fc { l with timer := l.timer + 1 } := by
      unfold Link.stepTimer Link.configureTimer
      rw [hs]
      exact if_neg (by omega)
    show (Link.stepWaits d fc (l.stepTimer d fc).1).1 = _
    rw [e, stop _ (hre _)]
  · have hu : l.state.up = true := by
      generalize l.state = st at hs
      cases st <;> first | rfl | cases hs
    refine ⟨l.timer, l.buffer.map Packet.age, Link.lineStart_after d fc h l _ hu ?_ (fin _ (hre _))⟩
    have e : l.stepTimer d fc = (l, []) := by
      unfold Link.stepTimer
      generalize l.state = st at hs
      cases st <;> first | rfl | cases hs
    show (Link.stepWaits d fc (l.stepTimer d fc).1).1 = _
    rw [e]
    unfold Link.stepWaits
    rw [if_pos ⟨hs, by rw [hb]; exact List.cons_ne_nil _ _⟩]
    dsimp only
    rw [if_pos (by simp [Link.expired, hb, Packet.age, hw])]
    unfold Link.replayStart
    rw [if_pos hr]

/-- The link at the line start at which the oldest packet's wait reaches the confirm timeout, below the replay limit: the
replay starts and the oldest packet is sent again at once, a replay of one packet is finished with it, and then the handed
line (R133, R135, R136). -/
theorem Link.lineStart_replay (d : OutputId) (fc : Count) (h : Option HandedLine) (l : Link) (p : Packet) (rest : List Packet)
    (hs : l.state.carries = true) (hb : l.buffer = p :: rest) (hn : ∀ x ∈ rest, x.seq ≠ p.seq)
    (hw : l.settings.confirmTimeout ≤ p.wait + 1) (hr : l.replayRun + 1 ≤ l.settings.replayLimit) :
    (l.lineStart d fc h).1 = Link.takeHanded h { l with
      state := if rest = [] then .normal else .replay
      stable := false, replayRun := l.replayRun + 1
      counters := { l.counters with replays := bump l.counters.replays }
      buffer := { p with wait := 0 } :: rest.map fun q => { q with wait := q.wait + 1 }
      pointer := if rest = [] then none else some (p.seq + 1)
      replayEnd := if rest = [] then none else some (rest.getLastD p).seq
      sent := l.sent ++ [lineBytes p.seq p.line p.payload] } := by
  have hu : l.state.up = true := by
    generalize l.state = st at hs
    cases st <;> first | rfl | cases hs
  have e : l.stepTimer d fc = (l, []) := by
    unfold Link.stepTimer
    generalize l.state = st at hs
    cases st <;> first | rfl | cases hs
  have hlast : ((rest.map Packet.age).getLastD p.age).seq = (rest.getLastD p).seq := by
    rcases List.eq_nil_or_concat rest with rfl | ⟨xs, x, rfl⟩
    · rfl
    · simp [Packet.age, List.getLastD_eq_getLast?]
  have hne : rest ≠ [] → (rest.getLastD p).seq ≠ p.seq := by
    intro h
    rcases List.eq_nil_or_concat rest with rfl | ⟨xs, x, rfl⟩
    · exact absurd rfl h
    · simp only [List.concat_eq_append, List.getLastD_concat]
      exact hn x (by simp)
  obtain ⟨y, hy, hys⟩ : ∃ y : Link, (l.stepWaits d fc).1 = y ∧ y = { l with
      state := .replay, stable := false, replayRun := l.replayRun + 1
      counters := { l.counters with replays := bump l.counters.replays }
      buffer := p.age :: rest.map Packet.age
      pointer := some p.seq
      replayEnd := some (rest.getLastD p).seq } := by
    refine ⟨_, rfl, ?_⟩
    unfold Link.stepWaits
    rw [if_pos ⟨hs, by rw [hb]; exact List.cons_ne_nil _ _⟩]
    dsimp only
    rw [if_pos (by simp [Link.expired, hb, Packet.age, hw])]
    unfold Link.replayStart
    rw [if_neg (by simp; omega)]
    have hnew : ((l.buffer.map Packet.age).getLast?.map (·.seq)) = some (rest.getLastD p).seq := by
      rw [← hlast, hb, List.map_cons, List.getLast?_cons, List.getLastD_eq_getLast?]; rfl
    unfold Link.enter
    split
    · next h =>
      simp only [Link.oldest, Link.newest, hnew]
      rw [hb] ; simp only [List.map_cons, List.head?_cons, Option.map_some, Packet.age]
      obtain ⟨⟩ := l; simp only at h hb; subst h hb; rfl
    · simp only [Link.oldest, Link.newest, hnew]
      rw [hb]; simp only [List.map_cons, List.head?_cons, Option.map_some, Packet.age, Bool.false_and]
  unfold Link.lineStart
  rw [if_pos hu, e]
  show (Link.stepReplay d fc (l.stepWaits d fc).1).1.takeHanded h = _
  rw [hy]
  have hp := Link.stepReplay_at d fc y p.age [] (rest.map Packet.age) (by rw [hys]) (by rw [hys]; rfl) (by rw [hys]; rfl)
    (by
      intro x hx
      obtain ⟨z, hz, rfl⟩ := List.mem_map.mp (by simpa using hx)
      exact hn z hz) _ rfl
  rw [hp, hys]
  by_cases h0 : rest = []
  · subst h0
    rw [if_pos (by rfl)]
    rfl
  · rw [if_neg (by simpa [Packet.age] using hne h0)]
    simp only [h0, if_false]
    rfl

/-- What a live output does at a line other than its epoch line (R118 to R120). -/
theorem State.outputLine_rest (s : State) (d : OutputId) (y : Nat) (order : List EpochReaction)
    (he : y ≠ (s.outputs.get d).active.height) :
    ∃ (o : Output) (flights : List Flight) (w : EventWriter) (h : Option HandedLine),
      (s.setOutput d { s.outputs.get d with line := y }).outputLine d y order =
        ({ s with outputs := s.outputs.set d o, inFlight := flights, events := w }, h) ∧
      o.line = y ∧ o.state = s.outputState d ∧
      h = (if y < (s.outputs.get d).active.height then some ((s.outputs.get d).handed y) else none) ∧
      ((s.outputs.get d).active.height + 1 < y → o = { s.outputs.get d with line := y }) := by
  rcases Nat.lt_or_ge (s.outputs.get d).active.height y with g | g
  · rw [State.outputLine_blank _ d y order (by simpa using g)]
    simp only [State.setOutput, PerOutput.get_set_same, PerOutput.set_set]
    by_cases hb : y = (s.outputs.get d).active.height + 1 ∧ (s.outputs.get d).blank = false
    · rw [if_pos hb]
      exact ⟨_, _, _, none, rfl, rfl, rfl, (if_neg (by omega)).symm, fun h => by omega⟩
    · rw [if_neg hb]
      exact ⟨_, _, _, none, rfl, rfl, rfl, (if_neg (by omega)).symm, fun _ => rfl⟩
  · rw [State.outputLine_active _ d y order (by simp; omega)]
    simp only [State.setOutput, PerOutput.get_set_same, PerOutput.set_set]
    exact ⟨_, _, _, some _, rfl, rfl, rfl, (if_pos (by omega)).symm, fun h => by omega⟩

/-- What a line start that declares no epoch does before the link's steps: the line moves on, at an active line of a live
output a line is handed, and the rest of the part but the event writer and the reads in flight stays (R117 to R120). -/
theorem State.lineStart_split (s : State) (d : OutputId) (order : List EpochReaction) (y : Nat)
    (ht : (s.outputState d).timed = true) (hy : y = (s.outputs.get d).nextLine)
    (he : (s.outputState d).live = true → y ≠ (s.outputs.get d).active.height) :
    ∃ (o : Output) (flights : List Flight) (w : EventWriter) (fc : Count) (h : Option HandedLine),
      s.lineStart d order = State.applyLink { s with outputs := s.outputs.set d o, inFlight := flights, events := w } d
        (Link.lineStart d fc h (s.links.get d)) ∧
      o.line = y ∧ o.state = s.outputState d ∧
      h = (if (s.outputState d).live = true ∧ y < (s.outputs.get d).active.height then
        some ((s.outputs.get d).handed y) else none) ∧
      ((s.outputState d).live = false ∨ (s.outputs.get d).active.height + 1 < y →
        o = { s.outputs.get d with line := y }) := by
  cases hl : (s.outputState d).live with
  | false =>
    refine ⟨{ s.outputs.get d with line := y }, s.inFlight, s.events, s.frameOf d, none, ?_, rfl, rfl, (if_neg (by simp)).symm, fun _ => rfl⟩
    unfold State.lineStart
    dsimp only
    rw [if_pos ht, if_neg (by simp [hl])]
    subst hy
    simp [State.runLink, State.frameOf, State.setOutput]
  | true =>
    obtain ⟨o, fl, w, h, hs, h1, h2, h3, h4⟩ := State.outputLine_rest s d y order (he hl)
    rw [s.lineStart_live d y order hl hy.symm _ rfl, hs]
    exact ⟨o, fl, w, _, h, rfl, h1, h2, by rw [h3]; simp, fun g => h4 (g.resolve_left (by simp))⟩

/-! ### Pixels that return (R119) -/

/-- Pixel i of a line after returned pixels are put in from pixel p on. -/
theorem putPixels_at (p : Nat) (cs : List Rgb) (pixels : List (Option Rgb)) (i : Nat) (hi : i < pixels.length) :
    (putPixels p cs pixels)[i]? =
      some (if p ≤ i ∧ i < p + cs.length then some (cs.getD (i - p) ⟨0, 0, 0⟩) else pixels[i]) := by
  simp [putPixels, List.getElem?_eq_getElem hi]

/-- Pixel i of returned beats is the low or the high one of beat i / 2. -/
theorem beatColours_at (data : List BeatData) (i : Nat) (w : BeatData) (h : data[i / 2]? = some w) :
    (beatColours data)[i]? = some (beatPixel w (decide (i % 2 = 1))).rgb := by
  induction data generalizing i with
  | nil => simp at h
  | cons a as ih =>
    match i with
    | 0 => simp at h; simp [beatColours, h]
    | 1 => simp at h; simp [beatColours, h]
    | i + 2 =>
      have : (i + 2) / 2 = i / 2 + 1 := by omega
      rw [this, List.getElem?_cons_succ] at h
      have := ih i h
      simp only [beatColours, List.flatMap_cons] at this ⊢
      rw [List.getElem?_append_right (by simp)]
      simpa using this

/-- Every beat holds two pixels. -/
theorem beatColours_length (data : List BeatData) : (beatColours data).length = 2 * data.length := by
  induction data with
  | nil => rfl
  | cons a as ih => simp only [beatColours, List.flatMap_cons] at ih ⊢; simp [ih]; omega

/-! ### The stable flag (R141): the epoch sets it, and no other rule of the link does -/

/-- A state that a link enters sets no stable flag. -/
theorem Link.enter_stable (d : OutputId) (fc : Count) (st : LinkState) (x : Link)
    (h : (Link.enter d fc st x).1.stable = true) : x.stable = true := by
  unfold Link.enter at h
  split at h
  · exact h
  · simp at h; exact h.1

/-- A re-initialization clears it, in ANNOUNCING or in ERROR. -/
theorem Link.reinit_stable (d : OutputId) (fc : Count) (x : Link) : (x.reinit d fc).1.stable = false := by
  unfold Link.reinit
  split
  · rfl
  · unfold Link.announce Link.enter
    split <;> rfl

/-- A replay that starts clears it. -/
theorem Link.replayStart_stable (d : OutputId) (fc : Count) (x : Link) : (x.replayStart d fc).1.stable = false := by
  unfold Link.replayStart
  split
  · exact x.reinit_stable d fc
  · unfold Link.enter
    split <;> rfl

/-- The end of a replay sets none. -/
theorem Link.finishReplay_stable (d : OutputId) (fc : Count) (x : Link) (h : (x.finishReplay d fc).1.stable = true) :
    x.stable = true := Link.enter_stable d fc .normal { x with pointer := none, replayEnd := none } h

/-- The bring-up timers set none. -/
theorem Link.stepTimer_stable (d : OutputId) (fc : Count) (x : Link) (h : (x.stepTimer d fc).1.stable = true) :
    x.stable = true := by
  revert h
  unfold Link.stepTimer
  split
  · unfold Link.announceTimer; split
    · exact id
    · split
      · exact id
      · intro h; cases h
  · unfold Link.configureTimer; split
    · exact id
    · rw [Link.reinit_stable]; intro h; cases h
  all_goals exact id

/-- The waits of the packets set none. -/
theorem Link.stepWaits_stable (d : OutputId) (fc : Count) (x : Link) (h : (x.stepWaits d fc).1.stable = true) :
    x.stable = true := by
  revert h
  unfold Link.stepWaits
  split
  · dsimp only; split
    · rw [Link.replayStart_stable]; intro h; cases h
    · exact id
  · exact id

/-- The step of a replay sets none. -/
theorem Link.stepReplay_stable (d : OutputId) (fc : Count) (x : Link) (h : (x.stepReplay d fc).1.stable = true) :
    x.stable = true := by
  revert h
  unfold Link.stepReplay
  split
  · split
    · exact id
    · split
      · exact id
      · split
        · intro h; have := Link.finishReplay_stable _ _ _ h; exact this
        · exact id
  · exact id

/-- A handed line sets none. -/
theorem Link.takeHanded_stable (x : Link) (h : Option HandedLine) : (x.takeHanded h).stable = x.stable := by
  unfold Link.takeHanded Link.take Link.skipLine
  split
  · rfl
  · split
    · rfl
    · split <;> rfl

/-- A line start sets none (R133). -/
theorem Link.lineStart_stable (d : OutputId) (fc : Count) (l : Link) (h : Option HandedLine)
    (hs : (l.lineStart d fc h).1.stable = true) : l.stable = true := by
  unfold Link.lineStart at hs
  split at hs
  · have := Link.takeHanded_stable
    exact Link.stepTimer_stable d fc _ (Link.stepWaits_stable d fc _
      (Link.stepReplay_stable d fc _ ((this _ _).symm.trans hs)))
  · exact hs

/-- A CONFIRM sets none (R134). -/
theorem Link.confirm_stable (d : OutputId) (fc : Count) (l : Link) (q : Byte) (h : (l.confirm d fc q).1.stable = true) :
    l.stable = true := by
  revert h
  unfold Link.confirm
  split
  · split
    · dsimp only; split
      · unfold Link.trimReplay; split
        · exact id
        · intro h; have := Link.finishReplay_stable _ _ _ h; exact this
      · exact id
    · exact id
  · exact id

/-- A REPLAY_FROM sets none (R135). -/
theorem Link.replayFrom_stable (d : OutputId) (fc : Count) (l : Link) (q : Byte)
    (h : (l.replayFrom d fc q).1.stable = true) : l.stable = true := by
  revert h
  unfold Link.replayFrom
  split
  · split
    · rw [Link.replayStart_stable]; intro h; cases h
    · exact id
  · exact id

/-- A PANEL_INFO sets none (R130). -/
theorem Link.panelInfo_stable (d : OutputId) (fc : Count) (l : Link) (t : Timing) (w h c : Nat)
    (hs : (l.panelInfo d fc t w h c).1.stable = true) : l.stable = true := by
  revert hs
  unfold Link.panelInfo
  split
  · dsimp only; split
    · intro h; cases h
    · split
      · intro h; cases h
      · split
        · intro h; cases h
        · intro h; have := Link.enter_stable _ _ _ _ h; exact this
  · exact id

end Sys2Proof.Machine
end

