-- ==== Sys2Proof/Laws/Epochs.lean ====
section
/-! SUPPORT. What a frame epoch does: the commit and its damage (R46), the damage at a change of the SHOWN slot (R31), each
reaction taken once, and the link's own steps before the epoch or after it (R117, R141). -/

namespace Sys2Proof.Machine

/-! ### The commit (R30, R46) -/

/-- The set of layers as a number: layer i is worth 2 to the power i (R46 step 5). -/
theorem layerSet_eq (is : List Nat) : layerSet is = (is.map (2 ^ ·)).sum := by
  have : ∀ n, is.foldl (fun n i => n + 2 ^ i) n = n + (is.map (2 ^ ·)).sum := by
    induction is with
    | nil => intro n; rfl
    | cons i is ih => intro n; rw [List.foldl_cons, ih, List.map_cons, List.sum_cons]; omega
  rw [layerSet, this, Nat.zero_add]

/-- The rectangle of an enabled layer record is handed to the list, none otherwise (R30). -/
theorem State.damageIfEnabled_eq (s : State) (d : OutputId) (l : Option Layer) :
    s.damageIfEnabled d l = (((l.toList.filter (·.enabled)).map fun l => (l.dx, l.dy, l.sw * l.mag, l.sh * l.mag)).foldl
      (fun t q => t.damagePixels d q.1 q.2.1 q.2.2.1 q.2.2.2) s) := by
  cases l with
  | none => rfl
  | some l => cases h : l.enabled <;> simp [State.damageIfEnabled, h, State.damageLayer]

/-- The damage of changed layers: for each its old rectangle and then its new one (R46 step 3). -/
theorem State.damageChanges_eq (s : State) (d : OutputId) (t : LayerTables) (is : List Nat) :
    is.foldl (fun u i => u.damageChange d t i) s = (is.flatMap fun i =>
      (((t.active[i]?.toList ++ t.staged[i]?.toList).filter (·.enabled)).map fun l =>
        (l.dx, l.dy, l.sw * l.mag, l.sh * l.mag))).foldl (fun t q => t.damagePixels d q.1 q.2.1 q.2.2.1 q.2.2.2) s := by
  induction is generalizing s with
  | nil => rfl
  | cons i is ih =>
    rw [List.foldl_cons, ih, List.flatMap_cons, List.foldl_append, List.filter_append, List.map_append, List.foldl_append]
    unfold State.damageChange
    rw [State.damageIfEnabled_eq, State.damageIfEnabled_eq]

/-- The layer tables' reaction with a commit pending (R46, R47). -/
theorem State.layerEpoch_eq (s : State) (d : OutputId) (t : LayerTables) (changed : List Nat)
    (rects : List (Int × Int × Nat × Nat)) (ht : t = s.layers.get d)
    (hc : changed = ((List.range 8).filter fun i => decide (t.active[i]? ≠ t.staged[i]?)))
    (hr : rects = changed.flatMap fun i => ((t.active[i]?.toList ++ t.staged[i]?.toList).filter (·.enabled)).map fun l =>
      (l.dx, l.dy, l.sw * l.mag, l.sh * l.mag)) (h : t.commitPending = true) :
    s.layerEpoch d = ({ s with
      layers := s.layers.set d { t with active := t.staged, commitPending := false }
      damage := s.damage.set d (if (s.outputState d).live then
          ⟨rects.foldl (fun (l : DamageList) (q : Int × Int × Nat × Nat) =>
              l.insertPixels (s.outputs.get d).active q.1 q.2.1 q.2.2.1 q.2.2.2) (s.damage.get d).list,
            (s.damage.get d).previous⟩
        else s.damage.get d) }).raise
      ⟨.commitApplied, outputNumber d, (s.outputs.get d).frameCounter, 0, word changed.length,
        word (changed.map (2 ^ ·)).sum⟩ := by
  subst ht hc hr
  unfold State.layerEpoch
  dsimp only
  rw [if_pos h, State.damageChanges_eq, State.damagePixels_all, layerSet_eq]
  rfl

/-- Without a commit pending the layer tables do nothing (R46). -/
theorem State.layerEpoch_none (s : State) (d : OutputId) (h : (s.layers.get d).commitPending = false) :
    s.layerEpoch d = s := by simp [State.layerEpoch, h]

/-! ### The SHOWN slot (R31) -/

/-- A rule of a stream changes the stream and the event writer alone. -/
theorem State.updateStream_rest (s : State) (k : StreamId) (out : Stream × List Event) :
    ∃ streams events, s.updateStream k out = { s with streams := streams, events := events } := by
  unfold State.updateStream
  split <;> exact ⟨_, _, rfl⟩

/-- The damage of the layers that show stream k, in each live output's list (R31). -/
theorem State.damageStream_get (s : State) (k : StreamId) (d : OutputId) :
    (s.damageStream k).damage.get d = if (s.outputState d).live then
        ⟨(((s.layers.get d).active.toList.filter fun l =>
            l.enabled && (l.content == .stream && l.index == streamNumber k)).map fun l =>
              (l.dx, l.dy, l.sw * l.mag, l.sh * l.mag)).foldl
            (fun l q => l.insertPixels (s.outputs.get d).active q.1 q.2.1 q.2.2.1 q.2.2.2) (s.damage.get d).list,
          (s.damage.get d).previous⟩
      else s.damage.get d := by
  unfold State.damageStream
  rw [State.damageLayers_eq s _ _ (fun _ => rfl)]
  cases d <;> rfl

/-- It changes the damage records alone. -/
theorem State.damageStream_rest (s : State) (k : StreamId) : ∃ damage, s.damageStream k = { s with damage := damage } := by
  unfold State.damageStream
  rw [State.damageLayers_eq s _ _ (fun _ => rfl)]
  exact ⟨_, rfl⟩

/-- A stream's reaction to an epoch changes streams, damage and the event writer alone (R31, R91, R92). -/
theorem State.streamEpoch_rest (s : State) (d : OutputId) (k : StreamId) :
    ∃ streams damage events, s.streamEpoch d k = { s with streams := streams, damage := damage, events := events } := by
  unfold State.streamEpoch
  split
  · dsimp only
    obtain ⟨str, ev, h⟩ := s.updateStream_rest k (((s.streams.get k).epoch k (s.pacingFrame k)).stream,
      ((s.streams.get k).epoch k (s.pacingFrame k)).events)
    split
    · obtain ⟨dm, h'⟩ := State.damageStream_rest (s.updateStream k (((s.streams.get k).epoch k (s.pacingFrame k)).stream,
        ((s.streams.get k).epoch k (s.pacingFrame k)).events)) k
      exact ⟨str, dm, ev, by rw [h', h]⟩
    · exact ⟨str, s.damage, ev, h⟩
  · exact ⟨_, _, _, rfl⟩

/-- The layer tables of d after an epoch (R46). -/
def LayerTables.applied (t : LayerTables) : LayerTables :=
  { t with active := if t.commitPending then t.staged else t.active, commitPending := false }

/-- The layer tables' reaction changes the layer tables, damage and the event writer alone (R46). -/
theorem State.layerEpoch_rest (s : State) (d : OutputId) :
    ∃ damage events, s.layerEpoch d = { s with
      layers := s.layers.set d (s.layers.get d).applied, damage := damage, events := events } := by
  cases h : (s.layers.get d).commitPending
  · have ht : (s.layers.get d).applied = s.layers.get d := by
      generalize s.layers.get d = t at h ⊢
      obtain ⟨⟩ := t
      simp only at h
      subst h
      rfl
    rw [ht, PerOutput.set_get, State.layerEpoch_none s d h]
    exact ⟨s.damage, s.events, rfl⟩
  · have ht : (s.layers.get d).applied = { s.layers.get d with active := (s.layers.get d).staged, commitPending := false } := by
      simp [LayerTables.applied, h]
    rw [ht, s.layerEpoch_eq d _ _ _ rfl rfl rfl h]
    exact ⟨_, _, rfl⟩

/-- The compositor's reaction changes its own records, damage, holds, the blank flag of d and the event writer alone
(R58). -/
theorem State.compositorEpoch_rest (s : State) (d : OutputId) :
    ∃ damage comp streams blank events, s.compositorEpoch d = { s with
      damage := damage, comp := comp, streams := streams
      outputs := s.outputs.set d { s.outputs.get d with blank := blank }, events := events } := by
  have hs : s.outputs.set d { s.outputs.get d with blank := (s.outputs.get d).blank } = s.outputs := PerOutput.set_get _ _
  have start : ∀ u : State, ∃ damage comp streams,
      u.startComposition d = { u with damage := damage, comp := comp, streams := streams } := by
    intro u
    obtain ⟨xs, h, -⟩ := u.startComposition_eq d
    exact ⟨_, _, _, h⟩
  by_cases hr : s.outputState d = .running
  · cases hc : (s.comp.get d).composition with
    | some k =>
      have h : ∃ comp events, s.flipMissed d k = { s with comp := comp, events := events } := ⟨_, _, rfl⟩
      obtain ⟨cp, ev, h⟩ := h
      refine ⟨s.damage, cp, s.streams, (s.outputs.get d).blank, ev, ?_⟩
      rw [hs]
      unfold State.compositorEpoch
      rw [if_pos hr, hc]
      exact h
    | none =>
      rw [s.compositorEpoch_idle d hr hc]
      have flip : ∃ comp blank events, s.flipIfAwaiting d = { s with
          comp := comp, outputs := s.outputs.set d { s.outputs.get d with blank := blank }, events := events } := by
        unfold State.flipIfAwaiting
        split
        · exact ⟨_, false, _, rfl⟩
        · exact ⟨s.comp, (s.outputs.get d).blank, s.events, by rw [hs]⟩
      obtain ⟨comp, blank, events, hf⟩ := flip
      split
      · obtain ⟨dm, cp, st, h⟩ := start (s.flipIfAwaiting d)
        exact ⟨dm, cp, st, blank, events, by rw [h, hf]⟩
      · exact ⟨s.damage, comp, s.streams, blank, events, hf⟩
  · refine ⟨s.damage, s.comp, s.streams, (s.outputs.get d).blank, s.events, ?_⟩
    rw [hs]
    simp [State.compositorEpoch, hr]

/-! ### Each reaction once (R117) -/

theorem mem_firstOfEach (r : EpochReaction) (rs : List EpochReaction) : r ∈ firstOfEach rs ↔ r ∈ rs := by
  induction rs with
  | nil => rfl
  | cons x xs ih =>
    simp only [firstOfEach, List.mem_cons, List.mem_filter, ih, bne_iff_ne, ne_eq]
    by_cases h : r = x <;> simp [h]

/-- No reaction is taken twice. -/
theorem firstOfEach_nodup (rs : List EpochReaction) : (firstOfEach rs).Nodup := by
  induction rs with
  | nil => exact List.nodup_nil
  | cons x xs ih =>
    refine List.nodup_cons.mpr ⟨?_, ih.filter _⟩
    simp [List.mem_filter]

/-- What one reaction may change (R46, R58, R91, R92, R141). -/
theorem State.react_rest (s : State) (d : OutputId) (r : EpochReaction) :
    ∃ damage comp streams blank events, s.react d r = { s with
      damage := damage, comp := comp, streams := streams
      outputs := s.outputs.set d { s.outputs.get d with blank := blank }, events := events
      layers := if r = .layerTables then s.layers.set d (s.layers.get d).applied else s.layers
      links := if r = .link then s.links.set d (s.links.get d).epoch else s.links } := by
  have hs : s.outputs.set d { s.outputs.get d with blank := (s.outputs.get d).blank } = s.outputs := PerOutput.set_get _ _
  cases r with
  | compositor =>
    obtain ⟨dm, cp, st, bl, ev, h⟩ := s.compositorEpoch_rest d
    exact ⟨dm, cp, st, bl, ev, h⟩
  | layerTables =>
    obtain ⟨dm, ev, h⟩ := s.layerEpoch_rest d
    refine ⟨dm, s.comp, s.streams, (s.outputs.get d).blank, ev, ?_⟩
    rw [hs]
    exact h
  | stream k =>
    obtain ⟨st, dm, ev, h⟩ := s.streamEpoch_rest d k
    refine ⟨dm, s.comp, st, (s.outputs.get d).blank, ev, ?_⟩
    rw [hs]
    exact h
  | link =>
    refine ⟨s.damage, s.comp, s.streams, (s.outputs.get d).blank, s.events, ?_⟩
    rw [hs]
    rfl
  | linkSteps =>
    refine ⟨s.damage, s.comp, s.streams, (s.outputs.get d).blank, s.events, ?_⟩
    rw [hs]
    rfl

/-- What a list of reactions without repeats may change: the commit and the link's check happen once if they are in it. -/
theorem State.reactions_rest (d : OutputId) (rs : List EpochReaction) (hn : rs.Nodup) (s : State) :
    ∃ damage comp streams blank events, rs.foldl (fun t r => t.react d r) s = { s with
      damage := damage, comp := comp, streams := streams
      outputs := s.outputs.set d { s.outputs.get d with blank := blank }, events := events
      layers := if .layerTables ∈ rs then s.layers.set d (s.layers.get d).applied else s.layers
      links := if .link ∈ rs then s.links.set d (s.links.get d).epoch else s.links } := by
  induction rs generalizing s with
  | nil =>
    refine ⟨s.damage, s.comp, s.streams, (s.outputs.get d).blank, s.events, ?_⟩
    have hs : s.outputs.set d { s.outputs.get d with blank := (s.outputs.get d).blank } = s.outputs := PerOutput.set_get _ _
    rw [hs]
    rfl
  | cons r rs ih =>
    obtain ⟨hr, hn⟩ := List.nodup_cons.mp hn
    obtain ⟨dm, cp, st, bl, ev, h⟩ := s.react_rest d r
    obtain ⟨dm', cp', st', bl', ev', h'⟩ := ih hn (s.react d r)
    refine ⟨dm', cp', st', bl', ev', ?_⟩
    rw [List.foldl_cons, h', h]
    have hl : (if EpochReaction.layerTables ∈ r :: rs then s.layers.set d (s.layers.get d).applied else s.layers) =
        (if EpochReaction.layerTables ∈ rs then
          (if r = .layerTables then s.layers.set d (s.layers.get d).applied else s.layers).set d
            ((if r = .layerTables then s.layers.set d (s.layers.get d).applied else s.layers).get d).applied
        else if r = .layerTables then s.layers.set d (s.layers.get d).applied else s.layers) := by
      by_cases e : r = .layerTables
      · subst e; simp [hr]
      · simp [e, Ne.symm e]
    have hk : (if EpochReaction.link ∈ r :: rs then s.links.set d (s.links.get d).epoch else s.links) =
        (if EpochReaction.link ∈ rs then
          (if r = .link then s.links.set d (s.links.get d).epoch else s.links).set d
            ((if r = .link then s.links.set d (s.links.get d).epoch else s.links).get d).epoch
        else if r = .link then s.links.set d (s.links.get d).epoch else s.links) := by
      by_cases e : r = .link
      · subst e; simp [hr]
      · simp [e, Ne.symm e]
    rw [hl, hk]
    simp only [PerOutput.get_set_same, PerOutput.set_set]

/-- What a frame epoch of d does, whatever the order of the reactions: the counts of R117, the commit (R46) and the link's
check (R141), each once. -/
theorem State.frameEpoch_rest (s : State) (d : OutputId) (order : List EpochReaction) :
    ∃ damage comp streams blank events, s.frameEpoch d order = { s with
      damage := damage, comp := comp, streams := streams, events := events
      outputs := s.outputs.set d { s.outputs.get d with
        frameCounter := (s.outputs.get d).frameCounter + 1, frameUnderflows := 0, blank := blank }
      layers := s.layers.set d (s.layers.get d).applied
      links := s.links.set d (s.links.get d).epoch } := by
  have hd : ∃ events, s.declareEpoch d = { s with
      outputs := s.outputs.set d { s.outputs.get d with
        frameCounter := (s.outputs.get d).frameCounter + 1, frameUnderflows := 0 }, events := events } := by
    unfold State.declareEpoch State.scanUnderflow State.epochEvent
    dsimp only
    split <;> exact ⟨_, by simp [State.setOutput, State.markOutput, State.mark, State.raise]; rfl⟩
  obtain ⟨ev, hd⟩ := hd
  obtain ⟨dm, cp, st, bl, ev', h⟩ := State.reactions_rest d (reactionOrder order) (firstOfEach_nodup _) (s.declareEpoch d)
  have hm : ∀ r ∈ defaultOrder, r ∈ reactionOrder order := by
    intro r hr
    exact (mem_firstOfEach _ _).mpr (List.mem_append_right _ hr)
  rw [if_pos (hm _ (by decide)), if_pos (hm _ (by decide)), hd] at h
  refine ⟨dm, cp, st, bl, ev', ?_⟩
  unfold State.frameEpoch
  rw [hd, h]
  simp only [PerOutput.get_set_same, PerOutput.set_set]

/-! ### The link's outcome (R114, R139) -/

/-- An abandonment leaves d without a composition and with no flip awaited; it changes the tile in hand, streams and the
event writer besides (R73). -/
theorem State.abandon_rest (s : State) (d : OutputId) :
    ∃ job streams events, s.abandon d = { s with
      comp := s.comp.set d { s.comp.get d with composition := none, awaiting := false, completedSize := 0 }
      job := job, streams := streams, events := events } := by
  have release : ∀ (c : PerOutput CompOutput) (job : Option Job) (names : List SlotName), ∃ hand streams events,
      State.releaseHolds { s with comp := c, job := job } d names =
        { s with comp := c, job := hand, streams := streams, events := events } := by
    intro c job names
    obtain ⟨xs, w, h⟩ := State.releaseHolds_rest { s with comp := c, job := job } d names
    exact ⟨job, xs, w, h⟩
  unfold State.abandon
  dsimp only
  cases hc : (s.comp.get d).composition with
  | none =>
    dsimp only
    split
    · exact ⟨s.job, s.streams, s.events, rfl⟩
    · split
      · exact ⟨_, s.streams, s.events, rfl⟩
      · exact ⟨s.job, s.streams, s.events, rfl⟩
  | some k =>
    dsimp only
    split
    · exact release _ s.job k.holds
    · split
      · exact release _ _ k.holds
      · exact release _ s.job k.holds

/-- An entry into a state changes the output's state and the event writer (R116). -/
theorem State.enterOutput_rest (s : State) (d : OutputId) (st : OutputState) (reason : Nat) :
    ∃ events, s.enterOutput d st reason = { s with
      outputs := s.outputs.set d { s.outputs.get d with state := st }, events := events } := ⟨_, rfl⟩

/-- A stopped fetcher: the FIFO empty, no frame begun, no fetch position (R113). -/
theorem State.stopFetcher_rest (s : State) (d : OutputId) : ∃ inFlight, s.stopFetcher d = { s with
    outputs := s.outputs.set d { s.outputs.get d with fifo := [], begun := false, fetch := none }
    inFlight := inFlight } := ⟨_, rfl⟩

/-- A link ERROR takes a TRAINING, RUNNING or FROZEN output to FAULT (R114). -/
theorem State.outputFault_rest (s : State) (d : OutputId) (h : (s.outputState d).timed = true) :
    ∃ job streams inFlight events, s.outputFault d = { s with
      outputs := s.outputs.set d { s.outputs.get d with
        state := .fault, fifo := [], begun := false, fetch := none, resume := none }
      comp := s.comp.set d { s.comp.get d with composition := none, awaiting := false, completedSize := 0 }
      job := job, streams := streams, inFlight := inFlight, events := events } := by
  unfold State.outputFault
  rw [if_pos h]
  obtain ⟨job, xs, w, ha⟩ := (s.stopFetcher d).abandon_rest d
  obtain ⟨fl, hs⟩ := s.stopFetcher_rest d
  rw [hs] at ha
  dsimp only
  rw [hs, ha]
  obtain ⟨ev, he⟩ := State.enterOutput_rest { s with
    outputs := s.outputs.set d { s.outputs.get d with fifo := [], begun := false, fetch := none, resume := none }
    inFlight := fl
    comp := s.comp.set d { s.comp.get d with composition := none, awaiting := false, completedSize := 0 }
    job := job, streams := xs, events := w } d .fault
      (linkReasonCode (s.links.get d).reason)
  simp only [PerOutput.get_set_same, PerOutput.set_set] at he
  refine ⟨job, xs, fl, ev, ?_⟩
  simp only [State.setOutput, PerOutput.get_set_same, PerOutput.set_set]
  exact he

/-- A link's outcome that is no entry to ERROR changes the link and the event writer alone (R123, R127). -/
theorem State.applyLink_rest (s : State) (d : OutputId) (out : LinkOut)
    (h : out.1.state = .error → (s.links.get d).state = .error) :
    ∃ events, s.applyLink d out = { s with links := s.links.set d out.1, events := events } := by
  unfold State.applyLink
  dsimp only
  rw [if_neg (fun g => g.2 (h g.1))]
  split <;> exact ⟨_, rfl⟩

/-- An entry to ERROR takes a TRAINING, RUNNING or FROZEN output to FAULT with it (R114, R139). -/
theorem State.applyLink_error (s : State) (d : OutputId) (out : LinkOut) (h : out.1.state = .error)
    (hs : (s.links.get d).state ≠ .error) (ht : (s.outputState d).timed = true) :
    ∃ job streams inFlight events, s.applyLink d out = { s with
      links := s.links.set d out.1
      outputs := s.outputs.set d { s.outputs.get d with
        state := .fault, fifo := [], begun := false, fetch := none, resume := none }
      comp := s.comp.set d { s.comp.get d with composition := none, awaiting := false, completedSize := 0 }
      job := job, streams := streams, inFlight := inFlight, events := events } := by
  unfold State.applyLink
  dsimp only
  rw [if_pos ⟨h, hs⟩]
  obtain ⟨ev, hu⟩ : ∃ events, (if out.2.isEmpty then (s.setLink d out.1).raiseAll out.2
      else ((s.setLink d out.1).raiseAll out.2).markOutput d) =
        { s with links := s.links.set d out.1, events := events } := by
    split <;> exact ⟨_, rfl⟩
  rw [hu]
  obtain ⟨job, xs, fl, w, hf⟩ := State.outputFault_rest { s with links := s.links.set d out.1, events := ev } d ht
  exact ⟨job, xs, fl, w, hf⟩

/-- A link's outcome while the timing generator stands still changes the link and the event writer alone (R114, R123). -/
theorem State.applyLink_still (s : State) (d : OutputId) (out : LinkOut) (h : (s.outputState d).timed = false) :
    ∃ events, s.applyLink d out = { s with links := s.links.set d out.1, events := events } := by
  have hf : ∀ t : State, (t.outputState d).timed = false → t.outputFault d = t := by
    intro t ht
    unfold State.outputFault
    rw [if_neg (by simp [ht])]
  unfold State.applyLink
  dsimp only
  split
  · split
    · exact ⟨_, (hf _ (by exact h)).trans rfl⟩
    · exact ⟨_, (hf _ (by exact h)).trans rfl⟩
  · split <;> exact ⟨_, rfl⟩

/-! ### The start of the epoch line (R117, R133, R141) -/

/-- What the output does at its epoch line: the epoch, and LINE_MATCH if it is that line; no line is handed (R117, R118). -/
theorem State.outputLine_epoch (s : State) (d : OutputId) (y : Nat) (order : List EpochReaction)
    (h : y = (s.outputs.get d).active.height) :
    ∃ damage comp streams blank events, s.outputLine d y order = ({ s with
      damage := damage, comp := comp, streams := streams, events := events
      outputs := s.outputs.set d { s.outputs.get d with
        frameCounter := (s.outputs.get d).frameCounter + 1, frameUnderflows := 0, blank := blank }
      layers := s.layers.set d (s.layers.get d).applied
      links := s.links.set d (s.links.get d).epoch }, none) := by
  obtain ⟨dm, cp, st, bl, ev, he⟩ := s.frameEpoch_rest d order
  unfold State.outputLine
  dsimp only
  rw [if_pos h, if_neg (show ¬ y = (s.outputs.get d).active.height + 1 by omega),
    if_neg (show ¬ y < (s.outputs.get d).active.height by omega), he]
  unfold State.lineMatchAt
  dsimp only
  split
  · exact ⟨dm, cp, st, bl, _, rfl⟩
  · exact ⟨dm, cp, st, bl, ev, rfl⟩

/-! ### Orders that name every reaction (R117) -/

/-- An order without repeats keeps its place before what is appended to it. -/
theorem firstOfEach_append (as rs : List EpochReaction) (h : as.Nodup) :
    firstOfEach (as ++ rs) = as ++ (firstOfEach rs).filter (fun r => !as.contains r) := by
  induction as with
  | nil => exact (List.filter_eq_self.mpr fun _ _ => rfl).symm
  | cons a as ih =>
    obtain ⟨h1, h2⟩ := List.nodup_cons.mp h
    rw [List.cons_append, firstOfEach, ih h2, List.filter_append, List.filter_filter, List.cons_append]
    congr 2
    · rw [List.filter_eq_self]; intro x hx; simp; rintro rfl; exact h1 hx
    · congr 1; funext r; by_cases hr : r = a <;> simp [hr]

/-- An order that names every reaction once is taken as it is. -/
theorem reactionOrder_self (order : List EpochReaction) (h : order.Nodup) (ha : ∀ r, r ≠ .linkSteps → r ∈ order) :
    reactionOrder order = order := by
  rw [reactionOrder, firstOfEach_append _ _ h, List.filter_eq_nil_iff.mpr, List.append_nil]
  intro r hr
  have : r ∈ defaultOrder := (mem_firstOfEach _ _).mp hr
  have : r ∈ order := ha r (by rintro rfl; revert this; decide)
  simp [this]

end Sys2Proof.Machine
end

