-- ==== Sys2Proof/Laws/Frames.lean ====
section
/-! SUPPORT. What the work of chapters 2 to 7 and of the table port never touches: memory, the host's requests, the write
queue, the read tracker, the active credits, the drain, the clients of the requests in flight, the indices and records
of the event ring, and the queue of commands. One lemma for each operation. -/

namespace Sys2Proof.Machine

/-- The event writer without its queue, its lost count and its due marks. -/
structure Ring where
  mask : Word
  writeIndex : Byte
  consumed : Byte
  seq : Count
  inWriting : Option Record
  presented : Option StatRequest
  recordNext : Bool
  interrupt : Bool
  readback : Option Readback
  cause : ResetCause

/-- The ring of an event writer. -/
def EventWriter.ring (w : EventWriter) : Ring :=
  ⟨w.mask, w.writeIndex, w.consumed, w.seq, w.inWriting, w.presented, w.recordNext, w.interrupt, w.readback, w.cause⟩

/-- The memory path, the ring and the queue of commands. -/
structure Base where
  mem : Memory
  resetAsserted : Bool
  upstream : List UpRequest
  nextRequest : Nat
  writeQueue : List QueuedBeat
  tracker : List TrackedRead
  hostData : List (List BeatData)
  clients : List Client
  activeCredits : Credits
  drain : Option Drain
  scanNext : OutputId
  ring : Ring
  pending : List Instr

/-- The base of a state. -/
def State.base (s : State) : Base :=
  ⟨s.mem, s.resetAsserted, s.upstream, s.nextRequest, s.writeQueue, s.tracker, s.hostData,
    s.inFlight.map Flight.client, s.activeCredits, s.drain, s.scanNext, s.events.ring, s.pending⟩

/-! ### Updates -/

theorem EventWriter.lose_ring (w : EventWriter) : w.lose.ring = w.ring := by
  unfold EventWriter.lose; split <;> rfl

theorem EventWriter.raise_ring (w : EventWriter) (e : Event) : (w.raise e).ring = w.ring := by
  unfold EventWriter.raise
  split
  · split
    · rfl
    · exact w.lose_ring
  · rfl

theorem EventWriter.raiseAll_ring (es : List Event) (w : EventWriter) :
    (es.foldl EventWriter.raise w).ring = w.ring := by
  induction es generalizing w with
  | nil => rfl
  | cons e es ih => exact (ih _).trans (w.raise_ring e)

@[simp] theorem State.setOutput_base (s : State) (d : OutputId) (v : Output) : (s.setOutput d v).base = s.base := rfl
@[simp] theorem State.setLink_base (s : State) (d : OutputId) (v : Link) : (s.setLink d v).base = s.base := rfl
@[simp] theorem State.setComp_base (s : State) (d : OutputId) (v : CompOutput) : (s.setComp d v).base = s.base := rfl
@[simp] theorem State.setDamage_base (s : State) (d : OutputId) (v : Damage) : (s.setDamage d v).base = s.base := rfl
@[simp] theorem State.setLayers_base (s : State) (d : OutputId) (v : LayerTables) :
    (s.setLayers d v).base = s.base := rfl
@[simp] theorem State.setStream_base (s : State) (k : StreamId) (v : Stream) : (s.setStream k v).base = s.base := rfl
@[simp] theorem State.mark_base (s : State) (f : DueMarks → DueMarks) : (s.mark f).base = s.base := rfl
@[simp] theorem State.markOutput_base (s : State) (d : OutputId) : (s.markOutput d).base = s.base := rfl

@[simp] theorem State.raise_base (s : State) (e : Event) : (s.raise e).base = s.base := by
  simp only [State.base, State.raise_events, EventWriter.raise_ring]; rfl

@[simp] theorem State.raiseAll_base (s : State) (es : List Event) : (s.raiseAll es).base = s.base := by
  simp only [State.base, State.raiseAll_events, EventWriter.raiseAll_ring]; rfl

/-- A fold of operations that keep the base keeps the base. -/
theorem foldl_base {α : Type} (f : State → α → State) (h : ∀ t x, (f t x).base = t.base) (l : List α) (s : State) :
    (l.foldl f s).base = s.base := by
  induction l generalizing s with
  | nil => rfl
  | cons x l ih => exact (ih _).trans (h s x)

/-! ### Damage (chapter 2) -/

@[simp] theorem State.damagePixels_base (s : State) (d : OutputId) (x y : Int) (w h : Nat) :
    (s.damagePixels d x y w h).base = s.base := by
  unfold State.damagePixels; split <;> simp

@[simp] theorem State.damageLayer_base (s : State) (d : OutputId) (l : Layer) : (s.damageLayer d l).base = s.base := by
  simp [State.damageLayer]

@[simp] theorem State.damageLayersOf_base (s : State) (d : OutputId) (p : Layer → Bool) :
    (s.damageLayersOf d p).base = s.base := by
  unfold State.damageLayersOf; apply foldl_base; intro t l; split <;> simp

@[simp] theorem State.damageLayers_base (s : State) (p : Layer → Bool) : (s.damageLayers p).base = s.base := by
  unfold State.damageLayers; apply foldl_base; intro t d; simp

@[simp] theorem State.damageThrough_base (s : State) (d : OutputId) (ts : List (Nat × Nat)) (l : Layer) :
    (s.damageThrough d ts l).base = s.base := by
  unfold State.damageThrough; split <;> simp

@[simp] theorem State.damageSurface_base (s : State) (d : OutputId) (b : WriteBeat) (i : Nat) :
    (s.damageSurface d b i).base = s.base := by
  unfold State.damageSurface
  split
  · apply foldl_base; intro t l; split <;> simp
  · rfl

@[simp] theorem State.damageNotice_base (s : State) (b : WriteBeat) : (s.damageNotice b).base = s.base := by
  unfold State.damageNotice; apply foldl_base; intro t d; apply foldl_base; intro t i; simp

@[simp] theorem State.invalidate_base (s : State) (d : OutputId) : (s.invalidate d).base = s.base := by
  unfold State.invalidate; split <;> simp

@[simp] theorem State.clearDamage_base (s : State) (d : OutputId) : (s.clearDamage d).base = s.base := by
  simp [State.clearDamage]

@[simp] theorem State.wholeDamage_base (s : State) (d : OutputId) : (s.wholeDamage d).base = s.base := by
  simp [State.wholeDamage]

/-! ### Streams (chapter 5) -/

@[simp] theorem State.updateStream_base (s : State) (k : StreamId) (out : Stream × List Event) :
    (s.updateStream k out).base = s.base := by
  unfold State.updateStream; split <;> simp

@[simp] theorem State.runStream_base (s : State) (k : StreamId) (rules : List StreamRule) :
    (s.runStream k rules).base = s.base := by
  unfold State.runStream; apply foldl_base; intro t f; simp

@[simp] theorem State.streamNotice_base (s : State) (b : WriteBeat) : (s.streamNotice b).base = s.base := by
  unfold State.streamNotice; apply foldl_base; intro t k; simp [State.noticeBy]

@[simp] theorem State.damageStream_base (s : State) (k : StreamId) : (s.damageStream k).base = s.base := by
  simp [State.damageStream]

@[simp] theorem State.streamEpoch_base (s : State) (d : OutputId) (k : StreamId) :
    (s.streamEpoch d k).base = s.base := by
  unfold State.streamEpoch; dsimp only; split
  · split <;> simp
  · rfl

@[simp] theorem State.releaseHolds_base (s : State) (d : OutputId) (ns : List SlotName) :
    (s.releaseHolds d ns).base = s.base := by
  unfold State.releaseHolds; apply foldl_base; intro t n; simp

@[simp] theorem State.placeHolds_base (s : State) (d : OutputId) (ns : List SlotName) :
    (s.placeHolds d ns).base = s.base := by
  unfold State.placeHolds; apply foldl_base; intro t n; simp

/-! ### Composition (chapter 4) -/

@[simp] theorem State.startComposition_base (s : State) (d : OutputId) : (s.startComposition d).base = s.base := by
  simp [State.startComposition]

@[simp] theorem State.flip_base (s : State) (d : OutputId) : (s.flip d).base = s.base := by simp [State.flip]

@[simp] theorem State.flipMissed_base (s : State) (d : OutputId) (k : Composition) :
    (s.flipMissed d k).base = s.base := by simp [State.flipMissed]

@[simp] theorem State.compositorEpoch_base (s : State) (d : OutputId) : (s.compositorEpoch d).base = s.base := by
  unfold State.compositorEpoch
  split
  · split
    · simp
    · unfold State.startIfStale State.flipIfAwaiting; split <;> split <;> simp
  · rfl

@[simp] theorem State.takeTile_base (s : State) (d : OutputId) : (s.takeTile d).base = s.base := by
  unfold State.takeTile
  split
  · rfl
  · split <;> rfl

@[simp] theorem State.tileTake_base (s : State) : s.tileTake.base = s.base := by
  unfold State.tileTake; split <;> simp

@[simp] theorem State.endComposition_base (s : State) (d : OutputId) (k : Composition) :
    (s.endComposition d k).base = s.base := by simp [State.endComposition]

@[simp] theorem State.completeTile_base (s : State) (d : OutputId) : (s.completeTile d).base = s.base := by
  unfold State.completeTile
  split
  · rfl
  · split <;> simp

/-- A new job changes nothing of the base. -/
@[simp] theorem State.job_base (s : State) (j : Option Job) : { s with job := j }.base = s.base := rfl

@[simp] theorem State.abandon_base (s : State) (d : OutputId) : (s.abandon d).base = s.base := by
  unfold State.abandon; dsimp only
  split
  · split
    · rfl
    · split <;> rfl
  · split
    · simp
    · split <;> (rw [State.releaseHolds_base]; rfl)

/-! ### Links and outputs (chapters 6 and 7) -/

@[simp] theorem State.enterOutput_base (s : State) (d : OutputId) (st : OutputState) (r : Nat) :
    (s.enterOutput d st r).base = s.base := by simp [State.enterOutput]

@[simp] theorem State.changeLock_base (s : State) (d : OutputId) (b : Bool) (st : OutputState) :
    (s.changeLock d b st).base = s.base := by simp [State.changeLock]

theorem Flight.discardScan_client (d : OutputId) (p : Nat → Bool) (f : Flight) :
    (f.discardScan d p).client = f.client := by cases f <;> rfl

@[simp] theorem State.discardScans_base (s : State) (d : OutputId) (p : Nat → Bool) :
    (s.discardScans d p).base = s.base := by
  simp only [State.base, State.discardScans, List.map_map, Base.mk.injEq, and_true, true_and]
  apply List.map_congr_left; intro f _; exact f.discardScan_client d p

@[simp] theorem State.stopFetcher_base (s : State) (d : OutputId) : (s.stopFetcher d).base = s.base := by
  simp [State.stopFetcher]

@[simp] theorem State.outputFault_base (s : State) (d : OutputId) : (s.outputFault d).base = s.base := by
  unfold State.outputFault; split <;> simp

@[simp] theorem State.applyLink_base (s : State) (d : OutputId) (out : LinkOut) :
    (s.applyLink d out).base = s.base := by
  unfold State.applyLink; dsimp only; split <;> split <;> simp

@[simp] theorem State.runLink_base (s : State) (d : OutputId) (f : OutputId → Count → Link → LinkOut) :
    (s.runLink d f).base = s.base := by simp [State.runLink]

@[simp] theorem State.firstEntry_base (s : State) (d : OutputId) : (s.firstEntry d).base = s.base := by
  simp [State.firstEntry]

@[simp] theorem State.leaveTraining_base (s : State) (d : OutputId) : (s.leaveTraining d).base = s.base := by
  unfold State.leaveTraining; dsimp only; split
  · split <;> simp
  · rfl

@[simp] theorem State.startOutput_base (s : State) (d : OutputId) : (s.startOutput d).base = s.base := by
  unfold State.startOutput; dsimp only; split <;> simp

@[simp] theorem State.lockCompletion_base (s : State) (d : OutputId) : (s.lockCompletion d).base = s.base := by
  unfold State.lockCompletion; split <;> simp [State.lockLocking]

@[simp] theorem State.lockLoss_base (s : State) (d : OutputId) : (s.lockLoss d).base = s.base := by
  unfold State.lockLoss; split
  · simp [State.lockLost]
  · split <;> simp

@[simp] theorem State.withdrawCommit_base (s : State) (d : OutputId) : (s.withdrawCommit d).base = s.base := by
  simp [State.withdrawCommit]

@[simp] theorem State.stopOutput_base (s : State) (d : OutputId) : (s.stopOutput d).base = s.base := by
  unfold State.stopOutput; split <;> simp [State.stopRunning]

@[simp] theorem State.freezeOutput_base (s : State) (d : OutputId) : (s.freezeOutput d).base = s.base := by
  unfold State.freezeOutput; split <;> simp [State.refuseState]

@[simp] theorem State.thawOutput_base (s : State) (d : OutputId) : (s.thawOutput d).base = s.base := by
  unfold State.thawOutput; split <;> simp [State.refuseState]

@[simp] theorem State.handOff_base (s : State) (d : OutputId) (y : Nat) : (s.handOff d y).base = s.base := by
  simp [State.handOff]

@[simp] theorem State.damageIfEnabled_base (s : State) (d : OutputId) (l : Option Layer) :
    (s.damageIfEnabled d l).base = s.base := by
  unfold State.damageIfEnabled; split
  · rfl
  · split <;> simp

@[simp] theorem State.layerEpoch_base (s : State) (d : OutputId) : (s.layerEpoch d).base = s.base := by
  unfold State.layerEpoch; dsimp only; split
  · rw [State.raise_base, foldl_base]
    · simp
    · intro t i; simp [State.damageChange]
  · rfl

@[simp] theorem State.react_base (s : State) (d : OutputId) (r : EpochReaction) : (s.react d r).base = s.base := by
  cases r <;> simp [State.react]

@[simp] theorem State.declareEpoch_base (s : State) (d : OutputId) : (s.declareEpoch d).base = s.base := by
  simp only [State.declareEpoch, State.epochEvent, State.scanUnderflow]
  split <;> simp

@[simp] theorem State.frameEpoch_base (s : State) (d : OutputId) (order : List EpochReaction) :
    (s.frameEpoch d order).base = s.base := by
  unfold State.frameEpoch; rw [foldl_base]
  · simp
  · intro t r; simp

@[simp] theorem State.lineMatchAt_base (s : State) (d : OutputId) (y : Nat) : (s.lineMatchAt d y).base = s.base := by
  unfold State.lineMatchAt; dsimp only; split <;> simp

@[simp] theorem State.beginFetch_base (s : State) (d : OutputId) : (s.beginFetch d).base = s.base := by
  unfold State.beginFetch; dsimp only; split <;> simp

@[simp] theorem State.outputLine_base (s : State) (d : OutputId) (y : Nat) (order : List EpochReaction) :
    (s.outputLine d y order).1.base = s.base := by
  unfold State.outputLine; dsimp only; split <;> split <;> split <;> simp

@[simp] theorem State.lineStart_base (s : State) (d : OutputId) (order : List EpochReaction) :
    (s.lineStart d order).base = s.base := by
  unfold State.lineStart; dsimp only; split
  · split <;> simp
  · rfl

@[simp] theorem State.linkBeforeEpoch_base (s : State) (d : OutputId) (order : List EpochReaction) :
    (s.linkBeforeEpoch d order).base = s.base := by
  unfold State.linkBeforeEpoch; dsimp only; split <;> simp

/-! ### Panel messages -/

@[simp] theorem State.takeReadyNormal_base (s : State) (d : OutputId) : (s.takeReadyNormal d).base = s.base := by
  unfold State.takeReadyNormal; dsimp only; split <;> simp

@[simp] theorem State.takePanelInfo_base (s : State) (d : OutputId) (w h c : Nat) :
    (s.takePanelInfo d w h c).base = s.base := by simp [State.takePanelInfo]
@[simp] theorem State.takeConfirm_base (s : State) (d : OutputId) (q : Byte) : (s.takeConfirm d q).base = s.base := by
  simp [State.takeConfirm]
@[simp] theorem State.takeReplayFrom_base (s : State) (d : OutputId) (q : Byte) :
    (s.takeReplayFrom d q).base = s.base := by simp [State.takeReplayFrom]
@[simp] theorem State.takePanelHalt_base (s : State) (d : OutputId) : (s.takePanelHalt d).base = s.base := by
  simp [State.takePanelHalt]
@[simp] theorem State.takeBadMessage_base (s : State) (d : OutputId) : (s.takeBadMessage d).base = s.base := by
  simp [State.takeBadMessage]

@[simp] theorem State.takeMessage_base (s : State) (d : OutputId) (m : Option PanelMessage) :
    (s.takeMessage d m).base = s.base := by
  unfold State.takeMessage
  split <;> simp

/-! ### The table port (chapter 9) -/

/-- An entry handed to its owner keeps the base. -/
@[simp] theorem State.applyEntry_base (s : State) (t : TableId) (entry : Nat) (ws : List Word) :
    (s.applyEntry t entry ws).base = s.base := by
  unfold State.applyEntry
  split
  · unfold State.applySurface; split
    · simp
    · rw [State.damageLayers_base]; rfl
  · unfold State.applyLayer; dsimp only; split <;> simp
  · unfold State.applyStream; dsimp only; split <;> simp
  · simp [State.applyTiming]
  · unfold State.applyCredit; dsimp only; rw [State.raiseAll_base]; rfl
  · unfold State.applyLinkSettings; dsimp only; rw [State.raiseAll_base]; rfl

@[simp] theorem State.setPort_base (s : State) (c : Cursor) (a : Vector (Option Word) 8) :
    (s.setPort c a).base = s.base := rfl

@[simp] theorem State.selectTable_base (s : State) (w : Word) : (s.selectTable w).base = s.base := rfl

@[simp] theorem State.takeTableData_base (s : State) (w : Word) : (s.takeTableData w).base = s.base := by
  unfold State.takeTableData
  split
  · simp
  · split
    · simp
    · unfold State.storeWord; dsimp only; split <;> simp

/-! ### Commands that keep the base -/

@[simp] theorem State.refuseOperand_base (s : State) (c : Nat) (o : Byte) : (s.refuseOperand c o).base = s.base := by
  simp [State.refuseOperand]

/-- A command on an output keeps the base when its effect does. -/
theorem State.onOutput_base (s : State) (c : Nat) (o : Byte) (f : OutputId → State)
    (h : ∀ d, (f d).base = s.base) : (s.onOutput c o f).base = s.base := by
  unfold State.onOutput; split
  · simp
  · exact h _

/-- A command on a stream keeps the base when its effect does. -/
theorem State.onStream_base (s : State) (c : Nat) (o : Byte) (f : StreamId → State)
    (h : ∀ k, (f k).base = s.base) : (s.onStream c o f).base = s.base := by
  unfold State.onStream; split
  · simp
  · exact h _

@[simp] theorem State.startStream_base (s : State) (k : StreamId) : (s.startStream k).base = s.base := by
  unfold State.startStream; split <;> simp

@[simp] theorem State.pauseStream_base (s : State) (k : StreamId) : (s.pauseStream k).base = s.base := by
  unfold State.pauseStream; split <;> simp [State.refuseStream]

@[simp] theorem State.resumeStream_base (s : State) (k : StreamId) : (s.resumeStream k).base = s.base := by
  unfold State.resumeStream; split <;> simp [State.refuseStream]

@[simp] theorem State.stopStream_base (s : State) (k : StreamId) : (s.stopStream k).base = s.base := by
  unfold State.stopStream; dsimp only; split
  · rfl
  · split <;> simp

@[simp] theorem State.takeCommit_base (s : State) (o : Byte) : (s.takeCommit o).base = s.base :=
  s.onOutput_base _ _ _ fun d => by simp
@[simp] theorem State.takeInvalidate_base (s : State) (o : Byte) : (s.takeInvalidate o).base = s.base :=
  s.onOutput_base _ _ _ fun d => by simp
@[simp] theorem State.takeStreamStart_base (s : State) (o : Byte) : (s.takeStreamStart o).base = s.base :=
  s.onStream_base _ _ _ fun k => by simp
@[simp] theorem State.takeStreamPause_base (s : State) (o : Byte) : (s.takeStreamPause o).base = s.base :=
  s.onStream_base _ _ _ fun k => by simp
@[simp] theorem State.takeStreamResume_base (s : State) (o : Byte) : (s.takeStreamResume o).base = s.base :=
  s.onStream_base _ _ _ fun k => by simp
@[simp] theorem State.takeStreamStop_base (s : State) (o : Byte) : (s.takeStreamStop o).base = s.base :=
  s.onStream_base _ _ _ fun k => by simp
@[simp] theorem State.takeOutputStart_base (s : State) (o : Byte) : (s.takeOutputStart o).base = s.base :=
  s.onOutput_base _ _ _ fun d => by simp
@[simp] theorem State.takeOutputStop_base (s : State) (o : Byte) : (s.takeOutputStop o).base = s.base :=
  s.onOutput_base _ _ _ fun d => by simp
@[simp] theorem State.takeOutputFreeze_base (s : State) (o : Byte) : (s.takeOutputFreeze o).base = s.base :=
  s.onOutput_base _ _ _ fun d => by simp
@[simp] theorem State.takeOutputThaw_base (s : State) (o : Byte) : (s.takeOutputThaw o).base = s.base :=
  s.onOutput_base _ _ _ fun d => by simp

end Sys2Proof.Machine
end

