-- ==== Sys2Proof/Laws/Layouts.lean ====
section
/-! SUPPORT. The byte layouts of chapter 10: bytes made of fields in order have each field at its offset (R172), and what
the write beats of a record or block hold. -/

namespace Sys2Proof.Machine

open Sys2Proof.Safety

/-! ### Fields (R172) -/

/-- A number of n bytes takes n bytes. -/
theorem littleEndian_length (n v : Nat) : (littleEndian n v).length = n := by
  induction n generalizing v with
  | zero => rfl
  | succ n ih => rw [littleEndian, List.length_cons, ih]

/-- Byte i of a number, least significant first. -/
theorem littleEndian_at (n v i : Nat) (h : i < n) : (littleEndian n v)[i]? = some (BitVec.ofNat 8 (v / 256 ^ i)) := by
  induction n generalizing v i with
  | zero => omega
  | succ n ih =>
    cases i with
    | zero => simp [littleEndian]
    | succ i => rw [littleEndian, List.getElem?_cons_succ, ih _ _ (by omega), Nat.div_div_eq_div_mul, Nat.pow_succ']

/-- The fields of a record, given as size and value in order, with their offsets from n on. -/
def offsetsFrom (n : Nat) : List (Nat × Nat) → List (Nat × Nat × Nat)
  | [] => []
  | f :: fs => (n, f.1, f.2) :: offsetsFrom (n + f.1) fs

/-- Behind any bytes, fields in order lie at their offsets. -/
theorem fieldsAt_of_layout (fs : List (Nat × Nat)) (pre : List Byte) :
    FieldsAt (pre ++ fs.flatMap fun f => littleEndian f.1 f.2) (offsetsFrom pre.length fs) := by
  induction fs generalizing pre with
  | nil => intro f hf; cases hf
  | cons a fs ih =>
    intro f hf i hi
    rcases List.mem_cons.mp hf with rfl | hf
    · rw [List.getElem?_append_right (by simp), List.flatMap_cons,
        List.getElem?_append_left (by rw [littleEndian_length]; simpa using hi)]
      simpa using littleEndian_at a.1 a.2 i hi
    · have := ih (pre ++ littleEndian a.1 a.2) f (by rwa [List.length_append, littleEndian_length]) i hi
      rwa [List.append_assoc] at this

/-- Bytes made of fields in order have each field at its offset. -/
theorem fieldsAt_layout (bytes : List Byte) (fs : List (Nat × Nat))
    (h : bytes = fs.flatMap fun f => littleEndian f.1 f.2) :
    FieldsAt bytes (offsetsFrom 0 fs) := h ▸ fieldsAt_of_layout fs []

/-! ### The write beats of a record or block -/

/-- As many beats as the bytes fill, each at its address with every byte enabled, holding its eight bytes. -/
theorem beatsOfBytes_at (a n i : Nat) (bytes : List Byte) (h : bytes.length = 8 * n) :
    (beatsOfBytes a bytes).length = n ∧
    (i < n → ∃ b, (beatsOfBytes a bytes)[i]? = some b ∧ b.addr = a + 8 * i ∧ b.enables = 0xFF ∧
      ∀ m, m < 8 → bytes[8 * i + m]? = some (byteOf b.data m)) := by
  induction n generalizing a bytes i with
  | zero => 
    obtain rfl : bytes = [] := List.length_eq_zero_iff.mp h
    exact ⟨rfl, fun h => by omega⟩
  | succ n ih =>
    match bytes, h with
    | b0 :: b1 :: b2 :: b3 :: b4 :: b5 :: b6 :: b7 :: rest, h =>
      have h' : rest.length = 8 * n := by simp only [List.length_cons] at h; omega
      refine ⟨by rw [beatsOfBytes, List.length_cons, (ih (a + 8) 0 rest h').1], fun hi => ?_⟩
      cases i with
      | zero =>
        refine ⟨_, rfl, rfl, rfl, fun m hm => ?_⟩
        have := byteOf_beatOf b0 b1 b2 b3 b4 b5 b6 b7
        simp only [List.map_cons, List.map_nil, List.cons.injEq] at this
        obtain ⟨a0, a1, a2, a3, a4, a5, a6, a7, -⟩ := this
        match m, hm with
        | 0, _ => exact congrArg some a0.symm
        | 1, _ => exact congrArg some a1.symm
        | 2, _ => exact congrArg some a2.symm
        | 3, _ => exact congrArg some a3.symm
        | 4, _ => exact congrArg some a4.symm
        | 5, _ => exact congrArg some a5.symm
        | 6, _ => exact congrArg some a6.symm
        | 7, _ => exact congrArg some a7.symm
        | m + 8, h => omega
      | succ i =>
        obtain ⟨b, h1, h2, h3, h4⟩ := (ih (a + 8) i rest h').2 (by omega)
        refine ⟨b, h1, by omega, h3, fun m hm => ?_⟩
        rw [show 8 * (i + 1) + m = 8 * i + m + 1 + 1 + 1 + 1 + 1 + 1 + 1 + 1 by omega]
        simpa using h4 m hm

/-! ### Words of an entry (10.3) -/

/-- The word of two halves, as a number. -/
theorem halves_toNat (lo hi : Nat) : (halves lo hi).toNat = lo % 65536 + 65536 * (hi % 65536) := by
  simp [halves, word]; omega
/-- The word of four bytes, as a number. -/
theorem quarters_toNat (a b c d : Nat) :
    (quarters a b c d).toNat = a % 256 + 256 * (b % 256) + 65536 * (c % 256) + 16777216 * (d % 256) := by
  simp [quarters, word]; omega
/-- The word of a number, as a number. -/
theorem word_toNat (n : Nat) : (word n).toNat = n % 4294967296 := by simp [word]

/-- A list of words holds its fields one by one. -/
theorem wordsHold_cons (ws : List Word) (f : Nat × Nat × Nat × Nat) (fs : List (Nat × Nat × Nat × Nat)) :
    WordsHold ws (f :: fs) ↔
      (ws.getD f.1 0).toNat / 2 ^ f.2.1 % 2 ^ f.2.2.1 = f.2.2.2 % 2 ^ f.2.2.1 ∧ WordsHold ws fs := by
  simp [WordsHold]

/-- No field is asked of any words. -/
theorem wordsHold_nil (ws : List Word) : WordsHold ws [] ↔ True := by simp [WordsHold]

end Sys2Proof.Machine
end

