-- ==== Sys2Proof/Laws/Memory.lean ====
section
/-! SUPPORT. Memory: every write keeps the canonical form; what a byte reads as after a write, a beat, a request. -/

namespace Sys2Proof.Machine

theorem Memory.wfFrom_le {lo lo' : Nat} (h : lo' ≤ lo) : ∀ m : Memory, Memory.wfFrom lo m = true →
    Memory.wfFrom lo' m = true
  | [], _ => rfl
  | (k, v) :: m, hm => by
    simp only [Memory.wfFrom, Bool.and_eq_true, decide_eq_true_eq] at hm ⊢
    exact ⟨⟨Nat.le_trans h hm.1.1, hm.1.2⟩, hm.2⟩

theorem Memory.write_wfFrom (a : Nat) (v : Byte) : ∀ (lo : Nat) (m : Memory), lo ≤ a → Memory.wfFrom lo m = true →
    Memory.wfFrom lo (m.write a v) = true
  | lo, [], hlo, _ => by
    unfold Memory.write
    split
    · rfl
    · next hv => simp [Memory.wfFrom, hlo, hv]
  | lo, (k, w) :: m, hlo, hm => by
    have hm' := hm
    simp only [Memory.wfFrom, Bool.and_eq_true, decide_eq_true_eq] at hm'
    unfold Memory.write
    split
    · next hak =>
      split
      · exact hm
      · next hv =>
        simp only [Memory.wfFrom, Bool.and_eq_true, decide_eq_true_eq]
        exact ⟨⟨hlo, by simpa using hv⟩, ⟨hak, hm'.1.2⟩, hm'.2⟩
    · split
      · next hak =>
        split
        · exact Memory.wfFrom_le (by omega) m hm'.2
        · next hv =>
          simp only [Memory.wfFrom, Bool.and_eq_true, decide_eq_true_eq]
          exact ⟨⟨hlo, by simpa using hv⟩, hak ▸ hm'.2⟩
      · simp only [Memory.wfFrom, Bool.and_eq_true, decide_eq_true_eq]
        exact ⟨⟨hm'.1.1, hm'.1.2⟩, Memory.write_wfFrom a v (k + 1) m (by omega) hm'.2⟩

/-- A byte write keeps the canonical form. -/
theorem Memory.write_wf (m : Memory) (a : Nat) (v : Byte) (h : m.wf = true) : (m.write a v).wf = true :=
  Memory.write_wfFrom a v 0 m (Nat.zero_le a) h

/-- A fold of operations that keep the canonical form keeps it. -/
theorem foldl_wf {α : Type} (f : Memory → α → Memory) (hf : ∀ m x, m.wf = true → (f m x).wf = true) (l : List α)
    (m : Memory) (h : m.wf = true) : (l.foldl f m).wf = true := by
  induction l generalizing m with
  | nil => exact h
  | cons x l ih => exact ih _ (hf m x h)

/-- A write beat keeps the canonical form. -/
theorem Memory.writeBeat_wf (m : Memory) (b : WriteBeat) (h : m.wf = true) : (m.writeBeat b).wf = true := by
  unfold Memory.writeBeat
  apply foldl_wf _ _ _ _ h
  intro m i h; split
  · exact m.write_wf _ _ h
  · exact h

/-- The beats of a request keep the canonical form. -/
theorem Memory.writeBeats_wf (m : Memory) (bs : List WriteBeat) (h : m.wf = true) : (m.writeBeats bs).wf = true :=
  foldl_wf _ Memory.writeBeat_wf bs m h

/-! ### What a byte reads as -/

/-- In canonical form from lo on, an address below lo reads as an unlisted byte. -/
theorem Memory.read_below {a : Nat} : ∀ (lo : Nat) (m : Memory), a < lo → Memory.wfFrom lo m = true →
    m.read a = Config.unwrittenByte
  | _, [], _, _ => rfl
  | lo, (k, v) :: m, ha, hm => by
    simp only [Memory.wfFrom, Bool.and_eq_true, decide_eq_true_eq] at hm
    have : a ≠ k := by omega
    simp only [Memory.read, this, if_false]
    exact Memory.read_below (k + 1) m (by omega) hm.2

/-- A byte write leaves every other address as it was. -/
theorem Memory.read_write_other (a c : Nat) (v : Byte) (h : c ≠ a) : ∀ m : Memory, (m.write a v).read c = m.read c
  | [] => by unfold Memory.write; split <;> simp [Memory.read, h]
  | (k, w) :: m => by
    unfold Memory.write
    split
    · split
      · rfl
      · simp [Memory.read, h]
    · split
      · next hak => subst hak; split <;> simp [Memory.read, h]
      · simp only [Memory.read]; split
        · rfl
        · exact Memory.read_write_other a c v h m

theorem Memory.read_write_from (a : Nat) (v : Byte) : ∀ (lo : Nat) (m : Memory), Memory.wfFrom lo m = true →
    (m.write a v).read a = v
  | _, [], _ => by
    unfold Memory.write; split
    · next hv => simp [Memory.read, hv]
    · simp [Memory.read]
  | lo, (k, w) :: m, hm => by
    have hm' := hm
    simp only [Memory.wfFrom, Bool.and_eq_true, decide_eq_true_eq] at hm'
    unfold Memory.write
    split
    · next hak =>
      split
      · next hv =>
        have : a ≠ k := by omega
        simp only [Memory.read, this, if_false]
        rw [hv]; exact Memory.read_below (k + 1) m (by omega) hm'.2
      · simp [Memory.read]
    · split
      · next hak =>
        split
        · next hv => rw [hv]; exact Memory.read_below (k + 1) m (by omega) hm'.2
        · simp [Memory.read]
      · next hak =>
        simp only [Memory.read, hak, if_false]
        exact Memory.read_write_from a v (k + 1) m hm'.2

/-- A written byte reads back, in canonical form. -/
theorem Memory.read_write_same (m : Memory) (a : Nat) (v : Byte) (h : m.wf = true) : (m.write a v).read a = v :=
  Memory.read_write_from a v 0 m h

/-- Folding the writes of some bytes of a beat leaves every other address as it was. -/
theorem Memory.read_fold_other (b : WriteBeat) (c : Nat) (is : List Nat)
    (h : ∀ i ∈ is, b.enables.getLsbD i = true → c ≠ b.addr + i) (m : Memory) :
    (is.foldl (fun m i => if b.enables.getLsbD i then m.write (b.addr + i) (byteOf b.data i) else m) m).read c =
      m.read c := by
  induction is generalizing m with
  | nil => rfl
  | cons i is ih =>
    rw [List.foldl_cons, ih (fun j hj => h j (List.mem_cons_of_mem i hj))]
    split
    · next hi => exact Memory.read_write_other _ _ _ (h i List.mem_cons_self hi) m
    · rfl

/-- A write beat leaves every address outside its enabled bytes as it was (00_scope.md, Memory). -/
theorem Memory.read_writeBeat_other (m : Memory) (b : WriteBeat) (c : Nat)
    (h : ∀ i, i < 8 → b.enables.getLsbD i = true → c ≠ b.addr + i) : (m.writeBeat b).read c = m.read c := by
  apply Memory.read_fold_other
  intro i hi
  exact h i (by simp [beatBytes] at hi; omega)

/-- Folding the writes of some bytes of a beat, one enabled byte among them once: it reads back. -/
theorem Memory.read_fold_same (b : WriteBeat) (j : Nat) (hj : b.enables.getLsbD j = true) (is : List Nat)
    (hn : is.Nodup) (hmem : j ∈ is) (m : Memory) (hm : m.wf = true) :
    (is.foldl (fun m i => if b.enables.getLsbD i then m.write (b.addr + i) (byteOf b.data i) else m) m).read
      (b.addr + j) = byteOf b.data j := by
  induction is generalizing m with
  | nil => exact absurd hmem (List.not_mem_nil)
  | cons i is ih =>
    rw [List.nodup_cons] at hn
    rw [List.foldl_cons]
    by_cases hij : j = i
    · subst hij
      rw [Memory.read_fold_other]
      · simp only [hj, if_true]; exact m.read_write_same _ _ hm
      · intro x hx _ hcontra
        have hxj : j = x := by omega
        exact hn.1 (hxj ▸ hx)
    · apply ih hn.2 ((List.mem_cons.mp hmem).resolve_left hij)
      split
      · exact m.write_wf _ _ hm
      · exact hm

/-- An enabled byte of a write beat reads back, in canonical form (00_scope.md, Memory). -/
theorem Memory.read_writeBeat_same (m : Memory) (b : WriteBeat) (j : Nat) (hj : j < 8)
    (he : b.enables.getLsbD j = true) (hm : m.wf = true) : (m.writeBeat b).read (b.addr + j) = byteOf b.data j := by
  apply Memory.read_fold_same b j he beatBytes (by decide) _ m hm
  simp [beatBytes]; omega

end Sys2Proof.Machine
end

