-- ==== Sys2Proof/Laws/Path.lean ====
section
/-! SUPPORT. What the memory path's operations change: the acceptance of requests, the grant, the end of a drain, the
completions' access to memory; and that they keep the sizes of the queues. -/

namespace Sys2Proof.Machine

/-! ### Acceptance (R144): it touches the waiting requests, the write queue, the tracker, the answers, and raises events -/

/-- A view that an acceptance's three updates keep is kept by the acceptance of a list. -/
theorem acceptFrom_keeps {α : Type} (v : State → α) (hq : ∀ s out, v (State.joinQueue s out) = v s)
    (ht : ∀ s out, v (State.joinTracker s out) = v s) (hu : ∀ (s : State) us, v { s with upstream := us } = v s)
    (rs : List UpRequest) (s : State) : v (acceptFrom rs s) = v s := by
  induction rs generalizing s with
  | nil => exact hu s []
  | cons r rs ih =>
    unfold acceptFrom
    split
    · exact hu s _
    · next t h =>
      rw [ih]
      unfold State.tryAccept at h
      split at h <;> (try dsimp only at h) <;> split at h <;> cases h
      · exact hq s _
      · exact ht s _

/-- The same for the acceptance of what waits. -/
theorem acceptWaiting_keeps {α : Type} (v : State → α) (hq : ∀ s out, v (State.joinQueue s out) = v s)
    (ht : ∀ s out, v (State.joinTracker s out) = v s) (hu : ∀ (s : State) us, v { s with upstream := us } = v s)
    (s : State) : v s.acceptWaiting = v s := by
  unfold State.acceptWaiting; split
  · rfl
  · exact acceptFrom_keeps v hq ht hu _ s

@[simp] theorem State.acceptWaiting_mem (s : State) : s.acceptWaiting.mem = s.mem :=
  acceptWaiting_keeps (·.mem) (fun _ _ => rfl) (fun _ _ => rfl) (fun _ _ => rfl) s
@[simp] theorem State.acceptWaiting_resetAsserted (s : State) : s.acceptWaiting.resetAsserted = s.resetAsserted :=
  acceptWaiting_keeps (·.resetAsserted) (fun _ _ => rfl) (fun _ _ => rfl) (fun _ _ => rfl) s
@[simp] theorem State.acceptWaiting_inFlight (s : State) : s.acceptWaiting.inFlight = s.inFlight :=
  acceptWaiting_keeps (·.inFlight) (fun _ _ => rfl) (fun _ _ => rfl) (fun _ _ => rfl) s
@[simp] theorem State.acceptWaiting_activeCredits (s : State) : s.acceptWaiting.activeCredits = s.activeCredits :=
  acceptWaiting_keeps (·.activeCredits) (fun _ _ => rfl) (fun _ _ => rfl) (fun _ _ => rfl) s
@[simp] theorem State.acceptWaiting_stagedCredits (s : State) : s.acceptWaiting.stagedCredits = s.stagedCredits :=
  acceptWaiting_keeps (·.stagedCredits) (fun _ _ => rfl) (fun _ _ => rfl) (fun _ _ => rfl) s
@[simp] theorem State.acceptWaiting_drain (s : State) : s.acceptWaiting.drain = s.drain :=
  acceptWaiting_keeps (·.drain) (fun _ _ => rfl) (fun _ _ => rfl) (fun _ _ => rfl) s
@[simp] theorem State.acceptWaiting_scanNext (s : State) : s.acceptWaiting.scanNext = s.scanNext :=
  acceptWaiting_keeps (·.scanNext) (fun _ _ => rfl) (fun _ _ => rfl) (fun _ _ => rfl) s
@[simp] theorem State.acceptWaiting_surfaces (s : State) : s.acceptWaiting.surfaces = s.surfaces :=
  acceptWaiting_keeps (·.surfaces) (fun _ _ => rfl) (fun _ _ => rfl) (fun _ _ => rfl) s
@[simp] theorem State.acceptWaiting_damage (s : State) : s.acceptWaiting.damage = s.damage :=
  acceptWaiting_keeps (·.damage) (fun _ _ => rfl) (fun _ _ => rfl) (fun _ _ => rfl) s
@[simp] theorem State.acceptWaiting_layers (s : State) : s.acceptWaiting.layers = s.layers :=
  acceptWaiting_keeps (·.layers) (fun _ _ => rfl) (fun _ _ => rfl) (fun _ _ => rfl) s
@[simp] theorem State.acceptWaiting_comp (s : State) : s.acceptWaiting.comp = s.comp :=
  acceptWaiting_keeps (·.comp) (fun _ _ => rfl) (fun _ _ => rfl) (fun _ _ => rfl) s
@[simp] theorem State.acceptWaiting_turn (s : State) : s.acceptWaiting.turn = s.turn :=
  acceptWaiting_keeps (·.turn) (fun _ _ => rfl) (fun _ _ => rfl) (fun _ _ => rfl) s
@[simp] theorem State.acceptWaiting_job (s : State) : s.acceptWaiting.job = s.job :=
  acceptWaiting_keeps (·.job) (fun _ _ => rfl) (fun _ _ => rfl) (fun _ _ => rfl) s
@[simp] theorem State.acceptWaiting_streams (s : State) : s.acceptWaiting.streams = s.streams :=
  acceptWaiting_keeps (·.streams) (fun _ _ => rfl) (fun _ _ => rfl) (fun _ _ => rfl) s
@[simp] theorem State.acceptWaiting_outputs (s : State) : s.acceptWaiting.outputs = s.outputs :=
  acceptWaiting_keeps (·.outputs) (fun _ _ => rfl) (fun _ _ => rfl) (fun _ _ => rfl) s
@[simp] theorem State.acceptWaiting_links (s : State) : s.acceptWaiting.links = s.links :=
  acceptWaiting_keeps (·.links) (fun _ _ => rfl) (fun _ _ => rfl) (fun _ _ => rfl) s
@[simp] theorem State.acceptWaiting_linkSettings (s : State) : s.acceptWaiting.linkSettings = s.linkSettings :=
  acceptWaiting_keeps (·.linkSettings) (fun _ _ => rfl) (fun _ _ => rfl) (fun _ _ => rfl) s
@[simp] theorem State.acceptWaiting_port (s : State) : s.acceptWaiting.port = s.port :=
  acceptWaiting_keeps (·.port) (fun _ _ => rfl) (fun _ _ => rfl) (fun _ _ => rfl) s
@[simp] theorem State.acceptWaiting_pending (s : State) : s.acceptWaiting.pending = s.pending :=
  acceptWaiting_keeps (·.pending) (fun _ _ => rfl) (fun _ _ => rfl) (fun _ _ => rfl) s

@[simp] theorem State.acceptWaiting_ring (s : State) : s.acceptWaiting.events.ring = s.events.ring :=
  acceptWaiting_keeps (·.events.ring) (fun _ _ => EventWriter.raiseAll_ring _ _)
    (fun _ _ => EventWriter.raiseAll_ring _ _) (fun _ _ => rfl) s

/-- With nothing waiting, nothing is accepted. -/
theorem State.acceptWaiting_none (s : State) (h : s.upstream = []) : s.acceptWaiting = s := by
  unfold State.acceptWaiting
  split
  · rfl
  · rw [h]; obtain ⟨⟩ := s; simp only at h; subst h; rfl

/-- A request that there is room for is accepted as it is presented, when none waits before it. -/
theorem State.present_accepted (s t : State) (r : UpRequest) (hr : s.resetAsserted = false) (hu : s.upstream = [])
    (h : ({ s with upstream := [r] } : State).tryAccept r = some t) : s.present r = { t with upstream := [] } := by
  obtain ⟨⟩ := s
  simp only at hr hu
  subst hr hu
  simp only [State.present, State.acceptWaiting, List.nil_append, Bool.false_eq_true, if_false, acceptFrom, h]

/-- A request that there is no room for waits. -/
theorem State.present_waits (s : State) (r : UpRequest) (hr : s.resetAsserted = false) (hu : s.upstream = [])
    (h : ({ s with upstream := [r] } : State).tryAccept r = none) : s.present r = { s with upstream := [r] } := by
  obtain ⟨⟩ := s
  simp only at hr hu
  subst hr hu
  simp only [State.present, State.acceptWaiting, List.nil_append, Bool.false_eq_true, if_false, acceptFrom, h]

/-- A WRITE that fits joins the queue. -/
theorem State.tryAccept_write (s : State) (addr : BitVec 29) (beats : List UpBeat)
    (h : s.writeQueue.length + (s.convertWrites addr beats).1.length ≤ 32) :
    s.tryAccept (.write addr beats) = some (s.joinQueue (s.convertWrites addr beats)) := if_pos h

/-- A WRITE that does not fit is not accepted. -/
theorem State.tryAccept_write_full (s : State) (addr : BitVec 29) (beats : List UpBeat)
    (h : 32 < s.writeQueue.length + (s.convertWrites addr beats).1.length) :
    s.tryAccept (.write addr beats) = none := if_neg (Nat.not_le.mpr h)

/-- A READ is accepted while the tracker holds fewer than 4. -/
theorem State.tryAccept_read (s : State) (addr : BitVec 29) (beats : Nat) (h : s.tracker.length < 4) :
    s.tryAccept (.read addr beats) = some (s.joinTracker (s.convertReads addr beats)) := if_pos h

/-- No read leaves the tracker while its head still waits for data. -/
theorem State.returnReads_none (s : State) (h : ∀ r ∈ s.tracker, r.complete = false) : s.returnReads = s := by
  have key : ∀ l : List TrackedRead, (∀ r ∈ l, r.complete = false) →
      l.takeWhile TrackedRead.complete = [] ∧ l.dropWhile TrackedRead.complete = l := by
    intro l hl
    cases l with
    | nil => exact ⟨rfl, rfl⟩
    | cons r rs => simp [List.takeWhile, List.dropWhile, hl r List.mem_cons_self]
  simp [State.returnReads, (key _ h).1, (key _ h).2]

/-! ### A READ of stray beats, a READ behind others (R148, R149) -/

/-- The beats of a READ, one after the other. -/
theorem State.convertReads_succ (s : State) (addr : BitVec 29) (n : Nat) :
    s.convertReads addr (n + 1) =
      ((s.convertReads addr n).1 ++ [(s.convertRead (upAddress addr n)).1],
        (s.convertReads addr n).2.1 ++ (s.convertRead (upAddress addr n)).2.1,
        (s.convertReads addr n).2.2 ++ (s.convertRead (upAddress addr n)).2.2) := by
  simp [State.convertReads, List.range_succ]

/-- A READ of which no beat goes to memory is of stray beats alone (R148). -/
theorem State.convertReads_stray (s : State) (addr : BitVec 29) (n : Nat) (h : (s.convertReads addr n).2.1 = []) :
    (s.convertReads addr n).1 = List.replicate n .stray := by
  induction n with
  | zero => rfl
  | succ n ih =>
    rw [State.convertReads_succ] at h ⊢
    obtain ⟨h1, h2⟩ := List.append_eq_nil_iff.mp h
    rw [List.replicate_succ', ← ih h1]
    unfold State.convertRead at h2 ⊢
    split at h2
    · cases h2
    · rw [if_neg (by assumption)]
      split at h2
      · simp_all
      · cases h2

/-- Stray beats answer zeros (R149). -/
theorem answerBeats_stray (n : Nat) (ds : List BeatData) :
    answerBeats (List.replicate n .stray) ds = List.replicate n 0 := by
  induction n with
  | zero => rfl
  | succ n ih => rw [List.replicate_succ, answerBeats, ih]; rfl

/-- A READ of stray beats alone that finds the tracker empty is answered at once with zeros (R148, R149). -/
theorem State.joinTracker_stray (s : State) (n : Nat) (es : List Event) (h : s.tracker = []) :
    s.joinTracker (List.replicate n .stray, [], es) = { s with
      nextRequest := s.nextRequest + 1, hostData := s.hostData ++ [List.replicate n 0] }.raiseAll es := by
  have hc : TrackedRead.complete ⟨s.nextRequest, List.replicate n .stray, [], 0⟩ = true := rfl
  simp [State.joinTracker, trackedRead, h, State.returnReads, List.takeWhile, List.dropWhile, hc, TrackedRead.answer,
    answerBeats_stray, State.raiseAll]

/-- A READ accepted behind a read that waits for data joins the tracker (R148, R149). -/
theorem State.joinTracker_behind (s : State) (out : List ReadBeat × List Nat × List Event)
    (h : s.tracker ≠ []) (hc : ∀ r ∈ s.tracker, r.complete = false) :
    s.joinTracker out = { s with
      tracker := s.tracker ++ [trackedRead s.nextRequest out], nextRequest := s.nextRequest + 1 }.raiseAll out.2.2 := by
  obtain ⟨r, rs, ht⟩ := List.exists_cons_of_ne_nil h
  have := hc r (ht ▸ List.mem_cons_self)
  simp [State.joinTracker, ht, State.returnReads, this, State.raiseAll]

/-! ### The end of a drain (R154) -/

/-- Without a drain, nothing ends. -/
theorem State.endDrain_none (s : State) (h : s.drain = none) : s.endDrain = s := by simp [State.endDrain, h]

/-- With no drain, the oldest request simply leaves. -/
theorem State.removeOldest_eq (s : State) (f : Flight) (fs : List Flight) (h : s.inFlight = f :: fs)
    (hd : s.drain = none) : s.removeOldest = { s with inFlight := fs } := by
  exact (State.endDrain_none { s with inFlight := s.inFlight.tail } hd).trans (by rw [h, List.tail_cons])

@[simp] theorem State.endDrain_mem (s : State) : s.endDrain.mem = s.mem := by
  unfold State.endDrain; split
  · rfl
  · split <;> rfl
@[simp] theorem State.endDrain_resetAsserted (s : State) : s.endDrain.resetAsserted = s.resetAsserted := by
  unfold State.endDrain; split
  · rfl
  · split <;> rfl
@[simp] theorem State.endDrain_upstream (s : State) : s.endDrain.upstream = s.upstream := by
  unfold State.endDrain; split
  · rfl
  · split <;> rfl
@[simp] theorem State.endDrain_nextRequest (s : State) : s.endDrain.nextRequest = s.nextRequest := by
  unfold State.endDrain; split
  · rfl
  · split <;> rfl
@[simp] theorem State.endDrain_writeQueue (s : State) : s.endDrain.writeQueue = s.writeQueue := by
  unfold State.endDrain; split
  · rfl
  · split <;> rfl
@[simp] theorem State.endDrain_tracker (s : State) : s.endDrain.tracker = s.tracker := by
  unfold State.endDrain; split
  · rfl
  · split <;> rfl
@[simp] theorem State.endDrain_hostData (s : State) : s.endDrain.hostData = s.hostData := by
  unfold State.endDrain; split
  · rfl
  · split <;> rfl
@[simp] theorem State.endDrain_inFlight (s : State) : s.endDrain.inFlight = s.inFlight := by
  unfold State.endDrain; split
  · rfl
  · split <;> rfl
@[simp] theorem State.endDrain_stagedCredits (s : State) : s.endDrain.stagedCredits = s.stagedCredits := by
  unfold State.endDrain; split
  · rfl
  · split <;> rfl
@[simp] theorem State.endDrain_scanNext (s : State) : s.endDrain.scanNext = s.scanNext := by
  unfold State.endDrain; split
  · rfl
  · split <;> rfl
@[simp] theorem State.endDrain_surfaces (s : State) : s.endDrain.surfaces = s.surfaces := by
  unfold State.endDrain; split
  · rfl
  · split <;> rfl
@[simp] theorem State.endDrain_damage (s : State) : s.endDrain.damage = s.damage := by
  unfold State.endDrain; split
  · rfl
  · split <;> rfl
@[simp] theorem State.endDrain_layers (s : State) : s.endDrain.layers = s.layers := by
  unfold State.endDrain; split
  · rfl
  · split <;> rfl
@[simp] theorem State.endDrain_comp (s : State) : s.endDrain.comp = s.comp := by
  unfold State.endDrain; split
  · rfl
  · split <;> rfl
@[simp] theorem State.endDrain_turn (s : State) : s.endDrain.turn = s.turn := by
  unfold State.endDrain; split
  · rfl
  · split <;> rfl
@[simp] theorem State.endDrain_job (s : State) : s.endDrain.job = s.job := by
  unfold State.endDrain; split
  · rfl
  · split <;> rfl
@[simp] theorem State.endDrain_streams (s : State) : s.endDrain.streams = s.streams := by
  unfold State.endDrain; split
  · rfl
  · split <;> rfl
@[simp] theorem State.endDrain_outputs (s : State) : s.endDrain.outputs = s.outputs := by
  unfold State.endDrain; split
  · rfl
  · split <;> rfl
@[simp] theorem State.endDrain_links (s : State) : s.endDrain.links = s.links := by
  unfold State.endDrain; split
  · rfl
  · split <;> rfl
@[simp] theorem State.endDrain_linkSettings (s : State) : s.endDrain.linkSettings = s.linkSettings := by
  unfold State.endDrain; split
  · rfl
  · split <;> rfl
@[simp] theorem State.endDrain_port (s : State) : s.endDrain.port = s.port := by
  unfold State.endDrain; split
  · rfl
  · split <;> rfl
@[simp] theorem State.endDrain_pending (s : State) : s.endDrain.pending = s.pending := by
  unfold State.endDrain; split
  · rfl
  · split <;> rfl

@[simp] theorem State.endDrain_ring (s : State) : s.endDrain.events.ring = s.events.ring := by
  unfold State.endDrain; split
  · rfl
  · split
    · exact EventWriter.raise_ring _ _
    · rfl

/-! ### Runs (R146, R148) -/

/-- A run goes on to its length: it is no longer than the limit and the list, its addresses are consecutive, and what
stands behind it does not go on, unless the limit is met. -/
theorem runOn_spec (n a : Nat) (bs : List Nat) :
    runOn n a bs ≤ n ∧ runOn n a bs ≤ bs.length ∧ (∀ i, i < runOn n a bs → bs[i]? = some (a + 8 * (i + 1))) ∧
      (runOn n a bs < n → bs[runOn n a bs]? ≠ some (a + 8 * (runOn n a bs + 1))) := by
  induction n generalizing a bs with
  | zero => simp [runOn]
  | succ n ih =>
    cases bs with
    | nil => simp [runOn]
    | cons b bs =>
      unfold runOn
      split
      · next h =>
        obtain ⟨h1, h2, h3, h4⟩ := ih b bs
        refine ⟨by omega, by simpa using h2, fun i hi => ?_, fun hn => ?_⟩
        · cases i with
          | zero => simp [h]
          | succ i => rw [List.getElem?_cons_succ, h3 i (by omega), h]; congr 1; omega
        · rw [List.getElem?_cons_succ]
          have := h4 (by omega)
          rwa [h, show a + 8 + 8 * (runOn n (a + 8) bs + 1) = a + 8 * (runOn n (a + 8) bs + 1 + 1) by omega, ← h] at this
      · next h => simpa using h

/-- The head run: the longest run of up to 16 beats of one stretch of one request at consecutive addresses (R146). -/
theorem headRun_spec (q : QueuedBeat) (qs : List QueuedBeat) : ∃ n, 1 ≤ n ∧ n ≤ 16 ∧ n ≤ (q :: qs).length ∧
    headRun (q :: qs) = (q :: qs).take n ∧
    (∀ i x, i < n → (q :: qs)[i]? = some x →
      x.request = q.request ∧ x.stretch = q.stretch ∧ x.beat.addr = q.beat.addr + 8 * i) ∧
    (n < 16 → ∀ x, (q :: qs)[n]? = some x →
      ¬ (x.request = q.request ∧ x.stretch = q.stretch ∧ x.beat.addr = q.beat.addr + 8 * n)) := by
  let p : QueuedBeat → Bool := fun x => x.request == q.request && x.stretch == q.stretch
  obtain ⟨h1, h2, h3, h4⟩ := runOn_spec 15 q.beat.addr ((qs.takeWhile p).map (·.beat.addr))
  have e : headRun (q :: qs) = q :: (qs.takeWhile p).take (runOn 15 q.beat.addr ((qs.takeWhile p).map (·.beat.addr))) := by
    simp [headRun, runLength, p]
  generalize runOn 15 q.beat.addr ((qs.takeWhile p).map (·.beat.addr)) = m at *
  rw [List.length_map] at h2
  have hw : ∀ (i : Nat) x, (qs.takeWhile p)[i]? = some x → qs[i]? = some x ∧ p x = true := by
    intro i x hx
    obtain ⟨hl, rfl⟩ := List.getElem?_eq_some_iff.mp hx
    refine ⟨?_, List.all_eq_true.mp (List.all_takeWhile) _ (List.getElem_mem hl)⟩
    obtain ⟨r, hr⟩ := List.takeWhile_prefix (l := qs) p
    conv => lhs; rw [← hr]
    rw [List.getElem?_append_left hl, List.getElem?_eq_getElem hl]
  have hlen : (qs.takeWhile p).length ≤ qs.length := (List.takeWhile_prefix p).length_le
  refine ⟨m + 1, by omega, by omega, by simp; omega, ?_, ?_, ?_⟩
  · rw [e, List.take_succ_cons]
    obtain ⟨r, hr⟩ := List.takeWhile_prefix (l := qs) p
    conv => rhs; rw [← hr]
    rw [List.take_append_of_le_length h2]
  · intro i x hi hx
    cases i with
    | zero => obtain rfl : q = x := by simpa using hx
              exact ⟨rfl, rfl, rfl⟩
    | succ i =>
      have ha := h3 i (by omega)
      rw [List.getElem?_map, Option.map_eq_some_iff] at ha
      obtain ⟨y, hy, ha⟩ := ha
      obtain ⟨hq, hp⟩ := hw i y hy
      rw [List.getElem?_cons_succ, hq] at hx
      obtain rfl := Option.some.inj hx
      simp only [p, Bool.and_eq_true, beq_iff_eq] at hp
      exact ⟨hp.1, hp.2, ha⟩
  · intro hm x hx
    rw [List.getElem?_cons_succ] at hx
    rintro ⟨hr, hs, ha⟩
    by_cases hmw : m < (qs.takeWhile p).length
    · obtain ⟨hq, -⟩ := hw m _ (List.getElem?_eq_getElem hmw)
      rw [hq] at hx
      obtain rfl := Option.some.inj hx
      apply h4 (by omega)
      rw [List.getElem?_map, List.getElem?_eq_getElem hmw, Option.map_some, ha]
    · have hd : (qs.dropWhile p)[0]? = some x := by
        have hq := hx
        rw [← List.takeWhile_append_dropWhile (p := p) (l := qs), List.getElem?_append_right (by omega)] at hq
        rwa [show m - (qs.takeWhile p).length = 0 by omega] at hq
      have := List.head?_dropWhile_not p qs
      rw [← List.head?_eq_getElem?] at hd
      rw [hd] at this
      simp [p, hr, hs] at this

/-! ### Requests that complete -/

/-- The completion of the last request in flight ends the drain: the active counts take the pending ones and REBALANCED is
raised (R154). -/
theorem State.removeOldest_drained (s : State) (x : Drain) (f : Flight) (h : s.drain = some x) (hf : s.inFlight = [f]) :
    s.removeOldest = ({ s with inFlight := [], activeCredits := x.counts, drain := none }).raise
      ⟨.rebalanced, 0x30, 0, 0, word x.counts.sum, word x.noted⟩ := by
  simp [State.removeOldest, State.endDrain, h, hf]

/-- With more in flight the drain goes on (R154). -/
theorem State.removeOldest_draining (s : State) (x : Drain) (f g : Flight) (fs : List Flight) (h : s.drain = some x)
    (hf : s.inFlight = f :: g :: fs) : s.removeOldest = { s with inFlight := g :: fs } := by
  simp [State.removeOldest, State.endDrain, h, hf]

@[simp] theorem State.dropJob_base (s : State) (j : Job) : (s.dropJob j).base = s.base := rfl

@[simp] theorem State.compRead_base (s : State) (found : List TileData) : (s.compRead found).base = s.base := by
  unfold State.compRead
  split
  · rfl
  · split <;> rfl

@[simp] theorem State.compWrite_base (s : State) : s.compWrite.base = s.base := by
  unfold State.compWrite
  split
  · rfl
  · dsimp only
    split
    · unfold State.jobWrite
      split
      · rw [State.completeTile_base, State.job_base]
      · rfl
    · rfl

/-- The completed write of a block changes the event writer alone (R162, R169). -/
theorem State.blockWritten_eq (s : State) (b : Block) (live : Bool) : ∃ w, s.blockWritten b live = { s with events := w } := by
  unfold State.blockWritten State.readbackFinished
  split
  · split
    · exact ⟨s.events, rfl⟩
    · exact ⟨_, rfl⟩
  · exact ⟨s.events, rfl⟩

/-! ### The next request of a read (R145, R148) -/

/-- A read with beats to issue asks for the longest run of up to 16 of them at consecutive addresses. -/
theorem TrackedRead.nextRun_spec (r : TrackedRead) (h : r.issued < r.down.length) :
    ∃ n, 1 ≤ n ∧ n ≤ 16 ∧ r.issued + n ≤ r.down.length ∧
      r.nextRun = ((r.down.drop r.issued).take n).map (·.addr) ∧
      ∀ (x y : DownBeat) (i : Nat), r.down[r.issued]? = some x → r.down[r.issued + i]? = some y →
        (i < n → y.addr = x.addr + 8 * i) ∧ (i = n → n < 16 → y.addr ≠ x.addr + 8 * i) := by
  obtain ⟨x, hx⟩ : ∃ x, r.down[r.issued]? = some x := ⟨_, List.getElem?_eq_getElem h⟩
  have hd : r.down.drop r.issued = x :: r.down.drop (r.issued + 1) := by
    rw [List.drop_eq_getElem_cons h]; congr 1
    rw [List.getElem?_eq_getElem h] at hx; exact Option.some.inj hx
  obtain ⟨h1, h2, h3, h4⟩ := runOn_spec 15 x.addr ((r.down.drop (r.issued + 1)).map (·.addr))
  have e : runLength ((r.down.drop r.issued).map (·.addr)) =
      runOn 15 x.addr ((r.down.drop (r.issued + 1)).map (·.addr)) + 1 := by
    rw [hd]; rfl
  generalize runOn 15 x.addr ((r.down.drop (r.issued + 1)).map (·.addr)) = m at *
  rw [List.length_map, List.length_drop] at h2
  refine ⟨m + 1, by omega, by omega, by omega, ?_, fun x' y i hx' hy => ?_⟩
  · unfold TrackedRead.nextRun; dsimp only; rw [e, List.map_take]
  · rw [hx] at hx'; obtain rfl := Option.some.inj hx'
    cases i with
    | zero => rw [Nat.add_zero, hx] at hy; obtain rfl := Option.some.inj hy
              exact ⟨fun _ => rfl, fun h => by omega⟩
    | succ i =>
      have g : ((r.down.drop (r.issued + 1)).map (·.addr))[i]? = some y.addr := by
        rw [List.getElem?_map, List.getElem?_drop, show r.issued + 1 + i = r.issued + (i + 1) by omega, hy]; rfl
      refine ⟨fun hi => ?_, fun hi hn => ?_⟩
      · have := h3 i (by omega); rw [g] at this; exact Option.some.inj this
      · obtain rfl : i = m := by omega
        have := h4 (by omega); rw [g] at this; exact fun hh => this (congrArg some hh)

end Sys2Proof.Machine
end

