-- ==== Sys2Proof/Laws/Notice.lean ====
section
/-! SUPPORT. What no control word and no command of the host touches, REBALANCE, READBACK and SOFT_RESET among them:
memory, the host's requests, the write queue, the read tracker, the clients of the requests in flight, the scanout
alternation, the queue of commands; and what the notice of a completed write beat keeps. -/

namespace Sys2Proof.Machine

/-- The part of the base that every command of the host keeps. -/
structure PathView where
  mem : Memory
  resetAsserted : Bool
  upstream : List UpRequest
  nextRequest : Nat
  writeQueue : List QueuedBeat
  tracker : List TrackedRead
  hostData : List (List BeatData)
  clients : List Client
  scanNext : OutputId
  pending : List Instr

/-- The path of a state. -/
def State.path (s : State) : PathView :=
  ⟨s.mem, s.resetAsserted, s.upstream, s.nextRequest, s.writeQueue, s.tracker, s.hostData,
    s.inFlight.map Flight.client, s.scanNext, s.pending⟩

/-- What keeps the base keeps the path. -/
theorem path_of_base {s t : State} (h : t.base = s.base) : t.path = s.path :=
  congrArg (fun b : Base => PathView.mk b.mem b.resetAsserted b.upstream b.nextRequest b.writeQueue b.tracker
    b.hostData b.clients b.scanNext b.pending) h

/-- Memory is part of the base. -/
theorem mem_of_base {s t : State} (h : t.base = s.base) : t.mem = s.mem := congrArg Base.mem h

/-- The ring is part of the base. -/
theorem ring_of_base {s t : State} (h : t.base = s.base) : t.events.ring = s.events.ring := congrArg Base.ring h

/-- The clients of the requests in flight are part of the base. -/
theorem clients_of_base {s t : State} (h : t.base = s.base) :
    t.inFlight.map Flight.client = s.inFlight.map Flight.client := congrArg Base.clients h

/-- The queue of commands is part of the base. -/
theorem pending_of_base {s t : State} (h : t.base = s.base) : t.pending = s.pending := congrArg Base.pending h

/-! ### SOFT_RESET, REBALANCE, READBACK -/

@[simp] theorem State.resetCompositor_base (s : State) : s.resetCompositor.base = s.base :=
  (foldl_base _ (fun t d => t.abandon_base d) bothOutputs s : _)

@[simp] theorem State.resetOutputs_base (s : State) : s.resetOutputs.base = s.base :=
  (foldl_base _ (fun t d => t.stopFetcher_base d) bothOutputs s : _)

@[simp] theorem State.resetLink_base (s : State) (d : OutputId) : (s.resetLink d).base = s.base := by
  simp [State.resetLink]

@[simp] theorem State.resetLinks_base (s : State) : s.resetLinks.base = s.base :=
  (foldl_base _ (fun t d => t.resetLink_base d) bothOutputs s : _)

@[simp] theorem State.resetTables_base (s : State) : s.resetTables.base = s.base := rfl

theorem Flight.cancelReadback_client (f : Flight) : f.cancelReadback.client = f.client := by
  unfold Flight.cancelReadback; split <;> rfl

@[simp] theorem State.cancelReadback_path (s : State) : s.cancelReadback.path = s.path := by
  have h : (s.inFlight.map Flight.cancelReadback).map Flight.client = s.inFlight.map Flight.client := by
    rw [List.map_map]; exact List.map_congr_left fun f _ => f.cancelReadback_client
  simp only [State.path, State.cancelReadback, h]

@[simp] theorem State.announceReset_path (s : State) (c : ResetCause) : (s.announceReset c).path = s.path := by
  simp [State.path, State.announceReset]

@[simp] theorem State.takeSoftReset_path (s : State) : s.takeSoftReset.path = s.path := by
  unfold State.takeSoftReset
  rw [State.announceReset_path, State.cancelReadback_path]
  exact path_of_base (by simp)

@[simp] theorem State.endDrain_path (s : State) : s.endDrain.path = s.path := by simp [State.path]

@[simp] theorem State.takeRebalance_path (s : State) : s.takeRebalance.path = s.path := by
  unfold State.takeRebalance
  split
  · exact path_of_base (by simp)
  · simp [State.path]

@[simp] theorem State.takeReadback_path (s : State) (a b c : Byte) : (s.takeReadback a b c).path = s.path := by
  unfold State.takeReadback
  split
  · exact path_of_base (by simp)
  · rfl

/-! ### Commands and control words (R158, R161) -/

@[simp] theorem State.takeCommandFields_path (s : State) (c o : Byte) (p : BitVec 16) :
    (s.takeCommandFields c o p).path = s.path := by
  unfold State.takeCommandFields
  split
  all_goals first
    | exact s.takeSoftReset_path
    | exact s.takeRebalance_path
    | exact s.takeReadback_path _ _ _
    | (apply path_of_base; simp)
    | rfl

@[simp] theorem State.takeConsumed_path (s : State) (w : Word) : (s.takeConsumed w).path = s.path := by
  unfold State.takeConsumed
  dsimp only
  split
  · rfl
  · exact path_of_base (by simp)

@[simp] theorem State.takeWord_path (s : State) (a : Nat) (w : Word) : (s.takeWord a w).path = s.path := by
  unfold State.takeWord
  repeat' split
  · rfl
  · exact path_of_base (by simp)
  · exact s.takeCommandFields_path _ _ _
  · rfl
  · exact s.takeConsumed_path w
  · rfl

@[simp] theorem State.captureAt_path (s : State) (b : WriteBeat) (a : Nat) : (s.captureAt b a).path = s.path := by
  unfold State.captureAt; split
  · rfl
  · exact s.takeWord_path _ _

@[simp] theorem State.controlCapture_path (s : State) (b : WriteBeat) : (s.controlCapture b).path = s.path := by
  simp [State.controlCapture]

/-- The notice of a write beat keeps the path (R147). -/
@[simp] theorem State.notice_path (s : State) (b : WriteBeat) : (s.notice b).path = s.path := by
  unfold State.notice
  rw [State.controlCapture_path]
  exact path_of_base (by simp)

/-! ### The events of SOFT_RESET (R164) -/

/-- What raising an event depends on and changes, the due marks apart: the mask, the queue and the lost count (R165). -/
def EventWriter.held (w : EventWriter) : BitVec 32 × List Event × Count := (w.mask, w.queue, w.lost)

/-- Raising an event acts alike on writers that hold the same. -/
theorem EventWriter.raise_held (v w : EventWriter) (e : Event) (h : v.held = w.held) :
    (v.raise e).held = (w.raise e).held := by
  simp only [EventWriter.held, Prod.mk.injEq] at h
  obtain ⟨h1, h2, h3⟩ := h
  unfold EventWriter.raise EventWriter.enabled EventWriter.lose
  rw [h1, h2, h3]
  split
  · split
    · simp [EventWriter.held]
    · split <;> simp [EventWriter.held, h1, h2, h3]
  · simp [EventWriter.held, h1, h2, h3]

/-- The same for several events. -/
theorem EventWriter.raiseAll_held (es : List Event) (v w : EventWriter) (h : v.held = w.held) :
    (es.foldl EventWriter.raise v).held = (es.foldl EventWriter.raise w).held := by
  induction es generalizing v w with
  | nil => exact h
  | cons e es ih => exact ih _ _ (EventWriter.raise_held v w e h)

/-- From s to t, events whose kinds are all among those given have been raised, and nothing else has changed the mask, the
queue and the lost count. -/
def Raised (kinds : List EventKind) (s t : State) : Prop :=
  ∃ es : List Event, (∀ e ∈ es, e.kind ∈ kinds) ∧ t.events.held = (es.foldl EventWriter.raise s.events).held

theorem Raised.of_held {kinds : List EventKind} {s t : State} (h : t.events.held = s.events.held) : Raised kinds s t :=
  ⟨[], by simp, h⟩

theorem Raised.trans {kinds : List EventKind} {s t u : State} (h : Raised kinds s t) (g : Raised kinds t u) :
    Raised kinds s u := by
  obtain ⟨es, h1, h2⟩ := h
  obtain ⟨fs, g1, g2⟩ := g
  refine ⟨es ++ fs, fun e he => (List.mem_append.mp he).elim (h1 e) (g1 e), ?_⟩
  rw [g2, List.foldl_append]
  exact EventWriter.raiseAll_held fs _ _ h2

theorem Raised.foldl {α : Type} {kinds : List EventKind} (f : State → α → State)
    (hf : ∀ s a, Raised kinds s (f s a)) (as : List α) (s : State) : Raised kinds s (as.foldl f s) := by
  induction as generalizing s with
  | nil => exact Raised.of_held rfl
  | cons a as ih => exact (hf s a).trans (ih _)

/-- A release of holds raises SLOT_FREED alone (R72, R101). -/
theorem State.releaseHolds_raised (s : State) (d : OutputId) (names : List SlotName) :
    Raised [.slotFreed] s (s.releaseHolds d names) := by
  unfold State.releaseHolds
  refine Raised.foldl _ (fun t n => ?_) names s
  refine ⟨((t.streams.get n.stream).releaseHold n.stream (t.pacingFrame n.stream) d n.slot).2, ?_, ?_⟩
  · unfold Stream.releaseHold Stream.freeSlot
    dsimp only
    split
    · simp
    · split
      · split
        · simp
        · split
          · simp
          · simp [streamEvent]
      · simp
  · unfold State.updateStream
    apply EventWriter.raiseAll_held
    split <;> rfl

/-- So does an abandonment (R73). -/
theorem State.abandon_raised (s : State) (d : OutputId) : Raised [.slotFreed] s (s.abandon d) := by
  have hu : ∀ u : State, u.events = s.events → Raised [.slotFreed] s
      (match (s.comp.get d).composition with | none => u | some k => u.releaseHolds d k.holds) := by
    intro u he
    have h : Raised [.slotFreed] s u := Raised.of_held (by rw [he])
    split
    · exact h
    · exact h.trans (u.releaseHolds_raised d _)
  unfold State.abandon
  apply hu
  split
  · rfl
  · split <;> rfl

theorem Raised.mono {kinds more : List EventKind} {s t : State} (h : Raised kinds s t) (hk : ∀ k ∈ kinds, k ∈ more) :
    Raised more s t := by
  obtain ⟨es, h1, h2⟩ := h
  exact ⟨es, fun e he => hk _ (h1 e he), h2⟩

/-- The reset of a link raises LINK_STATE alone (R127, R140). -/
theorem State.resetLink_raised (s : State) (d : OutputId) : Raised [.linkState] s (s.resetLink d) := by
  refine ⟨((s.links.get d).toDown d (s.frameOf d) true).2, ?_, ?_⟩
  · unfold Link.toDown
    dsimp only
    split <;> simp [linkStateEvent]
  · have h : ((s.links.get d).toDown d (s.frameOf d) true).1.state ≠ .error := by
      unfold Link.toDown; exact fun h => by cases h
    unfold State.resetLink State.runLink State.applyLink
    dsimp only
    rw [if_neg (fun g => h g.1)]
    split <;> rfl

/-- SOFT_RESET raises the events of the rules it calls, and RESET_DONE after them (R164). -/
theorem State.takeSoftReset_raised (s : State) : ∃ es : List Event,
    (∀ e ∈ es, e.kind = .slotFreed ∨ e.kind = .linkState) ∧
    s.takeSoftReset.events.held = (((es.foldl EventWriter.raise s.events)).raise ⟨.resetDone, 0, 0, 0, 2, 0⟩).held := by
  have h1 : Raised [.slotFreed, .linkState] s s.resetCompositor :=
    ((Raised.foldl _ (fun t d => t.abandon_raised d) bothOutputs s).trans (Raised.of_held (by rfl))).mono (by simp)
  have h2 : Raised [.slotFreed, .linkState] s.resetCompositor s.resetCompositor.resetOutputs :=
    Raised.of_held (by generalize s.resetCompositor = t; rfl)
  have h3 : ∀ t : State, Raised [.slotFreed, .linkState] t t.resetLinks := fun t =>
    ((Raised.foldl _ (fun t d => t.resetLink_raised d) bothOutputs t).trans (Raised.of_held (by rfl))).mono (by simp)
  obtain ⟨es, he, hq⟩ := (h1.trans h2).trans (h3 _)
  refine ⟨es, fun e hm => by simpa using he e hm, ?_⟩
  rw [← EventWriter.raise_held _ _ ⟨.resetDone, 0, 0, 0, 2, 0⟩ hq]
  unfold State.takeSoftReset
  generalize s.resetCompositor.resetOutputs.resetLinks = u
  exact EventWriter.raise_held { u.resetTables.cancelReadback.events with cause := .soft } u.events _ rfl

/-! ### The next block (R170) -/

/-- Every block has its place in the order. -/
theorem mem_blockOrder (b : Block) : b ∈ blockOrder := by
  rcases b with _ | d | k | _ <;> first | (cases d; all_goals decide) | (cases k; all_goals decide) | decide

/-- No block is next when none is due. -/
theorem EventWriter.nextBlock_none (w : EventWriter) : w.nextBlock = none ↔ ∀ b, w.due.has b = false := by
  unfold EventWriter.nextBlock
  rw [List.find?_eq_none]
  exact ⟨fun h b => by simpa using h b (mem_blockOrder b), fun h b _ => by simp [h b]⟩

/-- The next block is the first due one in the order. -/
theorem EventWriter.nextBlock_at (w : EventWriter) (earlier later : List Block) (b : Block)
    (ho : blockOrder = earlier ++ b :: later) (he : ∀ x ∈ earlier, w.due.has x = false) (hb : w.due.has b = true) :
    w.nextBlock = some b := by
  unfold EventWriter.nextBlock
  rw [ho, List.find?_append, List.find?_eq_none.mpr (by simpa using he)]
  simp [hb]

end Sys2Proof.Machine
end

