-- ==== Sys2Proof/Laws/Tables.lean ====
section
/-! SUPPORT. The checks of entries and commands: which one fails first (R3, R42, R80, R108, R162); and what each table
does with an entry that passes (R4, R6, R42, R43, R81, R106, R128, R152). -/

namespace Sys2Proof.Machine

/-! ### Tables of checks -/

/-- The first check that fails decides, whatever stands behind it. -/
theorem firstFailure_at {α : Type} (earlier later : List (Bool × α)) (what : α) (h : ∀ c ∈ earlier, c.1 = true) :
    firstFailure (earlier ++ (false, what) :: later) = some what := by
  induction earlier with
  | nil => rfl
  | cons c cs ih =>
    have hc := h c List.mem_cons_self
    obtain ⟨b, w⟩ := c
    simp only at hc
    subst hc
    exact ih fun x hx => h x (List.mem_cons_of_mem _ hx)

/-- No check fails when all hold. -/
theorem firstFailure_none {α : Type} (checks : List (Bool × α)) (h : ∀ c ∈ checks, c.1 = true) :
    firstFailure checks = none := by
  induction checks with
  | nil => rfl
  | cons c cs ih =>
    have hc := h c List.mem_cons_self
    obtain ⟨b, w⟩ := c
    simp only at hc
    subst hc
    exact ih fun x hx => h x (List.mem_cons_of_mem _ hx)

/-- The first check that fails, of a table of checks given by its reason codes and operands. -/
theorem firstFailure_code (checks : List (Bool × (Reason × Nat))) (earlier later : List (Bool × Nat × Nat))
    (code b : Nat) (h : checks.map (fun c => (c.1, reasonCode c.2.1, c.2.2)) = earlier ++ (false, code, b) :: later)
    (hp : ∀ c ∈ earlier, c.1 = true) : ∃ r, firstFailure checks = some (r, b) ∧ reasonCode r = code := by
  obtain ⟨es, cs, rfl, he, hc⟩ := List.map_eq_append_iff.mp h
  obtain ⟨c, ls, rfl, hcc, -⟩ := List.map_eq_cons_iff.mp hc
  obtain ⟨x, r, n⟩ := c
  simp only [Prod.mk.injEq] at hcc
  obtain ⟨rfl, hr, rfl⟩ := hcc
  refine ⟨r, firstFailure_at es ls (r, n) fun c hm => ?_, hr⟩
  exact hp _ (he ▸ List.mem_map_of_mem hm)

/-! ### Clamping (R43, R128, R152) -/

/-- A value brought into a range. -/
theorem clamp_eq (lo hi n : Nat) (h : lo ≤ hi) : clamp lo hi n = max lo (min hi n) := by
  unfold clamp; split
  · omega
  · split <;> omega

/-- VALUE_CLAMPED is raised for the fields that lie outside their range. -/
theorem clampEvents_eq (table : Nat) (fields : List (Nat × Nat × Nat × Nat)) :
    clampEvents table fields =
      (fields.filter fun f => decide (f.2.2.2 < f.2.1 ∨ f.2.2.1 < f.2.2.2)).map fun f =>
        ⟨.valueClamped, table, 0, 0, word f.1, word f.2.2.2⟩ := by
  induction fields with
  | nil => rfl
  | cons f fs ih =>
    unfold clampEvents at ih ⊢
    rw [List.filterMap_cons, List.filter_cons, ih]
    by_cases h : f.2.2.2 < f.2.1 ∨ f.2.2.1 < f.2.2.2
    · have : clamp f.2.1 f.2.2.1 f.2.2.2 ≠ f.2.2.2 := by unfold clamp; split <;> (try split) <;> omega
      simp only [this, h, if_false, decide_true, if_true]; rfl
    · have : clamp f.2.1 f.2.2.1 f.2.2.2 = f.2.2.2 := by unfold clamp; split <;> (try split) <;> omega
      simp only [this, h, if_true, decide_false]; rfl

/-- The credit entry (R152). -/
theorem State.applyCredit_eq (s : State) (ws : List Word) (c : Credits) (hc : c = creditEntry ws) :
    s.applyCredit ws =
      ({ s with stagedCredits := ⟨max 1 (min 16 c.pass), max 1 (min 16 c.scanA), max 1 (min 16 c.scanB),
          max 1 (min 16 c.comp), max 1 (min 16 c.stat)⟩ }).raiseAll
        (([(0, c.pass), (1, c.scanA), (2, c.scanB), (3, c.comp), (4, c.stat)].filter fun f : Nat × Nat =>
          decide (f.2 < 1 ∨ 16 < f.2)).map fun f : Nat × Nat => ⟨.valueClamped, 7, 0, 0, word f.1, word f.2⟩) := by
  subst hc
  unfold State.applyCredit
  simp only [Credits.clamped, clamp_eq 1 16 _ (by decide), clampEvents_eq]
  congr 1
  generalize creditEntry ws = c
  have h : [(0, 1, 16, c.pass), (1, 1, 16, c.scanA), (2, 1, 16, c.scanB), (3, 1, 16, c.comp), (4, 1, 16, c.stat)] =
      [(0, c.pass), (1, c.scanA), (2, c.scanB), (3, c.comp), (4, c.stat)].map
        fun f : Nat × Nat => (f.1, 1, 16, f.2) := rfl
  rw [h, List.filter_map, List.map_map]
  rfl

/-- The link settings entry (R128). -/
theorem State.applyLinkSettings_eq (s : State) (ws : List Word) (x : LinkSettings) (hx : x = linkEntry ws) :
    s.applyLinkSettings ws =
      ({ s with linkSettings := ⟨max 4 (min 64 x.confirmTimeout), min 8 x.replayLimit, min 3 x.reinitLimit⟩ }).raiseAll
        (([(0, x.confirmTimeout, 4, 64), (1, x.replayLimit, 0, 8), (2, x.reinitLimit, 0, 3)].filter
          fun f : Nat × Nat × Nat × Nat => decide (f.2.1 < f.2.2.1 ∨ f.2.2.2 < f.2.1)).map
          fun f : Nat × Nat × Nat × Nat => ⟨.valueClamped, 8, 0, 0, word f.1, word f.2.1⟩) := by
  subst hx
  unfold State.applyLinkSettings
  simp only [LinkSettings.clamped, clamp_eq 4 64 _ (by decide), clamp_eq 0 8 _ (by decide), clamp_eq 0 3 _ (by decide),
    clampEvents_eq, Nat.zero_max]
  congr 1
  generalize linkEntry ws = x
  have h : [(0, 4, 64, x.confirmTimeout), (1, 0, 8, x.replayLimit), (2, 0, 3, x.reinitLimit)] =
      [(0, x.confirmTimeout, 4, 64), (1, x.replayLimit, 0, 8), (2, x.reinitLimit, 0, 3)].map
        fun f : Nat × Nat × Nat × Nat => (f.1, f.2.2.1, f.2.2.2, f.2.1) := rfl
  rw [h, List.filter_map, List.map_map]
  rfl

/-! ### Layer entries (R42, R43) -/

/-- A layer entry that passes the six checks (R42, R43). -/
theorem State.applyLayer_pass (s : State) (d : OutputId) (i : Nat) (ws : List Word) (e : LayerEntry)
    (he : e = layerEntry ws) (h1 : e.enabled ≤ 1) (h2 : e.content ≤ 2) (h3 : e.blend ≤ 1)
    (h4 : (e.content = 1 → e.index ≤ 31) ∧ (e.content = 2 → e.index ≤ 1))
    (h5 : e.sx ≤ 2047 ∧ e.sy ≤ 2047 ∧ e.sw ≤ 2047 ∧ e.sh ≤ 2047)
    (h6 : -4096 ≤ e.dx ∧ e.dx ≤ 4095 ∧ -4096 ≤ e.dy ∧ e.dy ≤ 4095) :
    s.applyLayer d i ws =
      (s.setLayers d { s.layers.get d with
        staged := (s.layers.get d).staged.setIfInBounds i
          ⟨e.enabled == 1, if e.content = 0 then .solid else if e.content = 1 then .surface else .stream, e.index, e.sx,
          e.sy, e.sw, e.sh, e.dx, e.dy, max 1 (min 4 e.mag), e.opacity, if e.blend = 0 then .copy else .blend,
          e.colour⟩ }).raiseAll
        (if e.mag < 1 ∨ 4 < e.mag then [⟨.valueClamped, 2 + outputNumber d, 0, 0, word i, word e.mag⟩] else []) := by
  have hc : contentOf e.content = if e.content = 0 then .solid else if e.content = 1 then .surface else .stream := by
    unfold contentOf
    match e.content with
    | 0 => rfl
    | 1 => rfl
    | _ + 2 => rfl
  have hi : e.indexFits = true := by
    unfold LayerEntry.indexFits
    rw [hc]
    by_cases c0 : e.content = 0
    · simp [c0]
    · by_cases c1 : e.content = 1
      · simpa [c1] using h4.1 c1
      · simpa [c0, c1] using h4.2 (by omega)
  have hn : firstFailure e.checks = none := by
    apply firstFailure_none
    intro c hc
    simp only [LayerEntry.checks, List.mem_cons, List.not_mem_nil, or_false] at hc
    rcases hc with rfl | rfl | rfl | rfl | rfl | rfl
    · simpa using h1
    · simpa using h2
    · simpa using h3
    · exact hi
    · simpa [Bool.and_assoc] using h5
    · simpa [cornerFits, Bool.and_assoc] using h6
  unfold State.applyLayer
  rw [← he]
  dsimp only
  rw [hn]
  simp only [LayerEntry.record, clamp_eq 1 4 _ (by decide), hc, clampEvents_eq, blendOf]
  congr 1
  simp only [List.filter_cons, List.filter_nil]
  have ht : tableNumber (.layer d) = 2 + outputNumber d := by cases d <;> rfl
  rw [ht]
  split
  · next h => rw [if_pos (by simpa using h)]; rfl
  · next h => rw [if_neg (by simpa using h)]; rfl

/-- A layer entry is refused by the first check that it fails, with the check's reason and number (R42). -/
theorem State.applyLayer_refused (s : State) (d : OutputId) (i : Nat) (ws : List Word) (e : LayerEntry)
    (he : e = layerEntry ws) (earlier later : List (Bool × Nat × Nat)) (code step : Nat)
    (h : [(decide (e.enabled ≤ 1), 6, 1), (decide (e.content ≤ 2), 6, 2), (decide (e.blend ≤ 1), 6, 3),
        (decide ((e.content = 1 → e.index ≤ 31) ∧ (2 ≤ e.content → e.index ≤ 1)), 4, 4),
        (decide (e.sx ≤ 2047 ∧ e.sy ≤ 2047 ∧ e.sw ≤ 2047 ∧ e.sh ≤ 2047), 5, 5),
        (decide (-4096 ≤ e.dx ∧ e.dx ≤ 4095 ∧ -4096 ≤ e.dy ∧ e.dy ≤ 4095), 5, 6)] =
          earlier ++ (false, code, step) :: later)
    (hp : ∀ c ∈ earlier, c.1 = true) :
    s.applyLayer d i ws = s.raise ⟨.tableRefused, 2 + outputNumber d, 0, code, word i, word step⟩ := by
  have hi : e.indexFits = decide ((e.content = 1 → e.index ≤ 31) ∧ (2 ≤ e.content → e.index ≤ 1)) := by
    unfold LayerEntry.indexFits contentOf
    match e.content with
    | 0 => simp
    | 1 => simp
    | n + 2 => simp
  have hm : e.checks.map (fun c => (c.1, reasonCode c.2.1, c.2.2)) = earlier ++ (false, code, step) :: later := by
    rw [← h]
    simp [LayerEntry.checks, reasonCode, hi, cornerFits, Bool.and_assoc]
  obtain ⟨r, hf, hr⟩ := firstFailure_code _ _ _ _ _ hm hp
  have ht : tableNumber (.layer d) = 2 + outputNumber d := by cases d <;> rfl
  unfold State.applyLayer
  rw [← he]
  dsimp only
  rw [hf, ht, ← hr]; rfl

/-! ### Surface entries (R3 to R6) -/

/-- The first element of a list, counting from n, that a search accepts. -/
theorem findSome?_zipIdx {α β : Type} (f : α × Nat → Option β) (b : β) (x : α) (l : List α) (n j : Nat)
    (hx : l[j]? = some x) (hf : f (x, n + j) = some b) (hb : ∀ m y, m < j → l[m]? = some y → f (y, n + m) = none) :
    (l.zipIdx n).findSome? f = some b := by
  induction l generalizing n j with
  | nil => exact nomatch hx
  | cons a l ih =>
    rw [List.zipIdx_cons, List.findSome?_cons]
    cases j with
    | zero =>
      have hx : a = x := by simpa using hx
      subst hx
      rw [Nat.add_zero] at hf
      rw [hf]
    | succ j =>
      have h0 := hb 0 a (Nat.succ_pos j) rfl
      rw [Nat.add_zero] at h0
      rw [h0]
      refine ih (n + 1) j (by simpa using hx) ?_ fun m y hm hy => ?_
      · rw [← hf, Nat.add_assoc, Nat.add_comm 1 j]
      · have := hb (m + 1) y (by omega) (by simpa using hy)
        rw [← this, Nat.add_assoc, Nat.add_comm 1 m]

/-- The lowest-numbered other BOUND surface whose alias range shares a byte with a range (R3 step 11, R5). -/
theorem State.overlapping_some (s : State) (i base len j : Nat) (x : Surface) (r : AliasRange) (hx : s.surface j = some x)
    (hr : x.view = some r) (hb : x.geometry.bound = true) (hj : j ≠ i)
    (ho : base < r.base + x.geometry.pitch / 2 * x.geometry.height ∧ r.base < base + len)
    (hl : ∀ m y q, m < j → m ≠ i → s.surface m = some y → y.view = some q → y.geometry.bound = true →
      ¬ (base < q.base + y.geometry.pitch / 2 * y.geometry.height ∧ q.base < base + len)) :
    s.overlapping i base len = some j := by
  unfold State.overlapping
  apply findSome?_zipIdx _ j x
  · simpa [State.surface] using hx
  · simp only [hr, Nat.zero_add]
    rw [if_pos]
    refine ⟨hj, hb, ?_⟩
    simp only [rangesOverlap, Bool.and_eq_true, decide_eq_true_eq]
    exact ho
  · intro m y hm hy
    have hy : s.surface m = some y := by simpa [State.surface] using hy
    cases hq : y.view with
    | none => rfl
    | some q =>
      simp only [Nat.zero_add]
      rw [if_neg]
      rintro ⟨hne, hyb, hov⟩
      simp only [rangesOverlap, Bool.and_eq_true, decide_eq_true_eq] at hov
      exact hl m y q hm hne hy hq hyb hov

/-- No other BOUND surface's alias range shares a byte with a range (R3 step 11). -/
theorem State.overlapping_none (s : State) (i base len : Nat)
    (h : ∀ m y q, m ≠ i → s.surface m = some y → y.view = some q → y.geometry.bound = true →
      ¬ (base < q.base + y.geometry.pitch / 2 * y.geometry.height ∧ q.base < base + len)) :
    s.overlapping i base len = none := by
  unfold State.overlapping
  rw [List.findSome?_eq_none_iff]
  rintro ⟨y, m⟩ hmem
  have hy : s.surface m = some y := by simpa [State.surface] using List.mem_zipIdx_iff_getElem?.mp hmem
  cases hq : y.view with
  | none => rfl
  | some q =>
    dsimp only
    rw [if_neg]
    rintro ⟨hne, hyb, hov⟩
    simp only [rangesOverlap, Bool.and_eq_true, decide_eq_true_eq] at hov
    exact h m y q hne hy hq hyb hov

/-- Steps 1 to 10 of R3, with the reason code and operand B of a refusal (R5). -/
theorem State.surfaceChecks_eq (s : State) (i : Nat) (e : SurfaceEntry) (checks : List (Bool × Nat × Nat))
    (hc : checks =
      [(decide (e.binding ≤ 1), 6, 1),
       (decide ((s.streams.get .S0).state = .stopped ∨ i ∉ (s.streams.get .S0).positions.take (s.streams.get .S0).count),
         9, 0),
       (decide ((s.streams.get .S1).state = .stopped ∨ i ∉ (s.streams.get .S1).positions.take (s.streams.get .S1).count),
         9, 1)] ++
      (if e.binding = 0 then [] else
        [(decide (e.formatCode = 1 ∨ e.formatCode = 2), 6, 3), (decide (e.aliasCode ≤ 2), 6, 4),
         (decide (e.base % 64 = 0), 7, 5), (decide (e.aliasCode ≠ 0 → e.aliasBase % 64 = 0), 7, 6),
         (decide (1 ≤ e.width ∧ e.width ≤ 2048 ∧ 1 ≤ e.height ∧ e.height ≤ 2048), 5, 7),
         (decide (e.pitch % 64 = 0 ∧ e.width * 4 ≤ e.pitch ∧ e.pitch ≤ 16384), 5, 8),
         (decide (e.base + e.pitch * (e.height - 1) + e.width * 4 ≤ 0x0FFFC000), 5, 9),
         (decide (e.aliasCode ≠ 0 → e.aliasBase + e.pitch / 2 * e.height ≤ 0x10000000), 5, 10)])) :
    (s.surfaceChecks i e ++ if e.binding = 0 then [] else bindChecks e).map (fun c => (c.1, reasonCode c.2.1, c.2.2)) =
      checks := by
  subst hc
  have hu (k : StreamId) : (!s.inUseBy i k) =
      decide ((s.streams.get k).state = .stopped ∨ i ∉ (s.streams.get k).positions.take (s.streams.get k).count) := by
    cases hst : (s.streams.get k).state <;> simp [State.inUseBy, Stream.surfaces, hst]
  have ha (p : Prop) [Decidable p] : (!(e.aliasCode != 0) || decide p) = decide (e.aliasCode ≠ 0 → p) := by
    by_cases h : e.aliasCode = 0 <;> simp [h]
  by_cases hb : e.binding = 0
  · simp [State.surfaceChecks, hb, hu, reasonCode]
  · simp only [State.surfaceChecks, hb, if_false, bindChecks, hu, ha]
    simp [reasonCode, Bool.and_assoc, Config.ringBase, Config.aliasBase]
    refine ⟨rfl, ?_⟩
    by_cases h : e.aliasCode = 0
    · simp [h]
    · simp [h]

/-- A surface entry that fails one of steps 1 to 10 is refused by the first (R3, R5). -/
theorem State.applySurface_refused (s : State) (i : Nat) (ws : List Word) (e : SurfaceEntry) (he : e = surfaceEntry ws)
    (earlier later : List (Bool × Nat × Nat)) (code b : Nat)
    (hm : (s.surfaceChecks i e ++ if e.binding = 0 then [] else bindChecks e).map
      (fun c => (c.1, reasonCode c.2.1, c.2.2)) = earlier ++ (false, code, b) :: later)
    (hp : ∀ c ∈ earlier, c.1 = true) :
    s.applySurface i ws = s.raise ⟨.tableRefused, 1, 0, code, word i, word b⟩ := by
  have hall : (s.surfaceChecks i e ++ if e.binding = 0 then [] else bindChecks e ++ s.overlapCheck i e) =
      (s.surfaceChecks i e ++ if e.binding = 0 then [] else bindChecks e) ++
        (if e.binding = 0 then [] else s.overlapCheck i e) := by
    split <;> simp
  have hm' : ((s.surfaceChecks i e ++ if e.binding = 0 then [] else bindChecks e) ++
        (if e.binding = 0 then [] else s.overlapCheck i e)).map (fun c => (c.1, reasonCode c.2.1, c.2.2)) =
      earlier ++ (false, code, b) ::
        (later ++ (if e.binding = 0 then [] else s.overlapCheck i e).map fun c => (c.1, reasonCode c.2.1, c.2.2)) := by
    rw [List.map_append, hm]; simp
  obtain ⟨r, hf, hr⟩ := firstFailure_code _ _ _ _ _ hm' hp
  unfold State.applySurface State.surfaceRefusal
  rw [← he, hall, hf, ← hr]; rfl

/-- The refusal of an entry that passes steps 1 to 10: step 11 alone (R3). -/
theorem State.surfaceRefusal_pass (s : State) (i : Nat) (e : SurfaceEntry)
    (hp : ∀ c ∈ (s.surfaceChecks i e ++ if e.binding = 0 then [] else bindChecks e).map
      (fun c => (c.1, reasonCode c.2.1, c.2.2)), c.1 = true) :
    s.surfaceRefusal i e = if e.binding = 0 then none else firstFailure (s.overlapCheck i e) := by
  have append : ∀ (as bs : List (Bool × (Reason × Nat))), (∀ c ∈ as, c.1 = true) →
      firstFailure (as ++ bs) = firstFailure bs := by
    intro as bs h
    induction as with
    | nil => rfl
    | cons c cs ih =>
      have hc := h c List.mem_cons_self
      obtain ⟨x, w⟩ := c
      simp only at hc
      subst hc
      exact ih fun x hx => h x (List.mem_cons_of_mem _ hx)
  have hp' : ∀ c ∈ (s.surfaceChecks i e ++ if e.binding = 0 then [] else bindChecks e), c.1 = true :=
    fun c hc => hp _ (List.mem_map_of_mem hc)
  unfold State.surfaceRefusal
  split
  · next h =>
    rw [if_pos h] at hp'
    exact firstFailure_none _ hp'
  · next h =>
    rw [if_neg h] at hp'
    rw [← List.append_assoc]
    exact append _ _ hp'

/-- A bind that passes steps 1 to 10 and overlaps is refused with ALIAS_OVERLAP (R3, R5). -/
theorem State.applySurface_overlap (s : State) (i : Nat) (ws : List Word) (e : SurfaceEntry) (he : e = surfaceEntry ws)
    (hp : ∀ c ∈ (s.surfaceChecks i e ++ if e.binding = 0 then [] else bindChecks e).map
      (fun c => (c.1, reasonCode c.2.1, c.2.2)), c.1 = true) (hb : e.binding ≠ 0) (ha : e.aliasCode ≠ 0) (j : Nat)
    (ho : s.overlapping i e.aliasBase (e.pitch / 2 * e.height) = some j) :
    s.applySurface i ws = s.raise ⟨.tableRefused, 1, 0, 8, word i, word j⟩ := by
  unfold State.applySurface
  rw [← he, s.surfaceRefusal_pass i e hp, if_neg hb]
  unfold State.overlapCheck
  rw [if_neg ha, ho]
  rfl

/-- An entry that passes every check writes the record and damages the layers that show the surface (R4, R6). -/
theorem State.applySurface_applies (s : State) (i : Nat) (ws : List Word) (e : SurfaceEntry) (he : e = surfaceEntry ws)
    (hp : ∀ c ∈ (s.surfaceChecks i e ++ if e.binding = 0 then [] else bindChecks e).map
      (fun c => (c.1, reasonCode c.2.1, c.2.2)), c.1 = true)
    (ho : e.binding = 0 ∨ e.aliasCode = 0 ∨ s.overlapping i e.aliasBase (e.pitch / 2 * e.height) = none) :
    ∃ D, s.applySurface i ws = { s with surfaces := s.surfaces.setIfInBounds i e.record, damage := D } ∧
      ∀ d, D.get d = if (s.outputState d).live then
          ⟨(((s.layers.get d).active.toList.filter fun l => l.enabled && l.showsSurface i).map fun l =>
            (l.dx, l.dy, l.sw * l.mag, l.sh * l.mag)).foldl
              (fun l q => l.insertPixels (s.outputs.get d).active q.1 q.2.1 q.2.2.1 q.2.2.2) (s.damage.get d).list,
            (s.damage.get d).previous⟩
        else s.damage.get d := by
  have hn : s.surfaceRefusal i e = none := by
    rw [s.surfaceRefusal_pass i e hp]
    split
    · rfl
    · next hb =>
      unfold State.overlapCheck
      rcases ho with h | h | h
      · exact absurd h hb
      · rw [if_pos h]; rfl
      · split
        · rfl
        · rw [h]; rfl
  unfold State.applySurface
  rw [← he, hn]
  dsimp only
  rw [State.damageLayers_eq _ _ _ fun _ => rfl]
  refine ⟨_, rfl, fun d => ?_⟩
  cases d <;> rfl

/-! ### Stream entries (R80, R81) -/

/-- The checks of R80, with the reason code and step of a refusal. -/
theorem State.streamChecks_eq (s : State) (k : StreamId) (e : StreamEntry) (slots : List Nat)
    (hs : slots = e.positions.take e.count) (checks : List (Bool × Nat × Nat))
    (hc : checks =
      [(decide ((s.streams.get k).state = .stopped), 3, 1),
       (decide (∀ sl ∈ (s.streams.get k).slots, sl.state ≠ .retired), 3, 2),
       (decide (e.pacing ≤ 1), 6, 3), (decide (2 ≤ e.count ∧ e.count ≤ 6), 4, 4),
       (decide (1 ≤ e.rateN ∧ e.rateN ≤ 120 ∧ 1 ≤ e.rateD ∧ e.rateD ≤ 120), 4, 5),
       (decide (∀ j ∈ slots, (s.geometryOf j).bound = true), 5, 6), (decide slots.Nodup, 5, 7),
       (decide (∀ i ∈ slots, ∀ j ∈ slots, (s.geometryOf i).width = (s.geometryOf j).width ∧
         (s.geometryOf i).height = (s.geometryOf j).height), 5, 8),
       (decide (∀ j ∈ slots, 64 ≤ (s.geometryOf j).base), 5, 9),
       (decide (∀ j ∈ slots, j ∉ (s.streams.get (otherStream k)).positions.take (s.streams.get (otherStream k)).count),
         5, 10)]) :
    (s.streamChecks k e).map (fun c => (c.1, reasonCode c.2.1, c.2.2)) = checks := by
  subst hc
  have he : s.slotsEqual slots = decide (∀ i ∈ slots, ∀ j ∈ slots, (s.geometryOf i).width = (s.geometryOf j).width ∧
      (s.geometryOf i).height = (s.geometryOf j).height) := by
    rw [Bool.eq_iff_iff, decide_eq_true_eq]
    cases slots with
    | nil => simp [State.slotsEqual]
    | cons a rest =>
      simp only [State.slotsEqual, List.all_eq_true, Bool.and_eq_true, beq_iff_eq]
      constructor
      · intro h
        have h' : ∀ i ∈ a :: rest, (s.geometryOf i).width = (s.geometryOf a).width ∧
            (s.geometryOf i).height = (s.geometryOf a).height := by
          intro i hi
          rcases List.mem_cons.mp hi with rfl | hi
          · exact ⟨rfl, rfl⟩
          · exact h i hi
        exact fun i hi j hj => ⟨(h' i hi).1.trans (h' j hj).1.symm, (h' i hi).2.trans (h' j hj).2.symm⟩
      · exact fun h j hj => h j (List.mem_cons_of_mem a hj) a List.mem_cons_self
  subst hs
  have hst : ((s.streams.get k).state == .stopped) = decide ((s.streams.get k).state = .stopped) := by
    cases (s.streams.get k).state <;> rfl
  have hall {α : Type} (l : List α) (q : α → Bool) : l.all q = decide (∀ x ∈ l, q x = true) := by
    rw [Bool.eq_iff_iff]; simp
  simp only [State.streamChecks, he, hst, State.slotsBound, State.slotsBased, hall, List.map_cons, List.map_nil, reasonCode]
  simp [Bool.and_assoc, Stream.surfaces]

/-- A stream entry is refused by the first check that it fails (R80). -/
theorem State.applyStream_refused (s : State) (k : StreamId) (ws : List Word) (e : StreamEntry) (he : e = streamEntry ws)
    (earlier later : List (Bool × Nat × Nat)) (code step : Nat)
    (hm : (s.streamChecks k e).map (fun c => (c.1, reasonCode c.2.1, c.2.2)) = earlier ++ (false, code, step) :: later)
    (hp : ∀ c ∈ earlier, c.1 = true) :
    s.applyStream k ws = s.raise ⟨.tableRefused, 4, 0, code, word (streamNumber k), word step⟩ := by
  obtain ⟨r, hf, hr⟩ := firstFailure_code _ _ _ _ _ hm hp
  unfold State.applyStream
  rw [← he]
  dsimp only
  rw [hf, ← hr]; rfl

/-- A stream entry that passes writes the record and fresh slots (R81). -/
theorem State.applyStream_applies (s : State) (k : StreamId) (ws : List Word) (e : StreamEntry)
    (he : e = streamEntry ws)
    (hp : ∀ c ∈ (s.streamChecks k e).map (fun c => (c.1, reasonCode c.2.1, c.2.2)), c.1 = true) :
    s.applyStream k ws =
      ((s.setStream k (e.record (s.streams.get k))).mark (·.markStream k)).raiseAll
        (if e.rateD < e.rateN then [⟨.valueClamped, 4, 0, 0, word (streamNumber k), word e.rateN⟩] else []) := by
  have hn : firstFailure (s.streamChecks k e) = none :=
    firstFailure_none _ fun c hc => hp _ (List.mem_map_of_mem hc)
  unfold State.applyStream
  rw [← he]
  dsimp only
  rw [hn]; rfl

/-! ### OUTPUT_START and READBACK (R108, R162) -/

/-- Steps 2 to 9 of R108, with the reason code and step of a refusal. -/
theorem Timing.checks_eq (t : Timing) (checks : List (Bool × Nat × Nat))
    (hc : checks =
      [(decide (16 ≤ t.width ∧ t.width ≤ 2048 ∧ 16 ≤ t.height ∧ t.height ≤ 2048), 5, 2),
       (decide (t.width + 16 ≤ t.hTotal ∧ t.hTotal ≤ 4095), 5, 3),
       (decide (t.height + 2 ≤ t.vTotal ∧ t.vTotal ≤ 4095), 5, 4),
       (decide (25000 ≤ t.clock ∧ t.clock ≤ 165000), 5, 5),
       (decide (t.buffer0 % 64 = 0 ∧ t.buffer1 % 64 = 0), 5, 6),
       (decide (t.buffer0 + t.pitch * t.height ≤ 0x0FFFC000 ∧ t.buffer1 + t.pitch * t.height ≤ 0x0FFFC000), 5, 7),
       (decide (t.buffer1 + t.pitch * t.height ≤ t.buffer0 ∨ t.buffer0 + t.pitch * t.height ≤ t.buffer1), 5, 8),
       (decide (∀ y ∈ t.lineMatch, y + 1 ≤ t.vTotal), 5, 9)]) :
    t.checks.map (fun c => (c.1, reasonCode c.2.1, c.2.2)) = checks := by
  subst hc
  have ho : (!rangesOverlap t.buffer0 (t.pitch * t.height) t.buffer1 (t.pitch * t.height)) =
      decide (t.buffer1 + t.pitch * t.height ≤ t.buffer0 ∨ t.buffer0 + t.pitch * t.height ≤ t.buffer1) := by
    simp only [rangesOverlap, Bool.not_and, ← decide_not, Nat.not_lt, ← Bool.decide_or]
  simp only [Timing.checks, ho]
  simp [reasonCode, Bool.and_assoc, Config.ringBase]
  refine ⟨rfl, ?_⟩
  cases t.lineMatch <;> simp

/-- An OFF output whose staged timing fails a check is refused by the first (R108). -/
theorem State.startOutput_refused (s : State) (d : OutputId) (hs : (s.outputs.get d).state = .off)
    (earlier later : List (Bool × Nat × Nat)) (code step : Nat)
    (hm : (s.outputs.get d).staged.checks.map (fun c => (c.1, reasonCode c.2.1, c.2.2)) =
      earlier ++ (false, code, step) :: later) (hp : ∀ c ∈ earlier, c.1 = true) :
    s.startOutput d = s.raise ⟨.commandRefused, 0x20, 0, code, word (outputNumber d), word step⟩ := by
  obtain ⟨r, hf, hr⟩ := firstFailure_code _ _ _ _ _ hm hp
  have hf' : firstFailure (s.outputs.get d).startChecks = some (r, step) := by
    unfold Output.startChecks
    rw [hs]
    exact hf
  unfold State.startOutput
  dsimp only
  rw [hf', ← hr]; rfl

/-- A READBACK is refused by the first check that fails (R162). -/
theorem State.takeReadback_refused (s : State) (table entry selector : Byte) (earlier later : List (Bool × Nat × Nat))
    (code step : Nat)
    (hm : (s.readbackChecks table entry selector).map (fun c => (c.1, reasonCode c.2.1, c.2.2)) =
      earlier ++ (false, code, step) :: later) (hp : ∀ c ∈ earlier, c.1 = true) :
    s.takeReadback table entry selector =
      s.raise ⟨.commandRefused, 0x40, 0, code, word table.toNat, word step⟩ := by
  obtain ⟨r, hf, hr⟩ := firstFailure_code _ _ _ _ _ hm hp
  unfold State.takeReadback
  rw [hf, ← hr]; rfl

end Sys2Proof.Machine
end

