-- ==== Sys2Proof/Laws/Tiles.lean ====
section
/-! SUPPORT. A tile of a composition: the source numbers that it needs of a layer (R65, R68), and the beats of its rows
(R66). -/

namespace Sys2Proof.Machine

/-! ### Rising numbers -/

/-- The numbers of a list without its repeats are those of the list. -/
theorem mem_distinct (a : Nat) (as : List Nat) : a ∈ distinct as ↔ a ∈ as := by
  induction as with
  | nil => rfl
  | cons b bs ih =>
    unfold distinct
    split
    · next h =>
      have hb : b ∈ bs := List.mem_of_head? h
      rw [ih, List.mem_cons]
      exact ⟨Or.inr, fun h => h.elim (fun e => e ▸ hb) id⟩
    · rw [List.mem_cons, List.mem_cons, ih]

/-- A list that never falls has its numbers rising strictly without its repeats. -/
theorem distinct_rising (as : List Nat) (h : as.Pairwise (· ≤ ·)) : (distinct as).Pairwise (· < ·) := by
  induction as with
  | nil => exact List.Pairwise.nil
  | cons b bs ih =>
    obtain ⟨h1, h2⟩ := List.pairwise_cons.mp h
    unfold distinct
    split
    · exact ih h2
    · next hh =>
      refine List.pairwise_cons.mpr ⟨fun a ha => ?_, ih h2⟩
      have ha := (mem_distinct a bs).mp ha
      cases bs with
      | nil => cases ha
      | cons c cs =>
        have hc : c ≠ b := fun e => hh (by rw [e]; rfl)
        have hbc := h1 c (List.mem_cons_self ..)
        rcases List.mem_cons.mp ha with rfl | ha
        · omega
        · have := (List.pairwise_cons.mp h2).1 a ha; omega

/-- Two strictly rising lists of the same numbers are one. -/
theorem rising_ext {as bs : List Nat} (ha : as.Pairwise (· < ·)) (hb : bs.Pairwise (· < ·)) (h : ∀ n, n ∈ as ↔ n ∈ bs) :
    as = bs := by
  have hn : ∀ {cs : List Nat}, cs.Pairwise (· < ·) → cs.Nodup := fun hc => hc.imp fun h => Nat.ne_of_lt h
  exact ((List.perm_ext_iff_of_nodup (hn ha) (hn hb)).mpr h).eq_of_pairwise (fun a b _ _ h1 h2 => absurd h1 (by omega)) ha hb

/-! ### The source columns and rows of a tile (R65, R68) -/

/-- The source numbers that a span of screen numbers from base shows never fall. -/
theorem sources_rise (base limit width : Nat) (dest : Int) (src len mag : Nat) :
    (((((List.range 16).filterMap fun i => if base + i < limit then some (base + i) else none).filterMap
      (sourceAt dest src len mag)).filter fun c => decide (c < width))).Pairwise (· ≤ ·) := by
  refine List.Pairwise.filter _ (List.Pairwise.filterMap (R := fun a b : Nat => a < b) _ ?_ ?_)
  · intro a a' h b hb b' hb'
    unfold sourceAt at hb hb'
    split at hb
    · split at hb'
      · obtain rfl := Option.some.inj hb; obtain rfl := Option.some.inj hb'
        exact Nat.add_le_add_left (Nat.div_le_div_right (by omega)) _
      · cases hb'
    · cases hb
  · refine List.Pairwise.filterMap (R := fun a b : Nat => a < b) _ ?_ List.pairwise_lt_range
    intro a a' h b hb b' hb'
    split at hb
    · split at hb'
      · obtain rfl := Option.some.inj hb; obtain rfl := Option.some.inj hb'; omega
      · cases hb'
    · cases hb

/-- The source numbers that a span of screen numbers from base shows, within the source's width (R68). -/
theorem mem_sources (base limit width : Nat) (dest : Int) (src len mag c : Nat) :
    c ∈ ((((List.range 16).filterMap fun i => if base + i < limit then some (base + i) else none).filterMap
      (sourceAt dest src len mag)).filter fun c => decide (c < width)) ↔
    c < width ∧ ∃ p : Nat, (base ≤ p ∧ p < base + 16 ∧ p < limit) ∧
      (dest ≤ p ∧ p < dest + (len * mag : Nat)) ∧ c = src + ((p : Int) - dest).toNat / mag := by
  simp only [List.mem_filter, List.mem_filterMap, List.mem_range, decide_eq_true_eq, sourceAt]
  constructor
  · rintro ⟨⟨p, ⟨i, hi, hp⟩, hc⟩, hw⟩
    split at hp
    · obtain rfl := Option.some.inj hp
      split at hc
      · next h => exact ⟨hw, base + i, ⟨by omega, by omega, by omega⟩, h, (Option.some.inj hc).symm⟩
      · cases hc
    · cases hp
  · rintro ⟨hw, p, ⟨h1, h2, h3⟩, h, rfl⟩
    exact ⟨⟨p, ⟨p - base, by omega, by rw [if_pos (by omega)]; congr 1; omega⟩, by rw [if_pos h]⟩, hw⟩

/-- The screen numbers of a tile inside the active area are the first ones of its span (R66). -/
theorem onScreen_eq (base limit : Nat) :
    ((List.range 16).filterMap fun i => if base + i < limit then some (base + i) else none) =
      (List.range (min 16 (limit - base))).map (base + ·) := by
  have : ∀ n, ((List.range n).filterMap fun i => if base + i < limit then some (base + i) else none) =
      (List.range (min n (limit - base))).map (base + ·) := by
    intro n
    induction n with
    | zero => simp
    | succ n ih =>
      rw [List.range_succ, List.filterMap_append, ih]
      by_cases h : base + n < limit
      · rw [show min (n + 1) (limit - base) = n + 1 by omega, show min n (limit - base) = n by omega, List.range_succ]
        simp [h]
      · rw [show min (n + 1) (limit - base) = min n (limit - base) by omega]
        simp [h]
  exact this 16

/-! ### The beats of a tile row (R66) -/

/-- A beat for every two pixels. -/
theorem rowBeats_length (addr : Nat) (cs : List Rgb) : (rowBeats addr cs).length = (cs.length + 1) / 2 := by
  induction addr, cs using rowBeats.induct with
  | case1 a => rfl
  | case2 a c => simp [rowBeats]
  | case3 a c e rest ih => simp only [rowBeats, List.length_cons, ih]; omega

/-- Beat n of a run of composed pixels: its address, its enables and its bytes (R66). -/
theorem rowBeats_at (addr : Nat) (cs : List Rgb) (n : Nat) (h : n < (cs.length + 1) / 2) :
    ∃ b, (rowBeats addr cs)[n]? = some b ∧ b.addr = addr + 8 * n ∧
      b.enables = (if 2 * n + 1 < cs.length then 0xFF else 0x0F) ∧
      ∀ i c, i < 2 → cs[2 * n + i]? = some c →
        [0, 1, 2, 3].map (fun j => byteOf b.data (4 * i + j)) = [c.blue, c.green, c.red, 255] := by
  have half : ∀ (c e : Rgb) (tail : List Byte), tail.length = 4 → 
      [0, 1, 2, 3].map (fun j => byteOf (beatOf (composedBytes c ++ tail)) (4 * 0 + j)) = [c.blue, c.green, c.red, 255] ∧
      [0, 1, 2, 3].map (fun j => byteOf (beatOf (composedBytes c ++ tail)) (4 * 1 + j)) = tail := by
    intro c e tail ht
    match tail, ht with
    | [t0, t1, t2, t3], _ =>
      have := byteOf_beatOf c.blue c.green c.red 255 t0 t1 t2 t3
      simp only [List.map_cons, List.map_nil, List.cons.injEq] at this
      obtain ⟨a0, a1, a2, a3, a4, a5, a6, a7, -⟩ := this
      simp only [composedBytes, List.cons_append, List.nil_append, List.map_cons, List.map_nil]
      exact ⟨by rw [a0, a1, a2, a3], by rw [a4, a5, a6, a7]⟩
  induction addr, cs using rowBeats.induct generalizing n with
  | case1 a => simp at h
  | case2 a c =>
    obtain rfl : n = 0 := by simp at h; omega
    refine ⟨_, rfl, rfl, rfl, fun i e hi he => ?_⟩
    have : i = 0 := by
      rcases i with _ | _ | i
      · rfl
      · simp at he
      · omega
    subst this
    obtain rfl := Option.some.inj he
    exact (half c c [0, 0, 0, 0] rfl).1
  | case3 a c e rest ih =>
    cases n with
    | zero =>
      refine ⟨_, rfl, rfl, by simp, fun i x hi hx => ?_⟩
      rcases i with _ | _ | i
      · obtain rfl := Option.some.inj hx
        exact (half c c (composedBytes e) rfl).1
      · obtain rfl := Option.some.inj hx
        exact (half c c (composedBytes e) rfl).2
      · omega
    | succ n =>
      obtain ⟨b, h1, h2, h3, h4⟩ := ih n (by simp only [List.length_cons] at h; omega)
      refine ⟨b, by simpa [rowBeats] using h1, by omega, ?_, fun i x hi hx => h4 i x hi ?_⟩
      · rw [h3]; simp only [List.length_cons]
        congr 1; apply propext; omega
      · rw [show 2 * (n + 1) + i = 2 * n + i + 1 + 1 by omega] at hx
        simpa using hx

end Sys2Proof.Machine
end

