-- ==== Sys2Proof/Tests/Slice0.lean ====
section
/-! SUPPORT. The model's own tests: ill-formed commands, the spec's worked examples, and for every obligation with
hypotheses a concrete state that meets them. -/

namespace Sys2Proof.Tests

open Sys2Proof.Machine Sys2Proof.Safety

set_option Elab.async false
set_option synthInstance.maxSize 1024
set_option synthInstance.maxHeartbeats 100000

/-! ### Helpers -/

/-- The state after a command; the state itself where the command stops. -/
def after (c : Instr) (s : State) : State :=
  match exec c s with
  | .next t => t
  | .fault _ => s
  | .refused _ => s

/-- The command answers a next state. -/
def completes (c : Instr) (s : State) : Bool :=
  match exec c s with
  | .next _ => true
  | .fault _ => false
  | .refused _ => false

/-- The command is refused as ill-formed. -/
def turnedAway (c : Instr) (s : State) : Bool :=
  match exec c s with
  | .refused .illFormed => true
  | _ => false

/-- The kinds, sources, reasons and operands of the events in the queue. -/
def heard (s : State) : List (EventKind × Nat × Nat × Nat × Nat) :=
  s.events.queue.map fun e => (e.kind, e.source, e.reason, e.a.toNat, e.b.toNat)

/-- The part after its reset line is released, every event kind enabled. -/
def ready : State :=
  { State.reset with resetAsserted := false, events := { State.reset.events with mask := 0x003FFFFE } }

/-- A timing of one tile that passes every check of OUTPUT_START. -/
def small : Timing :=
  { width := 16, height := 16, hTotal := 32, vTotal := 20, clock := 25000, background := ⟨0, 10, 20, 30⟩,
    buffer0 := 0x01000000, buffer1 := 0x01000400, lineMatch := none }

/-- Output d in a state, at a line, with the small timing staged and active. -/
def withOutput (d : OutputId) (st : OutputState) (line : Nat) (s : State) : State :=
  s.setOutput d { s.outputs.get d with state := st, line := line, staged := small, active := small, lock := true }

/-- The link of d in a state. -/
def withLink (d : OutputId) (st : LinkState) (s : State) : State :=
  s.setLink d { s.links.get d with state := st }

/-- Output d RUNNING before the given line start, its link NORMAL. -/
def running (d : OutputId) (line : Nat) : State := withLink d .normal (withOutput d .running line ready)

/-- Output d whose fetcher has a request to make; its FIFO holds line 0 or nothing. -/
def fetching (d : OutputId) (full : Bool) (s : State) : State :=
  let o := s.outputs.get d
  s.setOutput d { o with
    state := .running, active := small, begun := true
    fetch := some ⟨if full then 1 else 0, 0⟩
    fifo := if full then [⟨0, List.replicate 16 (some ⟨0, 0, 0⟩)⟩] else [] }

/-- A write beat with every byte enabled. -/
def full (addr : Nat) (data : BeatData) : WriteBeat := ⟨addr, 0xFF, data⟩

/-- Surface i bound: a pitch of 64 bytes, width and height as given, at an address. -/
def bind (i base width height : Nat) (s : State) : State :=
  { s with surfaces := s.surfaces.setIfInBounds i ⟨⟨true, base, 64, width, height, .argb32⟩, none⟩ }

/-- Surface 5 of chapter 1's examples. -/
def surface5 : Surface := ⟨⟨true, 0x02000000, 1280, 300, 200, .argb32⟩, some ⟨0x00100000, .rgb16⟩⟩

/-- The part with surface 5 of chapter 1's examples. -/
def shop : State := { ready with surfaces := ready.surfaces.setIfInBounds 5 surface5 }

/-- A stream of two slots on surfaces 1 and 2 in a state. -/
def stream (st : StreamState) : Stream :=
  { Stream.reset with
    state := st, count := 2, positions := [1, 2, 0, 0, 0, 0], rateN := 24, rateD := 60, slots := [.fresh, .fresh] }

/-- Stream k with two slots on bound surfaces, in a state. -/
def withStream (k : StreamId) (st : StreamState) : State :=
  (bind 2 0x03001000 16 4 (bind 1 0x03000000 16 4 ready)).setStream k (stream st)

/-- A packet of the retry buffer. -/
def packet (q : Byte) (wait : Nat) : Packet := ⟨q, 0, [], wait⟩

/-- The link of A in a state with a retry buffer, its output RUNNING in blanking. -/
def linked (st : LinkState) (buffer : List Packet) (next : Byte) : State :=
  let s := running .A 17
  s.setLink .A { s.links.A with state := st, buffer := buffer, nextSeq := next }

/-! ### Commands that the ports cannot carry -/

theorem test_illFormed_unaligned : (Instr.hostRead 4 1).wellFormed = false ∧ turnedAway (.hostRead 4 1) ready := by
  decide +kernel

theorem test_illFormed_noBeat : (Instr.hostWrite 8 []).wellFormed = false ∧ turnedAway (.hostWrite 8 []) ready := by
  decide +kernel

theorem test_illFormed_seventeenBeats :
    (Instr.hostRead 8 17).wellFormed = false ∧ turnedAway (.hostRead 8 17) ready := by
  decide +kernel

theorem test_wellFormed_sixteenBeats : (Instr.hostRead 8 16).wellFormed = true ∧ completes (.hostRead 8 16) ready := by
  decide +kernel

theorem test_illFormed_knownCode : (Instr.unknownCommand 0x41 0 0).wellFormed = false := by decide +kernel

theorem test_illFormed_goodPanelMessage : (Instr.badPanelMessage .A [0x82, crc8 [0x82]]).wellFormed = false := by
  decide +kernel

/-! ### The spec's worked values -/

/-- R125, R126: the check values of the two CRCs. -/
theorem test_check_values :
    crc16 [0x31, 0x32, 0x33, 0x34, 0x35, 0x36, 0x37, 0x38, 0x39] = 0x29B1 ∧
      crc8 [0x31, 0x32, 0x33, 0x34, 0x35, 0x36, 0x37, 0x38, 0x39] = 0xF4 ∧ crc8 [0x01] = 0x07 := by decide +kernel

/-- Line number 1079 is sent as 0x04, 0x37 (10.6). -/
theorem test_line_number_bytes : (lineBytes 7 1079 []).take 4 = [0x03, 7, 0x04, 0x37] := by decide +kernel

/-- A byte goes over a pair most significant bit first, and the bytes of a message in order (R172). -/
theorem test_pair_bits :
    byteBits 0x81 = [true, false, false, false, false, false, false, true] ∧
      byteBits 0x02 = [false, false, false, false, false, false, true, false] ∧
      ({ ready.links.A with sent := [[0x80], [0x01]] } : Link).pairBits = byteBits 0x80 ++ byteBits 0x01 := by
  decide +kernel

/-- Pixel area of one surface (1.1); the last pixel is where R1 puts it (log entry 29). -/
theorem test_pixel_area :
    [0x02000000, 0x020004AC, 0x020004B0, 0x02000500, 0x0203E7AC, 0x0203E7B0].map surface5.geometry.place =
      [some (0, 0), some (0, 1196), none, some (1, 0), some (199, 1196), none] := by decide +kernel

/-- One alias write beat, and the same beat with enables 0x1F (1.3). -/
theorem test_alias_write :
    shop.convertWrite 0x10100A50 ⟨0xF3, 0x0000F81F12347BEF⟩ =
        ([⟨0x020014A0, 0x0F, 0xFF1045A5FF7B7D7B⟩, ⟨0x020014A8, 0xFF, 0xFF000000FFFF00FF⟩], []) ∧
      (shop.convertWrite 0x10100A50 ⟨0x1F, 0x0000F81F12347BEF⟩).1.map (·.enables) = [0xFF, 0x00] ∧
      (shop.convertWrite 0x10100A50 ⟨0x1F, 0x0000F81F12347BEF⟩).2.map (fun e => (e.source, e.reason, e.a, e.b)) =
        [(5, 1, 0x10100A50, 31)] := by decide +kernel

/-- The padding of row 4 is written, that of the last row is not (1.3). -/
theorem test_alias_padding :
    (shop.convertWrite 0x10100C58 ⟨0xFF, 0⟩).1.map (fun b => (b.addr, b.enables)) =
        [(0x020018B0, 0xFF), (0x020018B8, 0xFF)] ∧
      (shop.convertWrite (0x10100000 + 640 * 199 + 600) ⟨0xFF, 0⟩).1.map (·.enables) = [0, 0] := by decide +kernel

/-- A capacity merge: position 3 has the least growth, the lowest of a tie (2.2). -/
theorem test_least_growth :
    leastGrowth ⟨5, 5, 2, 2⟩ [⟨20, 27, 0, 3⟩, ⟨0, 67, 100, 119⟩, ⟨0, 1, 10, 11⟩, ⟨2, 4, 2, 3⟩, ⟨30, 33, 40, 47⟩,
      ⟨8, 8, 1, 1⟩, ⟨12, 15, 8, 9⟩, ⟨10, 11, 0, 5⟩, ⟨0, 3, 6, 7⟩, ⟨6, 6, 2, 3⟩, ⟨40, 67, 60, 79⟩, ⟨5, 7, 5, 5⟩,
      ⟨4, 5, 3, 3⟩] = 3 := by decide +kernel

/-- Insertions below capacity, steps 4 to 6 (2.2). -/
theorem test_insertions :
    DamageList.insert 120 68 ⟨9, 13, 4, 7⟩ ⟨[⟨10, 12, 5, 6⟩, ⟨40, 41, 20, 21⟩], false⟩ =
        ⟨[⟨40, 41, 20, 21⟩, ⟨9, 13, 4, 7⟩], false⟩ ∧
      DamageList.insert 120 68 ⟨0, 119, 0, 67⟩ ⟨[⟨40, 41, 20, 21⟩, ⟨9, 13, 4, 7⟩], false⟩ = ⟨[], true⟩ := by
  decide +kernel

/-- Layer 4 of chapter 2's example: surface 5, magnified three times. -/
def layer4 : Layer :=
  { Layer.reset with enabled := true, content := .surface, index := 5, sx := 100, sy := 50, sw := 200, sh := 150,
                     dx := 1500, dy := 1000, mag := 3 }

/-- Mapping write completions through a magnified layer (2.3). -/
theorem test_mapped_damage :
    layer4.mapPixels (surface5.geometry.touched (full 0x02012E30 0)) = some (1620, 1030, 6, 3) ∧
      layer4.mapPixels (surface5.geometry.touched ⟨0x02016050, 0xF0, 0⟩) = some (1647, 1060, 3, 3) ∧
      clipTiles 1920 1080 1620 1030 6 3 = some ⟨101, 101, 64, 64⟩ ∧
      clipTiles 1920 1080 1647 1060 3 3 = some ⟨102, 103, 66, 66⟩ ∧ clipTiles 1920 1080 1620 1090 6 3 = none := by
  decide +kernel

/-- Two layers at one pixel, and a half-transparent pixel at half opacity (4.4). -/
theorem test_blends :
    ({ Layer.reset with blend := .blend, opacity := 128 }).apply ⟨0, 0, 255⟩ 255 ⟨200, 100, 50⟩ = ⟨100, 50, 153⟩ ∧
      ({ Layer.reset with blend := .blend, opacity := 128 }).apply ⟨255, 0, 0⟩ 128 ⟨0, 0, 255⟩ = ⟨64, 0, 191⟩ := by
  decide +kernel

/-- Magnification (4.4). -/
theorem test_source_pixels :
    [(1500, 1000), (1502, 1002), (1503, 1031), (1799, 1040), (1800, 1040), (1919, 1079)].map (fun p : Nat × Nat =>
        { layer4 with sx := 200 }.sourcePixel p.1 p.2) =
      [some (200, 50), some (200, 50), some (201, 60), some (299, 63), some (300, 63), some (339, 76)] := by
  decide +kernel

/-- The 16-bit pixels of the examples, and a read of them back (1.3, R18). -/
theorem test_pixel_conversion :
    expandPixel .rgb16 0x7BEF = ⟨255, 0x7B, 0x7D, 0x7B⟩ ∧ expandPixel .argb4444 0x8F40 = ⟨0x88, 0xFF, 0x44, 0⟩ ∧
      contractPixel .rgb16 ⟨0, 0x7B, 0x7D, 0x7B⟩ = 0x7BEF := by decide +kernel

/-- Cadences of the setting: the phase over ten epochs at 24 in 60 (5.5). -/
theorem test_cadence :
    (List.range 10).map (fun n => (Nat.rec (stream .running) (fun _ x => x.advance) (n + 1) : Stream).phase) =
      [24, 48, 12, 36, 0, 24, 48, 12, 36, 0] := by decide +kernel

/-- The buffers of output A of the setting (6.1): both fit and lie apart. -/
theorem test_timing_checks :
    firstFailure ({ small with width := 1080, height := 1920, hTotal := 1160, vTotal := 1960, clock := 136416,
                               buffer0 := 0x08000000, buffer1 := 0x08800000 } : Timing).checks = none ∧
      ({ small with width := 1080 } : Timing).pitch * 1920 = 0x7F8000 := by decide +kernel

/-- Control words (10.2). -/
theorem test_control_words :
    cursorOf 0x00030602 = some ⟨.layer .A, 6, 3⟩ ∧
      heard (ready.takeCommand 0x00000110) = [(.commandRefused, 16, 4, 1, 2)] ∧
      (ready.takeCommand 0x01000740).events.readback.map (·.words) = some [0x04050508, 0x00000002] := by
  decide +kernel

/-! ### The queue, resets, the upstream port -/

theorem test_witness_StepRunsFrontCommand :
    (match step { ready with pending := [.commit 0, .clearCounters] } with
      | .next t => t.pending == [.clearCounters] && t.layers.A.commitPending
      | _ => false) = true ∧ State.reset.pending = [] := by decide +kernel

/-- A write in flight, and a command that is not a completion. -/
def writing : State := { ready with inFlight := [.hostWrite [full 0x100 0x0102030405060708]] }

theorem test_witness_QueueAndMemoryAreKept :
    completes .clearCounters writing ∧ (after .clearCounters writing).mem = [] ∧
      completes .hostWriteCompletion writing ∧ (after .hostWriteCompletion writing).mem.read 0x107 = 1 := by
  decide +kernel

theorem test_hardwareReset_settles_writes :
    (after (.hardwareReset .resetLine) writing).mem.read 0x100 = 8 ∧
      (after (.hardwareReset .resetLine) writing).events.cause = .resetLine := by decide +kernel

theorem test_witness_ResetReleaseCompletes :
    State.reset.resetAsserted = true ∧ State.reset.upstream = [] ∧
      heard (after .resetRelease State.reset) = [(.resetDone, 0, 0, 0, 0)] := by decide +kernel

theorem test_softReset_halts_a_link :
    (after .softReset (running .B 3)).links.B.sent = [haltBytes] ∧
      (after .softReset (running .B 3)).outputs.B.staged = small ∧
      heard (after .softReset (running .B 3)) = [(.linkState, 1, 0, 0, 3), (.resetDone, 0, 0, 2, 0)] := by
  decide +kernel

/-- A write queue of n beats of one request. -/
def queued (n : Nat) : State :=
  { ready with
    writeQueue := (List.range n).map fun i => ⟨0, 0, full (0x100 + 8 * i) 1⟩
    nextRequest := 1 }

theorem test_witness_HostWriteAcceptedOrWaits :
    (0x200 : BitVec 29).toNat % 8 = 0 ∧ (queued 31).resetAsserted = false ∧ (queued 31).upstream = [] ∧
      (queued 31).writeQueue.length + ((queued 31).convertWrites 0x200 [⟨0xFF, 7⟩]).1.length ≤ 32 ∧
      32 < (queued 32).writeQueue.length + ((queued 32).convertWrites 0x200 [⟨0xFF, 7⟩]).1.length ∧
      (after (.hostWrite 0x200 [⟨0xFF, 7⟩]) (queued 31)).writeQueue.length = 32 ∧
      (after (.hostWrite 0x200 [⟨0xFF, 7⟩]) (queued 32)).upstream = [.write 0x200 [⟨0xFF, 7⟩]] := by decide +kernel

theorem test_witness_UpstreamBeatsAreConverted :
    ready.convertWrite 0x0FFFFFF8 ⟨1, 2⟩ = ([⟨0x0FFFFFF8, 1, 2⟩], []) ∧
      ready.aliasMapping (0x10000000 - 0x10000000) = none ∧
      (ready.convertWrite 0x10000000 ⟨1, 2⟩).2.map (fun e => (e.source, e.reason)) = [(255, 2)] := by decide +kernel

/-- The first and the last offset of an alias range, and the one behind it (R10). -/
theorem test_witness_UpstreamBeats_mapping :
    shop.surface 5 = some surface5 ∧ surface5.geometry.bound = true ∧
      shop.aliasMapping 0x00100000 = some ⟨5, surface5.geometry, .rgb16, 0x02000000, 0, 0⟩ ∧
      (shop.aliasMapping (0x00100000 + 1280 / 2 * 200 - 8)).map (fun m => (m.row, m.col)) = some (199, 316) ∧
      shop.aliasMapping (0x00100000 + 1280 / 2 * 200) = none ∧ shop.aliasMapping 0x000FFFF8 = none := by decide +kernel

/-- In the last row the last pixel beat of the width, and the first of the padding: no byte is written and no partial
pixel reported (R13, R15). -/
theorem test_witness_UpstreamBeats_padding :
    (shop.convertWrite (0x10100000 + 640 * 199 + 592) ⟨0x7F, 0⟩).1.map (·.enables) = [0xFF, 0x0F] ∧
      (shop.convertWrite (0x10100000 + 640 * 199 + 592) ⟨0x7F, 0⟩).2.length = 1 ∧
      shop.convertWrite (0x10100000 + 640 * 199 + 600) ⟨0x7F, 0⟩ =
        ([⟨0x0203E7B0, 0, 0xFF000000FF000000⟩, ⟨0x0203E7B8, 0, 0xFF000000FF000000⟩], []) := by decide +kernel

/-- Reads: direct, stray, mapped, and what they return (R16, R17, R149). -/
theorem test_witness_UpstreamBeats_reads :
    shop.convertRead 0x0FFFFFF8 = (.direct, [0x0FFFFFF8], []) ∧
      shop.convertRead 0x10000000 = (.stray, [], [⟨.aliasFault, 255, 0, 2, 0x10000000, 256⟩]) ∧
      shop.convertRead (0x10100000 + 640 * 199 + 600) =
        (.mapped 5 .rgb16 [true, true, true, true], [0x0203E7B0, 0x0203E7B8], []) ∧
      answerBeats [.direct, .stray, .mapped 5 .rgb16 [false, false, false, true]] [7, 0xFF000000FFFFFFFF, 0xFFFFFFFFFFFFFFFF] =
        [7, 0, 0x0000FFFF0000FFFF] := by decide +kernel

theorem test_witness_ContractionUndoesExpansion :
    65535 < 65536 ∧ contractPixel .rgb16 (expandPixel .rgb16 65535) = 65535 := by decide +kernel

/-- A tracker with n reads that wait for data. -/
def reading (n : Nat) : State :=
  { ready with tracker := (List.range n).map fun i => ⟨i, [.direct], [⟨0x40 * i, none⟩], 1⟩, nextRequest := n }

theorem test_witness_HostReadAccepted :
    (reading 3).tracker.length < 4 ∧ (∀ r ∈ (reading 3).tracker, r.complete = false) ∧
      ((reading 3).convertReads 0x1FFFFF80 16).2.1 = [] ∧ ((reading 3).convertReads 0x100 16).2.1 ≠ [] ∧
      (reading 3).convertReads 0x100 2 = ([.direct, .direct], [0x100, 0x108], []) ∧
      (after (.hostRead 0x100 16) (reading 3)).tracker.length = 4 ∧
      (after (.hostRead 0x100 16) (reading 4)).upstream.length = 1 := by decide +kernel

theorem test_witness_HostRead_stray :
    ready.tracker = [] ∧ (ready.convertReads 0x1FFFFF80 2).2.1 = [] ∧
      (after (.hostRead 0x1FFFFF80 2) ready).hostData = [[0, 0]] ∧
      (after (.hostRead 0x1FFFFF80 2) ready).tracker = [] ∧
      heard (after (.hostRead 0x1FFFFF80 2) ready) =
        [(.aliasFault, 255, 2, 0x1FFFFF80, 256), (.aliasFault, 255, 2, 0x1FFFFF88, 256)] ∧
      (reading 3).tracker ≠ [] ∧ (after (.hostRead 0x1FFFFF80 2) (reading 3)).tracker.length = 4 ∧
      (after (.hostRead 0x1FFFFF80 2) (reading 3)).hostData = [] := by decide +kernel

theorem test_witness_HostRead_waits :
    4 ≤ (reading 4).tracker.length ∧ (reading 4).upstream = [] ∧ State.reset.resetAsserted = true ∧
      (after (.hostRead 0x100 1) (after (.hostRead 0x80 1) (reading 4))).upstream = [.read 0x80 1, .read 0x100 1] ∧
      (after (.hostRead 0x100 1) State.reset).upstream = [.read 0x100 1] := by decide +kernel

/-! ### The downstream port -/

theorem test_witness_GrantCompletes_stat :
    let s := { ready with events := { ready.events with presented := some (.record [full 0x0FFFC000 1]) } }
    s.grantee = some .stat ∧ s.presents .stat = some (.recordWrite [full 0x0FFFC000 1]) ∧
      (Flight.recordWrite [full 0x0FFFC000 1]).inMemory = true ∧ s.upstream = [] ∧
      (after .downstreamGrant s).inFlight = [.recordWrite [full 0x0FFFC000 1]] := by decide +kernel

theorem test_witness_GrantCompletes_pass :
    (queued 17).grantee = some .pass ∧ (queued 17).oldestUnissued = none ∧ (queued 17).writeQueue ≠ [] ∧
      (headRun (queued 17).writeQueue).length = 16 ∧
      (headRun (queued 17).writeQueue).all (fun q => decide (q.beat.addr + 8 ≤ 0x10000000)) = true ∧
      (after .downstreamGrant (queued 17)).writeQueue.length = 1 := by decide +kernel

/-- Two surfaces side by side in memory, their alias ranges apart. -/
def sideBySide : State :=
  { ready with
    surfaces := (ready.surfaces.setIfInBounds 1
      ⟨⟨true, 0x03000000, 64, 16, 4, .argb32⟩, some ⟨0x00100000, .rgb16⟩⟩).setIfInBounds 2
      ⟨⟨true, 0x03000100, 64, 16, 4, .argb32⟩, some ⟨0x001000C0, .rgb16⟩⟩ }

/-- One request over the end of one alias range, eight stray beats and the start of the next: the four downstream beats lie
at consecutive addresses, and the runs on either side of the stray beats are issued separately (R146). -/
theorem test_witness_GrantCompletes_stray :
    let s := State.present sideBySide (.write 0x10100078 (List.replicate 10 ⟨0xFF, 0⟩))
    s.writeQueue.map (fun q => (q.request, q.stretch, q.beat.addr)) =
        [(0, 0, 0x030000F0), (0, 0, 0x030000F8), (0, 8, 0x03000100), (0, 8, 0x03000108)] ∧
      headRun s.writeQueue = s.writeQueue.take 2 ∧ headRun (s.writeQueue.drop 2) = s.writeQueue.drop 2 ∧
      (after .downstreamGrant s).inFlight.map (fun f => f.addrs) = [[0x030000F0, 0x030000F8]] ∧
      (heard s).map (fun e => e.2.2.2.1) = (List.range 8).map fun i => 0x10100080 + 8 * i := by decide +kernel

/-- A read wholly issued, a read of two beats, and a queued write older than it. -/
def behindWrite (a : Nat) : State :=
  { ready with
    tracker := [⟨0, [.direct], [⟨0x200, none⟩], 1⟩, ⟨2, [.direct, .direct], [⟨0x40, none⟩, ⟨0x48, none⟩], 0⟩]
    writeQueue := [⟨1, 0, full a 1⟩], nextRequest := 3 }

/-- PASS presents a read, or the older write to a beat of it (R148). -/
theorem test_witness_GrantCompletes_read :
    (behindWrite 0x48).presents .pass = some (.hostWrite [full 0x48 1]) ∧
      (behindWrite 0x80).presents .pass = some (.hostRead 2 0 [0x40, 0x48]) ∧
      (after .downstreamGrant (behindWrite 0x80)).tracker.map (·.issued) = [1, 2] ∧ (0 : Nat) < 2 ∧ (1 : Nat) ≤ 1 := by
  decide +kernel

/-- What scanout and the compositor present, and the pixels that a grant reserves (R65, R119, R151). -/
theorem test_witness_GrantCompletes_clients :
    let s := fetching .B false ready
    s.outputs.B.begun = true ∧ s.outputs.B.fetch = some ⟨0, 0⟩ ∧
      (s.presents (.scan .B)).map Flight.addrs = some ((List.range 8).map fun i => 0x01000000 + 8 * i) ∧
      (s.afterGrant (.scanRead .B 0 0 8 [] true)).outputs.B.fifo = [⟨0, List.replicate 8 none⟩] ∧
      ((s.afterGrant (.scanRead .B 0 0 8 [] true)).afterGrant (.scanRead .B 0 8 8 [] true)).outputs.B.fifo =
        [⟨0, List.replicate 16 none⟩] ∧
      (s.afterGrant (.scanRead .B 0 8 8 [] true)).outputs.B.fetch = some ⟨1, 0⟩ ∧
      (s.afterGrant (.scanRead .B 15 0 16 [] true)).outputs.B.fetch = none ∧
      (s.afterGrant (.scanRead .A 0 0 16 [] true)).scanNext = .B ∧ ready.outputs.B.begun = false ∧
      { s with job := some ⟨.A, ⟨0, 0⟩, true, [], 1, [], [[]], 0⟩ }.presents .comp = none ∧
      { s with job := some ⟨.A, ⟨0, 0⟩, true, [], 0, [], [[]], 0⟩ }.presents .comp = some (.compWrite []) := by
  decide +kernel

theorem test_grant_outside_memory :
    (match exec .downstreamGrant { ready with writeQueue := [⟨0, 0, full 0x10000000 1⟩] } with
      | .fault .addressNotInMemory => true
      | _ => false) = true := by decide +kernel

theorem test_witness_ArbiterOrder_urgent :
    let s := fetching .B false (fetching .A false (queued 1))
    s.drain = none ∧ s.eligible (.scan .A) = true ∧ s.eligible (.scan .B) = true ∧ s.eligible .pass = true ∧
      s.outputs.A.urgent = true ∧ s.outputs.B.urgent = true ∧ s.grantee = some (.scan .A) ∧
      (after .downstreamGrant s).grantee = some (.scan .B) := by decide +kernel

theorem test_witness_ArbiterOrder_pass :
    let s := fetching .B true (fetching .A true (queued 1))
    s.eligible .pass = true ∧ s.eligible (.scan .A) = true ∧ s.outputs.A.urgent = false ∧
      s.outputs.B.urgent = false ∧ s.grantee = some .pass ∧
      (fetching .B true ready).eligible .pass = false ∧ (fetching .B true ready).grantee = some (.scan .B) := by
  decide +kernel

/-- A tile in hand with a read to make. -/
def job : Job := ⟨.A, ⟨0, 0⟩, true, [⟨0, [0x100]⟩], 0, [], [], 0⟩

theorem test_witness_ArbiterOrder_low :
    let s := { ready with job := some job, events := { ready.events with presented := some (.record []) } }
    s.drain = none ∧ s.eligible .pass = false ∧ s.eligible (.scan .A) = false ∧ s.eligible (.scan .B) = false ∧
      s.eligible .comp = true ∧ s.grantee = some .comp ∧ { s with job := none }.eligible .comp = false ∧
      { s with job := none }.eligible .stat = true ∧ { s with job := none }.grantee = some .stat := by decide +kernel

theorem test_witness_HostWriteCompletes :
    let s := { ready with inFlight := [.hostWrite [full 0x100 1, full 0x108 2], .recordWrite []] }
    s.drain = none ∧ (after .hostWriteCompletion s).inFlight = [.hostWrite [full 0x108 2], .recordWrite []] ∧
      (after .hostWriteCompletion (after .hostWriteCompletion s)).inFlight = [.recordWrite []] := by decide +kernel

/-- A beat that is not the last of its request is noticed; either half of a beat gives its word, the lower first (R158). -/
theorem test_witness_HostWriteCompletes_beats :
    let s := { ready with inFlight := [.hostWrite [full 0x0FFFF000 0x0000000400000007, full 0x108 2]] }
    (after .hostWriteCompletion s).port.cursor = some ⟨.credit, 0, 1⟩ ∧
      (after .hostWriteCompletion s).inFlight = [.hostWrite [full 0x108 2]] ∧
      (ready.controlCapture ⟨0x0FFFF008, 0x0F, 0x0000000200000999⟩).events.mask = 0x003FFFFE ∧
      heard (ready.controlCapture ⟨0x0FFFF008, 0x0F, 0x0000000200000999⟩) = [(.commandRefused, 0x99, 1, 9, 0)] ∧
      heard (ready.controlCapture ⟨0x0FFFF008, 0xF7, 0x0000000200000999⟩) = [] ∧
      (ready.controlCapture ⟨0x0FFFF008, 0xF7, 0x0000000200000999⟩).events.mask = 2 ∧
      (0x99 : Byte).toNat = (0x00010999 : Word).toNat % 256 ∧ (1 : BitVec 16).toNat = (0x00010999 : Word).toNat / 65536 ∧
      heard (ready.takeCommand 0x00010999) = heard (after (.unknownCommand 0x99 9 1) ready) := by decide +kernel

/-- Surface 5 shown by layer 4 of output A. -/
def showing : State :=
  let s := withOutput .A .running 17 shop
  let t : Timing := { small with width := 1920, height := 1080 }
  (s.setOutput .A { s.outputs.A with active := t }).setLayers .A
    { s.layers.A with active := s.layers.A.active.setIfInBounds 4 layer4 }

/-- The damage of a beat in the surface that a layer shows: the whole rectangle, and one clipped away (R22, R27, R28). -/
theorem test_witness_HostWriteCompletes_damage :
    showing.shows 5 layer4 = true ∧ (showing.outputState .A).live = true ∧ (ready.outputState .B).live = false ∧
      surface5.geometry.touched (full 0x02012E30 0) = [(140, 60), (141, 60)] ∧
      surface5.geometry.touched (full 0x01FFFFF8 0) = [] ∧
      (showing.damageNotice (full 0x02012E30 0)).damage.A.list = ⟨[⟨101, 101, 64, 64⟩], false⟩ ∧
      (showing.damageNotice (full 0x02012E30 0)).damage.B = showing.damage.B ∧
      layer4.mapPixels [(99, 60), (100, 60)] = some (1500, 1030, 3, 3) ∧
      layer4.mapPixels [(299, 60), (300, 60)] = some (2097, 1030, 3, 3) ∧ layer4.mapPixels [(300, 60)] = none ∧
      DamageList.insertPixels { small with width := 1920, height := 1080 } 1920 1030 3 3 ⟨[], false⟩ = ⟨[], false⟩ := by
  decide +kernel

/-- Stream 0 with both slots on one base, slot 1 FILLING, its short count at the end of its range. -/
def twinSlots : State :=
  (bind 2 0x03000000 16 4 (bind 1 0x03000000 16 4 ready)).setStream .S0
    { stream .running with
      slots := [.fresh, { Slot.fresh with state := .filling, byteCount := 8 }]
      counters := { (stream .running).counters with short := 65535 } }

/-- One beat arms slot 0 and then slot 1: each arm changes a slot's state, and the block is due although it ends with the
bytes that it had (R103). -/
theorem test_witness_HostWriteCompletes_streams :
    let s := twinSlots.streamNotice ⟨0x02FFFFC8, 0xF0, 0⟩
    (twinSlots.streams.S0.noticeRules twinSlots.geometryOf .S0 0 ⟨0x02FFFFC8, 0xF0, 0⟩).length = 5 ∧
      s.streams.S0.slots.map (·.state) = [.free, .filling] ∧ s.streams.S0.bytes = twinSlots.streams.S0.bytes ∧
      s.events.due.stream.S0 = true ∧ twinSlots.events.due.stream.S0 = false ∧
      (heard s).map (fun e => (e.1, e.2.2.2.1)) =
        [(.streamCondition, 1), (.slotFreed, 1), (.streamCondition, 0), (.slotFreed, 0)] := by decide +kernel

theorem test_witness_HostWriteMemory :
    Memory.wf [(0x103, 9)] = true ∧ (0x81 : Byte).getLsbD 7 = true ∧
      Memory.writeBeat [(0x103, 9)] ⟨0x100, 0x81, 0x1100000000000022⟩ = [(0x100, 0x22), (0x103, 9), (0x107, 0x11)] ∧
      completes .hostWriteCompletion writing := by decide +kernel

/-- A completed control-page beat is taken as its words: the select first (R158). -/
theorem test_control_capture :
    (after .hostWriteCompletion { ready with inFlight := [.hostWrite [full 0x0FFFF000 0x0000000400000007]] }).port.cursor
      = some ⟨.credit, 0, 1⟩ := by decide +kernel

theorem test_witness_HostReadCompletes :
    let s : State := { ready with
      mem := [(0x100, 5)]
      inFlight := [.hostRead 0 0 [0x100]]
      tracker := [⟨0, [.direct], [⟨0x100, none⟩], 1⟩, ⟨1, [.direct], [⟨0x200, none⟩], 0⟩] }
    s.drain = none ∧ s.upstream = [] ∧ (∀ r ∈ s.tracker.tail, r.id ≠ 0 ∧ r.complete = false) ∧
      (after .hostReadCompletion s).hostData = [[5]] ∧ (after .hostReadCompletion s).tracker = s.tracker.tail := by
  decide +kernel

theorem test_witness_ScanReadCompletes :
    let s := { fetching .B false ready with inFlight := [.scanRead .B 0 0 2 [0x01000000] false] }
    s.drain = none ∧ (after .scanReadCompletion s).inFlight = [] ∧
      heard (after .scanReadCompletion { s with drain := some ⟨⟨1, 1, 1, 1, 1⟩, 1⟩ }) =
        [(.rebalanced, 0x30, 0, 5, 1)] := by decide +kernel

/-- A drain with its last request, and with two requests (R154). -/
def draining (fs : List Flight) : State := { ready with drain := some ⟨⟨1, 1, 1, 1, 1⟩, 3⟩, inFlight := fs }

/-- The last beat of a host write in a drain: REBALANCED comes before what its command raises (log entry 17). -/
theorem test_witness_HostWriteCompletes_drain :
    heard (after .hostWriteCompletion (draining [.hostWrite [full 0x0FFFF008 0x0000000000000999]])) =
        [(.rebalanced, 0x30, 0, 5, 3), (.commandRefused, 0x99, 1, 9, 0)] ∧
      (after .hostWriteCompletion (draining [.hostWrite [full 0x100 1], .recordWrite []])).drain.isSome = true := by
  decide +kernel

theorem test_witness_ScanReadCompletes_drain :
    (draining [.recordWrite []]).drain = some ⟨⟨1, 1, 1, 1, 1⟩, 3⟩ ∧
      heard (draining [.recordWrite []]).removeOldest = [(.rebalanced, 0x30, 0, 5, 3)] ∧
      (draining [.recordWrite [], .recordWrite []]).removeOldest = draining [.recordWrite []] ∧
      (∀ p ∈ [(Instr.hostReadCompletion, Flight.hostRead 0 0 [0x100]),
          (.scanReadCompletion, .scanRead .A 0 0 2 [0x100] true), (.compReadCompletion, .compRead 0 [0x100]),
          (.compWriteCompletion, .compWrite []), (.recordWriteCompletion, .recordWrite []),
          (.statusBlockCompletion, .blockWrite .global true []), (.readbackDone, .blockWrite .readback true []),
          (.hostWriteCompletion, .hostWrite [full 0x100 1])],
        completes p.1 (draining [p.2]) = true ∧ (after p.1 (draining [p.2])).activeCredits = ⟨1, 1, 1, 1, 1⟩ ∧
          (after p.1 (draining [p.2])).drain = none) := by
  decide +kernel

/-- TILE_COMPLETION at the end of a drain, and the pixels of a run in their line of the FIFO (R119, R154). -/
theorem test_witness_ScanReadCompletes_rest :
    let s := { draining [.compWrite []] with job := some ⟨.A, ⟨0, 0⟩, true, [], 0, [], [], 1⟩ }
    let o : Output := { (fetching .B true ready).outputs.B with
      fifo := [⟨0, [some ⟨1, 2, 3⟩, none, none, none]⟩, ⟨1, [none]⟩] }
    (after .tileCompletion s).activeCredits = ⟨1, 1, 1, 1, 1⟩ ∧
      heard (after .tileCompletion s) = [(.rebalanced, 0x30, 0, 5, 3)] ∧
      (o.returnRun ⟨0, 1, 2⟩ [0x0A0B0C0D01020304]).fifo =
        [⟨0, [some ⟨1, 2, 3⟩, some ⟨2, 3, 4⟩, some ⟨11, 12, 13⟩, none]⟩, ⟨1, [none]⟩] := by decide +kernel

/-- Staged counts that sum above 24. -/
def greedy : State := { ready with stagedCredits := ⟨8, 5, 5, 5, 2⟩ }

theorem test_witness_RebalanceTakenOrRefused :
    ready.drain = none ∧ ready.stagedCredits.sum = 24 ∧ ready.inFlight = [] ∧ writing.inFlight ≠ [] ∧
      (after .rebalance writing).drain = some ⟨writing.stagedCredits, 1⟩ ∧
      heard (after .rebalance ready) = [(.rebalanced, 0x30, 0, 24, 0)] := by decide +kernel

theorem test_witness_RebalanceRefused :
    heard (after .rebalance (after .rebalance writing)) = [(.commandRefused, 0x30, 10, 24, 1)] ∧ greedy.drain = none ∧
      24 < greedy.stagedCredits.sum ∧ heard (after .rebalance greedy) = [(.commandRefused, 0x30, 11, 25, 2)] := by
  decide +kernel

/-- The data of two requests of one read: the second request completes it (R149). -/
theorem test_witness_HostReadCompletes_general :
    let s : State := { ready with
      inFlight := [.hostRead 7 1 [0x200]]
      tracker := [⟨7, [.direct, .stray, .direct], [⟨0x100, some 3⟩, ⟨0x200, none⟩], 2⟩] }
    s.drain = none ∧ s.upstream = [] ∧ (after .hostReadCompletion s).hostData = [[3, 0, 0]] ∧
      (after .hostReadCompletion s).tracker = [] := by decide +kernel

/-! ### The compositor -/

/-- Output A RUNNING with a composition of its one tile. -/
def composing : State := (running .A 3).setComp .A
  { (running .A 3).comp.A with
    composition := some ⟨[⟨0, 0⟩], 0, none, Vector.replicate 8 .reset, Vector.replicate 8 none, Vector.replicate 8 none, []⟩ }

theorem test_witness_TileTakeCompletes :
    composing.job = none ∧ (composing.comp.get composing.turn).composition.map (fun k => k.region[k.next]?) =
        some (some ⟨0, 0⟩) ∧
      (after .tileTake composing).turn = .B ∧
      (after .tileTake composing).job.map (fun j => (j.writes.length, j.writes.head?)) =
        some (16, some ((List.range 8).map fun i => full (0x01000400 + 8 * i) 0xFF0A141EFF0A141E)) := by decide +kernel

/-- A timing of four tiles, of which the last holds one pixel. -/
def odd : Timing := { small with width := 17, height := 17, hTotal := 40, vTotal := 30, buffer1 := 0x01001000 }

/-- A composition of that tile with a magnified, half transparent layer of a surface of three columns. -/
def blended : Composition :=
  let l : Layer := { Layer.reset with
    enabled := true, content := .surface, index := 2, sx := 1, sw := 4, sh := 2, dx := 13, dy := 15, mag := 2
    opacity := 128, blend := .blend }
  ⟨[⟨1, 1⟩], 0, none, (Vector.replicate 8 Layer.reset).setIfInBounds 3 l,
    (Vector.replicate 8 none).setIfInBounds 3 (some ⟨true, 0x03000000, 64, 3, 2, .argb32⟩), Vector.replicate 8 none, []⟩

/-- Output A RUNNING with that composition. -/
def oddTile : State :=
  let s := (running .A 3).setOutput .A { (running .A 3).outputs.A with active := odd }
  s.setComp .A { s.comp.A with composition := some blended }

/-- The other output's turn, which has no tile; the reads that the tiles make of the layer; nothing to take (R65, R70). -/
theorem test_witness_TileTakeCompletes_reads :
    let s := { oddTile with turn := .B }
    (.A : OutputId) = otherOutput s.turn ∧ s.comp.B.composition = none ∧ (after .tileTake s).turn = .B ∧
      (after .tileTake s).job.map (fun j => (j.output, j.reads)) = some (.A, [⟨3, [0x03000008]⟩]) ∧
      tileReads odd ⟨0, 0⟩ blended = [⟨3, [0x03000000, 0x03000008]⟩] ∧
      (List.range 2).Pairwise (· < ·) ∧ neededCols odd ⟨0, 0⟩ (blended.layers[3]) ⟨true, 0, 64, 3, 2, .argb32⟩ = [1, 2] ∧
      (after .tileTake ready).job = none ∧ after .tileTake (after .tileTake s) = after .tileTake s := by decide +kernel

/-- The tile of `composing` in hand, with so many reads and writes outstanding. -/
def inHand (live : Bool) (readsOut writesOut : Nat) (f : Flight) : State :=
  { after .tileTake composing with
    job := some ⟨.A, ⟨0, 0⟩, live, [], readsOut, [], [], writesOut⟩
    inFlight := [f] }

theorem test_witness_CompReadCompletes :
    (inHand true 1 0 (.compRead 0 [0x100])).drain = none ∧
      (after .compReadCompletion (inHand true 1 0 (.compRead 0 [0x100]))).job.map (·.writes.length) = some 16 := by
  decide +kernel

/-- The one pixel of the tile: alpha 128 and opacity 128 give the effective alpha 64 over the background (R66, R68, R69). -/
theorem test_witness_CompReadCompletes_pixels :
    let s := { after .tileTake oddTile with
      mem := [(0x03000008, 0x10), (0x03000009, 0x20), (0x0300000A, 0x30), (0x0300000B, 0x80)]
      inFlight := [.compRead 3 [0x03000008]]
      job := (after .tileTake oddTile).job.map fun j => { j with reads := [], readsOut := 1 } }
    s.drain = none ∧ s.comp.A.composition.isSome = true ∧
      (after .compReadCompletion s).job.map (fun j => (j.live, j.reads, j.readsOut, j.writes)) =
        some (true, [], 0, [[⟨0x01001840, 0x0F, 0x00000000FF14171A⟩]]) ∧
      contribution [⟨3, 0x03000008, 0x80302010⟩] 3 (blended.layers[3]) (some ⟨true, 0x03000000, 64, 3, 2, .argb32⟩) 16 16 =
        some (⟨0x30, 0x20, 0x10⟩, 128) ∧
      contribution [] 3 (blended.layers[3]) (some ⟨true, 0x03000000, 64, 3, 2, .argb32⟩) 18 16 = none ∧
      contribution [] 3 (blended.layers[3]) none 16 16 = none ∧
      contribution [] 3 { blended.layers[3] with content := .solid } none 16 16 = some (⟨0, 0, 0⟩, 0) ∧
      contribution [] 3 (blended.layers[3]) none 12 16 = none := by decide +kernel

theorem test_witness_CompReadCompletes_abandoned :
    (inHand false 2 0 (.compRead 0 [0x100])).drain = none ∧
      (after .compReadCompletion (inHand false 2 0 (.compRead 0 [0x100]))).job.map (·.readsOut) = some 1 ∧
      (after .compReadCompletion (inHand false 1 0 (.compRead 0 [0x100]))).job = none := by decide +kernel

theorem test_witness_CompWriteCompletes :
    (after .compWriteCompletion (inHand true 0 2 (.compWrite [full 0x100 1]))).job.map (·.writesOut) = some 1 ∧
      (after .compWriteCompletion (inHand false 0 1 (.compWrite [full 0x100 1]))).job = none ∧
      (inHand true 0 2 (.compWrite [])).drain = none := by decide +kernel

theorem test_witness_TileCompletionCompletes :
    let s := inHand true 0 1 (.compWrite [full 0x01000400 1])
    (s.comp.A.composition.map fun k => (k.region.length, k.next)) = some (1, 1) ∧ s.drain = none ∧
      (after .tileCompletion s).comp.A.awaiting = true ∧ (after .tileCompletion s).comp.A.composition = none ∧
      (after .tileCompletion s).comp.A.completedSize = 1 := by decide +kernel

/-- The state of a slot, held by the outputs given. -/
def slot (st : SlotState) (a b : Bool) : Slot := { Slot.fresh with state := st, holds := ⟨a, b⟩ }

/-- The last tile in hand of a composition of A that holds both slots of stream 1. -/
def holding (slots : List Slot) : State :=
  let s := inHand true 0 1 (.compWrite [full 0x01000400 1])
  (s.setComp .A { s.comp.A with composition := s.comp.A.composition.map fun k =>
    { k with holds := [⟨.S1, 0⟩, ⟨.S1, 1⟩] } }).setStream .S1 { stream .running with slots := slots }

/-- The end of a composition releases its holds: a RETIRED slot that the other output still holds keeps its state (R72,
R101). -/
theorem test_witness_TileCompletion_holds :
    let s := holding [slot .retired true false, slot .retired true true]
    let t := after .tileCompletion s
    s.drain = none ∧ (s.comp.A.composition.map fun k => (k.region.length, k.next)) = some (1, 1) ∧
      t.streams.S1.slots = [slot .free false false, slot .retired false true] ∧
      heard t = [(.slotFreed, 1, 0, 0, 4)] ∧
      (after .tileCompletion (holding [slot .shown true false, slot .ready true true])).streams.S1.slots =
        [slot .shown false false, slot .ready false true] := by decide +kernel

theorem test_witness_BlendStaysBetween :
    255 ≤ 255 ∧ blendChannel 255 0 255 = 255 ∧ blendChannel 255 0 0 = 0 ∧ blendChannel 200 100 128 = 150 := by
  decide +kernel

/-! ### Damage -/

theorem test_witness_InvalidateCompletes :
    outputOfOperand 1 = some .B ∧ (running .B 3).outputState .B = .running ∧ ready.outputState .B = .off ∧
      (after (.invalidate 1) (running .B 3)).damage.B.list = ⟨[], true⟩ ∧
      (after (.invalidate 1) ready).damage.B.list = ⟨[], false⟩ ∧ (2 : Byte) ≠ 0 ∧ (2 : Byte) ≠ 1 ∧
      heard (after (.invalidate 2) ready) = [(.commandRefused, 2, 2, 2, 1)] ∧
      (after (.invalidate 1) (running .B 3)).damage.B.list = ⟨[], true⟩ := by decide +kernel

theorem test_witness_InsertionOfDamage : DamageSound ⟨[⟨0, 1, 0, 1⟩], false⟩ ∧ Covers ⟨[⟨0, 1, 0, 1⟩], false⟩ ⟨1, 1⟩ := by
  refine ⟨⟨by decide, by decide, List.pairwise_singleton _ _⟩, Or.inr ⟨⟨0, 1, 0, 1⟩, by simp, by decide⟩⟩

/-- Sixteen tiles of the top row, none beside another. -/
def sixteen : DamageList := ⟨(List.range 16).map fun i => ⟨2 * i, 2 * i, 0, 0⟩, false⟩

/-- A merge at the lowest position of least growth, what a rectangle contains removed, and the whole grid (R23 to R25). -/
theorem test_witness_InsertionOfDamage_result :
    (∀ e ∈ sixteen.entries, e.contains ⟨1, 1, 0, 0⟩ = false) ∧ 16 ≤ sixteen.entries.length ∧
      (sixteen.insert 40 40 ⟨1, 1, 0, 0⟩).entries = ⟨0, 1, 0, 0⟩ :: sixteen.entries.tail ∧
      (sixteen.insert 40 40 ⟨0, 3, 0, 1⟩).entries = sixteen.entries.drop 2 ++ [⟨0, 3, 0, 1⟩] ∧
      sixteen.insert 40 40 ⟨30, 30, 0, 0⟩ = sixteen ∧
      DamageList.insert 2 1 ⟨0, 1, 0, 0⟩ ⟨[⟨0, 0, 0, 0⟩], false⟩ = ⟨[], true⟩ ∧
      (∀ e ∈ sixteen.entries, e.c0 ≤ e.c1 ∧ e.c1 < 31 ∧ e.r0 ≤ e.r1 ∧ e.r1 < 1) := by decide +kernel

/-! ### The event writer -/

/-- An event to write. -/
def event : Event := ⟨.epoch, 1, 7, 0, 3, 2⟩

/-- The part with events in its queue and a lost count. -/
def eventful : State := { ready with events := { ready.events with queue := [event], lost := 2, writeIndex := 250 } }

theorem test_witness_RecordsAreWritten :
    eventful.events.inWriting = none ∧ eventful.events.presented = none ∧
      eventful.events.writeIndex + 1 ≠ eventful.events.consumed ∧ eventful.events.recordNext = true ∧
      (after .recordForm eventful).events.lost = 0 ∧
      (after .recordForm eventful).events.presented = some (.record
        [full 0x0FFFDF40 0x0000000701020000, full 0x0FFFDF48 0x0000000300000002, full 0x0FFFDF50 0x2,
          full 0x0FFFDF58 0]) ∧
      { ready with inFlight := [.recordWrite [full 0x0FFFC000 1]] }.drain = none ∧
      (after .recordWriteCompletion { ready with inFlight := [.recordWrite [full 0x0FFFC000 1]] }).events.interrupt = true
      := by decide +kernel

/-- A ring that is full forms no record (R166). -/
theorem test_full_ring_waits :
    (after .recordForm { eventful with events := { eventful.events with consumed := 251 } }).events.queue = [event] := by
  decide +kernel

/-- The part with the global block due. -/
def due : State := ready.mark DueMarks.markBlocks

theorem test_witness_StatusBlocksAreWritten :
    due.events.due.global = true ∧ due.events.presented = none ∧ due.events.queue = [] ∧
      (after .statusBlockWrite due).events.presented = some (.block .global
        [full 0x0FFFE000 0x2410, full 0x0FFFE008 0, full 0x0FFFE010 0, full 0x0FFFE018 0]) ∧
      Block.stream .S1 ≠ .readback ∧
      (after .statusBlockCompletion { ready with inFlight := [.blockWrite (.stream .S1) true [full 0x0FFFE200 1]] }).inFlight
        = [] := by decide +kernel

/-- The block's turn with an event waiting, and the moments at which either row does nothing (R166, R170). -/
theorem test_witness_alternation :
    let w := { eventful.events with due := { eventful.events.due with global := true } }
    let both : State := { eventful with events := w }
    let turn : State := { eventful with events := { w with recordNext := false } }
    let ring : State := { eventful with events := { w with consumed := 251 } }
    let alone : State := { eventful with events := { eventful.events with recordNext := false } }
    (after .statusBlockWrite turn).events.recordNext = true ∧ (after .statusBlockWrite turn).events.queue = [event] ∧
      after .recordForm turn = turn ∧ after .statusBlockWrite both = both ∧
      (after .statusBlockWrite ring).events.presented.isSome = true ∧ after .recordForm ring = ring ∧
      (after .recordForm alone).events.queue = [] ∧ after .statusBlockWrite ready = ready ∧
      after .statusBlockWrite (after .recordForm both) = after .recordForm both := by decide +kernel

/-- The bytes of a record and of a block fill their beats, and the readback area has its words (10.5). -/
theorem test_witness_layouts :
    (Record.bytes ⟨3, 4, 5, event⟩).length = 8 * 4 ∧ (3 : Nat) < 4 ∧
      (State.blockBytes (after (.readback 7 0 1) ready) .readback).take 12 = [7, 0, 1, 0, 8, 5, 5, 4, 2, 0, 0, 0] ∧
      ((withStream .S0 .running).blockBytes (.stream .S0)).take 16 =
        [2, 2, 255, 0, 0, 0, 0, 0, 0, 0, 0, 0, 255, 255, 255, 255] ∧
      colourOf 0x11223344 = ⟨0x11, 0x22, 0x33, 0x44⟩ ∧
      [(0x44 : Byte), 0x33, 0x22, 0x11] = [0, 1, 2, 3].map (fun i => BitVec.ofNat 8 (0x11223344 / 256 ^ i)) ∧
      (configureBytes 1080 1920 65000).take 9 = [0x02, 0x04, 0x38, 0x07, 0x80, 0x00, 0x00, 0xFD, 0xE8] ∧
      (lineBytes 255 1079 [1, 2, 3]).take 7 = [0x03, 255, 0x04, 0x37, 1, 2, 3] := by decide +kernel

/-- The last block of the order, the only one due. -/
theorem test_witness_StatusBlocks_last :
    let s := ready.mark fun m => { m with readback := true }
    (∀ x ∈ [Block.global, .output .A, .output .B, .stream .S0, .stream .S1], s.events.due.has x = false) ∧
      s.events.due.has .readback = true ∧ s.events.presented = none ∧ s.events.queue = [] ∧
      (after .statusBlockWrite s).events.due = DueMarks.none := by decide +kernel

theorem test_witness_ReadbackIsWritten :
    ready.events.readback = none ∧ tableOfId (1 : Byte).toNat = some .surface ∧ (31 : Byte).toNat < tableEntries .surface ∧
      (1 : Byte).toNat ≤ 1 ∧ (after (.readback 1 31 1) ready).events.due.readback = true ∧
      heard (after .readbackDone { after (.readback 1 31 1) ready with inFlight := [.blockWrite .readback true []] }) =
        [(.readbackDone, 1, 0, 31, 1)] := by decide +kernel

theorem test_witness_ReadbackIsWritten_refused :
    (after (.readback 1 31 1) ready).events.readback ≠ none ∧
      heard (after (.readback 0 0 0) (after (.readback 1 31 1) ready)) = [(.commandRefused, 0x40, 10, 0, 1)] ∧
      tableOfId (9 : Byte).toNat = none ∧ heard (after (.readback 9 0 2) ready) = [(.commandRefused, 0x40, 4, 9, 2)] ∧
      tableEntries .surface ≤ (32 : Byte).toNat ∧
      heard (after (.readback 1 32 2) ready) = [(.commandRefused, 0x40, 4, 1, 2)] ∧ 1 < (2 : Byte).toNat ∧
      heard (after (.readback 1 31 2) ready) = [(.commandRefused, 0x40, 2, 1, 3)] := by decide +kernel

/-- Staged and active copies differ; the words of a surface, a layer, a stream and the link settings (10.3, R162). -/
theorem test_witness_entry_words :
    let l : Layer := { Layer.reset with enabled := true, content := .stream, index := 1, dx := -2, dy := 3, sw := 5 }
    let s := shop.setLayers .B { shop.layers.B with active := shop.layers.B.active.setIfInBounds 7 l }
    shop.entryWords .surface 5 true = [0x02000000, 1280, 0x00C8012C, 0x101, 0x00100000, 1] ∧
      s.entryWords (.layer .B) 7 true = [0x00010201, 0x100, 0, 5, 0x0003FFFE, 0] ∧
      s.entryWords (.layer .B) 7 false = [0, 0x100, 0, 0, 0, 0] ∧
      (withStream .S1 .stopped).entryWords .stream 1 false = [2, 0x201, 0, 0x3C18, 0, 0] ∧
      (running .A 3).entryWords (.timing .A) 0 true =
        [0x100010, 0x140020, 25000, 0x000A141E, 0x01000000, 0x01000400, 0xFFFF, 0] ∧
      { shop with stagedCredits := ⟨1, 2, 3, 4, 5⟩ }.entryWords .credit 0 false = [0x04030201, 5] ∧
      { shop with stagedCredits := ⟨1, 2, 3, 4, 5⟩ }.entryWords .credit 0 true = shop.entryWords .credit 0 false ∧
      shop.entryWords .link 0 true = [16, 0x204] := by decide +kernel

theorem test_witness_MaskAndRaisedEvents :
    (after (.eventMask 0xFFFFFFFF) ready).events.mask = 0x003FFFFE ∧
      State.reset.events.mask.getLsbD EventKind.epoch.code = false ∧
      ready.events.mask.getLsbD EventKind.epoch.code = true ∧ ready.events.queue.length < 16 ∧
      ({ ready.events with queue := List.replicate 16 event }.raise event).lost = 1 ∧
      ({ ready.events with queue := List.replicate 16 event, lost := 65535 }.raise event).lost = 65535 ∧
      (full 0x0FFFF008 0).addr = 0x0FFFF008 ∧
      (ready.controlCapture (full 0x0FFFF008 0x0000000000000999)).events.queue.length = 1 := by decide +kernel

/-! ### The table port -/

theorem test_witness_EventConsumedCompletes :
    let s := { ready with events := { ready.events with writeIndex := 10, consumed := 250 } }
    (20 : Byte).toNat = (20 : Word).toNat % 256 ∧
      (s.events.writeIndex - s.events.consumed).toNat < ((20 : Byte) - s.events.consumed).toNat ∧
      heard (after (.eventConsumed 20) s) = [(.commandRefused, 0, 12, 20, 250)] ∧
      ((10 : Byte) - s.events.consumed).toNat ≤ (s.events.writeIndex - s.events.consumed).toNat ∧
      (after (.eventConsumed 10) s).events.consumed = 10 := by decide +kernel

theorem test_witness_TableSelectCompletes :
    tableOfId (0x00051F01 % 256) = some .surface ∧ 0x00051F01 / 256 % 256 < tableEntries .surface ∧
      0x00051F01 / 65536 % 256 < tableWords .surface ∧
      (after (.tableSelect 0x00051F01) ready).port.cursor = some ⟨.surface, 31, 5⟩ ∧
      tableEntries .surface ≤ 0x00002001 / 256 % 256 ∧ (after (.tableSelect 0x00002001) ready).port.cursor = none ∧
      ready.port.cursor = none ∧ ready.upstream = [] ∧
      heard (after (.tableData 8) ready) = [(.tableRefused, 0, 13, 8, 0)] := by decide +kernel

/-- The cursor on the last word of an entry. -/
def atCursor (c : Cursor) : State := { ready with port := ⟨some c, emptyAssembly⟩ }

theorem test_witness_TableDataCompletes :
    (atCursor ⟨.credit, 0, 1⟩).dropsWords .credit = false ∧ 1 + 1 = tableWords .credit ∧
      (after (.tableData 9) (atCursor ⟨.credit, 0, 1⟩)).stagedCredits = ⟨8, 5, 5, 4, 9⟩ ∧
      0 + 1 < tableWords .credit ∧
      (after (.tableData 9) (atCursor ⟨.credit, 0, 0⟩)).port.cursor = some ⟨.credit, 0, 1⟩ ∧
      (after (.commit 0) (atCursor ⟨.layer .A, 7, 5⟩)).layers.A.commitPending = true ∧
      heard (after (.tableData 9) (after (.commit 0) (atCursor ⟨.layer .A, 7, 5⟩))) = [(.stagedDropped, 2, 0, 7, 5)] ∧
      (after (.tableData 9) (after (.commit 0) (atCursor ⟨.layer .A, 7, 5⟩))).port.cursor = some ⟨.layer .A, 0, 0⟩ := by
  decide +kernel

theorem test_witness_TableEntriesApply :
    let e := layerEntry [0x011F0101, 0x00000980, 0x07FF07FF, 0x07FF07FF, 0x0FFFF000, 0]
    let t := ready.applyLayer .B 7 [0x011F0101, 0x00000980, 0x07FF07FF, 0x07FF07FF, 0x0FFFF000, 0]
    e.enabled = 1 ∧ e.content = 1 ∧ e.blend = 1 ∧ e.index = 31 ∧ e.sx = 2047 ∧ e.sy = 2047 ∧ e.sw = 2047 ∧
      e.sh = 2047 ∧ e.dx = -4096 ∧ e.dy = 4095 ∧ e.mag = 9 ∧
      t.layers.B.staged[7] = ⟨true, .surface, 31, 2047, 2047, 2047, 2047, -4096, 4095, 4, 128, .blend, ⟨0, 0, 0, 0⟩⟩ ∧
      heard t = [(.valueClamped, 3, 0, 7, 9)] ∧
      heard (ready.applyLayer .A 0 [0x00200101, 0, 0, 0, 0, 0]) = [(.tableRefused, 2, 4, 0, 4)] ∧
      heard (ready.applyLayer .A 0 [0, 0, 0, 0, 0x1000, 0]) = [(.tableRefused, 2, 5, 0, 6)] := by decide +kernel

/-- Surface 6 beside surface 5, its alias range from the first byte behind that of surface 5; unbound again, the layer that
shows it is damaged (R4, R6). -/
theorem test_witness_TableEntries_surface :
    let s := showing.applySurface 5 [0, 0, 0, 0, 0, 0]
    s.surfaces[5] = ⟨⟨false, 0, 0, 0, 0, .none⟩, none⟩ ∧ heard s = [] ∧
      s.damage.A.list = ⟨[⟨93, 119, 62, 67⟩], false⟩ ∧ s.damage.B = showing.damage.B ∧
      0x00100000 + 1280 / 2 * 200 = 0x0011F400 ∧
      heard (shop.applySurface 6 [0x03000000, 1216, 0x0064012C, 0x0202, 0x0011F400, 1]) = [] ∧
      (shop.applySurface 6 [0x03000000, 1216, 0x0064012C, 0x0202, 0x0011F400, 1]).surfaces[6] =
        ⟨⟨true, 0x03000000, 1216, 300, 100, .xrgb32⟩, some ⟨0x0011F400, .argb4444⟩⟩ ∧
      heard (shop.applySurface 6 [0x03000000, 1216, 0x0064012C, 0x0202, 0x0011F3C0, 1]) =
        [(.tableRefused, 1, 8, 6, 5)] ∧
      heard (shop.applySurface 6 [0, 0, 0, 0, 0, 2]) = [(.tableRefused, 1, 6, 6, 1)] ∧
      heard ((withStream .S1 .running).applySurface 2 [0, 0, 0, 0, 0, 0]) = [(.tableRefused, 1, 9, 2, 1)] := by
  decide +kernel

/-- The stream, timing, credit and link settings entries at the ends of their ranges (R81, R106, R128, R152). -/
theorem test_witness_TableEntries_others :
    let s := ({ withStream .S0 .stopped with streams := ⟨.reset, .reset⟩ } : State).applyStream .S1
      [0x00000102, 0x00000201, 0, 0x00003C3C, 0, 0]
    s.streams.S1 = { Stream.reset with
      count := 2, positions := [1, 2, 0, 0, 0, 0], pacing := .B, rateN := 60, rateD := 60, slots := [.fresh, .fresh] } ∧
      heard s = [] ∧ s.events.due.stream.S1 = true ∧
      heard ((withStream .S0 .running).applyStream .S0 [0x00000102, 0x00000201, 0, 0x00003C3C, 0, 0]) =
        [(.tableRefused, 4, 3, 0, 1)] ∧
      (ready.applyTiming .A [0x00100011, 0, 0, 0, 0, 0, 0x0000FFFF, 0]).outputs.A.staged.lineMatch = none ∧
      (ready.applyTiming .A [0x00100011, 0, 0, 0, 0, 0, 0x0000FFFE, 0]).outputs.A.staged =
        ⟨17, 16, 0, 0, 0, ⟨0, 0, 0, 0⟩, 0, 0, some 0xFFFE⟩ ∧
      (ready.applyCredit [0x11100100, 1]).stagedCredits = ⟨1, 1, 16, 16, 1⟩ ∧
      heard (ready.applyCredit [0x11100100, 1]) = [(.valueClamped, 7, 0, 0, 0), (.valueClamped, 7, 0, 3, 17)] ∧
      (ready.applyLinkSettings [3, 0x00000409]).linkSettings = ⟨4, 8, 3⟩ ∧
      heard (ready.applyLinkSettings [3, 0x00000409]) =
        [(.valueClamped, 8, 0, 0, 3), (.valueClamped, 8, 0, 1, 9), (.valueClamped, 8, 0, 2, 4)] ∧
      heard (ready.applyLinkSettings [64, 0x00000308]) = [] := by decide +kernel

/-- Surface 6 of chapter 1's example is refused: its pitch, and then its alias range (R3, R5). -/
theorem test_surface_refusals :
    heard (shop.applySurface 6 [0x03000000, 1200, 0x0064012C, 1, 0, 1]) = [(.tableRefused, 1, 5, 6, 8)] ∧
      heard (shop.applySurface 6 [0x03000000, 1216, 0x0064012C, 0x0202, 0x0011F000, 1]) =
        [(.tableRefused, 1, 8, 6, 5)] ∧
      ((shop.applySurface 6 [0x03000000, 1216, 0x0064012C, 0x0202, 0x00120000, 1]).surfaces[6]).geometry.bound = true := by
  decide +kernel

/-- A stream entry with N above D is clamped (R81). -/
theorem test_stream_entry :
    heard ((withStream .S0 .stopped).applyStream .S1 [0x00000102, 0x00000201, 0, 0x00003C78, 0, 0]) =
      [(.tableRefused, 4, 5, 1, 10)] ∧
      heard ({ withStream .S0 .stopped with streams := ⟨.reset, .reset⟩ }.applyStream .S1
        [0x00000102, 0x00000201, 0, 0x00003C78, 0, 0]) = [(.valueClamped, 4, 0, 1, 120)] := by decide +kernel

/-! ### Commands on outputs and streams -/

theorem test_witness_RefusedCommands :
    (255 : Byte) ≠ 0 ∧ (255 : Byte) ≠ 1 ∧ heard (after (.streamStop 255) ready) = [(.commandRefused, 0x13, 2, 255, 1)] ∧
      commandCodes.contains 0 = false ∧ heard (after (.unknownCommand 0 7 9) ready) = [(.commandRefused, 0, 1, 7, 9)] := by
  decide +kernel

theorem test_witness_CommitCompletes :
    outputOfOperand 0 = some .A ∧ (after (.commit 0) ready).layers.A.commitPending = true := by decide +kernel

theorem test_witness_FreezeAndThaw :
    (running .B 3).outputState .B = .running ∧ outputOfOperand 1 = some .B ∧
      heard (after (.outputFreeze 1) (running .B 3)) = [(.outputState, 1, 0, 4, 3)] ∧
      (after (.outputFreeze 1) (running .B 3)).outputState .B = .frozen ∧
      heard (after (.outputThaw 1) (withOutput .B .frozen 3 ready)) = [(.outputState, 1, 0, 3, 4)] := by decide +kernel

theorem test_witness_FreezeAndThaw_refused :
    outputOfOperand 0 = some .A ∧ ready.outputState .A ≠ .running ∧ ready.outputState .A ≠ .frozen ∧
      heard (after (.outputFreeze 0) ready) = [(.commandRefused, 0x22, 3, 0, 0)] ∧
      heard (after (.outputThaw 0) ready) = [(.commandRefused, 0x23, 3, 0, 0)] := by decide +kernel

/-- The conditions of R108 at the small timing, its two buffers side by side. -/
theorem test_witness_OutputStartCompletes :
    16 ≤ small.width ∧ small.width + 16 ≤ small.hTotal ∧ small.height + 2 ≤ small.vTotal ∧ 25000 ≤ small.clock ∧
      small.buffer0 % 64 = 0 ∧ small.buffer1 % 64 = 0 ∧ small.buffer0 + small.pitch * small.height ≤ small.buffer1 ∧
      small.buffer1 + small.pitch * small.height ≤ 0x0FFFC000 ∧ small.lineMatch = none ∧
      (withOutput .B .off 0 ready).outputs.B.staged = small ∧
      heard (after (.outputStart 1) (withOutput .B .off 0 ready)) = [(.outputState, 1, 0, 1, 0)] ∧
      (after (.outputStart 1) (withOutput .B .off 0 ready)).outputState .B = .locking := by decide +kernel

/-- A staged timing of all 0 is refused at step 2 (R108). -/
theorem test_outputStart_refused : heard (after (.outputStart 0) ready) = [(.commandRefused, 0x20, 5, 0, 2)] := by
  decide +kernel

/-- An OFF output with a staged timing. -/
def staged (t : Timing) : State := ready.setOutput .A { ready.outputs.A with staged := t }

theorem test_witness_OutputStartCompletes_refused :
    [{ small with width := 15 }, { small with hTotal := 31 }, { small with vTotal := 17 }, { small with clock := 24999 },
      { small with buffer1 := 0x01000420 }, { small with buffer1 := 0x0FFFBC40 }, { small with buffer1 := 0x010003C0 },
      { small with lineMatch := some 20 }].map (fun t => heard (after (.outputStart 0) (staged t))) =
        [2, 3, 4, 5, 6, 7, 8, 9].map (fun n => [(.commandRefused, 0x20, 5, 0, n)]) ∧
      (staged small).outputState .A = .off ∧ (running .A 3).outputState .A ≠ .off ∧
      heard (after (.outputStart 0) (running .A 3)) = [(.commandRefused, 0x20, 3, 0, 1)] ∧
      heard (after (.outputStart 0) (staged { small with lineMatch := some 19 })) = [(.outputState, 0, 0, 1, 0)] := by
  decide +kernel

theorem test_witness_OutputStopCompletes :
    ready.outputState .A = .off ∧ (running .A 3).outputState .A ≠ .off ∧
      (after (.outputStop 0) (after (.commit 0) ready)).layers.A.commitPending = false ∧
      (after (.outputStop 0) composing).comp.A.composition = none ∧
      (after (.outputStop 0) composing).links.A.sent = [haltBytes] ∧
      heard (after (.outputStop 0) (running .A 3)) = [(.linkState, 0, 0, 0, 3), (.outputState, 0, 0, 0, 3)] := by
  decide +kernel

theorem test_witness_OutputStop_holds :
    let s := holding [slot .retired true false, slot .shown true true]
    s.comp.A.composition.map (·.holds) = some [⟨.S1, 0⟩, ⟨.S1, 1⟩] ∧
      (after (.outputStop 0) s).streams.S1.slots = [slot .free false false, slot .shown false true] := by decide +kernel

theorem test_softReset_releases_a_slot :
    let t := withStream .S1 .running
    let s := (t.setStream .S1 { t.streams.S1 with slots := [slot .retired true false, .fresh] }).setComp .A
      { t.comp.A with composition := composing.comp.A.composition.map fun k => { k with holds := [⟨.S1, 0⟩] } }
    heard (after .softReset s) = [(.slotFreed, 1, 0, 0, 4), (.resetDone, 0, 0, 2, 0)] := by decide +kernel

theorem test_witness_StreamStartCompletes :
    let s := withStream .S0 .stopped
    streamOfOperand 0 = some .S0 ∧ s.streams.S0.count = 2 ∧ s.slotsBound s.streams.S0.surfaces = true ∧
      s.slotsEqual s.streams.S0.surfaces = true ∧ s.slotsBased s.streams.S0.surfaces = true ∧
      heard (after (.streamStart 0) s) = [(.streamState, 0, 0, 1, 0)] ∧
      heard (after (.streamStart 0) (withStream .S0 .ended)) = [(.streamState, 0, 0, 1, 4)] := by decide +kernel

/-- One refusal for each step of R90. -/
theorem test_witness_StreamStart_refused :
    let s := withStream .S0 .stopped
    heard (after (.streamStart 0) (withStream .S0 .priming)) = [(.commandRefused, 0x10, 3, 0, 1)] ∧
      heard (after (.streamStart 1) s) = [(.commandRefused, 0x10, 4, 1, 2)] ∧
      heard (after (.streamStart 0) { s with surfaces := State.reset.surfaces }) = [(.commandRefused, 0x10, 5, 0, 3)] ∧
      heard (after (.streamStart 0) (bind 1 0x03000000 8 4 s)) = [(.commandRefused, 0x10, 5, 0, 3)] ∧
      heard (after (.streamStart 0) (bind 2 0 16 4 s)) = [(.commandRefused, 0x10, 5, 0, 4)] := by decide +kernel

theorem test_witness_PauseAndResumeComplete :
    (withStream .S1 .running).streams.S1.state = .running ∧ streamOfOperand 1 = some .S1 ∧
      heard (after (.streamPause 1) (withStream .S1 .running)) = [(.streamState, 1, 0, 3, 2)] ∧
      (withStream .S1 .paused).streams.S1.state = .paused ∧
      heard (after (.streamResume 1) (withStream .S1 .paused)) = [(.streamState, 1, 0, 2, 3)] := by decide +kernel

theorem test_streamPause_refused : heard (after (.streamPause 1) ready) = [(.commandRefused, 0x11, 3, 1, 0)] := by
  decide +kernel

/-- A running stream with slot 0 shown and held, and slot 1 ready. -/
def shownStream : Stream :=
  { stream .running with
    slots := [{ Slot.fresh with state := .shown, holds := ⟨true, false⟩ }, { Slot.fresh with state := .ready }] }

theorem test_witness_StreamStopCompletes :
    let s := (withStream .S0 .running).setStream .S0 shownStream
    ready.streams.S0.state = .stopped ∧ s.streams.S0.state ≠ .stopped ∧
      (after (.streamStop 0) s).streams.S0.slots.map (·.state) = [.retired, .free] ∧
      heard (after (.streamStop 0) s) = [(.slotFreed, 0, 0, 1, 2), (.streamState, 0, 0, 0, 2)] := by decide +kernel

/-- Output A RUNNING before its epoch line, stream 0 shown by layer 7. -/
def showingStream (s : State) : State :=
  let l : Layer := { Layer.reset with enabled := true, content := .stream, index := 0, sw := 4, sh := 4 }
  (withLink .A .normal (withOutput .A .running 15 s)).setLayers .A
    { s.layers.A with active := s.layers.A.active.setIfInBounds 7 l }

/-- A stop of the stream that the layer shows damages its rectangle (R31). -/
theorem test_witness_StreamStopCompletes_damage :
    let s := showingStream ((withStream .S0 .running).setStream .S0 shownStream)
    (s.outputState .A).live = true ∧ (s.outputState .B).live = false ∧ s.damage.A.list = ⟨[], false⟩ ∧
      (after (.streamStop 0) s).damage = ⟨⟨⟨[], true⟩, ⟨[], false⟩⟩, s.damage.B⟩ := by decide +kernel

/-! ### Timing generators, synthesizers and panels -/

theorem test_witness_LockChanges :
    (withOutput .B .locking 0 ready).outputState .B = .locking ∧ (withOutput .B .locking 0 ready).links.B.state = .down ∧
      heard (after (.lockCompletion .B) (withOutput .B .locking 0 ready)) =
        [(.lockChange, 1, 0, 1, 2), (.outputState, 1, 0, 2, 1), (.linkState, 1, 0, 1, 0)] ∧
      ((withOutput .B .frozen 0 ready).outputState .B).timed = true ∧
      heard (after (.lockLoss .B) (withOutput .B .frozen 0 ready)) =
        [(.lockChange, 1, 0, 0, 1), (.outputState, 1, 0, 1, 4)] ∧
      (after (.lockLoss .B) (withOutput .B .frozen 0 ready)).outputs.B.resume = some .frozen := by decide +kernel

theorem test_witness_LockChanges_fault :
    (withOutput .B .fault 0 ready).outputState .B = .fault ∧
      heard (after (.lockLoss .B) (withOutput .B .fault 0 ready)) = [(.lockChange, 1, 0, 0, 5)] ∧
      ready.outputState .A = .off ∧ heard (after (.lockCompletion .A) ready) = [] := by decide +kernel

/-- Output A TRAINING with its link in a state. -/
def training (st : LinkState) : State := withLink .A st (withOutput .A .training 0 ready)

theorem test_witness_PanelInfoCompletes :
    (training .announcing).links.A.state = .announcing ∧ (training .announcing).links.A.panel = none ∧
      (training .announcing).outputs.A.active.width = (16 : BitVec 16).toNat ∧
      (training .announcing).outputs.A.active.clock ≤ (25000 : BitVec 32).toNat ∧
      heard (after (.panelInfo .A 16 16 25000) (training .announcing)) = [(.linkState, 0, 0, 2, 1)] ∧
      heard (after (.panelInfo .A 16 17 25000) (training .announcing)) =
        [(.linkState, 0, 2, 5, 1), (.outputState, 0, 2, 5, 2)] := by decide +kernel

theorem test_witness_PanelInfo_changed :
    let s := (training .announcing).setLink .A { (training .announcing).links.A with panel := some ⟨16, 15, 25000⟩ }
    (after (.panelInfo .A 16 16 25000) s).links.A.reason = some .panelChanged ∧
      (after (.panelInfo .A 16 16 25000) s).outputState .A = .fault ∧ (running .A 3).links.A.state ≠ .announcing ∧
      (after (.panelInfo .A 16 16 25000) (running .A 3)).links.A.panel = none := by decide +kernel

theorem test_witness_ReadyNormalCompletes :
    (training .configuring).links.A.state = .configuring ∧ (training .configuring).outputState .A = .training ∧
      (training .configuring).outputs.A.resume = none ∧
      heard (after (.readyNormal .A) (training .configuring)) = [(.linkState, 0, 0, 3, 2), (.outputState, 0, 0, 3, 2)] ∧
      (after (.readyNormal .A) (training .configuring)).damage.A = ⟨⟨[], true⟩, ⟨[], true⟩⟩ ∧
      (running .B 3).outputState .B ≠ .training ∧
      (after (.readyNormal .A) ((training .configuring).setOutput .A
        { (training .configuring).outputs.A with resume := some .frozen })).outputState .A = .frozen := by decide +kernel

theorem test_witness_ConfirmCompletes :
    let s := linked .normal [packet 43 2, packet 44 1, packet 45 0] 46
    s.links.A.state = .normal ∧ s.links.A.buffer = [packet 43 2] ++ packet 44 1 :: [packet 45 0] ∧
      (packet 44 1).seq = 44 ∧ (∀ x ∈ [packet 43 2], x.seq ≠ 44) ∧
      (after (.confirm .A 44) s).links.A.buffer = [packet 45 0] ∧ (∀ p ∈ s.links.A.buffer, p.seq ≠ 46) ∧
      (after (.confirm .A 46) s).links.A.counters.badRefs = 1 ∧
      (after (.replayFrom .A 46) s).links.A.counters.badRefs = 1 := by decide +kernel

theorem test_witness_ReplayFromCompletes :
    let s := linked .normal [packet 43 2, packet 44 1, packet 45 0] 46
    s.links.A.replayRun + 1 ≤ s.links.A.settings.replayLimit ∧
      (after (.replayFrom .A 44) s).links.A.buffer = [packet 44 1, packet 45 0] ∧
      (after (.replayFrom .A 44) s).links.A.pointer = some 44 ∧ (after (.replayFrom .A 44) s).links.A.replayEnd = some 45 := by
  decide +kernel

/-- The link of A in the replay of 7.5's example: packets 48 to 55, pointer 50, end 55. -/
def replaying : State :=
  let s := linked .replay ((List.range 8).map fun i => packet (BitVec.ofNat 8 (48 + i)) 0) 56
  s.setLink .A { s.links.A with pointer := some 50, replayEnd := some 55 }

/-- A CONFIRM during a replay moves the pointer to the oldest packet that remains (7.5's example). -/
theorem test_witness_ConfirmCompletes_replay :
    replaying.links.A.state = .replay ∧ replaying.links.A.pointer = some 50 ∧
      replaying.links.A.buffer = [packet 48 0] ++ packet 49 0 :: (replaying.links.A.buffer.drop 2) ∧
      (after (.confirm .A 49) replaying).links.A.pointer = some 50 ∧
      (after (.confirm .A 51) replaying).links.A.pointer = some 52 ∧
      (after (.confirm .A 55) replaying).links.A.state = .normal ∧ ready.links.A.state = .down := by decide +kernel

theorem test_witness_ReplayFrom_beyond_the_limit :
    let s := replaying.setLink .A { replaying.links.A with replayRun := 4 }
    s.links.A.settings.replayLimit < s.links.A.replayRun + 1 ∧ (after (.replayFrom .A 50) s).links.A.reinitRun = 1 := by
  decide +kernel

theorem test_witness_PanelHaltCompletes :
    let s := linked .normal [packet 43 2] 44
    s.links.A.reinitRun + 1 ≤ s.links.A.settings.reinitLimit ∧
      (after (.panelHalt .A) s).links.A.sent = [haltBytes, announceBytes] ∧
      (after (.panelHalt .A) s).links.A.state = .announcing ∧
      (after (.panelHalt .A) (s.setLink .A { s.links.A with reinitRun := 2 })).outputState .A = .fault := by
  decide +kernel

theorem test_witness_PanelHalt_limit :
    let s := linked .normal [packet 43 2] 44
    let full := fun t : State => t.setLink .A { t.links.A with reinitRun := 2 }
    let off := full (s.setOutput .A { s.outputs.A with state := .off })
    (full s).links.A.settings.reinitLimit < (full s).links.A.reinitRun + 1 ∧
      (after (.panelHalt .A) (full s)).links.A.reason = some .reinitLimit ∧ off.outputs.A.state.timed = false ∧
      (after (.panelHalt .A) off).links.A.state = .error ∧ (after (.panelHalt .A) off).outputs.A = off.outputs.A := by
  decide +kernel

theorem test_witness_BadPanelMessageCompletes :
    parsePanelMessage [0x82, 0] = none ∧ parsePanelMessage [] = none ∧ parsePanelMessage [0x86, crc8 [0x86]] = none ∧
      (running .A 3).links.A.state.up = true ∧ ready.links.A.state.up = false ∧
      (after (.badPanelMessage .A [0x82, 0]) (running .A 3)).links.A.counters.badCrcs = 1 ∧
      (after (.badPanelMessage .A []) ready).links.A.counters.badCrcs = 0 := by decide +kernel

/-- One good message of each kind (R126, R174). -/
theorem test_witness_good_messages :
    let whole := fun body : List Byte => body ++ [crc8 body]
    parsePanelMessage (whole [0x81, 0x04, 0x38, 0x07, 0x80, 0, 2, 0x49, 0xF0]) = some (.info 1080 1920 150000) ∧
      parsePanelMessage (whole [0x82]) = some .readyNormal ∧ parsePanelMessage (whole [0x83, 50]) = some (.confirm 50) ∧
      parsePanelMessage (whole [0x84, 50]) = some (.replayFrom 50) ∧ parsePanelMessage (whole [0x85]) = some .halt ∧
      parsePanelMessage (whole [0x83]) = none ∧ parsePanelMessage (whole [0x82, 1]) = none := by decide +kernel

theorem test_witness_LineStartCompletes_training :
    (training .announcing).outputState .A = .training ∧ (training .announcing).links.A.timer + 1 < 64 ∧
      (after (.lineStart .A) (training .announcing)).links.A.timer = 1 ∧
      (after (.lineStart .A) (training .announcing)).outputs.A.line = 1 := by decide +kernel

theorem test_witness_LineStartCompletes_line :
    ((running .B 19).outputState .B).live = true ∧ (running .B 19).outputs.B.nextLine = 0 ∧
      (running .B 19).links.B.state = .normal ∧ (running .B 19).links.B.buffer = [] ∧
      (after (.lineStart .B) (running .B 19)).links.B.nextSeq = 1 ∧
      (after (.lineStart .B) (running .B 19)).links.B.sent.map (List.take 7) = [[3, 0, 0, 0, 10, 20, 30]] := by
  decide +kernel

theorem test_witness_LineStartCompletes_skipped :
    let s := (running .A 19).setLink .A { (running .A 19).links.A with
      buffer := (List.range 8).map fun i => packet (BitVec.ofNat 8 i) 14 }
    8 ≤ s.links.A.buffer.length ∧ s.links.A.buffer.head?.map (·.wait) = some 14 ∧
      s.links.A.settings.confirmTimeout = 16 ∧ (after (.lineStart .A) s).links.A.counters.skipped = 1 ∧
      (after (.lineStart .A) s).links.A.sent = [] ∧ (ready.outputState .A).timed = false := by decide +kernel

/-- Output A before a line start, its link up and idle, its line-match line that of the line start. -/
def matching (line y : Nat) : State :=
  (running .A line).setOutput .A
    { (running .A line).outputs.A with active := { small with lineMatch := some y } }

theorem test_witness_LineStartCompletes_blanking :
    (matching 16 17).outputs.A.nextLine = 16 + 1 ∧ (matching 16 17).outputs.A.blank = false ∧
      heard (after (.lineStart .A) (matching 16 17)) = [(.lineMatch, 0, 0, 17, 3)] ∧
      (after (.lineStart .A) (matching 16 17)).outputs.A.fetch = some ⟨0, 0⟩ ∧
      heard (after (.lineStart .A) (matching 18 18)) = [] ∧ (after (.lineStart .A) (matching 18 18)).outputs.A.line = 19 ∧
      (after (.lineStart .A) (matching 17 18)).outputs.A.begun = false ∧
      heard (after (.lineStart .A) (matching 19 0)) = [(.lineMatch, 0, 0, 0, 3)] := by decide +kernel

/-- A step of the replay of 7.5's example, and its last one (R136). -/
theorem test_witness_LineStartCompletes_replay :
    let s := replaying.setLink .A { replaying.links.A with pointer := some 55 }
    (replaying.outputState .A).live = true ∧ replaying.outputs.A.active.height + 1 < replaying.outputs.A.nextLine ∧
      replaying.links.A.buffer = [packet 48 0, packet 49 0] ++ packet 50 0 :: replaying.links.A.buffer.drop 3 ∧
      (∀ x ∈ [packet 48 0, packet 49 0] ++ replaying.links.A.buffer.drop 3, x.seq ≠ 50) ∧
      (after (.lineStart .A) replaying).links.A.pointer = some 51 ∧
      (after (.lineStart .A) replaying).links.A.buffer.map (·.wait) = [1, 1, 0, 1, 1, 1, 1, 1] ∧
      (after (.lineStart .A) replaying).links.A.sent = [lineBytes 50 0 []] ∧
      heard (after (.lineStart .A) s) = [(.linkState, 0, 0, 3, 4)] ∧ (after (.lineStart .A) s).links.A.replayEnd = none := by
  decide +kernel

/-- NORMAL and REPLAY at an active line with packets waiting, REPLAY at the fetch line, and the bring-up timers that run on
while lines are handed (R129, R131, R133, R136). -/
theorem test_witness_LineStart_forms :
    let n := linked .normal [packet 43 2, packet 44 0] 45
    let n := n.setOutput .A { n.outputs.A with line := 3 }
    let r := linked .replay [packet 43 2, packet 44 0] 45
    let r := r.setLink .A { r.links.A with pointer := some 43, replayEnd := some 44 }
    let f := r.setOutput .A { r.outputs.A with line := 16 }
    let r := r.setOutput .A { r.outputs.A with line := 3 }
    let c := fun st => withLink .A st (running .A 3)
    n.outputs.A.nextLine = 4 ∧ n.outputs.A.nextLine < n.outputs.A.active.height ∧
      (∀ p, n.links.A.buffer.head? = some p → p.wait + 1 < n.links.A.settings.confirmTimeout) ∧
      (after (.lineStart .A) n).links.A.buffer.map (fun p => (p.seq, p.wait)) = [(43, 3), (44, 1), (45, 0)] ∧
      (after (.lineStart .A) r).links.A.buffer.map (fun p => (p.seq, p.wait)) = [(43, 0), (44, 1), (45, 0)] ∧
      (after (.lineStart .A) r).links.A.sent.length = 2 ∧ (after (.lineStart .A) r).links.A.pointer = some 44 ∧
      f.outputs.A.nextLine = f.outputs.A.active.height + 1 ∧ (after (.lineStart .A) f).links.A.pointer = some 44 ∧
      (after (.lineStart .A) (c .announcing)).links.A.counters.skipped = 1 ∧
      (after (.lineStart .A) (c .configuring)).links.A.timer = 1 ∧
      (after (.lineStart .A) (c .configuring)).links.A.counters.skipped = 1 ∧
      (after (.lineStart .A) (training .configuring)).links.A.timer = 1 ∧
      (after (.lineStart .A) (c .down)).links.A = (c .down).links.A := by
  decide +kernel

/-- An underflow: a line of which two pixels have come back. -/
def dry : Output :=
  { (fetching .B true ready).outputs.B with fifo := [⟨0, [some ⟨1, 2, 3⟩, some ⟨4, 5, 6⟩, none]⟩] }

theorem test_witness_HandedLinePixels :
    15 < dry.active.width ∧ dry.blank = false ∧ dry.begun = true ∧ (dry.fifoLine 0)[0]? = some (some ⟨1, 2, 3⟩) ∧
      (dry.fifoLine 0)[2]? = some none ∧ (dry.fifoLine 0)[15]? = none ∧ dry.underflowed 0 = true ∧
      (dry.linePixels 0).take 3 = [⟨1, 2, 3⟩, ⟨4, 5, 6⟩, ⟨10, 20, 30⟩] ∧ (dry.afterHandOff 0).underflows = 1 ∧
      ({ dry with blank := true }.underflowed 0) = false := by decide +kernel

/-- A line wholly returned, the third row of R120's table. -/
theorem test_witness_HandedLinePixels_whole :
    let o := { dry with fifo := [⟨0, List.replicate 16 (some ⟨7, 8, 9⟩)⟩] }
    (∀ i ∈ List.range o.active.width, (o.fifoLine 0)[i]? = some (some ⟨7, 8, 9⟩)) ∧ o.blank = false ∧ o.begun = true ∧
      o.underflowed 0 = false ∧ (o.linePixels 0)[15]? = some ⟨7, 8, 9⟩ ∧ (o.afterHandOff 0).underflows = 0 := by
  decide +kernel

/-- The hand-off: line y leaves the FIFO, a fetch position in it moves on or is done, its requests are discarded (R120). -/
theorem test_handOff :
    let two := fun p => { dry with fifo := [⟨0, [none]⟩, ⟨1, [none]⟩], fetch := p }
    ((two (some ⟨0, 2⟩)).afterHandOff 0).fifo = [⟨1, [none]⟩] ∧
      ((two (some ⟨0, 2⟩)).afterHandOff 0).fetch = some ⟨1, 0⟩ ∧ ((two (some ⟨15, 2⟩)).afterHandOff 15).fetch = none ∧
      ((two (some ⟨1, 2⟩)).afterHandOff 0).fetch = some ⟨1, 2⟩ ∧ ((two none).afterHandOff 0).fetch = none ∧
      Flight.discardScan .B (fun l => l == 0) (.scanRead .B 0 0 2 [64] true) = .scanRead .B 0 0 2 [64] false ∧
      Flight.discardScan .B (fun l => l == 0) (.scanRead .A 0 0 2 [64] true) = .scanRead .A 0 0 2 [64] true := by
  decide +kernel

theorem test_witness_FrameEpochCompletes :
    let s := after (.commit 1) (running .B 15)
    (s.outputState .B).live = true ∧ s.outputs.B.nextLine = s.outputs.B.active.height ∧
      (after (.frameEpoch .B [.link, .layerTables]) s).outputs.B.frameCounter = 1 ∧
      heard (after (.frameEpoch .B [.link, .layerTables]) s) = [(.epoch, 1, 0, 3, 0), (.commitApplied, 1, 0, 0, 0)] := by
  decide +kernel

/-- A commit of a new layer 3, in two orders of the reactions, and a change of the SHOWN slot (R30, R31, R46). -/
theorem test_witness_FrameEpoch_damage :
    let s := showingStream ready
    let c := s.setLayers .A { s.layers.A with
      commitPending := true
      staged := s.layers.A.active.setIfInBounds 3 { Layer.reset with enabled := true, sw := 2, sh := 2, dx := -1 } }
    let orders := [[EpochReaction.compositor, .layerTables, .stream .S0, .stream .S1, .link],
      [.link, .stream .S1, .stream .S0, .layerTables, .compositor]]
    let x := s.setStream .S0 { stream .priming with slots := [.fresh, { Slot.fresh with state := .ready }] }
    (∀ o ∈ orders, o.Nodup ∧ EpochReaction.linkSteps ∉ o ∧
      heard (after (.frameEpoch .A o) c) = [(.epoch, 0, 0, 3, 0), (.commitApplied, 0, 0, 1, 8)]) ∧
      ((List.range 8).filter fun i => decide (c.layers.A.active[i]? ≠ c.layers.A.staged[i]?)) = [3] ∧
      (c.layerEpoch .A).damage.A.list = ⟨[], true⟩ ∧ x.streams.S0.pacing = .A ∧
      (x.streams.S0.epoch .S0 0).shownChanged = true ∧ (x.streamEpoch .A .S0).damage.A.list = ⟨[], true⟩ ∧
      x.streamEpoch .B .S0 = x := by decide +kernel

/-- The link of A at both limits, its oldest packet due, its stable flag set. -/
def worn : State :=
  (running .A 15).setLink .A { (running .A 15).links.A with
    buffer := [packet 48 15], nextSeq := 49, replayRun := 4, reinitRun := 2, stable := true }

/-- The two orders of an expiry and the epoch: before it the count of 2 stands and the link ends in ERROR, and output A
declares no epoch; after it the count is back at 0 and the link starts again (R141). -/
theorem test_witness_FrameEpoch_linkSteps :
    let t := after (.frameEpoch .A [.linkSteps]) worn
    let u := after (.frameEpoch .A []) worn
    (worn.outputState .A).live = true ∧ worn.outputs.A.nextLine = worn.outputs.A.active.height ∧
      (worn.links.A.lineStart .A 0 none).1.state = .error ∧ worn.links.A.state ≠ .error ∧
      heard t = [(.linkState, 0, 4, 5, 3), (.outputState, 0, 4, 5, 3)] ∧ t.outputs.A.frameCounter = 0 ∧
      heard u = [(.epoch, 0, 0, 3, 0), (.linkState, 0, 0, 1, 3)] ∧ u.links.A.reinitRun = 1 ∧
      (after (.frameEpoch .A [.linkSteps]) (running .A 15)).outputs.A.frameCounter = 1 ∧
      (after (.frameEpoch .A [.linkSteps]) (running .A 15)).links.A.stable = true ∧
      worn.links.A.epoch.reinitRun = 0 ∧ worn.links.A.state = .normal := by decide +kernel

theorem test_witness_FrameEpoch_underflows :
    heard (State.declareEpoch ((running .B 15).setOutput .B
      { (running .B 15).outputs.B with frameUnderflows := 1, underflows := 7 }) .B) =
        [(.scanUnderflow, 1, 0, 1, 7), (.epoch, 1, 0, 3, 1)] := by decide +kernel

theorem test_witness_CompositorAtAnEpoch :
    composing.outputState .A = .running ∧ composing.comp.A.composition.isSome ∧
      heard (composing.compositorEpoch .A) = [(.flipMissed, 0, 0, 1, 1)] ∧
      heard (((running .A 3).setComp .A { (running .A 3).comp.A with awaiting := true, completedSize := 9 }).compositorEpoch
        .A) = [(.flip, 0, 0, 1, 9)] ∧
      (running .A 3).damage.A = ⟨⟨[], false⟩, ⟨[], false⟩⟩ ∧ ready.outputState .A ≠ .running ∧
      Timing.cols small = 1 ∧ region small ⟨⟨[⟨0, 0, 0, 0⟩], false⟩, ⟨[], false⟩⟩ = [⟨0, 0⟩] := by decide +kernel

theorem test_region_order :
    region { small with width := 32, height := 32 } ⟨⟨[⟨1, 1, 0, 1⟩, ⟨0, 1, 1, 1⟩], false⟩, ⟨[⟨0, 0, 0, 0⟩], false⟩⟩ =
      [⟨0, 0⟩, ⟨1, 0⟩, ⟨0, 1⟩, ⟨1, 1⟩] := by decide +kernel

/-- Output A RUNNING with stale damage, a finished composition or none, and three enabled layers. -/
def stale (awaiting : Bool) : State :=
  let s := bind 2 0x03001000 16 4 (bind 1 0x03000000 16 4 (running .A 3))
  let l : Layer := { Layer.reset with enabled := true }
  let ls := ((s.layers.A.active.setIfInBounds 0 l).setIfInBounds 1
    { l with content := .surface, index := 2 }).setIfInBounds 7 { l with content := .stream, index := 1 }
  (((s.setComp .A { s.comp.A with awaiting := awaiting, completedSize := 9 }).setDamage .A
    ⟨⟨[⟨0, 0, 0, 0⟩], false⟩, ⟨[], false⟩⟩).setLayers .A { s.layers.A with active := ls }).setStream .S1
    { stream .running with slots := [.fresh, slot .shown false true] }

/-- A flip and then a start; the start records the sources, the stream frame and its hold (R58, R62, R71). -/
theorem test_witness_CompositorAtAnEpoch_start :
    let t := (stale true).compositorEpoch .A
    (stale true).comp.A.composition = none ∧ (stale true).damage.A.list ≠ ⟨[], false⟩ ∧
      heard t = [(.flip, 0, 0, 1, 9)] ∧ t.comp.A.front = 1 ∧ t.comp.A.awaiting = false ∧
      t.comp.A.composition.map (fun k => (k.region, k.holds, k.sources.toList.map (·.map (·.base)), k.frames.toList)) =
        some ([⟨0, 0⟩], [⟨.S1, 1⟩], [none, some 0x03001000, none, none, none, none, none, some 0x03001000],
          [none, none, none, none, none, none, none, some ⟨.S1, 1⟩]) ∧
      t.damage.A = ⟨⟨[], false⟩, ⟨[⟨0, 0, 0, 0⟩], false⟩⟩ ∧ t.streams.S1.slots = [.fresh, slot .shown true true] ∧
      heard ((stale false).compositorEpoch .A) = [] ∧
      ((stale false).compositorEpoch .A).comp.A.composition.isSome = true := by decide +kernel

theorem test_witness_StreamPhaseAndArms :
    (stream .running).phase + (stream .running).rateN < (stream .running).rateD ∧
      60 ≤ ({ stream .running with phase := 36 } : Stream).phase + 24 ∧
      ({ stream .running with phase := 36 } : Stream).readySlots = [] ∧
      ({ stream .running with phase := 36 } : Stream).shownLast = false ∧
      ({ stream .running with phase := 36 }.epoch .S0 0).stream.counters.underrun = 1 ∧
      ((stream .priming).arm .S0 0 0).1.slots.map (·.state) = [.filling, .free] ∧
      (shownStream.arm .S0 0 0).2.map (fun e => (e.reason, e.a)) = [(4, 0)] ∧
      (shownStream.arm .S0 0 1).2.map (fun e => (e.reason, e.a)) = [(6, 1)] := by decide +kernel

/-- A READY slot with a due tick and flags. -/
def readySlot (due : Word) (last discontinuity : Bool) : Slot :=
  { Slot.fresh with state := .ready, frame := ⟨due, due, last, discontinuity⟩ }

/-- A stream before a tick advance to 10. -/
def ticking (slots : List Slot) : Stream := { stream .running with phase := 36, tick := 9, slots := slots }

/-- Priming: with nothing READY, and with the slot at the expected position shown (R91). -/
theorem test_witness_StreamPhase_priming :
    (stream .priming).readySlots = [] ∧ (stream .priming).epoch .S0 0 = ⟨stream .priming, [], false⟩ ∧
      ({ stream .priming with slots := [readySlot 5 false false, readySlot 4 false false] } : Stream).readySlots = [0, 1] ∧
      ((({ stream .priming with slots := [readySlot 5 false false, readySlot 4 false false] } : Stream).epoch .S0 0).stream.tick,
        (({ stream .priming with slots := [readySlot 5 false false, readySlot 4 false false] } : Stream).epoch .S0 0).events.map
          (·.kind)) = (5, [.frameShown, .streamState]) := by decide +kernel

/-- A tick advance: the end after LAST, a DISCONTINUITY, a READY slot too early, and two due at the same tick, of which the
last met is shown (R93 to R96). -/
theorem test_witness_StreamPhase_select :
    ((ticking [{ readySlot 9 true false with state := .shown }, .fresh]).epoch .S0 0).stream.state = .ended ∧
      ((ticking [{ readySlot 9 false false with state := .shown }, readySlot 50 false true]).epoch .S0 0).stream.tick = 50 ∧
      (ticking [{ readySlot 9 false false with state := .shown }, readySlot 11 false false]).readySlots = [1] ∧
      ((ticking [{ readySlot 9 false false with state := .shown }, readySlot 11 false false]).epoch .S0 0).events = [] ∧
      ((9 : Word) + 1 - 11).toInt < 0 ∧
      ((ticking [readySlot 10 false false, readySlot 10 false false]).epoch .S0 0).stream.slots.map (·.state) =
        [.free, .shown] ∧
      ((ticking [readySlot 10 false false, readySlot 9 false false]).epoch .S0 0).stream.slots.map (·.state) =
        [.shown, .free] := by decide +kernel

/-- Showing a slot: none shown before, and a former one that is held or not (R91, R95). -/
theorem test_witness_StreamPhase_show :
    (ticking [.fresh, readySlot 1 false false]).shownSlot = none ∧
      (Stream.show .S0 0 1 (ticking [.fresh, readySlot 1 false false])).1.slots.map (·.state) = [.free, .shown] ∧
      (Stream.show .S0 0 1 (ticking [slot .shown true false, readySlot 1 false false])).1.slots.map (·.state) =
        [.retired, .shown] ∧
      (Stream.show .S0 0 1 (ticking [slot .shown false false, readySlot 1 false false])).2.map (·.kind) =
        [.slotFreed, .frameShown] := by decide +kernel

/-- An arm in STOPPED, and one that discards a slot FILLING (R85). -/
theorem test_witness_StreamPhase_short :
    let x := ticking [.fresh, { Slot.fresh with state := .filling, byteCount := 4 }]
    (stream .stopped).arm .S0 0 0 = (stream .stopped, []) ∧ (x.slots.findIdx? fun y => y.state == .filling) = some 1 ∧
      (x.arm .S0 0 0).1.slots.map (·.state) = [.filling, .free] ∧ (x.arm .S0 0 0).1.expected = 1 ∧
      (x.arm .S0 0 0).2.map (fun e => (e.kind, e.reason, e.a)) = [(.streamCondition, 3, 1), (.slotFreed, 0, 1)] := by
  decide +kernel

/-- The header words of a slot, the last byte of a frame, and bytes for a FREE and for a READY slot, once (R84, R87,
R88). -/
theorem test_witness_StreamPhase_bytes :
    let x := ticking [{ Slot.fresh with state := .filling, byteCount := 248 }, .fresh]
    ((withStream .S0 .stopped).streams.S0.captures (withStream .S0 .stopped).geometryOf
        ⟨0x02FFFFC0, 0xFF, 0x0000000700000005⟩).slots.map (·.header) = [⟨5, 7, 0⟩, ⟨0, 0, 0⟩] ∧
      ((x.land .S0 0 256 0 7).1.slots.map (·.state), (x.land .S0 0 256 0 8).1.slots.map (·.state)) =
        ([.filling, .free], [.ready, .free]) ∧
      (x.land .S0 0 256 1 1).2.map (·.reason) = [7] ∧ (((x.land .S0 0 256 1 1).1).land .S0 0 256 1 1).2 = [] ∧
      (((x.land .S0 0 256 0 8).1).land .S0 0 256 0 1).2.map (·.reason) = [5] ∧ x.land .S0 0 256 0 0 = (x, []) := by
  decide +kernel

/-- Underrun, drop and loop: the tick advance to 22 of 5.6's example. -/
theorem test_tick_advance :
    let fh (t : Word) : FrameHeader := ⟨t, t, false, false⟩
    let sl (st : SlotState) (t : Word) (held : Bool) : Slot :=
      { Slot.fresh with state := st, frame := fh t, holds := ⟨held, false⟩ }
    let x : Stream := { stream .running with
      count := 4, tick := 21, rateN := 25, rateD := 25, expected := 0
      slots := [sl .shown 20 true, sl .ready 21 false, sl .ready 22 false, sl .filling 23 false] }
    (x.epoch .S1 0).stream.slots.map (·.state) = [.retired, .free, .shown, .filling] ∧
      (x.epoch .S1 0).events.map (fun e => (e.kind, e.reason, e.a, e.b)) =
        [(.streamCondition, 1, 1, 1), (.slotFreed, 0, 1, 2), (.frameShown, 0, 2, 22)] := by decide +kernel

/-- Output A TRAINING or in blanking, its link's timer or oldest wait one short of a limit. -/
def nearly (st : LinkState) (timer : Nat) : State :=
  (training st).setLink .A { (training st).links.A with timer := timer, announceCount := 15 }

theorem test_witness_LinkTimeouts :
    (nearly .announcing 63).links.A.announceCount < 16 ∧
      (after (.announceTimeout .A) (nearly .announcing 63)).links.A.announceCount = 16 ∧
      heard (after (.announceTimeout .A) ((nearly .announcing 63).setLink .A
        { (nearly .announcing 63).links.A with announceCount := 16 })) =
          [(.linkState, 0, 1, 5, 1), (.outputState, 0, 1, 5, 2)] ∧
      (nearly .configuring 1023).links.A.reinitRun + 1 ≤ (nearly .configuring 1023).links.A.settings.reinitLimit ∧
      (after (.configuringExpiry .A) (nearly .configuring 1023)).links.A.sent = [haltBytes, announceBytes] := by
  decide +kernel

theorem test_witness_ConfirmTimeout :
    let s := linked .normal [packet 48 15, packet 49 14] 50
    (s.outputState .A).live = true ∧ s.outputs.A.active.height + 1 < s.outputs.A.nextLine ∧
      s.links.A.settings.confirmTimeout ≤ (packet 48 15).wait + 1 ∧
      (∀ x ∈ [packet 49 14], x.seq ≠ (packet 48 15).seq) ∧
      s.links.A.replayRun + 1 ≤ s.links.A.settings.replayLimit ∧
      (after (.confirmTimeout .A) s).links.A.buffer = [packet 48 0, packet 49 15] ∧
      (after (.confirmTimeout .A) s).links.A.pointer = some 49 ∧
      (after (.confirmTimeout .A) s).links.A.state = .replay := by decide +kernel

/-- At the re-initialization limit, and beyond the replay limit, with the output TRAINING, in blanking or at an active line
(R131, R135, R138). -/
theorem test_witness_timeouts_at_the_limits :
    let n := nearly .configuring 1023
    let c := n.setLink .A { n.links.A with reinitRun := 2 }
    let l := linked .normal [packet 48 15] 49
    let r := l.setLink .A { l.links.A with replayRun := 4 }
    let e := r.setLink .A { r.links.A with reinitRun := 2 }
    let a := r.setOutput .A { r.outputs.A with line := 3 }
    c.links.A.settings.reinitLimit < c.links.A.reinitRun + 1 ∧ r.links.A.settings.replayLimit < r.links.A.replayRun + 1 ∧
      (after (.configuringExpiry .A) c).links.A.reason = some .reinitLimit ∧
      (after (.configuringExpiry .A) c).outputState .A = .fault ∧
      (after (.confirmTimeout .A) r).links.A.sent = [haltBytes, announceBytes] ∧
      (after (.confirmTimeout .A) r).links.A.counters.skipped = 0 ∧
      (after (.confirmTimeout .A) e).links.A.reason = some .reinitLimit ∧
      (after (.confirmTimeout .A) e).outputState .A = .fault ∧
      a.outputs.A.nextLine < a.outputs.A.active.height ∧ (after (.confirmTimeout .A) a).links.A.counters.skipped = 1 := by
  decide +kernel

/-- A replay of one packet is finished with it; the line handed at the same line start is sent behind it (R133, R136). -/
theorem test_witness_ConfirmTimeout_one :
    let s := linked .normal [packet 48 15] 49
    let a := s.setOutput .A { s.outputs.A with line := 3 }
    (after (.confirmTimeout .A) s).links.A.state = .normal ∧ (after (.confirmTimeout .A) s).links.A.pointer = none ∧
      (after (.confirmTimeout .A) a).links.A.buffer.map (·.seq) = [48, 49] ∧
      (after (.confirmTimeout .A) a).links.A.sent.length = 2 := by decide +kernel

theorem test_witness_LinkRulesKeepTheBuffer : LinkSound (linked .normal [packet 255 1, packet 0 0] 1).links.A := by
  refine ⟨by decide, ⟨by rfl, by rfl⟩, fun _ => by rfl⟩

/-- A row that names a special line start does nothing at another one (log entry 3). -/
theorem test_timeouts_elsewhere :
    (after (.announceTimeout .A) (nearly .announcing 62)).links.A.timer = 62 ∧
      (after (.frameEpoch .B []) (running .B 14)).outputs.B.line = 14 := by decide +kernel

/-! ### What every step keeps -/

/-- A state in which every invariant holds, with a command at the front of its queue. -/
def sound : State := { writing with pending := [.hostWriteCompletion] }

theorem test_witness_CreditsStayWithinLimits : CreditsKept sound := by
  refine ⟨by decide, fun x h => ?_, by decide, fun c => ?_⟩
  · exact nomatch (h : (none : Option Drain) = some x)
  · match c with
    | .pass => decide
    | .scan .A => decide
    | .scan .B => decide
    | .comp => decide
    | .stat => decide

theorem test_witness_invariants : MemoryCanonical sound ∧ InterruptFollows sound ∧ QueuesBounded sound :=
  ⟨by rfl, by rfl, by decide, by decide⟩

theorem test_sound_steps :
    (match step sound with
      | .next t => t.mem.wf && t.inFlight.isEmpty
      | _ => false) = true := by decide +kernel

end Sys2Proof.Tests
end

section
/-! PROOF. What every item holds right after power-on (O3). -/

namespace Sys2Proof.Machine

/-! ### The stores of records after power-on -/

/-- Every surface record is UNBOUND (R9). -/
theorem State.reset_surface (i : Nat) (h : i < 32) : State.reset.surface i = some .unbound := by
  simp [State.surface, State.reset, h]

/-- Every record of a layer table is the reset record (R53). -/
theorem LayerTables.reset_at (i : Nat) (h : i < 8) :
    LayerTables.reset.staged[i]? = some .reset ∧ LayerTables.reset.active[i]? = some .reset := by
  simp [LayerTables.reset, h]

/-- No word of the empty assembly is stored (R160). -/
theorem emptyAssembly_at (w : Nat) (h : w < 8) : emptyAssembly[w]? = some none := by
  simp [emptyAssembly, h]

/-! ### The pairs after power-on: both sides hold the same record -/

theorem State.reset_damage (d : OutputId) : State.reset.damage.get d = ⟨.empty, .empty⟩ := by cases d <;> rfl

theorem State.reset_layers (d : OutputId) : State.reset.layers.get d = .reset := by cases d <;> rfl

theorem State.reset_comp (d : OutputId) : State.reset.comp.get d = .reset := by cases d <;> rfl

theorem State.reset_streams (k : StreamId) : State.reset.streams.get k = .reset := by cases k <;> rfl

theorem State.reset_outputs (d : OutputId) : State.reset.outputs.get d = .reset := by cases d <;> rfl

theorem State.reset_links (d : OutputId) : State.reset.links.get d = .reset := by cases d <;> rfl

/-- Settles O3: the records of each block by the lemmas above, and every single item as the reset state writes it. -/
theorem powerOnValues : Obligations.PowerOnValues := by
  unfold Obligations.PowerOnValues
  refine ⟨State.reset_surface, State.reset_damage, fun d i hi => ?layers, fun d => ?pending, State.reset_comp, rfl,
    fun k => ?streams, fun d => ?outputs, fun d => ?links, rfl, rfl, rfl, rfl, rfl, rfl, rfl, rfl, emptyAssembly_at,
    rfl, rfl, rfl, rfl, rfl, rfl, rfl, rfl, rfl, rfl, rfl, rfl⟩
  case layers => rw [State.reset_layers]; exact LayerTables.reset_at i hi
  case pending => rw [State.reset_layers]; rfl
  case streams => rw [State.reset_streams]; exact ⟨rfl, rfl, rfl, rfl, rfl, rfl, rfl, rfl, rfl, rfl⟩
  case outputs => rw [State.reset_outputs]; exact ⟨rfl, rfl, rfl, rfl, rfl, rfl, rfl, rfl, rfl, rfl, rfl⟩
  case links =>
    rw [State.reset_links]
    exact ⟨rfl, rfl, rfl, rfl, rfl, rfl, rfl, rfl, rfl, rfl, rfl, rfl, rfl, rfl⟩

end Sys2Proof.Machine
end

section
/-! PROOF. Expansion and contraction of pixels (O10), and what the upstream port makes of a beat (O9). -/

namespace Sys2Proof.Machine

/-! ### Channels (R11, R18) -/

/-- The high five bits of an expanded 5-bit value are the value. -/
theorem expand5_div (v : Nat) (h : v < 32) : expand5 v < 256 ∧ expand5 v / 8 = v := by
  unfold expand5; omega

/-- The high six bits of an expanded 6-bit value are the value. -/
theorem expand6_div (v : Nat) (h : v < 64) : expand6 v < 256 ∧ expand6 v / 4 = v := by
  unfold expand6; omega

/-- The high four bits of an expanded 4-bit value are the value. -/
theorem expand4_div (v : Nat) (h : v < 16) : expand4 v < 256 ∧ expand4 v / 16 = v := by
  unfold expand4; omega

/-- The channels of an expanded RGB16 pixel, as numbers (R11). -/
theorem expandPixel_rgb16 (p : Nat) :
    (expandPixel .rgb16 p).red.toNat = expand5 (p / 2048 % 32) ∧
    (expandPixel .rgb16 p).green.toNat = expand6 (p / 32 % 64) ∧
    (expandPixel .rgb16 p).blue.toNat = expand5 (p % 32) ∧ (expandPixel .rgb16 p).alpha.toNat = 255 := by
  have hr := (expand5_div (p / 2048 % 32) (by omega)).1
  have hg := (expand6_div (p / 32 % 64) (by omega)).1
  have hb := (expand5_div (p % 32) (by omega)).1
  exact ⟨Nat.mod_eq_of_lt hr, Nat.mod_eq_of_lt hg, Nat.mod_eq_of_lt hb, rfl⟩

/-- The channels of an expanded ARGB4444 pixel, as numbers (R11). -/
theorem expandPixel_argb4444 (p : Nat) :
    (expandPixel .argb4444 p).alpha.toNat = expand4 (p / 4096 % 16) ∧
    (expandPixel .argb4444 p).red.toNat = expand4 (p / 256 % 16) ∧
    (expandPixel .argb4444 p).green.toNat = expand4 (p / 16 % 16) ∧
    (expandPixel .argb4444 p).blue.toNat = expand4 (p % 16) := by
  have lt (v : Nat) : expand4 (v % 16) < 256 := (expand4_div (v % 16) (by omega)).1
  exact ⟨Nat.mod_eq_of_lt (lt _), Nat.mod_eq_of_lt (lt _), Nat.mod_eq_of_lt (lt _), Nat.mod_eq_of_lt (lt _)⟩

/-- Contraction takes back what expansion made of a 16-bit pixel: each channel comes back from its high bits (R18). -/
theorem contractPixel_expandPixel (f : AliasFormat) (p : Nat) (h : p < 65536) :
    contractPixel f (expandPixel f p) = p := by
  cases f with
  | rgb16 =>
    obtain ⟨hr, hg, hb, -⟩ := expandPixel_rgb16 p
    have er := (expand5_div (p / 2048 % 32) (by omega)).2
    have eg := (expand6_div (p / 32 % 64) (by omega)).2
    have eb := (expand5_div (p % 32) (by omega)).2
    simp only [contractPixel, hr, hg, hb, er, eg, eb]
    omega
  | argb4444 =>
    obtain ⟨ha, hr, hg, hb⟩ := expandPixel_argb4444 p
    have e (v : Nat) : expand4 (v % 16) / 16 = v % 16 := (expand4_div (v % 16) (by omega)).2
    simp only [contractPixel, ha, hr, hg, hb, e]
    omega

/-- Settles O10: the round trip, and the channels of each format one by one. -/
theorem contractionUndoesExpansion : Obligations.ContractionUndoesExpansion := by
  unfold Obligations.ContractionUndoesExpansion
  refine ⟨contractPixel_expandPixel, ?rgb16, ?argb4444, fun c => ⟨rfl, rfl⟩⟩
  case rgb16 =>
    rintro p e5 e6 c h5 h6 rfl
    obtain ⟨hr, hg, hb, ha⟩ := expandPixel_rgb16 p
    rw [hr, hg, hb, ha, h5, h6, h5]; rfl
  case argb4444 =>
    rintro p c rfl
    obtain ⟨ha, hr, hg, hb⟩ := expandPixel_argb4444 p
    rw [ha, hr, hg, hb]; rfl

/-! ### The two beats of a mapped write (R12, R13, R15) -/

/-- One pixel of a downstream beat: its four enables say whether the pixel is written, its four bytes are those of the
expanded pixel (R12). -/
theorem Mapping.pairBeat_pixel (m : Mapping) (b : UpBeat) (k n : Nat) (hn : n < 2) :
    (∀ j, j < 4 → (m.pairBeat b k).enables.getLsbD (4 * n + j) = m.writes b (k + n)) ∧
    [0, 1, 2, 3].map (fun j => byteOf (m.pairBeat b k).data (4 * n + j)) =
      pixelBytes (expandPixel m.format (aliasPixel b.data (k + n))) := by
  have hbit := pairEnables_bit (m.writes b k) (m.writes b (k + 1))
  have hbytes := m.pairBeat_bytes b k
  simp only [pixelBytes, List.map_cons, List.map_nil, List.cons_append, List.nil_append, List.cons.injEq,
    and_true] at hbytes
  obtain ⟨h0, h1, h2, h3, h4, h5, h6, h7⟩ := hbytes
  match n, hn with
  | 0, _ =>
    refine ⟨fun j hj => ?_, ?_⟩
    · rw [show 4 * 0 + j = j by omega]; exact (hbit j hj).1
    · simp only [List.map_cons, List.map_nil, Nat.mul_zero, Nat.zero_add, h0, h1, h2, h3]; rfl
  | 1, _ =>
    refine ⟨fun j hj => (hbit j hj).2, ?_⟩
    simp only [List.map_cons, List.map_nil, h4, h5, h6, h7]; rfl

/-- Whether some pixel of a mapped write beat is partial (R13, R15). -/
theorem Mapping.any_isPartial (m : Mapping) (b : UpBeat) : [0, 1, 2, 3].any (m.isPartial b) = true ↔
    ∃ i, i < 4 ∧ b.enables.getLsbD (2 * i) ≠ b.enables.getLsbD (2 * i + 1) ∧ m.lastRowPadding i = false := by
  have hmem (i : Nat) : i ∈ [0, 1, 2, 3] ↔ i < 4 := by simp; omega
  simp only [List.any_eq_true, hmem, Mapping.isPartial, pixelEnables, Bool.and_eq_true, bne_iff_ne, Bool.not_eq_true']

/-- The pixels in the padding of the last row, as R15 names them. -/
theorem Mapping.lastRowPadding_eq (m : Mapping) (i : Nat) :
    m.lastRowPadding i = decide (m.row + 1 = m.geometry.height ∧ m.geometry.width ≤ m.col + i) :=
  (Bool.decide_and _ _).symm

/-- The half of a beat and the place in it give the pixel: i is pixel i % 2 of the beat for pixels k and k + 1. -/
theorem Mapping.pairBeat_half (m : Mapping) (b : UpBeat) (i : Nat) (h : i < 4) :
    ∃ k, (if i < 2 then m.pairBeat b 0 else m.pairBeat b 2) = m.pairBeat b k ∧ k + i % 2 = i := by
  split
  · exact ⟨0, rfl, by omega⟩
  · exact ⟨2, rfl, by omega⟩

/-- What a mapped write beat becomes, pixel by pixel, and its report (R12, R13, R15). -/
theorem State.convertWrite_mapped_pixels (s : State) (addr : Nat) (b : UpBeat) (m : Mapping) (h : 0x10000000 ≤ addr)
    (hm : s.aliasMapping (addr - 0x10000000) = some m) :
    (∃ lo hi, (s.convertWrite addr b).1 = [lo, hi] ∧ lo.addr = m.addr ∧ hi.addr = m.addr + 8 ∧
      ∀ (i : Nat) (w : WriteBeat) (p : Colour), i < 4 → w = (if i < 2 then lo else hi) →
        p = expandPixel m.format (b.data.toNat / 65536 ^ i % 65536) →
        (∀ j, j < 4 → w.enables.getLsbD (4 * (i % 2) + j) =
          (b.enables.getLsbD (2 * i) && b.enables.getLsbD (2 * i + 1) && !m.lastRowPadding i)) ∧
        [0, 1, 2, 3].map (fun j => byteOf w.data (4 * (i % 2) + j)) = [p.blue, p.green, p.red, p.alpha]) ∧
    ((∃ i, i < 4 ∧ b.enables.getLsbD (2 * i) ≠ b.enables.getLsbD (2 * i + 1) ∧ m.lastRowPadding i = false) →
      (s.convertWrite addr b).2 = [⟨.aliasFault, m.surface, 0, 1, word addr, word b.enables.toNat⟩]) ∧
    ((∀ i, i < 4 → b.enables.getLsbD (2 * i) = b.enables.getLsbD (2 * i + 1) ∨ m.lastRowPadding i = true) →
      (s.convertWrite addr b).2 = []) := by
  rw [s.convertWrite_mapped addr b m h hm]
  refine ⟨⟨m.pairBeat b 0, m.pairBeat b 2, rfl, rfl, rfl, ?pixels⟩, fun hp => ?reported, fun hp => ?silent⟩
  case pixels =>
    rintro i w p hi rfl rfl
    obtain ⟨k, hk, hki⟩ := m.pairBeat_half b i hi
    have hpixel := m.pairBeat_pixel b k (i % 2) (by omega)
    rw [hki, ← hk] at hpixel
    exact hpixel
  case reported => exact if_pos (m.any_isPartial b |>.mpr hp)
  case silent =>
    refine if_neg fun hany => ?_
    obtain ⟨i, hi, hne, hpad⟩ := (m.any_isPartial b).mp hany
    rcases hp i hi with heq | hpad'
    · exact hne heq
    · exact absurd (hpad.symm.trans hpad') (by decide)

/-- Settles O9, with the laws of the converter: where an offset maps, the three kinds of write beat and of read
beat, and what a read returns. -/
theorem upstreamBeatsAreConverted : Obligations.UpstreamBeatsAreConverted := by
  unfold Obligations.UpstreamBeatsAreConverted
  refine ⟨fun s o => ⟨s.aliasMapping_none o, s.aliasMapping_some o⟩, fun s addr b => ?writes, fun s addr => ?reads,
    fun us ds x lo hi k f padding => ?answers⟩
  case writes =>
    refine ⟨s.convertWrite_direct addr b, s.convertWrite_stray addr b, fun m padding h hm hpad => ?_⟩
    obtain rfl : padding = m.lastRowPadding := funext fun i => (hpad i).trans (m.lastRowPadding_eq i).symm
    exact s.convertWrite_mapped_pixels addr b m h hm
  case reads => exact ⟨s.convertRead_direct addr, s.convertRead_stray addr, s.convertRead_mapped addr⟩
  case answers => exact ⟨rfl, rfl, contractBeats f padding lo hi, rfl, contractBeats_pixel f padding lo hi⟩

end Sys2Proof.Machine
end

section
/-! PROOF. What each table does with an assembled entry (O33). -/

namespace Sys2Proof.Machine

/-! ### Surface entries (R3 to R6) -/

/-- Surface j is another BOUND surface than i whose 16-bit view shares a byte with the range of len bytes from base
(R3 step 11). -/
def State.Overlaps (s : State) (i base len j : Nat) : Prop :=
  j ≠ i ∧ ∃ y r, s.surface j = some y ∧ y.view = some r ∧ y.geometry.bound = true ∧
    base < r.base + y.geometry.pitch / 2 * y.geometry.height ∧ r.base < base + len

/-- The lowest surface that overlaps is the one that the check of R3 step 11 finds. -/
theorem State.overlapping_lowest (s : State) (i base len j : Nat) (h : s.Overlaps i base len j)
    (hl : ∀ m, m < j → ¬ s.Overlaps i base len m) : s.overlapping i base len = some j := by
  obtain ⟨hj, y, r, hy, hr, hb, ho⟩ := h
  exact s.overlapping_some i base len j y r hy hr hb hj ho fun m z q hm hne hz hq hzb hov =>
    hl m hm ⟨hne, z, q, hz, hq, hzb, hov⟩

/-- The check of R3 step 11 finds nothing where no surface overlaps. -/
theorem State.overlapping_absent (s : State) (i base len : Nat) (h : ∀ j, ¬ s.Overlaps i base len j) :
    s.overlapping i base len = none :=
  s.overlapping_none i base len fun m y q hne hy hq hb hov => h m ⟨hne, y, q, hy, hq, hb, hov⟩

/-- The record that a bind with codes in range writes (R4). -/
theorem SurfaceEntry.record_bind (e : SurfaceEntry) (hb : e.binding ≠ 0) (hf : e.formatCode = 1 ∨ e.formatCode = 2)
    (ha : e.aliasCode ≤ 2) :
    e.record = ⟨⟨true, e.base, e.pitch, e.width, e.height, if e.formatCode = 1 then .argb32 else .xrgb32⟩,
      if e.aliasCode = 0 then none else some ⟨e.aliasBase, if e.aliasCode = 1 then .rgb16 else .argb4444⟩⟩ := by
  have hformat : formatOf e.formatCode = if e.formatCode = 1 then .argb32 else .xrgb32 := by
    rcases hf with h | h <;> rw [h] <;> rfl
  have halias : aliasOf e.aliasCode e.aliasBase =
      if e.aliasCode = 0 then none else some ⟨e.aliasBase, if e.aliasCode = 1 then .rgb16 else .argb4444⟩ := by
    match e.aliasCode, ha with
    | 0, _ => rfl
    | 1, _ => rfl
    | 2, _ => rfl
  unfold SurfaceEntry.record
  rw [if_neg hb, hformat, halias]

/-- A bind that passes its checks has both its format codes in range (R3 steps 3 and 4). -/
theorem bindChecks_codes (e : SurfaceEntry) (h : ∀ c ∈ bindChecks e, c.1 = true) :
    (e.formatCode = 1 ∨ e.formatCode = 2) ∧ e.aliasCode ≤ 2 := by
  simp only [bindChecks, List.forall_mem_cons, Bool.or_eq_true, decide_eq_true_eq] at h
  obtain ⟨hf, ha, -⟩ := h
  exact ⟨hf, ha⟩

/-- A surface entry that passes every check writes the record that 1.1 and R4 give it, and damages the layers that show
the surface (R4, R6). -/
theorem State.applySurface_record (s : State) (i : Nat) (ws : List Word) (e : SurfaceEntry) (x : Surface)
    (he : e = surfaceEntry ws)
    (hp : ∀ c ∈ (s.surfaceChecks i e ++ if e.binding = 0 then [] else bindChecks e).map
      (fun c => (c.1, reasonCode c.2.1, c.2.2)), c.1 = true)
    (hx : e.binding = 0 ∧ x = ⟨⟨false, 0, 0, 0, 0, .none⟩, none⟩ ∨
      e.binding = 1 ∧ (e.aliasCode ≠ 0 → ∀ j, ¬ s.Overlaps i e.aliasBase (e.pitch / 2 * e.height) j) ∧
      x = ⟨⟨true, e.base, e.pitch, e.width, e.height, if e.formatCode = 1 then .argb32 else .xrgb32⟩,
        if e.aliasCode = 0 then none
        else some ⟨e.aliasBase, if e.aliasCode = 1 then .rgb16 else .argb4444⟩⟩) :
    ∃ D, s.applySurface i ws = { s with surfaces := s.surfaces.setIfInBounds i x, damage := D } ∧
      ∀ d, D.get d = if (s.outputState d).live then
          ⟨(((s.layers.get d).active.toList.filter fun l => l.enabled && l.showsSurface i).map fun l =>
            (l.dx, l.dy, l.sw * l.mag, l.sh * l.mag)).foldl
              (fun l q => l.insertPixels (s.outputs.get d).active q.1 q.2.1 q.2.2.1 q.2.2.2) (s.damage.get d).list,
            (s.damage.get d).previous⟩
        else s.damage.get d := by
  rcases hx with ⟨hb, rfl⟩ | ⟨hb, ho, rfl⟩
  · have hrecord : e.record = ⟨⟨false, 0, 0, 0, 0, .none⟩, none⟩ := if_pos hb
    exact hrecord ▸ s.applySurface_applies i ws e he hp (.inl hb)
  · have hb0 : e.binding ≠ 0 := by omega
    have hbind : ∀ c ∈ bindChecks e, c.1 = true := fun c hc =>
      hp _ (List.mem_map_of_mem (List.mem_append_right _ (by rwa [if_neg hb0])))
    obtain ⟨hf, ha⟩ := bindChecks_codes e hbind
    rw [← e.record_bind hb0 hf ha]
    refine s.applySurface_applies i ws e he hp (.inr ?_)
    by_cases h0 : e.aliasCode = 0
    · exact .inl h0
    · exact .inr (s.overlapping_absent i _ _ (ho h0))

/-! ### Layer entries (R42, R43) -/

/-- A layer entry all of whose listed checks hold applies (R42, R43). -/
theorem State.applyLayer_checked (s : State) (d : OutputId) (i : Nat) (ws : List Word) (e : LayerEntry)
    (he : e = layerEntry ws)
    (hp : ∀ c ∈ [(decide (e.enabled ≤ 1), 6, 1), (decide (e.content ≤ 2), 6, 2), (decide (e.blend ≤ 1), 6, 3),
        (decide ((e.content = 1 → e.index ≤ 31) ∧ (2 ≤ e.content → e.index ≤ 1)), 4, 4),
        (decide (e.sx ≤ 2047 ∧ e.sy ≤ 2047 ∧ e.sw ≤ 2047 ∧ e.sh ≤ 2047), 5, 5),
        (decide (-4096 ≤ e.dx ∧ e.dx ≤ 4095 ∧ -4096 ≤ e.dy ∧ e.dy ≤ 4095), 5, 6)], c.1 = true) :
    s.applyLayer d i ws =
      (s.setLayers d { s.layers.get d with
        staged := (s.layers.get d).staged.setIfInBounds i
          ⟨e.enabled == 1, if e.content = 0 then .solid else if e.content = 1 then .surface else .stream, e.index, e.sx,
          e.sy, e.sw, e.sh, e.dx, e.dy, max 1 (min 4 e.mag), e.opacity, if e.blend = 0 then .copy else .blend,
          e.colour⟩ }).raiseAll
        (if e.mag < 1 ∨ 4 < e.mag then [⟨.valueClamped, 2 + outputNumber d, 0, 0, word i, word e.mag⟩] else []) := by
  simp only [List.forall_mem_cons, decide_eq_true_eq] at hp
  obtain ⟨h1, h2, h3, ⟨hsurface, hstream⟩, h5, h6, -⟩ := hp
  exact s.applyLayer_pass d i ws e he h1 h2 h3 ⟨hsurface, fun h => hstream (Nat.le_of_eq h.symm)⟩ h5 h6

/-! ### The fields of a word (10.3) -/

/-- A field is a remainder of a quotient. -/
theorem bits_eq (v : Word) (lo len : Nat) : bits v lo len = v.toNat / 2 ^ lo % 2 ^ len := by
  rw [bits, Nat.shiftRight_eq_div_pow]

/-- The low byte of a word. -/
theorem bits_byte0 (v : Word) : bits v 0 8 = v.toNat % 256 := by simp [bits_eq]

/-- The second byte of a word. -/
theorem bits_byte1 (v : Word) : bits v 8 8 = v.toNat / 256 % 256 := bits_eq v 8 8

/-- The third byte of a word. -/
theorem bits_byte2 (v : Word) : bits v 16 8 = v.toNat / 65536 % 256 := bits_eq v 16 8

/-- The high byte of a word: nothing lies above it. -/
theorem bits_byte3 (v : Word) : bits v 24 8 = v.toNat / 16777216 := by
  have := v.isLt
  rw [bits_eq]; omega

/-- The low half of a word. -/
theorem bits_half0 (v : Word) : bits v 0 16 = v.toNat % 65536 := by simp [bits_eq]

/-- The high half of a word: nothing lies above it. -/
theorem bits_half1 (v : Word) : bits v 16 16 = v.toNat / 65536 := by
  have := v.isLt
  rw [bits_eq]; omega

/-- A byte takes a number modulo 256. -/
theorem byte_mod (n : Nat) : BitVec.ofNat 8 (n % 256) = BitVec.ofNat 8 n :=
  BitVec.eq_of_toNat_eq (by simp)

/-- Byte i of a word as a channel: what lies above it falls away. -/
theorem byte_of_bits (v : Word) (i : Nat) :
    BitVec.ofNat 8 (bits v (8 * i) 8) = BitVec.ofNat 8 (v.toNat / 256 ^ i) := by
  rw [bits_eq, Nat.pow_mul]
  exact byte_mod (v.toNat / 256 ^ i)

/-- The channels of a colour word are its bytes: blue, green, red and alpha from bit 0 up (R172). -/
theorem colourOf_bytes (v : Word) :
    [(colourOf v).blue, (colourOf v).green, (colourOf v).red, (colourOf v).alpha] =
      [0, 1, 2, 3].map (fun i => BitVec.ofNat 8 (v.toNat / 256 ^ i)) := by
  have hchannels : [0, 1, 2, 3].map (fun i => BitVec.ofNat 8 (bits v (8 * i) 8)) =
      [0, 1, 2, 3].map (fun i => BitVec.ofNat 8 (v.toNat / 256 ^ i)) :=
    List.map_congr_left fun i _ => byte_of_bits v i
  exact hchannels

/-- A colour is known by its four channels. -/
theorem Colour.eq_of_channels {c k : Colour}
    (h : [c.blue, c.green, c.red, c.alpha] = [k.blue, k.green, k.red, k.alpha]) : c = k := by
  cases c; cases k
  simp_all

/-! ### The tables -/

/-- Settles O33: for each table the entry refused by its first failing check and the entry applied, then the fields of
the entries. -/
theorem tableEntriesApply : Obligations.TableEntriesApply := by
  unfold Obligations.TableEntriesApply
  refine ⟨fun s i ws e checks he hc => ?surface, fun s d i ws e checks he hc => ?layer,
    fun s k ws e slots checks he hs hc => ?stream, fun s d ws => rfl, State.applyCredit_eq, State.applyLinkSettings_eq,
    fun ws w signed c hw hsigned hcolour => ?fields⟩
  case surface =>
    have hm := s.surfaceChecks_eq i e checks hc
    refine ⟨fun earlier later code b hat hp => s.applySurface_refused i ws e he earlier later code b (hm.trans hat) hp,
      fun overlaps x ho hp => ?_⟩
    rw [← hm] at hp
    obtain rfl : overlaps = s.Overlaps i e.aliasBase (e.pitch / 2 * e.height) := funext fun j => propext (ho j)
    refine ⟨fun j hb ha hj hl => ?_, s.applySurface_record i ws e x he hp⟩
    exact s.applySurface_overlap i ws e he hp (by omega) ha j (s.overlapping_lowest i _ _ j hj hl)
  case layer =>
    subst hc
    exact ⟨s.applyLayer_refused d i ws e he, s.applyLayer_checked d i ws e he⟩
  case stream =>
    have hm := s.streamChecks_eq k e slots hs checks hc
    refine ⟨fun earlier later code step hat hp =>
      s.applyStream_refused k ws e he earlier later code step (hm.trans hat) hp, fun hp => ?_⟩
    exact s.applyStream_applies k ws e he (hm ▸ hp)
  case fields =>
    obtain rfl : w = fun i => (ws.getD i 0).toNat := funext hw
    obtain rfl : signed = signed16 := funext hsigned
    obtain rfl : c = colourOf (ws.getD 5 0) := Colour.eq_of_channels (hcolour.trans (colourOf_bytes _).symm)
    refine ⟨?_, ?_, ?_, ?_, ?_, bits_eq, colourOf_bytes⟩
    · simp only [surfaceEntry, entryWord, bits_half0, bits_half1, bits_byte0, bits_byte1]
    · simp only [layerEntry, entryWord, bits_half0, bits_half1, bits_byte0, bits_byte1, bits_byte2, bits_byte3, byte_mod]
    · simp only [streamEntry, entryWord, bits_byte0, bits_byte1, bits_byte2, bits_byte3]
    · simp only [creditEntry, entryWord, bits_byte0, bits_byte1, bits_byte2, bits_byte3]
    · simp only [linkEntry, entryWord, bits_half0, bits_byte0, bits_byte1]

end Sys2Proof.Machine
end

section
/-! PROOF. Damage lists: what an insertion results in, keeps and covers (O25), and INVALIDATE with the two compositions
after it (O24). -/

namespace Sys2Proof.Machine

open Sys2Proof.Safety

/-! ### Rectangles of tiles -/

/-- Containment, corner by corner. -/
theorem TileRect.contains_iff (a b : TileRect) :
    a.contains b = true ↔ a.c0 ≤ b.c0 ∧ b.c1 ≤ a.c1 ∧ a.r0 ≤ b.r0 ∧ b.r1 ≤ a.r1 := by
  simp [TileRect.contains, and_assoc]

/-- A tile in a rectangle, side by side. -/
theorem TileRect.hasTile_iff (a : TileRect) (t : Tile) :
    a.hasTile t = true ↔ a.c0 ≤ t.col ∧ t.col ≤ a.c1 ∧ a.r0 ≤ t.row ∧ t.row ≤ a.r1 := by
  simp [TileRect.hasTile, and_assoc]

/-- A rectangle that covers the grid, side by side (R25). -/
theorem TileRect.coversGrid_iff (a : TileRect) (cols rows : Nat) :
    a.coversGrid cols rows = true ↔ a.c0 = 0 ∧ cols ≤ a.c1 + 1 ∧ a.r0 = 0 ∧ rows ≤ a.r1 + 1 := by
  simp [TileRect.coversGrid, and_assoc]

theorem TileRect.contains_trans {a b c : TileRect} (hab : a.contains b = true) (hbc : b.contains c = true) :
    a.contains c = true := by
  rw [TileRect.contains_iff] at *; omega

/-- A rectangle has the tiles of every rectangle it contains. -/
theorem TileRect.hasTile_of_contains {a b : TileRect} {t : Tile} (hab : a.contains b = true)
    (ht : b.hasTile t = true) : a.hasTile t = true := by
  rw [TileRect.contains_iff] at hab
  rw [TileRect.hasTile_iff] at *; omega

theorem TileRect.contains_refl (a : TileRect) : a.contains a = true := by
  rw [TileRect.contains_iff]; omega

/-- A box contains both of its rectangles (R24). -/
theorem TileRect.box_contains (a b : TileRect) : (a.box b).contains a = true ∧ (a.box b).contains b = true := by
  simp only [TileRect.contains_iff, TileRect.box]; omega

theorem apart_symm (a b : TileRect) (h : Apart a b) : Apart b a := And.symm h

/-! ### The result of an insertion (R23 to R25) -/

/-- What is placed stands in the list, or is the whole grid (R25). -/
theorem placed_eq (cols rows : Nat) (x : TileRect) (es : List TileRect) :
    placed cols rows x es =
      if x.c0 = 0 ∧ cols ≤ x.c1 + 1 ∧ x.r0 = 0 ∧ rows ≤ x.r1 + 1 then ⟨[], true⟩ else ⟨es, false⟩ :=
  ite_congr (propext (x.coversGrid_iff cols rows)) (fun _ => rfl) fun _ => rfl

/-- Nothing is inserted under WHOLE or into an entry that contains the rectangle (R23). -/
theorem DamageList.insert_stays (cols rows : Nat) (r : TileRect) (l : DamageList)
    (h : l.whole = true ∨ ∃ e ∈ l.entries, e.contains r = true) : l.insert cols rows r = l := by
  unfold DamageList.insert
  by_cases hw : l.whole = true
  · exact if_pos hw
  · rw [if_neg hw, if_pos (List.any_eq_true.mpr (h.resolve_left hw))]

/-- With a place free the rectangle is appended to what it does not contain (R23). -/
theorem DamageList.insert_appends (cols rows : Nat) (r : TileRect) (l : DamageList) (hw : l.whole = false)
    (hc : ∀ e ∈ l.entries, e.contains r = false)
    (hroom : (l.entries.filter fun e => !r.contains e).length < Config.damagePlaces) :
    l.insert cols rows r = placed cols rows r ((l.entries.filter fun e => !r.contains e) ++ [r]) := by
  have hany : ¬ l.entries.any (·.contains r) = true := by simpa using hc
  unfold DamageList.insert
  rw [if_neg (by simp [hw]), if_neg hany]
  exact if_pos hroom

/-- With no place free the entry of least growth becomes its box with the rectangle (R24). -/
theorem DamageList.insert_merges (cols rows : Nat) (r : TileRect) (l : DamageList) (before after : List TileRect)
    (e : TileRect) (hw : l.whole = false) (hc : ∀ e ∈ l.entries, e.contains r = false)
    (hk : (l.entries.filter fun e => !r.contains e) = before ++ e :: after)
    (hfull : Config.damagePlaces ≤ (before ++ e :: after).length)
    (hb : ∀ x ∈ before, growth e r < growth x r) (ha : ∀ x ∈ after, growth e r ≤ growth x r) :
    l.insert cols rows r = placed cols rows (e.box r)
      ((before.filter fun x => !(e.box r).contains x) ++ e.box r :: after.filter fun x => !(e.box r).contains x) := by
  have hany : ¬ l.entries.any (·.contains r) = true := by simpa using hc
  have hat : (before ++ e :: after).getD before.length r = e := by simp
  unfold DamageList.insert
  rw [if_neg (by simp [hw]), if_neg hany, hk]
  dsimp only
  rw [if_neg (Nat.not_lt.mpr hfull), leastGrowth_eq r e before after hb ha, hat, mergeAt_eq]

/-- A list that is not empty has a first entry of least growth (R24). -/
theorem exists_leastGrowth (r : TileRect) (es : List TileRect) (h : es ≠ []) :
    ∃ before e after, es = before ++ e :: after ∧ (∀ x ∈ before, growth e r < growth x r) ∧
      ∀ x ∈ after, growth e r ≤ growth x r := by
  induction es with
  | nil => exact absurd rfl h
  | cons y ys ih =>
    by_cases hys : ys = []
    · subst hys; exact ⟨[], y, [], rfl, by simp, by simp⟩
    obtain ⟨before, e, after, rfl, hb, ha⟩ := ih hys
    by_cases hy : growth y r ≤ growth e r
    · refine ⟨[], y, before ++ e :: after, rfl, by simp, fun x hx => ?_⟩
      simp only [List.mem_append, List.mem_cons] at hx
      rcases hx with hx | rfl | hx
      · exact Nat.le_trans hy (Nat.le_of_lt (hb x hx))
      · exact hy
      · exact Nat.le_trans hy (ha x hx)
    · refine ⟨y :: before, e, after, rfl, fun x hx => ?_, ha⟩
      rcases List.mem_cons.mp hx with rfl | hx
      · omega
      · exact hb x hx

/-- An insertion that places: a rectangle x that contains r, between those of the entries before and after it that it
does not contain; every entry stands there or lies in x, and there is room for x. -/
theorem DamageList.insert_places (cols rows : Nat) (r : TileRect) (l : DamageList) (hw : l.whole = false)
    (hc : ∀ e ∈ l.entries, e.contains r = false) :
    ∃ (x : TileRect) (before after : List TileRect), x.contains r = true ∧ (before ++ after).Sublist l.entries ∧
      (∀ e ∈ l.entries, e ∈ before ++ after ∨ x.contains e = true) ∧
      ((before ++ after).length < Config.damagePlaces ∨ (before ++ after).length < l.entries.length) ∧
      l.insert cols rows r = placed cols rows x
        ((before.filter fun e => !x.contains e) ++ x :: after.filter fun e => !x.contains e) := by
  have hkept : ∀ e ∈ l.entries, e ∈ (l.entries.filter fun e => !r.contains e) ∨ r.contains e = true := by
    intro e he
    cases hr : r.contains e
    · exact Or.inl (List.mem_filter.mpr ⟨he, by simp [hr]⟩)
    · exact Or.inr rfl
  by_cases hroom : (l.entries.filter fun e => !r.contains e).length < Config.damagePlaces
  · refine ⟨r, l.entries.filter fun e => !r.contains e, [], r.contains_refl, ?_, ?_, ?_, ?_⟩
    · rw [List.append_nil]; exact List.filter_sublist
    · simpa only [List.append_nil] using hkept
    · exact Or.inl (by rwa [List.append_nil])
    · rw [l.insert_appends cols rows r hw hc hroom, List.filter_filter]; simp
  · have hne : (l.entries.filter fun e => !r.contains e) ≠ [] := by
      intro h; rw [h] at hroom; exact hroom (by decide)
    obtain ⟨before, e, after, hk, hb, ha⟩ := exists_leastGrowth r _ hne
    have hsub : (before ++ e :: after).Sublist l.entries := hk ▸ List.filter_sublist
    obtain ⟨he, hr⟩ := e.box_contains r
    refine ⟨e.box r, before, after, hr, ?_, fun y hy => ?_, Or.inr ?_, ?_⟩
    · exact ((List.sublist_cons_self e after).append_left before).trans hsub
    · rcases hkept y hy with hy | hy
      · rw [hk, List.mem_append, List.mem_cons] at hy
        rcases hy with hy | rfl | hy
        · exact Or.inl (List.mem_append_left _ hy)
        · exact Or.inr he
        · exact Or.inl (List.mem_append_right _ hy)
      · exact Or.inr (TileRect.contains_trans hr hy)
    · have := hsub.length_le
      simp only [List.length_append, List.length_cons] at *
      omega
    · exact l.insert_merges cols rows r before after e hw hc hk (hk ▸ Nat.not_lt.mp hroom) hb ha

/-- Either an insertion leaves the list, or no entry contains the rectangle and it places. -/
theorem DamageList.stays_or_places (r : TileRect) (l : DamageList) :
    (l.whole = true ∨ ∃ e ∈ l.entries, e.contains r = true) ∨
      l.whole = false ∧ ∀ e ∈ l.entries, e.contains r = false := by
  cases hw : l.whole
  · by_cases he : ∃ e ∈ l.entries, e.contains r = true
    · exact Or.inl (Or.inr he)
    · exact Or.inr ⟨rfl, fun e hm => Bool.eq_false_iff.mpr fun hc => he ⟨e, hm, hc⟩⟩
  · exact Or.inl (Or.inl rfl)

/-! ### What an insertion keeps and covers (R19, R23) -/

/-- A placement that obeys the limits when it stays a list of entries obeys them altogether. -/
theorem placed_sound (cols rows : Nat) (x : TileRect) (es : List TileRect) (hlen : es.length ≤ Config.damagePlaces)
    (hp : es.Pairwise Apart) : DamageSound (placed cols rows x es) := by
  rw [placed_eq]
  split
  · exact ⟨Nat.zero_le _, fun _ => rfl, List.Pairwise.nil⟩
  · exact ⟨hlen, fun h => absurd h (by simp), hp⟩

/-- An insertion keeps the limits of R19: what stays beside the placed rectangle neither lies in it nor contains it,
since it would contain the inserted one. -/
theorem DamageList.insert_sound (cols rows : Nat) (r : TileRect) (l : DamageList) (hl : DamageSound l) :
    DamageSound (l.insert cols rows r) := by
  rcases l.stays_or_places r with hstay | ⟨hw, hc⟩
  · rwa [l.insert_stays cols rows r hstay]
  obtain ⟨hlen, -, hapart⟩ := hl
  obtain ⟨x, before, after, hxr, hsub, -, hroom, heq⟩ := l.insert_places cols rows r hw hc
  have hbeside : ∀ e ∈ (before ++ after).filter (fun e => !x.contains e), Apart x e := by
    intro e he
    obtain ⟨hm, hx⟩ := List.mem_filter.mp he
    refine ⟨by simpa using hx, Bool.eq_false_iff.mpr fun hex => ?_⟩
    exact absurd (TileRect.contains_trans hex hxr) (by simp [hc e (hsub.subset hm)])
  rw [heq]
  apply placed_sound
  · have hb := List.length_filter_le (fun e => !x.contains e) before
    have ha := List.length_filter_le (fun e => !x.contains e) after
    simp only [List.length_append, List.length_cons] at *
    omega
  · rw [List.pairwise_middle fun {a b} => apart_symm a b, List.pairwise_cons, ← List.filter_append]
    exact ⟨hbeside, (hapart.sublist hsub).filter _⟩

/-- A placed rectangle covers its tiles, and the entries beside it theirs. -/
theorem placed_covers (cols rows : Nat) (x : TileRect) (es : List TileRect) (t : Tile)
    (h : ∃ e ∈ es, e.hasTile t = true) : Covers (placed cols rows x es) t := by
  rw [placed_eq]
  split
  · exact Or.inl rfl
  · exact Or.inr h

/-- An insertion loses no tile: an entry that goes lies in the placed rectangle. -/
theorem DamageList.insert_covers (cols rows : Nat) (r : TileRect) (l : DamageList) (t : Tile)
    (h : Covers l t ∨ r.hasTile t = true) : Covers (l.insert cols rows r) t := by
  rcases l.stays_or_places r with hstay | ⟨hw, hc⟩
  · rw [l.insert_stays cols rows r hstay]
    rcases h with h | ht
    · exact h
    · exact hstay.imp_right fun ⟨e, he, her⟩ => ⟨e, he, TileRect.hasTile_of_contains her ht⟩
  obtain ⟨x, before, after, hxr, -, hall, -, heq⟩ := l.insert_places cols rows r hw hc
  have hplaced (ht : x.hasTile t = true) : ∃ e ∈ (before.filter fun e => !x.contains e) ++
      x :: after.filter fun e => !x.contains e, e.hasTile t = true := ⟨x, by simp, ht⟩
  rw [heq]
  apply placed_covers
  rcases h with (hwhole | ⟨e, he, het⟩) | ht
  · rw [hw] at hwhole; cases hwhole
  · cases hx : x.contains e
    · have hm := (hall e he).resolve_right (by simp [hx])
      have hkeep : (!x.contains e) = true := by rw [hx]; rfl
      refine ⟨e, ?_, het⟩
      rcases List.mem_append.mp hm with hb | ha
      · exact List.mem_append_left _ (List.mem_filter.mpr ⟨hb, hkeep⟩)
      · exact List.mem_append_right _ (List.mem_cons_of_mem _ (List.mem_filter.mpr ⟨ha, hkeep⟩))
    · exact hplaced (TileRect.hasTile_of_contains hx het)
  · exact hplaced (TileRect.hasTile_of_contains hxr ht)

/-- Settles O25: the limits, the tiles covered, the measures of rectangles, and the result case by case. -/
theorem insertionOfDamage : Obligations.InsertionOfDamage := by
  unfold Obligations.InsertionOfDamage
  refine ⟨DamageList.insert_sound, DamageList.insert_covers, fun a b => ⟨a.contains_iff b, rfl, rfl⟩,
    fun cols rows r l kept hk => ⟨l.insert_stays cols rows r, fun hw hc hroom => ?appends,
      fun before e after box hw hc hfull hsplit hbox hb ha => ?merges⟩, DamageList.insertPixels_within⟩
  case appends =>
    subst hk
    rw [← placed_eq]
    exact l.insert_appends cols rows r hw hc hroom
  case merges =>
    subst hbox
    rw [← placed_eq]
    exact l.insert_merges cols rows r before after e hw hc (hk ▸ hsplit) (hsplit ▸ hfull) hb ha

/-! ### INVALIDATE (R33) -/

/-- INVALIDATE, as the command runs it. -/
theorem exec_invalidate (operand : Byte) (s : State) : exec (.invalidate operand) s = .next (s.takeInvalidate operand) :=
  rfl

/-- The outputs that take insertions are the RUNNING and the FROZEN ones (R21). -/
theorem OutputState.live_iff (st : OutputState) : st.live = true ↔ st = .running ∨ st = .frozen := by
  cases st <;> simp [OutputState.live]

/-- A command's output operand is 0 or 1 (R161). -/
theorem outputOfOperand_none (operand : Byte) (h0 : operand ≠ 0) (h1 : operand ≠ 1) : outputOfOperand operand = none :=
  (if_neg h0).trans (if_neg h1)

/-- INVALIDATE for an output that the operand names (R33). -/
theorem State.takeInvalidate_output (s : State) (operand : Byte) (d : OutputId) (h : outputOfOperand operand = some d) :
    s.takeInvalidate operand = if (s.outputState d).live then
      { s with damage := s.damage.set d ⟨⟨[], true⟩, (s.damage.get d).previous⟩ } else s := by
  unfold State.takeInvalidate State.onOutput
  rw [h]
  rfl

/-- INVALIDATE for any other operand is refused with BAD_OPERAND (R161). -/
theorem State.takeInvalidate_refused (s : State) (operand : Byte) (h : outputOfOperand operand = none) :
    s.takeInvalidate operand = s.raise ⟨.commandRefused, 0x02, 0, 2, word operand.toNat, 1⟩ := by
  unfold State.takeInvalidate State.onOutput
  rw [h]
  rfl

/-- WHOLE in either record makes every tile of the active area stale (R61). -/
theorem region_whole (t : Timing) (dm : Damage) (h : dm.list.whole = true ∨ dm.previous.whole = true) :
    region t dm = t.walk :=
  List.filter_eq_self.mpr fun x _ => by rcases h with h | h <;> simp [DamageList.covers, h]

/-- A start moves the list into the previous snapshot (R20). -/
theorem State.startComposition_previous (u : State) (d : OutputId) :
    ((u.startComposition d).damage.get d).previous = (u.damage.get d).list := by
  obtain ⟨xs, h, -⟩ := u.startComposition_eq d
  rw [h]
  simp only [PerOutput.get_set_same]

/-- Settles O24: the command for each operand and output state, and WHOLE in the list and then in the snapshot. -/
theorem invalidateCompletes : Obligations.InvalidateCompletes := by
  unfold Obligations.InvalidateCompletes
  refine ⟨fun s operand d hd => ⟨fun hlive => ?live, fun hr hf => ?still⟩, fun s operand h0 h1 => ?refused,
    fun t previous => region_whole t _ (Or.inl rfl), fun u d hu => (u.startComposition_previous d).trans hu,
    fun t l => region_whole t _ (Or.inr rfl)⟩
  case live => rw [exec_invalidate, s.takeInvalidate_output operand d hd, if_pos ((OutputState.live_iff _).mpr hlive)]
  case still =>
    rw [exec_invalidate, s.takeInvalidate_output operand d hd,
      if_neg fun hlive => ((OutputState.live_iff _).mp hlive).elim hr hf]
  case refused => rw [exec_invalidate, s.takeInvalidate_refused operand (outputOfOperand_none operand h0 h1)]

end Sys2Proof.Machine
end

section
/-! PROOF. FRAME_EPOCH (O51): the line start of the epoch line with the link's own steps after the epoch or before it, and
what each reaction does. -/

namespace Sys2Proof.Machine

/-! ### The command -/

/-- FRAME_EPOCH, as the command runs it. -/
theorem exec_frameEpoch (d : OutputId) (order : List EpochReaction) (s : State) :
    exec (.frameEpoch d order) s = execFrameEpoch d order s := rfl

/-- LINE_START, as the command runs it. -/
theorem exec_lineStart (d : OutputId) (s : State) : exec (.lineStart d) s = .next (s.lineStart d []) := rfl

/-- A live output at its epoch line is at its epoch (R117). -/
theorem State.epochNext_of (s : State) (d : OutputId) (hl : (s.outputState d).live = true)
    (hn : (s.outputs.get d).nextLine = (s.outputs.get d).active.height) : s.epochNext d = true := by
  simp [State.epochNext, hl, hn]

/-- An order that names the link's steps takes them before the epoch (R141, log entry 7). -/
theorem exec_frameEpoch_linkFirst (s : State) (d : OutputId) (order : List EpochReaction)
    (hl : (s.outputState d).live = true) (hn : (s.outputs.get d).nextLine = (s.outputs.get d).active.height)
    (hm : .linkSteps ∈ order) : exec (.frameEpoch d order) s = .next (s.linkBeforeEpoch d order) := by
  rw [exec_frameEpoch, execFrameEpoch, if_pos (s.epochNext_of d hl hn), if_pos (List.contains_iff_mem.mpr hm)]

/-- Any other order makes it a line start (R117, log entry 7). -/
theorem exec_frameEpoch_linkLast (s : State) (d : OutputId) (order : List EpochReaction)
    (hl : (s.outputState d).live = true) (hn : (s.outputs.get d).nextLine = (s.outputs.get d).active.height)
    (hm : .linkSteps ∉ order) : exec (.frameEpoch d order) s = .next (s.lineStart d order) := by
  rw [exec_frameEpoch, execFrameEpoch, if_pos (s.epochNext_of d hl hn),
    if_neg fun h => hm (List.contains_iff_mem.mp h)]

/-! ### The link's outcome -/

/-- A RUNNING or FROZEN output has its timing generator running (R117). -/
theorem OutputState.timed_of_live (st : OutputState) (h : st.live = true) : st.timed = true := by
  rcases st.live_iff.mp h with rfl | rfl <;> rfl

/-- Whatever the outcome of the link of a timed output, its record is taken; of the output no count, line or timing
changes, and the layer tables and memory stay (R114, R123, R139). -/
theorem State.applyLink_timed (s : State) (d : OutputId) (out : LinkOut) (ht : (s.outputState d).timed = true) :
    ∃ o comp job streams inFlight events, s.applyLink d out = { s with
        links := s.links.set d out.1, outputs := s.outputs.set d o, comp := comp, job := job, streams := streams
        inFlight := inFlight, events := events } ∧
      o.frameCounter = (s.outputs.get d).frameCounter ∧ o.frameUnderflows = (s.outputs.get d).frameUnderflows ∧
      o.line = (s.outputs.get d).line ∧ o.active = (s.outputs.get d).active := by
  by_cases he : out.1.state = .error ∧ (s.links.get d).state ≠ .error
  · obtain ⟨herr, hs⟩ := he
    obtain ⟨job, streams, inFlight, events, h⟩ := s.applyLink_error d out herr hs ht
    exact ⟨_, _, job, streams, inFlight, events, h, rfl, rfl, rfl, rfl⟩
  · obtain ⟨events, h⟩ := s.applyLink_rest d out fun g => Classical.byContradiction fun hs => he ⟨g, hs⟩
    refine ⟨s.outputs.get d, s.comp, s.job, s.streams, s.inFlight, events, ?_, rfl, rfl, rfl, rfl⟩
    rw [h, PerOutput.set_get]

/-! ### The epoch line as a whole (R117, R133, R141) -/

/-- From s to t output d has taken its epoch, and its link is now l: the counts of R117, the commit (R46) and the line;
the other output, the other layer tables, memory and the host's path stay. -/
def State.TakesEpoch (s t : State) (d : OutputId) (l : Link) : Prop :=
  ∃ o damage comp job streams inFlight events, t = { s with
      outputs := s.outputs.set d o, layers := s.layers.set d (s.layers.get d).applied, links := s.links.set d l
      damage := damage, comp := comp, job := job, streams := streams, inFlight := inFlight, events := events } ∧
    o.frameCounter = (s.outputs.get d).frameCounter + 1 ∧ o.frameUnderflows = 0 ∧
    o.line = (s.outputs.get d).active.height ∧ o.active = (s.outputs.get d).active

/-- The line start of the epoch line takes the epoch, and then the link its steps (R117, R133). -/
theorem State.lineStart_takesEpoch (s : State) (d : OutputId) (order : List EpochReaction)
    (hl : (s.outputState d).live = true) (hn : (s.outputs.get d).nextLine = (s.outputs.get d).active.height) :
    s.TakesEpoch (s.lineStart d order) d
      ((s.links.get d).epoch.lineStart d ((s.outputs.get d).frameCounter + 1) none).1 := by
  obtain ⟨damage, comp, streams, blank, events, hout⟩ :=
    (s.setOutput d { s.outputs.get d with line := (s.outputs.get d).active.height }).outputLine_epoch d
      (s.outputs.get d).active.height order (by simp)
  simp only [State.setOutput, PerOutput.get_set_same, PerOutput.set_set] at hout
  rw [s.lineStart_live d _ order hl hn _ rfl]
  simp only [State.setOutput, hout, State.runLink, State.frameOf, PerOutput.get_set_same]
  obtain ⟨o, comp, job, streams, inFlight, events, happly, hfc, hfu, hline, hactive⟩ :=
    State.applyLink_timed { s with
      damage := damage, comp := comp, streams := streams, events := events
      outputs := s.outputs.set d { s.outputs.get d with
        line := (s.outputs.get d).active.height, frameCounter := (s.outputs.get d).frameCounter + 1
        frameUnderflows := 0, blank := blank }
      layers := s.layers.set d (s.layers.get d).applied
      links := s.links.set d (s.links.get d).epoch } d
      ((s.links.get d).epoch.lineStart d ((s.outputs.get d).frameCounter + 1) none)
      (by simpa [State.outputState] using OutputState.timed_of_live _ hl)
  simp only [PerOutput.get_set_same, PerOutput.set_set] at happly hfc hfu hline hactive
  exact ⟨o, _, comp, job, streams, inFlight, events, happly, hfc, hfu, hline, hactive⟩

/-- With the link's steps first and no entry to ERROR among them, the epoch is taken on the link they leave (R141). -/
theorem State.linkBeforeEpoch_takesEpoch (s : State) (d : OutputId) (order : List EpochReaction) (early : Link)
    (hl : (s.outputState d).live = true) (hn : (s.outputs.get d).nextLine = (s.outputs.get d).active.height)
    (he : early = ((s.links.get d).lineStart d (s.outputs.get d).frameCounter none).1)
    (hok : early.state = .error → (s.links.get d).state = .error) :
    s.TakesEpoch (s.linkBeforeEpoch d order) d early.epoch := by
  subst he
  obtain ⟨ev, hlink⟩ := (s.setOutput d { s.outputs.get d with line := (s.outputs.get d).active.height }).applyLink_rest d
    ((s.links.get d).lineStart d (s.outputs.get d).frameCounter none) hok
  obtain ⟨damage, comp, streams, blank, events, hout⟩ := State.outputLine_epoch { s with
      outputs := s.outputs.set d { s.outputs.get d with line := (s.outputs.get d).active.height }
      links := s.links.set d ((s.links.get d).lineStart d (s.outputs.get d).frameCounter none).1, events := ev } d
    (s.outputs.get d).active.height order (by simp)
  simp only [State.setOutput] at hlink
  simp only [PerOutput.get_set_same, PerOutput.set_set] at hout
  have hl' : (s.outputs.get d).state.live = true := hl
  simp only [State.linkBeforeEpoch, State.setOutput, State.runLink, State.frameOf, PerOutput.get_set_same, hn, hlink,
    State.outputState, hl', if_true, hout]
  exact ⟨_, damage, comp, s.job, streams, s.inFlight, events, rfl, rfl, rfl, rfl, rfl⟩

/-- Link steps first that enter ERROR take the output to FAULT, and it declares no epoch (R114, R117, R141). -/
theorem State.linkBeforeEpoch_fault (s : State) (d : OutputId) (order : List EpochReaction) (early : Link)
    (hl : (s.outputState d).live = true)
    (he : early = ((s.links.get d).lineStart d (s.outputs.get d).frameCounter none).1)
    (herr : early.state = .error) (hs : (s.links.get d).state ≠ .error) :
    ∃ o comp job streams inFlight events, s.linkBeforeEpoch d order = { s with
        links := s.links.set d early, outputs := s.outputs.set d o, comp := comp, job := job, streams := streams
        inFlight := inFlight, events := events } ∧
      o.state = .fault ∧ o.frameCounter = (s.outputs.get d).frameCounter := by
  subst he
  obtain ⟨job, streams, inFlight, events, hlink⟩ :=
    (s.setOutput d { s.outputs.get d with line := (s.outputs.get d).nextLine }).applyLink_error d
      ((s.links.get d).lineStart d (s.outputs.get d).frameCounter none) herr hs
      (by simpa [State.outputState] using OutputState.timed_of_live _ hl)
  simp only [State.setOutput, PerOutput.get_set_same, PerOutput.set_set] at hlink
  simp only [State.linkBeforeEpoch, State.setOutput, State.runLink, State.frameOf, PerOutput.get_set_same, hlink,
    State.outputState, OutputState.live, Bool.false_eq_true, if_false]
  exact ⟨_, _, job, streams, inFlight, events, rfl, rfl, rfl⟩

/-! ### The epoch, reaction by reaction -/

/-- At the epoch line the output takes the epoch and then LINE_MATCH, and hands no line (R117, R118, log entry 8). -/
theorem State.outputLine_epochLine (s : State) (d : OutputId) (y : Nat) (order : List EpochReaction)
    (h : y = (s.outputs.get d).active.height) :
    s.outputLine d y order = ((s.frameEpoch d order).lineMatchAt d y, none) := by
  unfold State.outputLine
  dsimp only
  rw [if_pos h, if_neg (by omega), if_neg (by omega)]

/-- An order that names each reaction once is taken as it stands (R117, log entry 7). -/
theorem State.frameEpoch_inOrder (s : State) (d : OutputId) (order : List EpochReaction)
    (react : State → EpochReaction → State) (hnodup : order.Nodup) (hall : ∀ r, r ∈ order ↔ r ≠ .linkSteps)
    (hreact : ∀ t k, react t .compositor = t.compositorEpoch d ∧ react t .layerTables = t.layerEpoch d ∧
      react t (.stream k) = t.streamEpoch d k ∧ react t .link = t.setLink d (t.links.get d).epoch) :
    s.frameEpoch d order = order.foldl react (s.declareEpoch d) := by
  unfold State.frameEpoch
  rw [reactionOrder_self order hnodup fun r hr => (hall r).mpr hr]
  refine List.foldl_rel (r := Eq) rfl fun r hr t u htu => ?_
  subst htu
  cases r with
  | compositor => obtain ⟨h, -, -, -⟩ := hreact t .S0; exact h.symm
  | layerTables => obtain ⟨-, h, -, -⟩ := hreact t .S0; exact h.symm
  | stream k => obtain ⟨-, -, h, -⟩ := hreact t k; exact h.symm
  | link => obtain ⟨-, -, -, h⟩ := hreact t .S0; exact h.symm
  | linkSteps => exact absurd rfl ((hall _).mp hr)

/-- A frame that had underflows is reported with them (R122). -/
theorem State.scanUnderflow_eq (s : State) (d : OutputId) (o : Output) (ho : o = s.outputs.get d) :
    s.scanUnderflow d = { s with
      events := if o.frameUnderflows = 0 then s.events else s.events.raise
        ⟨.scanUnderflow, outputNumber d, o.frameCounter, 0, word o.frameUnderflows.toNat, word o.underflows.toNat⟩ } := by
  subst ho
  unfold State.scanUnderflow
  dsimp only
  by_cases hu : (s.outputs.get d).frameUnderflows = 0
  · rw [if_pos hu, if_pos hu]
  · rw [if_neg hu, if_neg hu]; rfl

/-- What the output engine does at an epoch: the frame is counted, its underflows are reported if it had any, the epoch is
reported, and the status block is due (R117, R122, R123). -/
theorem State.declareEpoch_eq (s : State) (d : OutputId) (o : Output) (w : EventWriter) (ho : o = s.outputs.get d)
    (hw : w = EventWriter.raise (if o.frameUnderflows = 0 then s.events else s.events.raise
        ⟨.scanUnderflow, outputNumber d, o.frameCounter + 1, 0, word o.frameUnderflows.toNat, word o.underflows.toNat⟩)
      ⟨.epoch, outputNumber d, o.frameCounter + 1, 0, word (outputStateCode o.state), word o.frameUnderflows.toNat⟩) :
    s.declareEpoch d = { s with
      outputs := s.outputs.set d { o with frameCounter := o.frameCounter + 1, frameUnderflows := 0 }
      events := { w with due := w.due.markOutput d } } := by
  subst ho hw
  unfold State.declareEpoch
  dsimp only
  rw [State.scanUnderflow_eq _ d _ rfl]
  simp [State.epochEvent, State.setOutput, State.outputEvent, State.frameOf, State.raise, State.markOutput, State.mark]

/-- The stream unit's reaction for a stream that the output paces, and for another one (R31, R91, R97). -/
theorem State.streamEpoch_eq (s : State) (d : OutputId) (k : StreamId) (out : EpochOut)
    (ho : out = (s.streams.get k).epoch k (s.outputs.get d).frameCounter) :
    s.streamEpoch d k = if (s.streams.get k).pacing = d then
        if out.shownChanged then (s.updateStream k (out.stream, out.events)).damageStream k
        else s.updateStream k (out.stream, out.events)
      else s := by
  subst ho
  unfold State.streamEpoch State.pacingFrame State.frameOf
  by_cases hp : (s.streams.get k).pacing = d
  · rw [if_pos hp, if_pos hp, hp]
  · rw [if_neg hp, if_neg hp]

/-- Settles O51: the epoch taken with the link's steps first or last, the entry to FAULT, the order of the reactions, and
each reaction by its law. -/
theorem frameEpochCompletes : Obligations.FrameEpochCompletes := by
  unfold Obligations.FrameEpochCompletes
  refine ⟨fun s d order early late hl hn he hlate hok => ?whole, fun s d order early hl hn hm he herr hs => ?fault,
    fun s d order react y hl hy hn hnodup hall hreact => ?ordered,
    fun s d t changed rects ht hc hr => ⟨fun h => s.layerEpoch_none d (ht ▸ h), s.layerEpoch_eq d t changed rects ht hc hr⟩,
    fun s d k out ho => ⟨fun h => ?otherPacing, fun h => ?paced⟩, fun s k d => ⟨?damageOnly, s.damageStream_get k d⟩,
    fun s d o ho => ?declared, fun s d hl hn => ?byLineStart⟩
  case whole =>
    subst he hlate
    obtain ⟨t, hexec, o, damage, comp, job, streams, inFlight, events, rfl, hfc, hfu, hline, hactive⟩ :
        ∃ t, exec (.frameEpoch d order) s = .next t ∧ s.TakesEpoch t d
          (if .linkSteps ∈ order then ((s.links.get d).lineStart d (s.outputs.get d).frameCounter none).1.epoch
          else ((s.links.get d).epoch.lineStart d ((s.outputs.get d).frameCounter + 1) none).1) := by
      by_cases hm : .linkSteps ∈ order
      · rw [if_pos hm]
        exact ⟨_, exec_frameEpoch_linkFirst s d order hl hn hm,
          s.linkBeforeEpoch_takesEpoch d order _ hl hn rfl (hok hm)⟩
      · rw [if_neg hm]
        exact ⟨_, exec_frameEpoch_linkLast s d order hl hn hm, s.lineStart_takesEpoch d order hl hn⟩
    refine ⟨_, hexec, ?_⟩
    simp +contextual [hfc, hfu, hline, hactive, LayerTables.applied]
  case fault =>
    obtain ⟨o, comp, job, streams, inFlight, events, h, hstate, hfc⟩ :=
      s.linkBeforeEpoch_fault d order early hl he herr hs
    refine ⟨_, (exec_frameEpoch_linkFirst s d order hl hn hm).trans (congrArg _ h), ?_⟩
    simp [State.outputState, hstate, hfc]
  case ordered =>
    have hm : .linkSteps ∉ order := fun h => (hall _).mp h rfl
    rw [exec_frameEpoch_linkLast s d order hl (hn.trans hy) hm, s.lineStart_live d y order hl hn _ rfl,
      State.outputLine_epochLine _ d y order (by simpa using hy), State.frameEpoch_inOrder _ d order react hnodup hall hreact]
  case otherPacing => rw [s.streamEpoch_eq d k out ho, if_neg h]
  case paced => rw [s.streamEpoch_eq d k out ho, if_pos h]
  case damageOnly =>
    obtain ⟨damage, h⟩ := s.damageStream_rest k
    rw [h]
  case declared =>
    rw [s.declareEpoch_eq d o _ ho rfl]
    refine ⟨rfl, PerOutput.get_set_same _ _ _, fun hu => ?_, fun hu => ?_⟩
    · rw [if_pos hu, hu]; rfl
    · rw [if_neg hu]
  case byLineStart =>
    rw [exec_lineStart, exec_frameEpoch_linkLast s d [] hl hn List.not_mem_nil]

end Sys2Proof.Machine
end

section
/-! PROOF. COMMIT (O35): a command on an output takes effect for the output its operand names, whatever state the output is
in. -/

namespace Sys2Proof.Machine

/-- A command on an output, with an operand that names one, is the command's effect on that output (R161). -/
theorem State.onOutput_of_some (s : State) (code : Nat) (operand : Byte) (f : OutputId → State) (d : OutputId)
    (h : outputOfOperand operand = some d) : s.onOutput code operand f = f d := by
  unfold State.onOutput
  rw [h]

/-- COMMIT, as the command runs it. -/
theorem exec_commit (operand : Byte) (s : State) : exec (.commit operand) s = .next (s.takeCommit operand) := rfl

/-- COMMIT for an output that the operand names: its layer tables with commit-pending set (R45). -/
theorem State.takeCommit_output (s : State) (operand : Byte) (d : OutputId) (h : outputOfOperand operand = some d) :
    s.takeCommit operand = s.setLayers d { s.layers.get d with commitPending := true } :=
  s.onOutput_of_some 0x01 operand _ d h

/-- Settles O35: COMMIT looks at no output state, so its effect on the layer tables is the whole step. -/
theorem commitCompletes : Obligations.CommitCompletes := by
  unfold Obligations.CommitCompletes
  intro s operand d hd
  rw [exec_commit, s.takeCommit_output operand d hd, State.setLayers]

end Sys2Proof.Machine
end

section
/-! PROOF. The compositor's completions: a row write that leaves a tile unfinished (O21), and the last one of a tile
(O22). -/

namespace Sys2Proof.Machine

/-- COMP_WRITE_COMPLETION with no drain: the row is in memory, the request is gone, and the tile in hand takes notice. -/
theorem exec_compWriteCompletion (s : State) (beats : List WriteBeat) (fs : List Flight)
    (hf : s.inFlight = .compWrite beats :: fs) (hd : s.drain = none) :
    exec .compWriteCompletion s =
      .next (State.compWrite { s with mem := s.mem.writeBeats beats, inFlight := fs }) := by
  have hleft : (s.writeMemory beats).removeOldest = { s with mem := s.mem.writeBeats beats, inFlight := fs } :=
    (s.writeMemory beats).removeOldest_eq _ fs hf hd
  have hrun : exec .compWriteCompletion s = .next ((s.writeMemory beats).removeOldest.compWrite) := by
    change execCompWriteCompletion s = _
    unfold execCompWriteCompletion
    rw [hf, List.head?_cons]
  rw [hrun, hleft]

/-- TILE_COMPLETION is COMP_WRITE_COMPLETION of the one request left of a live tile (log entry 16). -/
theorem exec_tileCompletion (s : State) (beats : List WriteBeat) (fs : List Flight)
    (hf : s.inFlight = .compWrite beats :: fs) (hl : s.lastRow = true) :
    exec .tileCompletion s = exec .compWriteCompletion s := by
  change execTileCompletion s = execCompWriteCompletion s
  unfold execTileCompletion execCompWriteCompletion
  rw [hf, List.head?_cons]
  exact if_pos hl

/-- A row write of a live tile (R65). -/
theorem State.compWrite_live (s : State) (j : Job) (hj : s.job = some j) (hl : j.live = true) :
    s.compWrite = s.jobWrite { j with writesOut := j.writesOut - 1 } := by
  unfold State.compWrite
  rw [hj]
  exact if_pos hl

/-- A row write of an abandoned tile (R73). -/
theorem State.compWrite_abandoned (s : State) (j : Job) (hj : s.job = some j) (hl : j.live = false) :
    s.compWrite = s.dropJob { j with writesOut := j.writesOut - 1 } := by
  unfold State.compWrite
  rw [hj]
  exact if_neg (ne_true_of_eq_false hl)

/-- A job is done when nothing of it is left to issue and nothing outstanding. -/
theorem Job.done_iff (j : Job) :
    j.done = true ↔ j.readsOut = 0 ∧ j.writesOut = 0 ∧ j.reads = [] ∧ j.writes = [] := by
  simp [Job.done, Job.idle, and_assoc]

/-- A row write that is not the last of its tile leaves the job in hand (R65). -/
theorem State.jobWrite_more (s : State) (j : Job) (h : j.writes ≠ [] ∨ 0 < j.writesOut) :
    s.jobWrite j = { s with job := some j } :=
  if_neg fun hdone => by
    obtain ⟨-, hout, -, hwrites⟩ := j.done_iff.mp hdone
    rcases h with h | h
    · exact h hwrites
    · omega

/-- The last row write of a tile frees the engine and completes the tile (R65, R67). -/
theorem State.jobWrite_last (s : State) (j : Job) (h : j.done = true) :
    s.jobWrite j = State.completeTile { s with job := none } j.output := if_pos h

/-- COMP_WRITE_COMPLETION of a live tile. -/
theorem exec_compWriteCompletion_live (s : State) (beats : List WriteBeat) (fs : List Flight) (j : Job)
    (hf : s.inFlight = .compWrite beats :: fs) (hd : s.drain = none) (hj : s.job = some j) (hl : j.live = true) :
    exec .compWriteCompletion s = .next (State.jobWrite { s with mem := s.mem.writeBeats beats, inFlight := fs }
      { j with writesOut := j.writesOut - 1 }) :=
  (exec_compWriteCompletion s beats fs hf hd).trans (congrArg _ (State.compWrite_live _ j hj hl))

/-- COMP_WRITE_COMPLETION of an abandoned tile. -/
theorem exec_compWriteCompletion_abandoned (s : State) (beats : List WriteBeat) (fs : List Flight) (j : Job)
    (hf : s.inFlight = .compWrite beats :: fs) (hd : s.drain = none) (hj : s.job = some j) (hl : j.live = false) :
    exec .compWriteCompletion s = .next (State.dropJob { s with mem := s.mem.writeBeats beats, inFlight := fs }
      { j with writesOut := j.writesOut - 1 }) :=
  (exec_compWriteCompletion s beats fs hf hd).trans (congrArg _ (State.compWrite_abandoned _ j hj hl))

/-- Settles O21: with more to do the job stays with one request fewer; the last request of an abandoned tile frees the
engine. -/
theorem compWriteCompletes : Obligations.CompWriteCompletes := by
  unfold Obligations.CompWriteCompletes
  refine ⟨fun s beats fs j hf hd hj hl hmore => ?more, fun s beats fs j hf hd hj hl hr hw => ?abandoned⟩
  case more =>
    exact (exec_compWriteCompletion_live s beats fs j hf hd hj hl).trans
      (congrArg _ (State.jobWrite_more _ _ (hmore.imp_right Nat.sub_pos_of_lt)))
  case abandoned =>
    have hidle : ({ j with writesOut := j.writesOut - 1 } : Job).idle = true := by simp [Job.idle, hr, hw]
    rw [exec_compWriteCompletion_abandoned s beats fs j hf hd hj hl, State.dropJob, if_pos hidle]

/-- A tile of a composition with tiles left stops being the one in progress (R65). -/
theorem State.completeTile_more (s : State) (d : OutputId) (k : Composition) (hk : (s.comp.get d).composition = some k)
    (h : k.next < k.region.length) :
    s.completeTile d = s.setComp d { s.comp.get d with composition := some { k with inProgress := none } } := by
  unfold State.completeTile
  rw [hk]
  exact if_neg (Nat.not_le.mpr h)

/-- The last tile of a composition ends it: its record goes, its size is kept, it awaits the flip, and its holds are
released (R67, R72). -/
theorem State.completeTile_last (s : State) (d : OutputId) (k : Composition) (hk : (s.comp.get d).composition = some k)
    (h : k.region.length ≤ k.next) :
    ∃ xs w, s.completeTile d = { s with
        comp := s.comp.set d { s.comp.get d with
          composition := none, completedSize := k.region.length, awaiting := true }
        streams := xs
        events := w } ∧
      ∀ q i sl, (s.streams.get q).slots[i]? = some sl → (xs.get q).slots[i]? = some (if ⟨q, i⟩ ∈ k.holds then
          { sl with
            holds := sl.holds.set d false
            state := if sl.state = .retired ∧ sl.holds.get (otherOutput d) = false then .free else sl.state }
        else sl) := by
  have hend : s.completeTile d = s.endComposition d k := by
    unfold State.completeTile
    rw [hk]
    exact if_pos h
  rw [hend]
  exact s.endComposition_eq d k

/-- Settles O22: the one request left frees the engine, and the tile completes with tiles left or as the last one. -/
theorem tileCompletionCompletes : Obligations.TileCompletionCompletes := by
  unfold Obligations.TileCompletionCompletes
  refine ⟨fun s beats fs j k hf hd hj hl hreads hwrites hr hw hk => ?_,
    fun q fc d i x sl h => x.releaseHold_eq q fc d i sl h⟩
  have hlast : s.lastRow = true := by simp [State.lastRow, hj, hl, hreads, hwrites, hr, hw]
  have hdone : ({ j with writesOut := j.writesOut - 1 } : Job).done = true := by simp [Job.done_iff, hreads, hwrites, hr, hw]
  have hexec : exec .tileCompletion s = .next (State.completeTile
      { s with mem := s.mem.writeBeats beats, inFlight := fs, job := none } j.output) := by
    rw [exec_tileCompletion s beats fs hf hlast, exec_compWriteCompletion_live s beats fs j hf hd hj hl,
      State.jobWrite_last _ _ hdone]
  rcases Nat.lt_or_ge k.next k.region.length with hmore | hend
  · exact ⟨_, hexec.trans (congrArg _ (State.completeTile_more _ _ k hk hmore)), rfl, rfl, rfl,
      fun _ => ⟨rfl, rfl, rfl⟩, fun h => absurd hmore (Nat.not_lt.mpr h)⟩
  · obtain ⟨xs, w, h, hslots⟩ := State.completeTile_last
      { s with mem := s.mem.writeBeats beats, inFlight := fs, job := none } j.output k hk hend
    exact ⟨_, hexec.trans (congrArg _ h), rfl, rfl, rfl,
      fun h => absurd h (Nat.not_lt.mpr hend), fun _ => ⟨rfl, hslots⟩⟩

end Sys2Proof.Machine
end

section
/-! PROOF. The compositor at an epoch (O52): missed flip, flip and start; the region of a composition in walk order, and
what its start records and holds. -/

namespace Sys2Proof.Machine

open Sys2Proof.Safety

/-! ### The epoch (R58) -/

/-- In any state but RUNNING the compositor takes no step (R58). -/
theorem State.compositorEpoch_still (s : State) (d : OutputId) (h : s.outputState d ≠ .running) :
    s.compositorEpoch d = s := if_neg h

/-- A composition in progress is a missed flip (R60). -/
theorem State.compositorEpoch_busy (s : State) (d : OutputId) (k : Composition) (hr : s.outputState d = .running)
    (hk : (s.comp.get d).composition = some k) : s.compositorEpoch d = s.flipMissed d k := by
  unfold State.compositorEpoch
  rw [if_pos hr, hk]

/-- With nothing stale, an epoch without a composition in progress flips if a finished one awaits it, and that is all. -/
theorem State.compositorEpoch_fresh (s : State) (d : OutputId) (hr : s.outputState d = .running)
    (hc : (s.comp.get d).composition = none) (hl : (s.damage.get d).list = ⟨[], false⟩)
    (hp : (s.damage.get d).previous = ⟨[], false⟩) : s.compositorEpoch d = s.flipIfAwaiting d :=
  (s.compositorEpoch_idle d hr hc).trans (if_neg fun h => h.elim (· hl) (· hp))

/-- With anything stale, a composition starts after the flip, if there is one. -/
theorem State.compositorEpoch_starts (s : State) (d : OutputId) (hr : s.outputState d = .running)
    (hc : (s.comp.get d).composition = none)
    (h : (s.damage.get d).list ≠ ⟨[], false⟩ ∨ (s.damage.get d).previous ≠ ⟨[], false⟩) :
    s.compositorEpoch d = (s.flipIfAwaiting d).startComposition d :=
  (s.compositorEpoch_idle d hr hc).trans (if_pos h)

/-! ### The region (R61, R64) -/

/-- The walk meets the tiles of the active area. -/
theorem Timing.mem_walk (t : Timing) (x : Tile) : x ∈ t.walk ↔ x.col < t.cols ∧ x.row < t.rows := by
  simp only [Timing.walk, List.mem_flatMap, List.mem_map, List.mem_range]
  constructor
  · rintro ⟨r, hr, c, hc, rfl⟩
    exact ⟨hc, hr⟩
  · rintro ⟨hc, hr⟩
    exact ⟨x.row, hr, x.col, hc, rfl⟩

/-- The walk goes row by row from the top, in a row column by column from the left. -/
theorem Timing.walk_inOrder (t : Timing) :
    t.walk.Pairwise fun a b => a.row < b.row ∨ a.row = b.row ∧ a.col < b.col := by
  unfold Timing.walk
  rw [List.pairwise_flatMap]
  constructor
  · intro r _
    exact List.Pairwise.map _ (fun a b hab => Or.inr ⟨rfl, hab⟩) List.pairwise_lt_range
  · refine List.pairwise_lt_range.imp fun {r r'} hrr a ha b hb => Or.inl ?_
    obtain ⟨c, -, rfl⟩ := List.mem_map.mp ha
    obtain ⟨c', -, rfl⟩ := List.mem_map.mp hb
    exact hrr

/-- A damage record covers a tile as its rectangles say (R19). -/
theorem DamageList.covers_iff (l : DamageList) (x : Tile) : l.covers x = true ↔ Covers l x := by
  simp [DamageList.covers, Covers]

/-- The region of a composition: the tiles of the active area that either record covers. -/
theorem mem_region (t : Timing) (dm : Damage) (x : Tile) :
    x ∈ region t dm ↔ x.col < t.cols ∧ x.row < t.rows ∧ (Covers dm.list x ∨ Covers dm.previous x) := by
  rw [region, List.mem_filter, t.mem_walk, Bool.or_eq_true, DamageList.covers_iff, DamageList.covers_iff, and_assoc]

/-! ### What a start records (R62) -/

/-- The record that a start makes has, for layer i, what the layer's content says: nothing, its surface, or the SHOWN
slot's surface and the slot. -/
theorem State.newComposition_sources (s : State) (d : OutputId) (i : Nat) (l : Layer)
    (h : (s.layers.get d).active[i]? = some l) :
    (l.enabled = false ∨ l.content = .solid →
      (s.newComposition d).sources[i]? = some none ∧ (s.newComposition d).frames[i]? = some none) ∧
    (l.enabled = true → l.content = .surface →
      (s.newComposition d).sources[i]? = some (some (s.geometryOf l.index)) ∧
        (s.newComposition d).frames[i]? = some none) ∧
    (∀ q, l.enabled = true → l.content = .stream → l.index = streamNumber q →
      ((s.streams.get q).shownSlot = none →
        (s.newComposition d).sources[i]? = some none ∧ (s.newComposition d).frames[i]? = some none) ∧
      (∀ j u, (s.streams.get q).shownSlot = some j → (s.streams.get q).surfaces[j]? = some u →
        (s.newComposition d).sources[i]? = some (some (s.geometryOf u)) ∧
          (s.newComposition d).frames[i]? = some (some ⟨q, j⟩))) := by
  obtain ⟨hsource, hframe⟩ := s.newComposition_layer d i l h
  rw [hsource, hframe]
  simp only [Option.some.injEq]
  exact ⟨s.layer_solid l, s.layer_surface l,
    fun q he hc hi => ⟨s.layer_stream_none l q he hc hi, fun j u => s.layer_stream l q j u he hc hi⟩⟩

/-- Settles O52: the epoch case by case, the region in walk order, and the start as `State.startComposition_eq` gives
it. -/
theorem compositorAtAnEpoch : Obligations.CompositorAtAnEpoch := by
  unfold Obligations.CompositorAtAnEpoch
  refine ⟨fun s d => ⟨s.compositorEpoch_still d, fun k hr hk => s.compositorEpoch_busy d k hr hk,
    fun hr hc ha hl hp => ?flip, fun f hr hc hf => ?idle⟩, fun s d => ?start⟩
  case flip => exact (s.compositorEpoch_fresh d hr hc hl hp).trans (if_pos ha)
  case idle =>
    have hflip : f = s.flipIfAwaiting d := hf
    rw [hflip]
    exact ⟨s.compositorEpoch_fresh d hr hc, s.compositorEpoch_starts d hr hc⟩
  case start =>
    obtain ⟨xs, hstart, hslots⟩ := s.startComposition_eq d
    rw [hstart]
    exact ⟨mem_region _ _, (Timing.walk_inOrder _).filter _, rfl, s.newComposition d, rfl, rfl, rfl, rfl, rfl,
      s.newComposition_sources d, holdsOf_nodup _, s.newComposition_holds d, hslots⟩

end Sys2Proof.Machine
end

section
/-! PROOF. Blending (O23): a blended channel is the rounded weighted mean of its two inputs (R69). -/

namespace Sys2Proof.Machine

/-- A channel times 255, rounded and divided by 255, is the channel. -/
theorem rounded_div (m : Nat) : (m * 255 + 127) / 255 = m := by omega

/-- The weights of a blend sum to 255. -/
theorem weights_sum (m a : Nat) (ha : a ≤ 255) : m * a + m * (255 - a) = m * 255 := by
  rw [← Nat.mul_add, Nat.add_sub_cancel' ha]

/-- A blended channel is at least what both its inputs are at least. -/
theorem le_blendChannel (m s d a : Nat) (ha : a ≤ 255) (hs : m ≤ s) (hd : m ≤ d) : m ≤ blendChannel s d a := by
  have hsum : m * 255 ≤ s * a + d * (255 - a) :=
    weights_sum m a ha ▸ Nat.add_le_add (Nat.mul_le_mul_right a hs) (Nat.mul_le_mul_right (255 - a) hd)
  calc m = (m * 255 + 127) / 255 := (rounded_div m).symm
    _ ≤ blendChannel s d a := Nat.div_le_div_right (Nat.add_le_add_right hsum 127)

/-- A blended channel is at most what both its inputs are at most. -/
theorem blendChannel_le (m s d a : Nat) (ha : a ≤ 255) (hs : s ≤ m) (hd : d ≤ m) : blendChannel s d a ≤ m := by
  have hsum : s * a + d * (255 - a) ≤ m * 255 :=
    weights_sum m a ha ▸ Nat.add_le_add (Nat.mul_le_mul_right a hs) (Nat.mul_le_mul_right (255 - a) hd)
  calc blendChannel s d a ≤ (m * 255 + 127) / 255 := Nat.div_le_div_right (Nat.add_le_add_right hsum 127)
    _ = m := rounded_div m

/-- The effective alpha of 8-bit values is an 8-bit value. -/
theorem effectiveAlpha_le (pa opacity : Nat) (hp : pa ≤ 255) (ho : opacity ≤ 255) : effectiveAlpha pa opacity ≤ 255 :=
  calc effectiveAlpha pa opacity ≤ (255 * 255 + 127) / 255 :=
        Nat.div_le_div_right (Nat.add_le_add_right (Nat.mul_le_mul hp ho) 127)
    _ = 255 := rounded_div 255

/-- Settles O23: the weights of a blend sum to 255, and rounding takes a whole channel to itself. -/
theorem blendStaysBetween : Obligations.BlendStaysBetween := by
  unfold Obligations.BlendStaysBetween
  intro s d a hs hd ha
  refine ⟨le_blendChannel _ s d a ha (Nat.min_le_left s d) (Nat.min_le_right s d),
    blendChannel_le _ s d a ha (Nat.le_max_left s d) (Nat.le_max_right s d), ?_, ?_, rounded_div a,
    effectiveAlpha_le a d ha hd⟩
  · simp [blendChannel, rounded_div]
  · simp [blendChannel, rounded_div]

end Sys2Proof.Machine
end

section
/-! PROOF. DOWNSTREAM_GRANT (O12): what each client presents, and what a grant does to its requester. -/

namespace Sys2Proof.Machine

/-! ### The grant (R146, R150, R151) -/

/-- A grant leaves alone what waits at the upstream port. -/
@[simp] theorem State.afterGrant_upstream (s : State) (f : Flight) : (s.afterGrant f).upstream = s.upstream := by
  cases f <;> rfl

/-- DOWNSTREAM_GRANT of a request in the DRAM, with nothing waiting upstream: the request joins those in flight and its
requester moves on. -/
theorem exec_downstreamGrant (s : State) (c : Client) (f : Flight) (hc : s.grantee = some c) (hp : s.presents c = some f)
    (hf : f.inMemory = true) (hu : s.upstream = []) :
    exec .downstreamGrant s = .next { s.afterGrant f with inFlight := s.inFlight ++ [f] } := by
  have hchosen : s.grantee.bind s.presents = some f := by rw [hc, Option.bind_some, hp]
  have hgrant : s.grant f = { s.afterGrant f with inFlight := s.inFlight ++ [f] } :=
    State.acceptWaiting_none _ ((s.afterGrant_upstream f).trans hu)
  change execDownstreamGrant s = _
  unfold execDownstreamGrant
  rw [hchosen, ← hgrant]
  exact if_pos hf

/-! ### PASS (R146, R148) -/

/-- With no read to issue, PASS presents the head run of a write queue that holds a beat. -/
theorem State.presents_pass_write (s : State) (h : s.oldestUnissued = none) :
    s.presents .pass = if s.writeQueue = [] then none else some (.hostWrite ((headRun s.writeQueue).map (·.beat))) := by
  simp [State.presents, State.passPresents, h]

/-- With a read to issue, PASS presents the read, or the head run when the read is held back. -/
theorem State.presents_pass_read (s : State) (r : TrackedRead) (h : s.oldestUnissued = some r) :
    s.presents .pass = if s.heldBack r then
        if s.writeQueue = [] then none else some (.hostWrite ((headRun s.writeQueue).map (·.beat)))
      else some (.hostRead r.id r.issued r.nextRun) := by
  simp [State.presents, State.passPresents, h]

/-- No read of the tracker has a beat to issue. -/
theorem State.oldestUnissued_none (s : State) (h : ∀ r ∈ s.tracker, r.down.length ≤ r.issued) :
    s.oldestUnissued = none :=
  List.find?_eq_none.mpr fun r hr => by simpa using h r hr

/-- The oldest read with beats to issue is the first one of the tracker. -/
theorem State.oldestUnissued_first (s : State) (r : TrackedRead) (earlier later : List TrackedRead)
    (ht : s.tracker = earlier ++ r :: later) (he : ∀ y ∈ earlier, y.down.length ≤ y.issued)
    (hr : r.issued < r.down.length) : s.oldestUnissued = some r :=
  List.find?_eq_some_iff_append.mpr
    ⟨decide_eq_true hr, earlier, later, ht, fun y hy => by simpa using he y hy⟩

/-- A read is held back before its first request, by an older queued write to one of its beats (R148). -/
theorem State.heldBack_iff (s : State) (r : TrackedRead) : s.heldBack r = true ↔
    r.issued = 0 ∧ ∃ q ∈ s.writeQueue, q.request < r.id ∧ ∃ b ∈ r.down, b.addr = q.beat.addr := by
  simp [State.heldBack]

/-- A grant of the write queue's head run takes the run out of the queue (R146). -/
theorem exec_downstreamGrant_headRun (s : State) (hc : s.grantee = some .pass) (hr : s.oldestUnissued = none)
    (hq : s.writeQueue ≠ []) (hu : s.upstream = [])
    (hm : (headRun s.writeQueue).all (fun q => decide (q.beat.addr + 8 ≤ 0x10000000)) = true) :
    exec .downstreamGrant s = .next
      { s with writeQueue := s.writeQueue.drop (headRun s.writeQueue).length
               inFlight := s.inFlight ++ [.hostWrite ((headRun s.writeQueue).map (·.beat))] } := by
  have hp := (s.presents_pass_write hr).trans (if_neg hq)
  have hf : (Flight.hostWrite ((headRun s.writeQueue).map (·.beat))).inMemory = true := by
    simpa [Flight.inMemory, Flight.addrs, Config.memorySize] using hm
  rw [exec_downstreamGrant s _ _ hc hp hf hu, State.afterGrant, List.length_map]

/-! ### SCAN (R119) -/

/-- A fetcher that has not begun, or has nothing left to fetch, has no run. -/
theorem Output.nextRun_none (o : Output) (h : o.begun = false ∨ o.fetch = none) : o.nextRun = none := by
  unfold Output.nextRun
  rcases h with h | h
  · rw [h]
  · rw [h]; cases o.begun <;> rfl

/-- The run at a fetch position: up to 32 pixels of the line, when the FIFO has room for them. -/
theorem Output.nextRun_at (o : Output) (p : FetchAt) (n : Nat) (hb : o.begun = true) (hp : o.fetch = some p)
    (hn : n = min 32 (o.active.width - p.pixel)) :
    o.nextRun = if 0 < n ∧ o.fifoPixels + n ≤ 2 * o.active.width then some ⟨p.line, p.pixel, n⟩ else none := by
  unfold Output.nextRun
  rw [hb, hp, hn]

/-- The SCAN client presents its fetcher's run, read from the front buffer. -/
theorem State.presents_scan (s : State) (d : OutputId) :
    s.presents (.scan d) = (s.outputs.get d).nextRun.map fun r =>
      .scanRead d r.line r.pixel r.count ((s.outputs.get d).active.runBeats (s.comp.get d).front r) true := by
  change s.scanPresents d = _
  unfold State.scanPresents
  dsimp only
  cases (s.outputs.get d).nextRun <;> rfl

/-- Scanout is urgent when it presents a run and fewer returned pixels than a line lie in its FIFO (R119). -/
theorem State.urgent_iff (s : State) (d : OutputId) : (s.outputs.get d).urgent = true ↔
    s.presents (.scan d) ≠ none ∧ (s.outputs.get d).returnedPixels < (s.outputs.get d).active.width := by
  rw [s.presents_scan d, Output.urgent, Bool.and_eq_true, decide_eq_true_eq, Option.isSome_iff_ne_none, ne_eq, ne_eq,
    Option.map_eq_none_iff]

/-- A run of a line that is not in the FIFO begins its line at the tail. -/
theorem reservePixels_new (r : Run) (fifo : List FifoLine) (h : ∀ x ∈ fifo, x.line ≠ r.line) :
    reservePixels r fifo = fifo ++ [⟨r.line, List.replicate r.count none⟩] := by
  induction fifo with
  | nil => rfl
  | cons l ls ih =>
    obtain ⟨hl, hls⟩ := List.forall_mem_cons.mp h
    rw [reservePixels, if_neg hl, ih hls, List.cons_append]

/-- A run of a line that is in the FIFO reserves its pixels behind those of the line. -/
theorem reservePixels_more (r : Run) (before after : List FifoLine) (l : FifoLine) (hl : l.line = r.line)
    (h : ∀ x ∈ before, x.line ≠ r.line) :
    reservePixels r (before ++ l :: after) =
      before ++ ⟨r.line, l.pixels ++ List.replicate r.count none⟩ :: after := by
  induction before with
  | nil => rw [List.nil_append, List.nil_append, reservePixels, if_pos hl, hl]
  | cons b bs ih =>
    obtain ⟨hb, hbs⟩ := List.forall_mem_cons.mp h
    rw [List.cons_append, reservePixels, if_neg hb, ih hbs, List.cons_append]

/-! ### COMP and STAT (R65, R170) -/

/-- The compositor presents the next read of the tile in hand. -/
theorem State.presents_comp_read (s : State) (j : Job) (r : TileRead) (rs : List TileRead) (hj : s.job = some j)
    (hr : j.reads = r :: rs) : s.presents .comp = some (.compRead r.layer r.addrs) := by
  change s.compPresents = _
  unfold State.compPresents
  rw [hj]
  dsimp only
  rw [hr]

/-- With no read to issue it presents the next row write, once no read is outstanding. -/
theorem State.presents_comp_write (s : State) (j : Job) (w : List WriteBeat) (ws : List (List WriteBeat))
    (hj : s.job = some j) (hr : j.reads = []) (hw : j.writes = w :: ws) :
    s.presents .comp = if j.readsOut = 0 then some (.compWrite w) else none := by
  change s.compPresents = _
  unfold State.compPresents
  rw [hj]
  dsimp only
  rw [hr, hw]

/-- With no tile in hand, or nothing of it to issue, it presents nothing. -/
theorem State.presents_comp_none (s : State) (h : ∀ j, s.job = some j → j.reads = [] ∧ j.writes = []) :
    s.presents .comp = none := by
  change s.compPresents = none
  unfold State.compPresents
  cases hj : s.job with
  | none => rfl
  | some j =>
    obtain ⟨hr, hw⟩ := h j hj
    dsimp only
    rw [hr, hw]

/-- STAT presents what the event writer does. -/
theorem State.presents_stat (s : State) (beats : List WriteBeat) (b : Block) :
    (s.events.presented = none → s.presents .stat = none) ∧
    (s.events.presented = some (.record beats) → s.presents .stat = some (.recordWrite beats)) ∧
    (s.events.presented = some (.block b beats) → s.presents .stat = some (.blockWrite b true beats)) := by
  change (_ → s.statPresents = _) ∧ (_ → s.statPresents = _) ∧ (_ → s.statPresents = _)
  unfold State.statPresents
  exact ⟨fun h => by rw [h], fun h => by rw [h], fun h => by rw [h]⟩

/-- Settles O12: the grant, the runs of PASS (`headRun_spec`, `TrackedRead.nextRun_spec`), and then client by client what
it presents and what a grant does to it. -/
theorem grantCompletes : Obligations.GrantCompletes := by
  unfold Obligations.GrantCompletes
  refine ⟨exec_downstreamGrant, exec_downstreamGrant_headRun, headRun_spec, fun s write hwrite => ?pass,
    TrackedRead.nextRun_spec, fun s d o p n ho hn => ?scan, fun s => ?comp, State.presents_stat,
    fun s id start layer line pixel count addrs d live blk beats o ho =>
      ⟨rfl, rfl, ?reserve, rfl, rfl, rfl, rfl⟩⟩
  case pass =>
    subst hwrite
    refine ⟨fun h => s.presents_pass_write (s.oldestUnissued_none h), fun r earlier later held ht he hr hheld => ?_⟩
    have hpass := s.presents_pass_read r (s.oldestUnissued_first r earlier later ht he hr)
    have hheld : held ↔ s.heldBack r = true := hheld.trans (s.heldBack_iff r).symm
    exact ⟨fun h => hpass.trans (if_pos (hheld.mp h)), fun h => hpass.trans (if_neg fun hb => h (hheld.mpr hb))⟩
  case scan =>
    subst ho
    refine ⟨fun h => ?_, fun hb hp => ?_, s.urgent_iff d⟩
    · rw [s.presents_scan d, Output.nextRun_none _ h, Option.map_none]
    · rw [s.presents_scan d, Output.nextRun_at _ p n hb hp hn, apply_ite (Option.map _)]
      rfl
  case comp =>
    refine ⟨fun hj => s.presents_comp_none fun j h => absurd (hj.symm.trans h) nofun, fun j hj =>
      ⟨fun r rs => s.presents_comp_read j r rs hj, fun hr w ws => s.presents_comp_write j w ws hj hr,
        fun hr hw => s.presents_comp_none fun i hi => ?_⟩⟩
    obtain rfl : j = i := Option.some.inj (hj.symm.trans hi)
    exact ⟨hr, hw⟩
  case reserve =>
    subst ho
    exact ⟨reservePixels ⟨line, pixel, count⟩ (s.outputs.get d).fifo, rfl, reservePixels_new ⟨line, pixel, count⟩ _,
      fun before l after hfifo hl h => hfifo ▸ reservePixels_more ⟨line, pixel, count⟩ before after l hl h⟩

end Sys2Proof.Machine
end

section
/-! PROOF. TILE_TAKE (O19): whose tile is taken, and the reads a tile makes. -/

namespace Sys2Proof.Machine

/-! ### Lists with their positions -/

/-- A map over a list and its positions is a map over the positions when they determine the values. -/
theorem flatMap_zipIdx_eq {α β : Type} (xs : List α) (f : α × Nat → List β) (g : Nat → List β)
    (h : ∀ i x, xs[i]? = some x → f (x, i) = g i) : xs.zipIdx.flatMap f = (List.range xs.length).flatMap g := by
  have hmap : xs.zipIdx.map f = (List.range xs.length).map g := by
    refine List.ext_getElem (by simp) fun i hi _ => ?_
    have hlt : i < xs.length := by simpa using hi
    simpa using h i _ (List.getElem?_eq_getElem hlt)
  rw [List.flatMap_def, List.flatMap_def, hmap]

/-- A composition's layers and their sources, layer by layer. -/
theorem Composition.layers_zip_at (k : Composition) (i : Nat) (p : Layer × Option Geometry) :
    (k.layers.toList.zip k.sources.toList)[i]? = some p ↔ k.layers[i]? = some p.1 ∧ k.sources[i]? = some p.2 := by
  rw [List.getElem?_zip_eq_some, Vector.getElem?_toList, Vector.getElem?_toList]

/-- There are 8 of them. -/
theorem Composition.layers_zip_length (k : Composition) : (k.layers.toList.zip k.sources.toList).length = 8 := by
  simp

/-! ### The turn (R70) -/

/-- A composition has a tile left when its next position lies in its region (R70). -/
theorem State.hasTile_iff (s : State) (d : OutputId) :
    s.hasTile d = true ↔ ∃ k, (s.comp.get d).composition = some k ∧ k.next < k.region.length := by
  unfold State.hasTile
  cases (s.comp.get d).composition <;> simp

/-- The tile is taken for the output whose turn it is, or for the other one when that has none left (R70). -/
theorem State.tileTurn_eq (s : State) (d : OutputId) (h : s.hasTile d = true)
    (hd : d = s.turn ∨ d = otherOutput s.turn ∧ s.hasTile s.turn = false) : s.tileTurn = some d := by
  unfold State.tileTurn
  rcases hd with rfl | ⟨rfl, hnone⟩
  · rw [if_pos h]
  · rw [if_neg (ne_true_of_eq_false hnone), if_pos h]

/-- With no tile left nothing is taken. -/
theorem State.tileTurn_none (s : State) (h : ∀ d, s.hasTile d = false) : s.tileTurn = none := by
  simp [State.tileTurn, h]

/-- An output has no tile left when its composition's region is used up. -/
theorem State.hasTile_false (s : State) (d : OutputId)
    (h : ∀ k, (s.comp.get d).composition = some k → k.region.length ≤ k.next) : s.hasTile d = false := by
  rw [← Bool.not_eq_true, s.hasTile_iff d]
  rintro ⟨k, hk, hlt⟩
  exact absurd hlt (Nat.not_lt.mpr (h k hk))

/-- The free engine takes the tile of the output whose turn it is. -/
theorem exec_tileTake_taken (s : State) (d : OutputId) (hj : s.job = none) (hd : s.tileTurn = some d) :
    exec .tileTake s = .next (s.takeTile d) := by
  change Host.Outcome.next s.tileTake = _
  unfold State.tileTake
  rw [hj, hd]

/-- A busy engine, or no tile left, leaves everything as it is (log entry 3). -/
theorem exec_tileTake_idle (s : State) (h : s.job ≠ none ∨ s.tileTurn = none) : exec .tileTake s = .next s := by
  change Host.Outcome.next s.tileTake = _
  unfold State.tileTake
  split
  · next hj hd => exact absurd h (by simp [hj, hd])
  · rfl

/-! ### The tile taken (R64, R65) -/

/-- The row writes are all that forming them changes of a job. -/
theorem State.formWrites_rest (s : State) (j : Job) : ∃ writes, s.formWrites j = { j with writes := writes } := by
  unfold State.formWrites
  split
  · split
    · exact ⟨_, rfl⟩
    · exact ⟨j.writes, rfl⟩
  · exact ⟨j.writes, rfl⟩

/-- What a tile taken changes: its composition, the turn and the engine (R64, R65, R70). -/
theorem State.takeTile_eq (s : State) (d : OutputId) (k : Composition) (x : Tile)
    (hk : (s.comp.get d).composition = some k) (hx : k.region[k.next]? = some x) :
    ∃ t j, s.takeTile d = t ∧
      t = { s with
        comp := s.comp.set d { s.comp.get d with composition := some { k with next := k.next + 1, inProgress := some x } }
        turn := otherOutput d
        job := some j } ∧
      j = t.formWrites ⟨d, x, true, tileReads (s.outputs.get d).active x k, 0, [], [], 0⟩ := by
  unfold State.takeTile
  rw [hk]
  dsimp only
  rw [hx]
  exact ⟨_, _, rfl, rfl, rfl⟩

/-! ### The reads of a tile (R65, log entry 14) -/

/-- The reads of a tile are those of layers 0 to 7. -/
theorem tileReads_eq (t : Timing) (x : Tile) (k : Composition) (reads : Nat → List TileRead)
    (h : ∀ (i : Nat) (l : Layer), k.layers[i]? = some l →
      (l.enabled = false ∨ k.sources[i]? = some none → reads i = []) ∧
      (∀ g, l.enabled = true → k.sources[i]? = some (some g) → reads i = layerReads t x i l g)) :
    tileReads t x k = (List.range 8).flatMap reads := by
  unfold tileReads
  refine (flatMap_zipIdx_eq _ _ reads fun i p hp => ?_).trans (by rw [k.layers_zip_length])
  obtain ⟨l, source⟩ := p
  obtain ⟨hl, hs⟩ := (k.layers_zip_at i _).mp hp
  obtain ⟨hnone, hsome⟩ := h i l hl
  cases source with
  | none => exact (hnone (Or.inr hs)).symm
  | some g =>
    cases he : l.enabled with
    | false => simp [hnone (Or.inl he)]
    | true => simp [hsome g he hs]

/-! ### The reads of a layer (R65, R68) -/

/-- The source columns a layer needs in a tile, in rising order, are determined by what they are. -/
theorem neededCols_eq (t : Timing) (x : Tile) (l : Layer) (g : Geometry) (cols : List Nat) (hr : cols.Pairwise (· < ·))
    (h : ∀ c, c ∈ cols ↔ c < g.width ∧ ∃ p : Nat, (16 * x.col ≤ p ∧ p < 16 * x.col + 16 ∧ p < t.width) ∧
      (l.dx ≤ p ∧ p < l.dx + (l.sw * l.mag : Nat)) ∧ c = l.sx + ((p : Int) - l.dx).toNat / l.mag) :
    neededCols t x l g = cols :=
  rising_ext (distinct_rising _ (sources_rise (16 * x.col) t.width g.width l.dx l.sx l.sw l.mag)) hr fun c =>
    (mem_distinct c _).trans ((mem_sources (16 * x.col) t.width g.width l.dx l.sx l.sw l.mag c).trans (h c).symm)

/-- The source rows a layer needs in a tile, likewise. -/
theorem neededRows_eq (t : Timing) (x : Tile) (l : Layer) (g : Geometry) (rows : List Nat) (hr : rows.Pairwise (· < ·))
    (h : ∀ r, r ∈ rows ↔ r < g.height ∧ ∃ p : Nat, (16 * x.row ≤ p ∧ p < 16 * x.row + 16 ∧ p < t.height) ∧
      (l.dy ≤ p ∧ p < l.dy + (l.sh * l.mag : Nat)) ∧ r = l.sy + ((p : Int) - l.dy).toNat / l.mag) :
    neededRows t x l g = rows :=
  rising_ext (distinct_rising _ (sources_rise (16 * x.row) t.height g.height l.dy l.sy l.sh l.mag)) hr fun r =>
    (mem_distinct r _).trans ((mem_sources (16 * x.row) t.height g.height l.dy l.sy l.sh l.mag r).trans (h r).symm)

/-- A layer that needs no column of a tile makes no read. -/
theorem layerReads_none (t : Timing) (x : Tile) (i : Nat) (l : Layer) (g : Geometry) (h : neededCols t x l g = []) :
    layerReads t x i l g = [] := by
  unfold layerReads
  rw [h]

/-- A layer makes one read for each row it needs, from the first to the last column it needs. -/
theorem layerReads_span (t : Timing) (x : Tile) (i : Nat) (l : Layer) (g : Geometry) (c z : Nat)
    (hc : (neededCols t x l g).head? = some c) (hz : (neededCols t x l g).getLast? = some z) :
    layerReads t x i l g =
      (neededRows t x l g).map fun r => ⟨i, beatsSpanning (g.pixelAddr c r) (g.pixelAddr z r)⟩ := by
  unfold layerReads
  cases hcols : neededCols t x l g with
  | nil => exact absurd (hcols ▸ hc) (by simp)
  | cons c' cs =>
    rw [hcols] at hc hz
    obtain rfl : c' = c := by simpa using hc
    obtain rfl : cs.getLastD c' = z := by simpa [List.getLast?_cons] using hz
    rfl

/-- Two source numbers that screen numbers of one tile show lie at most 15 apart (R68). -/
theorem sources_near (base src mag p q : Nat) (dest : Int) (hp : base ≤ p) (hq : q < base + 16) :
    src + ((q : Int) - dest).toNat / mag ≤ src + ((p : Int) - dest).toNat / mag + 15 := by
  have hle : ((q : Int) - dest).toNat ≤ ((p : Int) - dest).toNat + 15 := by omega
  have hdiv : ((q : Int) - dest).toNat / mag ≤ ((p : Int) - dest).toNat / mag + 15 := by
    rcases Nat.eq_zero_or_pos mag with rfl | hmag
    · simp
    · calc ((q : Int) - dest).toNat / mag
          ≤ (((p : Int) - dest).toNat + 15 * mag) / mag :=
            Nat.div_le_div_right (Nat.le_trans hle (Nat.add_le_add_left (Nat.le_mul_of_pos_right 15 hmag) _))
        _ = ((p : Int) - dest).toNat / mag + 15 := Nat.add_mul_div_right _ _ hmag
  omega

/-- The beats from one source pixel of a row to one at most 15 columns on are at most 9 (R65). -/
theorem beatsSpanning_length_le (g : Geometry) (c z r : Nat) (h : z ≤ c + 15) :
    (beatsSpanning (g.pixelAddr c r) (g.pixelAddr z r)).length ≤ 9 := by
  simp only [beatsSpanning, beatRun, List.length_map, List.length_range, Geometry.pixelAddr]
  generalize g.base + g.pitch * r = a
  omega

/-- A read of a layer is of at most 9 beats (R65). -/
theorem layerReads_short (t : Timing) (x : Tile) (i : Nat) (l : Layer) (g : Geometry) (q : TileRead)
    (hq : q ∈ layerReads t x i l g) : q.addrs.length ≤ 9 := by
  cases hc : (neededCols t x l g).head? with
  | none => rw [layerReads_none t x i l g (List.head?_eq_none_iff.mp hc)] at hq; exact absurd hq List.not_mem_nil
  | some c =>
    obtain ⟨z, hz⟩ : ∃ z, (neededCols t x l g).getLast? = some z :=
      ⟨_, List.getLast?_eq_some_getLast (List.ne_nil_of_mem (List.mem_of_head? hc))⟩
    have hmem : ∀ n, n ∈ neededCols t x l g → ∃ p : Nat, (16 * x.col ≤ p ∧ p < 16 * x.col + 16) ∧
        n = l.sx + ((p : Int) - l.dx).toNat / l.mag := fun n hn => by
      obtain ⟨-, p, ⟨h1, h2, -⟩, -, h3⟩ :=
        (mem_sources (16 * x.col) t.width g.width l.dx l.sx l.sw l.mag n).mp ((mem_distinct n _).mp hn)
      exact ⟨p, ⟨h1, h2⟩, h3⟩
    obtain ⟨p, ⟨hp, -⟩, rfl⟩ := hmem c (List.mem_of_head? hc)
    obtain ⟨p', ⟨-, hp'⟩, rfl⟩ := hmem z (List.mem_of_getLast? hz)
    rw [layerReads_span t x i l g _ _ hc hz] at hq
    obtain ⟨r, -, rfl⟩ := List.mem_map.mp hq
    exact beatsSpanning_length_le g _ _ r (sources_near (16 * x.col) l.sx l.mag p p' l.dx hp hp')

/-- Settles O19: the turn gives the output, `State.takeTile_eq` what a tile taken changes, and the reads are those of the
rows and columns that determine them. -/
theorem tileTakeCompletes : Obligations.TileTakeCompletes := by
  unfold Obligations.TileTakeCompletes
  refine ⟨fun s d k x hj hd hk hx => ?taken, fun s h => ?idle, tileReads_eq,
    fun t x i l g cols rows hcols hrows hcmem hrmem => ?layer⟩
  case taken =>
    have hhas : s.hasTile d = true := (s.hasTile_iff d).mpr ⟨k, hk, (List.getElem?_eq_some_iff.mp hx).1⟩
    have hturn := s.tileTurn_eq d hhas (hd.imp_right fun ⟨ho, hnone⟩ => ⟨ho, s.hasTile_false _ hnone⟩)
    obtain ⟨t, j, ht, hteq, hjeq⟩ := s.takeTile_eq d k x hk hx
    obtain ⟨writes, hw⟩ := t.formWrites_rest ⟨d, x, true, tileReads (s.outputs.get d).active x k, 0, [], [], 0⟩
    have hfields : j.output = d ∧ j.tile = x ∧ j.live = true ∧ j.readsOut = 0 ∧ j.writesOut = 0 ∧
        j.reads = tileReads (s.outputs.get d).active x k := by
      rw [hjeq, hw]
      exact ⟨rfl, rfl, rfl, rfl, rfl, rfl⟩
    obtain ⟨houtput, htile, hlive, hreadsOut, hwritesOut, hreads⟩ := hfields
    refine ⟨t, j, (exec_tileTake_taken s d hj hturn).trans (congrArg _ ht), ?_⟩
    subst hteq
    exact ⟨rfl, rfl, rfl, hjeq, houtput, htile, hlive, hreadsOut, hwritesOut, hreads,
      rfl, rfl, rfl, rfl, rfl, rfl, rfl, rfl, rfl⟩
  case idle =>
    exact exec_tileTake_idle s (h.imp_right fun h => s.tileTurn_none fun d => s.hasTile_false d (h d))
  case layer =>
    have hc := neededCols_eq t x l g cols hcols hcmem
    have hr := neededRows_eq t x l g rows hrows hrmem
    refine ⟨fun h => layerReads_none t x i l g (hc.trans h), fun c z hhead hlast => ?_, layerReads_short t x i l g⟩
    rw [layerReads_span t x i l g c z (hc ▸ hhead) (hc ▸ hlast), hr]
    rfl

end Sys2Proof.Machine
end

section
/-! PROOF. COMP_READ_COMPLETION (O20): what the completion does, the row writes of a tile, and the composed pixels. -/

namespace Sys2Proof.Machine

/-! ### The completion (R65, R73) -/

/-- COMP_READ_COMPLETION with no drain: the request is gone, and the tile in hand takes its beats. -/
theorem exec_compReadCompletion (s : State) (layer : Nat) (addrs : List Nat) (fs : List Flight)
    (hf : s.inFlight = .compRead layer addrs :: fs) (hd : s.drain = none) :
    exec .compReadCompletion s = .next (State.compRead { s with inFlight := fs }
      ((addrs.zip (addrs.map s.mem.readBeat)).map fun p => ⟨layer, p.1, p.2⟩)) := by
  have hrun : exec .compReadCompletion s =
      .next (s.removeOldest.compRead (tileData layer addrs (s.readMemory addrs))) := by
    change execCompReadCompletion s = _
    unfold execCompReadCompletion
    rw [hf, List.head?_cons]
  rw [hrun, s.removeOldest_eq _ fs hf hd, tileData, State.readMemory]

/-- The beats of a live tile join its data (R65). -/
theorem State.compRead_live (s : State) (j : Job) (found : List TileData) (hj : s.job = some j) (hl : j.live = true) :
    s.compRead found = s.jobRead j found := by
  unfold State.compRead
  rw [hj]
  exact if_pos hl

/-- An abandoned job with one read fewer frees the engine when that read was its last request (R73). -/
theorem State.dropJob_read (s : State) (j : Job) :
    s.dropJob { j with readsOut := j.readsOut - 1 } = { s with
      job := if j.readsOut ≤ 1 ∧ j.writesOut = 0 then none else some { j with readsOut := j.readsOut - 1 } } := by
  have hidle : ({ j with readsOut := j.readsOut - 1 } : Job).idle = true ↔ j.readsOut ≤ 1 ∧ j.writesOut = 0 := by
    simp [Job.idle, Nat.sub_eq_zero_iff_le]
  simp only [State.dropJob, hidle]

/-- The beats of an abandoned tile are discarded (R73). -/
theorem State.compRead_abandoned (s : State) (j : Job) (found : List TileData) (hj : s.job = some j)
    (hl : j.live = false) : s.compRead found = { s with
      job := if j.readsOut ≤ 1 ∧ j.writesOut = 0 then none else some { j with readsOut := j.readsOut - 1 } } := by
  unfold State.compRead
  rw [hj]
  exact (if_neg (ne_true_of_eq_false hl)).trans (s.dropJob_read j)

/-! ### The row writes (R55, R65, R66) -/

/-- A job that is abandoned, or has a read to issue or outstanding, forms no row writes. -/
theorem State.formWrites_waits (s : State) (j : Job) (h : ¬ (j.live = true ∧ j.reads = [] ∧ j.readsOut = 0)) :
    s.formWrites j = j := by
  unfold State.formWrites
  cases (s.comp.get j.output).composition with
  | none => rfl
  | some k => exact if_neg h

/-- A live job with no read left forms the row writes of its tile in the back buffer. -/
theorem State.formWrites_formed (s : State) (j : Job) (k : Composition)
    (hk : (s.comp.get j.output).composition = some k) (h : j.live = true ∧ j.reads = [] ∧ j.readsOut = 0) :
    s.formWrites j = { j with
      writes := tileWrites (s.outputs.get j.output).active
        ((s.outputs.get j.output).active.bufferBase (s.comp.get j.output).back) j.tile k j.data } := by
  unfold State.formWrites
  rw [hk]
  exact if_pos h

/-- The back buffer is the one that the front index does not name (R55). -/
theorem Timing.bufferBase_back (t : Timing) (c : CompOutput) :
    t.bufferBase c.back = if c.front = 0 then t.buffer1 else t.buffer0 := by
  have hback : c.back = 0 ↔ c.front ≠ 0 := by
    unfold CompOutput.back
    generalize c.front = f
    revert f
    decide
  unfold Timing.bufferBase
  by_cases hfront : c.front = 0
  · rw [if_pos hfront, if_neg fun hb => hback.mp hb hfront]
  · rw [if_neg hfront, if_pos (hback.mpr hfront)]

/-- A tile has a row write for each of its rows inside the active area, top row first. -/
theorem tileWrites_eq (t : Timing) (base : Nat) (x : Tile) (k : Composition) (data : List TileData) :
    tileWrites t base x k data = (List.range (min 16 (t.height - 16 * x.row))).map fun r =>
      rowBeats (base + (16 * x.row + r) * t.pitch + 64 * x.col)
        ((List.range (min 16 (t.width - 16 * x.col))).map fun c =>
          composePixel t k data (16 * x.col + c) (16 * x.row + r)) := by
  have hrows : t.tileRows x = (List.range (min 16 (t.height - 16 * x.row))).map (16 * x.row + ·) := onScreen_eq _ _
  have hcols : t.tileCols x = (List.range (min 16 (t.width - 16 * x.col))).map (16 * x.col + ·) := onScreen_eq _ _
  rw [tileWrites, hrows, hcols, List.map_map]
  simp only [List.map_map]
  rfl

/-- Row r of a tile: its beats, each with two composed pixels, the last one of an odd row with one (R66, R69). -/
theorem tileWrites_row (t : Timing) (base : Nat) (x : Tile) (k : Composition) (data : List TileData) (r cols : Nat)
    (hr : r < min 16 (t.height - 16 * x.row)) (hcols : cols = min 16 (t.width - 16 * x.col)) :
    ∃ beats, (tileWrites t base x k data)[r]? = some beats ∧ beats.length = (cols + 1) / 2 ∧
      ∀ n, n < (cols + 1) / 2 → ∃ b, beats[n]? = some b ∧
        b.addr = base + (16 * x.row + r) * ((t.width * 4 + 63) / 64 * 64) + 64 * x.col + 8 * n ∧
        b.enables = (if 2 * n + 1 < cols then 0xFF else 0x0F) ∧
        ∀ i c, i < 2 → 2 * n + i < cols →
          c = composePixel t k data (16 * x.col + (2 * n + i)) (16 * x.row + r) →
          [0, 1, 2, 3].map (fun m => byteOf b.data (4 * i + m)) = [c.blue, c.green, c.red, 255] := by
  rw [tileWrites_eq, ← hcols]
  have hlength (px : Nat → Rgb) : ((List.range cols).map px).length = cols := by simp
  refine ⟨_, by rw [List.getElem?_map, List.getElem?_range hr]; rfl, by rw [rowBeats_length, hlength], fun n hn => ?_⟩
  obtain ⟨b, hb, haddr, henables, hbytes⟩ := rowBeats_at
    (base + (16 * x.row + r) * t.pitch + 64 * x.col)
    ((List.range cols).map fun c => composePixel t k data (16 * x.col + c) (16 * x.row + r)) n (by rwa [hlength])
  rw [hlength] at henables
  refine ⟨b, hb, haddr, henables, fun i c hi hlt hc => hbytes i c hi ?_⟩
  rw [List.getElem?_map, List.getElem?_range hlt, hc]
  rfl

/-! ### The composed pixels (R68, R69) -/

/-- A fold over a list and its positions takes the values that its steps give one after the other. -/
theorem foldl_zipIdx_eq {α β : Type} (f : β → α × Nat → β) (w : Nat → β) (xs : List α) (n : Nat)
    (h : ∀ i x, xs[i]? = some x → f (w (n + i)) (x, n + i) = w (n + i + 1)) :
    (xs.zipIdx n).foldl f (w n) = w (n + xs.length) := by
  induction xs generalizing n with
  | nil => rfl
  | cons x xs ih =>
    have hhead : f (w n) (x, n) = w (n + 1) := h 0 x rfl
    have htail := ih (n + 1) fun i y hy => by
      have := h (i + 1) y (by rwa [List.getElem?_cons_succ])
      rwa [← Nat.add_assoc, Nat.add_right_comm] at this
    rw [List.zipIdx_cons, List.foldl_cons, hhead, htail, List.length_cons, Nat.add_right_comm, Nat.add_assoc]

/-- A BLEND layer mixes each channel with the effective alpha (R69). -/
theorem Layer.apply_blend (l : Layer) (source under : Rgb) (pa : Nat) (h : l.blend = .blend) (f : Byte → Byte → Byte)
    (hf : ∀ s d, f s d = BitVec.ofNat 8
      (blendChannel s.toNat d.toNat (effectiveAlpha pa l.opacity.toNat))) :
    l.apply source pa under = ⟨f source.red under.red, f source.green under.green, f source.blue under.blue⟩ := by
  unfold Layer.apply
  rw [h, hf, hf, hf]

/-- A COPY layer replaces what lies beneath (R69). -/
theorem Layer.apply_copy (l : Layer) (source under : Rgb) (pa : Nat) (h : l.blend = .copy) :
    l.apply source pa under = source := by
  unfold Layer.apply
  rw [h]

/-- A composed pixel is the last of the colours that the background and the layers from 0 up give (R69). -/
theorem composePixel_eq (t : Timing) (k : Composition) (data : List TileData) (px py : Nat) (w : Nat → Rgb)
    (hback : w 0 = ⟨t.background.red, t.background.green, t.background.blue⟩)
    (hlayer : ∀ i l g, k.layers[i]? = some l → k.sources[i]? = some g →
      (contribution data i l g px py = none → w (i + 1) = w i) ∧
      (∀ c pa, contribution data i l g px py = some (c, pa) → w (i + 1) = l.apply c pa (w i))) :
    composePixel t k data px py = w 8 := by
  have hbackground : t.background.rgb = w 0 := hback.symm
  unfold composePixel
  rw [hbackground]
  refine (foldl_zipIdx_eq _ w _ 0 fun i p hp => ?_).trans (by rw [Nat.zero_add, k.layers_zip_length])
  obtain ⟨hl, hs⟩ := (k.layers_zip_at i p).mp hp
  obtain ⟨hnone, hsome⟩ := hlayer i p.1 p.2 hl hs
  rw [Nat.zero_add]
  dsimp only
  cases hc : contribution data i p.1 p.2 px py with
  | none => exact (hnone hc).symm
  | some c => exact (hsome c.1 c.2 hc).symm

/-- The source pixel of a layer at a screen pixel inside its destination rectangle, by the magnification (R68). -/
theorem Layer.sourcePixel_inside (l : Layer) (px py : Nat)
    (h : l.dx ≤ px ∧ px < l.dx + (l.sw * l.mag : Nat) ∧ l.dy ≤ py ∧ py < l.dy + (l.sh * l.mag : Nat)) :
    l.sourcePixel px py = some (l.sx + ((px : Int) - l.dx).toNat / l.mag, l.sy + ((py : Int) - l.dy).toNat / l.mag) := by
  obtain ⟨hx0, hx1, hy0, hy1⟩ := h
  unfold Layer.sourcePixel sourceAt
  rw [if_pos ⟨hx0, hx1⟩, if_pos ⟨hy0, hy1⟩]

/-- Outside it there is none (R68). -/
theorem Layer.sourcePixel_outside (l : Layer) (px py : Nat)
    (h : ¬ (l.dx ≤ px ∧ px < l.dx + (l.sw * l.mag : Nat) ∧ l.dy ≤ py ∧ py < l.dy + (l.sh * l.mag : Nat))) :
    l.sourcePixel px py = none := by
  unfold Layer.sourcePixel sourceAt
  by_cases hx : l.dx ≤ (px : Int) ∧ (px : Int) < l.dx + ((l.sw * l.mag : Nat) : Int)
  · rw [if_pos hx, if_neg fun hy => h ⟨hx.1, hx.2, hy.1, hy.2⟩]
  · rw [if_neg hx]

/-- A disabled layer, or a screen pixel outside the destination rectangle, contributes nothing (R68). -/
theorem contribution_none (data : List TileData) (i px py : Nat) (l : Layer) (g : Option Geometry)
    (h : l.enabled = false ∨ l.sourcePixel px py = none) : contribution data i l g px py = none := by
  unfold contribution
  rcases h with h | h
  · exact if_neg (ne_true_of_eq_false h)
  · rw [h]; exact ite_self none

/-- An enabled SOLID layer contributes its colour inside its destination rectangle (R68). -/
theorem contribution_solid (data : List TileData) (i px py : Nat) (l : Layer) (g : Option Geometry) (p : Nat × Nat)
    (he : l.enabled = true) (hp : l.sourcePixel px py = some p) (hc : l.content = .solid) :
    contribution data i l g px py = some (⟨l.colour.red, l.colour.green, l.colour.blue⟩, l.colour.alpha.toNat) := by
  unfold contribution
  rw [if_pos he, hp]
  dsimp only
  rw [hc]
  rfl

/-- A layer that shows pixels contributes the one of its source, when it has one and the pixel lies in it (R68). -/
theorem contribution_pixels (data : List TileData) (i px py x y : Nat) (l : Layer) (g : Option Geometry)
    (he : l.enabled = true) (hp : l.sourcePixel px py = some (x, y)) (hc : l.content ≠ .solid) :
    contribution data i l g px py = g.bind fun q =>
      if x < q.width ∧ y < q.height then
        some ((readPixel data i (q.pixelAddr x y)).rgb,
          if q.format = .xrgb32 then 255 else (readPixel data i (q.pixelAddr x y)).alpha.toNat)
      else none := by
  unfold contribution
  rw [if_pos he, hp]
  dsimp only
  cases hcontent : l.content with
  | solid => exact absurd hcontent hc
  | surface => cases g <;> rfl
  | stream => cases g <;> rfl

/-! ### The bytes of a source pixel (R1, R68) -/

/-- The channels of a pixel of a beat are its four bytes: blue, green, red, alpha (R1). -/
theorem beatPixel_bytes (d : BeatData) (high : Bool) :
    [(beatPixel d high).blue, (beatPixel d high).green, (beatPixel d high).red, (beatPixel d high).alpha] =
      [0, 1, 2, 3].map fun m => byteOf d ((if high then 4 else 0) + m) := by
  refine (colourOf_bytes _).trans (List.map_congr_left fun m hm => ?_)
  have hm : m = 0 ∨ m = 1 ∨ m = 2 ∨ m = 3 := by simpa using hm
  apply BitVec.eq_of_toNat_eq
  cases high <;> rcases hm with rfl | rfl | rfl | rfl <;>
    simp [byteOf, Nat.shiftRight_eq_div_pow] <;> omega

/-- The pixel at an address is the one in the first beat that the layer's reads returned for it (R68). -/
theorem readPixel_bytes (data earlier later : List TileData) (i a : Nat) (x : TileData) (ha : a % 4 = 0)
    (hdata : data = earlier ++ x :: later) (hx : x.layer = i) (haddr : x.addr = a / 8 * 8)
    (he : ∀ e ∈ earlier, e.layer ≠ i ∨ e.addr ≠ a / 8 * 8) :
    [(readPixel data i a).blue, (readPixel data i a).green, (readPixel data i a).red, (readPixel data i a).alpha] =
      [0, 1, 2, 3].map fun m => byteOf x.data (a % 8 + m) := by
  have hfound : data.find? (fun x => x.layer == i && x.addr == a / 8 * 8) = some x :=
    List.find?_eq_some_iff_append.mpr ⟨by simp [hx, haddr], earlier, later, hdata, fun e hmem => by
      rcases he e hmem with h | h <;> simp [h]⟩
  have hpixel : readPixel data i a = beatPixel x.data (decide (a % 8 = 4)) := by
    unfold readPixel
    rw [hfound]
  have hoffset : (if decide (a % 8 = 4) = true then 4 else 0) = a % 8 := by
    simp only [decide_eq_true_eq]
    split <;> omega
  rw [hpixel, beatPixel_bytes, hoffset]

/-- Settles O20: the completion for a live and an abandoned tile, the row writes by `tileWrites_row`, and the composed
pixels from the layers' contributions down to the bytes of a beat. -/
theorem compReadCompletes : Obligations.CompReadCompletes := by
  unfold Obligations.CompReadCompletes
  refine ⟨fun s layer addrs fs j hf hd hj hl => ?abandoned, fun s layer addrs fs j hf hd hj hl => ?live,
    fun s j k t base rows cols hk ht hbase hrows hcols => ⟨s.formWrites_waits j, fun hl hreads hout => ?formed⟩,
    fun t k data px py w hback hlayer => composePixel_eq t k data px py w hback fun i l g hl hg => ?composed,
    fun data i px py x y l g inside hin hx hy => ?contributes,
    fun data earlier later i a x c ha hdata hx haddr he hc => ?bytes⟩
  case abandoned =>
    rw [exec_compReadCompletion s layer addrs fs hf hd]
    exact congrArg _ (State.compRead_abandoned _ j _ hj hl)
  case live =>
    rw [exec_compReadCompletion s layer addrs fs hf hd]
    exact congrArg _ (State.compRead_live _ j _ hj hl)
  case formed =>
    refine ⟨_, s.formWrites_formed j k hk ⟨hl, hreads, hout⟩, ?_⟩
    subst ht hbase hrows
    rw [Timing.bufferBase_back]
    exact ⟨by rw [tileWrites_eq, List.length_map, List.length_range],
      fun r hr => tileWrites_row _ _ j.tile k j.data r cols hr hcols⟩
  case composed =>
    obtain ⟨hnone, hsome⟩ := hlayer i l g hl hg
    refine ⟨hnone, fun c pa hc => ?_⟩
    obtain ⟨hcopy, hblend⟩ := hsome c pa hc
    cases hmode : l.blend with
    | copy => rw [hcopy hmode, l.apply_copy c _ pa hmode]
    | blend =>
      rw [hblend _ (fun s d => BitVec.ofNat 8 (blendChannel s.toNat d.toNat (effectiveAlpha pa l.opacity.toNat)))
        hmode rfl fun _ _ => rfl, l.apply_blend c (w i) pa hmode _ fun _ _ => rfl]
  case contributes =>
    refine ⟨fun h => contribution_none data i px py l g
      (h.imp_right fun hout => l.sourcePixel_outside px py fun hc => hout (hin.mpr hc)),
      fun he h => ?_⟩
    have hp : l.sourcePixel px py = some (x, y) := by rw [l.sourcePixel_inside px py (hin.mp h), hx, hy]
    refine ⟨contribution_solid data i px py l g _ he hp, fun hc hg => ?_, fun q hc hg => ⟨fun hout => ?_, fun c hw hh hc' => ?_⟩⟩
    · rw [contribution_pixels data i px py x y l g he hp hc, hg, Option.bind_none]
    · rw [contribution_pixels data i px py x y l g he hp hc, hg, Option.bind_some, if_neg (by omega)]
    · rw [contribution_pixels data i px py x y l g he hp hc, hg, Option.bind_some, if_pos ⟨hw, hh⟩, hc']
      rfl
  case bytes => exact hc ▸ readPixel_bytes data earlier later i a x ha hdata hx haddr he

end Sys2Proof.Machine
end

section
/-! PROOF. Commands on streams: STREAM_START (O39), STREAM_PAUSE and STREAM_RESUME (O40), STREAM_STOP (O41). -/

namespace Sys2Proof.Machine

/-! ### The commands (R161) -/

/-- A command on a stream, with an operand that names one, is the command's effect on that stream (R161). -/
theorem State.onStream_of_some (s : State) (code : Nat) (operand : Byte) (f : StreamId → State) (k : StreamId)
    (h : streamOfOperand operand = some k) : s.onStream code operand f = f k := by
  unfold State.onStream
  rw [h]

/-- STREAM_START for the stream that the operand names. -/
theorem exec_streamStart (s : State) (operand : Byte) (k : StreamId) (h : streamOfOperand operand = some k) :
    exec (.streamStart operand) s = .next (s.startStream k) :=
  congrArg Host.Outcome.next (s.onStream_of_some 0x10 operand s.startStream k h)

/-- STREAM_PAUSE for the stream that the operand names. -/
theorem exec_streamPause (s : State) (operand : Byte) (k : StreamId) (h : streamOfOperand operand = some k) :
    exec (.streamPause operand) s = .next (s.pauseStream k) :=
  congrArg Host.Outcome.next (s.onStream_of_some 0x11 operand s.pauseStream k h)

/-- STREAM_RESUME for the stream that the operand names. -/
theorem exec_streamResume (s : State) (operand : Byte) (k : StreamId) (h : streamOfOperand operand = some k) :
    exec (.streamResume operand) s = .next (s.resumeStream k) :=
  congrArg Host.Outcome.next (s.onStream_of_some 0x12 operand s.resumeStream k h)

/-- STREAM_STOP for the stream that the operand names. -/
theorem exec_streamStop (s : State) (operand : Byte) (k : StreamId) (h : streamOfOperand operand = some k) :
    exec (.streamStop operand) s = .next (s.stopStream k) :=
  congrArg Host.Outcome.next (s.onStream_of_some 0x13 operand s.stopStream k h)

/-! ### A change of state (R78, R103) -/

/-- The byte of the state's code names the state (5.1). -/
theorem streamStateCode_byte_inj (a b : StreamState)
    (h : BitVec.ofNat 8 (streamStateCode a) = BitVec.ofNat 8 (streamStateCode b)) : a = b := by
  revert h
  cases a <;> cases b <;> decide

/-- The status block of a stream begins with its state's code, so streams in different states report different bytes
(10.5). -/
theorem Stream.bytes_ne_of_state_ne (x y : Stream) (h : x.state ≠ y.state) : x.bytes ≠ y.bytes := by
  intro hb
  have hhead : some (BitVec.ofNat 8 (streamStateCode x.state)) = some (BitVec.ofNat 8 (streamStateCode y.state)) :=
    congrArg List.head? hb
  exact h (streamStateCode_byte_inj _ _ (Option.some.inj hhead))

/-- Stream k enters another state: its block becomes due and STREAM_STATE is raised (R78, R103). -/
theorem State.updateStream_enter (s : State) (k : StreamId) (x : Stream) (fc : Count) (st : StreamState)
    (h : st ≠ (s.streams.get k).state) :
    s.updateStream k (x.enter k fc st) =
      ((s.mark (·.markStream k)).setStream k { x with state := st }).raise
        ⟨.streamState, streamNumber k, fc, 0, word (streamStateCode st), word (streamStateCode x.state)⟩ := by
  have hb : (x.enter k fc st).1.bytes ≠ (s.streams.get k).bytes := Stream.bytes_ne_of_state_ne _ _ h
  unfold State.updateStream
  rw [if_neg hb]
  rfl

/-! ### STREAM_START (R90) -/

/-- The steps of R90, with the reason code and step of a refusal. -/
theorem State.startChecks_codes (s : State) (k : StreamId) (x : Stream) (hx : x = s.streams.get k) :
    (s.startChecks k).map (fun c => (c.1, reasonCode c.2.1, c.2.2)) =
      [(decide (x.state = .stopped ∨ x.state = .ended), 3, 1), (decide (2 ≤ x.count ∧ x.count ≤ 6), 4, 2),
        (s.slotsBound x.surfaces && s.slotsEqual x.surfaces, 5, 3), (s.slotsBased x.surfaces, 5, 4)] := by
  subst hx
  simp only [State.startChecks, Bool.decide_or, Bool.decide_and]
  rfl

/-- STREAM_START is refused by the first check that fails (R90). -/
theorem State.startStream_refused (s : State) (k : StreamId) (earlier later : List (Bool × Nat × Nat)) (code step : Nat)
    (hm : (s.startChecks k).map (fun c => (c.1, reasonCode c.2.1, c.2.2)) = earlier ++ (false, code, step) :: later)
    (hp : ∀ c ∈ earlier, c.1 = true) :
    s.startStream k = s.raise ⟨.commandRefused, 0x10, 0, code, word (streamNumber k), word step⟩ := by
  obtain ⟨r, hf, hr⟩ := firstFailure_code _ _ _ _ _ hm hp
  unfold State.startStream
  rw [hf, ← hr]
  rfl

/-- A stream that is neither STOPPED nor ENDED fails the first check (R90). -/
theorem State.startStream_badState (s : State) (k : StreamId) (hs : (s.streams.get k).state ≠ .stopped)
    (he : (s.streams.get k).state ≠ .ended) :
    s.startStream k = s.raise ⟨.commandRefused, 0x10, 0, 3, word (streamNumber k), 1⟩ := by
  have hm := s.startChecks_codes k _ rfl
  rw [decide_eq_false (not_or.mpr ⟨hs, he⟩)] at hm
  exact s.startStream_refused k [] _ 3 1 hm (by simp)

/-- A stream as STREAM_START finds it ready to prime: cleared from STOPPED, as it stands from ENDED (R90). -/
def Stream.cleared (x : Stream) : Stream :=
  if x.state = .stopped then
    { x with
      expected := 0, tick := 0, phase := 0
      slots := x.slots.map fun sl => { sl with lateSeen := false, unarmedSeen := false } }
  else x

/-- Clearing is no change of state. -/
theorem Stream.cleared_state (x : Stream) : x.cleared.state = x.state := by
  unfold Stream.cleared
  split <;> rfl

/-- A start is the entry of the cleared stream into PRIMING (R90). -/
theorem Stream.start_eq (k : StreamId) (fc : Count) (x : Stream) : x.start k fc = x.cleared.enter k fc .priming := rfl

/-- STREAM_START whose four checks hold (R90). -/
theorem State.startStream_taken (s : State) (k : StreamId)
    (hs : (s.streams.get k).state = .stopped ∨ (s.streams.get k).state = .ended)
    (hc : ∀ c ∈ s.startChecks k, c.1 = true) :
    s.startStream k =
      ((s.mark (·.markStream k)).setStream k { (s.streams.get k).cleared with state := .priming }).raise
        ⟨.streamState, streamNumber k, s.frameOf (s.streams.get k).pacing, 0, 1,
          word (streamStateCode (s.streams.get k).state)⟩ := by
  have hne : StreamState.priming ≠ (s.streams.get k).state := by
    rintro h
    rw [← h] at hs
    exact nomatch hs
  unfold State.startStream
  rw [firstFailure_none _ hc]
  dsimp only
  rw [Stream.start_eq, s.updateStream_enter k _ _ _ hne, Stream.cleared_state]
  rfl

/-- Settles O39: the table of checks decides a refusal, and a start that passes it is one change of state. -/
theorem streamStartCompletes : Obligations.StreamStartCompletes := by
  unfold Obligations.StreamStartCompletes
  refine ⟨fun s operand k hk hs he => ?badState, fun s operand k x earlier later code step hk hx hm hp => ?refused,
    fun s operand k hk hs hlo hhi hbound hequal hbased =>
      ⟨{ (s.streams.get k).cleared with state := .priming }, fun he => ?ended, fun ht => ?stopped, ?taken⟩⟩
  case badState => rw [exec_streamStart s operand k hk, s.startStream_badState k hs he]
  case refused =>
    rw [exec_streamStart s operand k hk,
      s.startStream_refused k earlier later code step ((s.startChecks_codes k x hx).trans hm) hp]
  case ended => simp [Stream.cleared, he]
  case stopped => simp [Stream.cleared, ht]
  case taken =>
    have hc : ∀ c ∈ s.startChecks k, c.1 = true := by
      simp [State.startChecks, hs, hlo, hhi, hbound, hequal, hbased]
    rw [exec_streamStart s operand k hk, s.startStream_taken k hs hc]

/-! ### STREAM_PAUSE and STREAM_RESUME (R98, R99) -/

/-- STREAM_PAUSE of a RUNNING stream (R98). -/
theorem State.pauseStream_taken (s : State) (k : StreamId) (h : (s.streams.get k).state = .running) :
    s.pauseStream k = ((s.mark (·.markStream k)).setStream k { s.streams.get k with state := .paused }).raise
      ⟨.streamState, streamNumber k, s.frameOf (s.streams.get k).pacing, 0, 3, 2⟩ := by
  unfold State.pauseStream
  rw [if_pos h, s.updateStream_enter k _ _ .paused (by rw [h]; decide), h]
  rfl

/-- STREAM_RESUME of a PAUSED stream (R99). -/
theorem State.resumeStream_taken (s : State) (k : StreamId) (h : (s.streams.get k).state = .paused) :
    s.resumeStream k = ((s.mark (·.markStream k)).setStream k { s.streams.get k with state := .running }).raise
      ⟨.streamState, streamNumber k, s.frameOf (s.streams.get k).pacing, 0, 2, 3⟩ := by
  unfold State.resumeStream
  rw [if_pos h, s.updateStream_enter k _ _ .running (by rw [h]; decide), h]
  rfl

/-- STREAM_PAUSE of a stream that is not RUNNING (R98). -/
theorem State.pauseStream_refused (s : State) (k : StreamId) (h : (s.streams.get k).state ≠ .running) :
    s.pauseStream k = s.refuseStream 0x11 k := if_neg h

/-- STREAM_RESUME of a stream that is not PAUSED (R99). -/
theorem State.resumeStream_refused (s : State) (k : StreamId) (h : (s.streams.get k).state ≠ .paused) :
    s.resumeStream k = s.refuseStream 0x12 k := if_neg h

/-- Settles O40: each of the two commands looks at the stream's state alone, and is a change of state or a refusal. -/
theorem pauseAndResumeComplete : Obligations.PauseAndResumeComplete := by
  unfold Obligations.PauseAndResumeComplete
  refine ⟨fun s operand k hk => ⟨fun h => ?pauseRefused, fun h => ?resumeRefused⟩,
    fun s operand k hk => ⟨fun h => ?pause, fun h => ?resume⟩⟩
  case pauseRefused => rw [exec_streamPause s operand k hk, s.pauseStream_refused k h]; rfl
  case resumeRefused => rw [exec_streamResume s operand k hk, s.resumeStream_refused k h]; rfl
  case pause => rw [exec_streamPause s operand k hk, s.pauseStream_taken k h]
  case resume => rw [exec_streamResume s operand k hk, s.resumeStream_taken k h]

/-! ### STREAM_STOP (R100) -/

/-- A slot after STREAM_STOP: FREE, or RETIRED where a composition holds it (R100). -/
def Slot.stopped (sl : Slot) : Slot :=
  if sl.state = .free then sl else { sl with state := if sl.held then .retired else .free }

/-- What STREAM_STOP does at one ring position (R100). -/
def Stream.stopAt (k : StreamId) (fc : Count) (out : Stream × List Event) (j : Nat) : Stream × List Event :=
  if (out.1.slots[j]?.map (·.state)) == some .free then out else andThen out (·.leaveSlot k fc j)

/-- STREAM_STOP goes through the ring positions in order (R100). -/
theorem Stream.stop_eq_foldl (k : StreamId) (fc : Count) (x : Stream) :
    x.stop k fc = (List.range x.slots.length).foldl (Stream.stopAt k fc) (x, []) := rfl

/-- At one ring position STREAM_STOP changes that slot alone (R100). -/
theorem Stream.stopAt_stream (k : StreamId) (fc : Count) (out : Stream × List Event) (j : Nat) (sl : Slot)
    (h : out.1.slots[j]? = some sl) :
    (Stream.stopAt k fc out j).1 = { out.1 with slots := out.1.slots.set j sl.stopped } := by
  unfold Stream.stopAt Slot.stopped
  by_cases hf : sl.state = .free
  · have hset : out.1.slots.set j sl = out.1.slots := by
      obtain ⟨hj, rfl⟩ := List.getElem?_eq_some_iff.mp h
      exact List.set_getElem_self hj
    simp [h, hf, hset]
  · cases hh : sl.held
    · simp [h, hf, hh, andThen, Stream.leaveSlot, Stream.freeSlot_eq k fc j out.1 sl h hf]
    · simp [h, hf, hh, andThen, Stream.leaveSlot, Stream.setSlot]

/-- A function applied to the first n entries of a list, and then to entry n. -/
theorem mapIdx_first_set {α : Type} (f : α → α) (xs : List α) (n : Nat) (a : α) (h : xs[n]? = some a) :
    (xs.mapIdx fun i a => if i < n then f a else a).set n (f a) =
      xs.mapIdx fun i a => if i < n + 1 then f a else a := by
  obtain ⟨hn, rfl⟩ := List.getElem?_eq_some_iff.mp h
  apply List.ext_getElem
  · rw [List.length_set, List.length_mapIdx, List.length_mapIdx]
  · intro i _ _
    rw [List.getElem_set, List.getElem_mapIdx, List.getElem_mapIdx]
    by_cases hat : n = i
    · subst hat
      rw [if_pos rfl, if_pos (Nat.lt_succ_self n)]
    · rw [if_neg hat]
      by_cases hi : i < n
      · rw [if_pos hi, if_pos (Nat.lt_succ_of_lt hi)]
      · have hi' : ¬ i < n + 1 := by omega
        rw [if_neg hi, if_neg hi']

/-- After the first n ring positions the slots there are stopped and the others as they were (R100). -/
theorem Stream.stop_firstSlots (k : StreamId) (fc : Count) (x : Stream) (n : Nat) (hn : n ≤ x.slots.length) :
    ((List.range n).foldl (Stream.stopAt k fc) (x, [])).1 =
      { x with slots := x.slots.mapIdx fun i sl => if i < n then sl.stopped else sl } := by
  induction n with
  | zero => simp [List.mapIdx_eq_zipIdx_map]
  | succ n ih =>
    have hlt : n < x.slots.length := hn
    have hat : ((List.range n).foldl (Stream.stopAt k fc) (x, [])).1.slots[n]? = some x.slots[n] := by
      rw [ih (Nat.le_of_lt hlt)]
      simp [hlt]
    rw [List.range_succ, List.foldl_append, List.foldl_cons, List.foldl_nil, Stream.stopAt_stream k fc _ n _ hat,
      ih (Nat.le_of_lt hlt)]
    dsimp only
    rw [mapIdx_first_set Slot.stopped x.slots n _ (List.getElem?_eq_getElem hlt)]

/-- The stream after STREAM_STOP has gone through its slots (R100). -/
theorem Stream.stop_stream (k : StreamId) (fc : Count) (x : Stream) :
    (x.stop k fc).1 = { x with slots := x.slots.map Slot.stopped } := by
  rw [Stream.stop_eq_foldl, Stream.stop_firstSlots k fc x _ (Nat.le_refl _)]
  congr 1
  apply List.ext_getElem
  · simp
  · intro i hi _
    have : i < x.slots.length := by simpa using hi
    simp [this]

/-- A stream has a SHOWN slot when its search finds one (R79). -/
theorem Stream.shownSlot_isSome (x : Stream) : x.shownSlot.isSome = true ↔ ∃ sl ∈ x.slots, sl.state = .shown := by
  unfold Stream.shownSlot
  rw [List.findIdx?_isSome, List.any_eq_true]
  simp only [beq_iff_eq]

/-- What no rule of a stream touches: memory, outputs, links, layer tables, the compositor, requests in flight. -/
structure State.SameBesideStreams (s t : State) : Prop where
  mem : t.mem = s.mem
  outputs : t.outputs = s.outputs
  links : t.links = s.links
  layers : t.layers = s.layers
  comp : t.comp = s.comp
  inFlight : t.inFlight = s.inFlight

theorem State.SameBesideStreams.trans {s t u : State} (h : s.SameBesideStreams t) (h' : t.SameBesideStreams u) :
    s.SameBesideStreams u :=
  ⟨h'.mem.trans h.mem, h'.outputs.trans h.outputs, h'.links.trans h.links, h'.layers.trans h.layers,
    h'.comp.trans h.comp, h'.inFlight.trans h.inFlight⟩

theorem State.updateStream_same (s : State) (k : StreamId) (out : Stream × List Event) :
    s.SameBesideStreams (s.updateStream k out) := by
  obtain ⟨streams, events, h⟩ := s.updateStream_rest k out
  rw [h]
  exact ⟨rfl, rfl, rfl, rfl, rfl, rfl⟩

theorem State.damageStream_same (s : State) (k : StreamId) : s.SameBesideStreams (s.damageStream k) := by
  obtain ⟨damage, h⟩ := s.damageStream_rest k
  rw [h]
  exact ⟨rfl, rfl, rfl, rfl, rfl, rfl⟩

theorem State.damageStream_streams (s : State) (k : StreamId) : (s.damageStream k).streams = s.streams := by
  obtain ⟨damage, h⟩ := s.damageStream_rest k
  rw [h]

/-- A rule of a stream leaves the damage records. -/
theorem State.updateStream_damage (s : State) (k : StreamId) (out : Stream × List Event) :
    (s.updateStream k out).damage = s.damage := by
  obtain ⟨streams, events, h⟩ := s.updateStream_rest k out
  rw [h]

/-- The part after the slots of stream k have left, before the stream changes state: damaged where a slot was SHOWN
(R31, R100). -/
def State.stopSlots (s : State) (k : StreamId) : State :=
  if (s.streams.get k).shownSlot.isSome then
    (s.updateStream k ((s.streams.get k).stop k (s.pacingFrame k))).damageStream k
  else s.updateStream k ((s.streams.get k).stop k (s.pacingFrame k))

/-- STREAM_STOP of a stream that is not STOPPED: its slots leave, then it enters STOPPED (R100). -/
theorem State.stopStream_eq (s : State) (k : StreamId) (h : (s.streams.get k).state ≠ .stopped) :
    s.stopStream k = (s.stopSlots k).updateStream k
      (((s.stopSlots k).streams.get k).enter k ((s.stopSlots k).pacingFrame k) .stopped) := if_neg h

theorem State.stopSlots_same (s : State) (k : StreamId) : s.SameBesideStreams (s.stopSlots k) := by
  unfold State.stopSlots
  split
  · exact (s.updateStream_same k _).trans (State.damageStream_same _ k)
  · exact s.updateStream_same k _

/-- The streams after the slots have left (R100). -/
theorem State.stopSlots_streams (s : State) (k : StreamId) :
    (s.stopSlots k).streams =
      s.streams.set k { s.streams.get k with slots := (s.streams.get k).slots.map Slot.stopped } := by
  have hleft : (s.updateStream k ((s.streams.get k).stop k (s.pacingFrame k))).streams =
      s.streams.set k { s.streams.get k with slots := (s.streams.get k).slots.map Slot.stopped } := by
    rw [State.updateStream_streams, Stream.stop_stream]
  unfold State.stopSlots
  split
  · rw [State.damageStream_streams, hleft]
  · exact hleft

/-- The damage after the slots have left: where one was SHOWN, that of the layers that show the stream (R31, R100). -/
theorem State.stopSlots_damage (s : State) (k : StreamId) (e : OutputId) :
    (s.stopSlots k).damage.get e =
      if (s.streams.get k).shownSlot.isSome = true ∧ (s.outputState e).live = true then
        ⟨(((s.layers.get e).active.toList.filter fun l =>
            l.enabled && (l.content == .stream && l.index == streamNumber k)).map
          fun l => (l.dx, l.dy, l.sw * l.mag, l.sh * l.mag)).foldl
            (fun l q => l.insertPixels (s.outputs.get e).active q.1 q.2.1 q.2.2.1 q.2.2.2) (s.damage.get e).list,
          (s.damage.get e).previous⟩
      else s.damage.get e := by
  unfold State.stopSlots
  split
  next hs =>
    have same := s.updateStream_same k ((s.streams.get k).stop k (s.pacingFrame k))
    rw [State.damageStream_get, State.updateStream_damage, State.outputState, same.outputs, same.layers]
    simp only [hs, true_and]
    rfl
  next hs => rw [if_neg fun h => hs h.1, State.updateStream_damage]

/-- Settles O41: the slots leave one by one, the layers that show the stream are damaged, and the stream enters
STOPPED. -/
theorem streamStopCompletes : Obligations.StreamStopCompletes := by
  unfold Obligations.StreamStopCompletes
  intro s operand k hk
  rw [exec_streamStop s operand k hk]
  refine ⟨fun h => congrArg Host.Outcome.next (if_pos h), fun h => ⟨s.stopStream k, rfl, ?_⟩⟩
  rw [s.stopStream_eq k h]
  have same := (s.stopSlots_same k).trans (State.updateStream_same _ k
    (((s.stopSlots k).streams.get k).enter k ((s.stopSlots k).pacingFrame k) .stopped))
  refine ⟨?stream, ?other, same.mem, same.outputs, same.links, same.layers, same.comp, same.inFlight, fun e => ?damage⟩
  case stream =>
    rw [State.updateStream_streams, PerStream.get_set_same, s.stopSlots_streams k, PerStream.get_set_same]
    rfl
  case other =>
    rw [State.updateStream_streams, PerStream.get_set_other _ _ _ _ (otherStream_ne k), s.stopSlots_streams k,
      PerStream.get_set_other _ _ _ _ (otherStream_ne k)]
  case damage =>
    rw [State.updateStream_damage, s.stopSlots_damage k e]
    simp only [Stream.shownSlot_isSome]

end Sys2Proof.Machine
end

section
/-! PROOF. A stream at an epoch, the showing and dropping of slots, arms, headers and bytes (O53). -/

namespace Sys2Proof.Machine

/-! ### The phase (R92) -/

theorem Stream.freeSlot_phase (k : StreamId) (fc : Count) (j : Nat) (x : Stream) :
    (x.freeSlot k fc j).1.phase = x.phase := by
  unfold Stream.freeSlot
  split
  · rfl
  · split <;> rfl

theorem Stream.leaveSlot_phase (k : StreamId) (fc : Count) (j : Nat) (x : Stream) :
    (x.leaveSlot k fc j).1.phase = x.phase := by
  unfold Stream.leaveSlot
  split
  · rfl
  · split
    · rfl
    · exact x.freeSlot_phase k fc j

theorem Stream.leaveShown_phase (k : StreamId) (fc : Count) (x : Stream) : (x.leaveShown k fc).1.phase = x.phase := by
  unfold Stream.leaveShown
  split
  · rfl
  · exact x.leaveSlot_phase k fc _

theorem Stream.makeShown_phase (j : Nat) (x : Stream) : (x.makeShown j).phase = x.phase := by
  unfold Stream.makeShown
  split <;> rfl

/-- Showing a slot leaves P (R95). -/
theorem Stream.show_phase (k : StreamId) (fc : Count) (j : Nat) (x : Stream) :
    (Stream.show k fc j x).1.phase = x.phase :=
  (Stream.makeShown_phase j _).trans (x.leaveShown_phase k fc)

/-- Dropping a slot leaves P (R94). -/
theorem Stream.dropSlot_phase (k : StreamId) (fc : Count) (j : Nat) (x : Stream) :
    (x.dropSlot k fc j).1.phase = x.phase := Stream.freeSlot_phase k fc j _

/-- Dropping the other candidates leaves P (R94). -/
theorem Stream.dropOthers_phase (k : StreamId) (fc : Count) (chosen : Nat) (js : List Nat) (x : Stream) :
    (x.dropOthers k fc chosen js).1.phase = x.phase := by
  unfold Stream.dropOthers
  suffices ∀ out : Stream × List Event,
      (js.foldl (fun out j => if j = chosen then out else andThen out (·.dropSlot k fc j)) out).1.phase =
        out.1.phase from this (x, [])
  induction js with
  | nil => exact fun _ => rfl
  | cons j js ih =>
    intro out
    rw [List.foldl_cons, ih]
    split
    · rfl
    · exact Stream.dropSlot_phase k fc j out.1

/-- A tick advance that finds no candidate leaves P (R96). -/
theorem Stream.noCandidate_phase (k : StreamId) (fc : Count) (x : Stream) :
    (x.noCandidate k fc).1.phase = x.phase := by
  unfold Stream.noCandidate
  split
  · split <;> rfl
  · rfl

/-- The selection leaves P (R93 to R96). -/
theorem Stream.select_phase (k : StreamId) (fc : Count) (x : Stream) : (x.select k fc).stream.phase = x.phase := by
  unfold Stream.select
  split
  · exact Stream.show_phase k fc _ _
  · split
    · exact (Stream.show_phase k fc _ _).trans (x.dropOthers_phase k fc _ _)
    · exact x.noCandidate_phase k fc

/-! ### Epochs (R92, R96) -/

/-- An epoch at which P stays below D only adds N to P (R92). -/
theorem Stream.epoch_below (k : StreamId) (fc : Count) (x : Stream) (h : x.state = .running)
    (ht : x.phase + x.rateN < x.rateD) : x.epoch k fc = ⟨{ x with phase := x.phase + x.rateN }, [], false⟩ := by
  unfold Stream.epoch Stream.advance
  rw [h]
  dsimp only
  rw [if_neg (Nat.not_le.mpr ht), if_neg (Nat.not_le.mpr ht)]
  rfl

/-- In STOPPED, PAUSED and ENDED the epoch changes nothing (R92). -/
theorem Stream.epoch_still (k : StreamId) (fc : Count) (x : Stream)
    (h : x.state = .stopped ∨ x.state = .paused ∨ x.state = .ended) : x.epoch k fc = ⟨x, [], false⟩ := by
  unfold Stream.epoch
  rcases h with h | h | h
  · rw [h]; rfl
  · rw [h]; rfl
  · rw [h]; rfl

/-- A tick advance that finds no READY slot, after no SHOWN frame with LAST, counts an UNDERRUN and leaves the slots
(R96). -/
theorem Stream.epoch_starved (k : StreamId) (fc : Count) (x : Stream) (h : x.state = .running)
    (ht : x.rateD ≤ x.phase + x.rateN) (hr : x.readySlots = []) (hl : x.shownLast = false) :
    (x.epoch k fc).stream = { x with
      phase := x.phase + x.rateN - x.rateD, tick := x.tick + 1
      counters := { x.counters with underrun := bump x.counters.underrun } } := by
  have hl' : ¬ ({ x with phase := x.phase + x.rateN - x.rateD, tick := x.tick + 1 } : Stream).shownLast = true :=
    Bool.eq_false_iff.mp hl
  have hr' : ({ x with phase := x.phase + x.rateN - x.rateD, tick := x.tick + 1 } : Stream).readySlots = [] := hr
  rw [x.epoch_advance k fc h ht, Stream.select_none k fc _ hr', if_neg hl']
  rfl

/-- An epoch at which P reaches D takes D off again, whatever the selection does (R92). -/
theorem Stream.epoch_phase (k : StreamId) (fc : Count) (x : Stream) (h : x.state = .running)
    (ht : x.rateD ≤ x.phase + x.rateN) : (x.epoch k fc).stream.phase = x.phase + x.rateN - x.rateD := by
  rw [x.epoch_advance k fc h ht, Stream.select_phase]

/-! ### Search and showing (R79, R82, R95) -/

/-- The slot that the search for the SHOWN one finds is SHOWN (R79). -/
theorem Stream.state_of_shownSlot (x : Stream) (i : Nat) (sh : Slot) (hi : x.shownSlot = some i)
    (hsh : x.slots[i]? = some sh) : sh.state = .shown := by
  obtain ⟨hlt, hp, -⟩ := List.findIdx?_eq_some_iff_getElem.mp hi
  rw [List.getElem?_eq_getElem hlt] at hsh
  rw [← Option.some.inj hsh]
  exact beq_iff_eq.mp hp

/-- The SHOWN frame carries LAST when the frame of the SHOWN slot does (R96). -/
theorem Stream.shownLast_of_shown (x : Stream) (j : Nat) (h : x.shownSlot = some j) :
    x.shownLast = (x.frameOf j).last := by
  unfold Stream.shownLast
  rw [h]

/-! ### Arms (R85) -/

/-- With no slot FILLING nothing is discarded (R85). -/
theorem Stream.discardFilling_none (k : StreamId) (fc : Count) (x : Stream) (h : ∀ y ∈ x.slots, y.state ≠ .filling) :
    x.discardFilling k fc = (x, []) := by
  have hn : (x.slots.findIdx? fun sl => sl.state == .filling) = none := by
    rw [List.findIdx?_eq_none_iff]
    intro y hy
    exact beq_false_of_ne (h y hy)
  unfold Stream.discardFilling
  rw [hn]

/-- An arm of the expected FREE slot with no slot FILLING opens it (R85). -/
theorem Stream.arm_opens (k : StreamId) (fc : Count) (j : Nat) (x : Stream) (sl : Slot) (h : x.state ≠ .stopped)
    (hj : j = x.expected) (hsl : x.slots[j]? = some sl) (hfree : sl.state = .free)
    (hn : ∀ y ∈ x.slots, y.state ≠ .filling) :
    x.arm k fc j = ({ x with
      slots := x.slots.set j { sl with
        state := .filling, byteCount := 0, frame := sl.header.frame, lateSeen := false, unarmedSeen := false }
      expected := if j + 1 < x.count then j + 1 else 0 }, []) := by
  unfold Stream.arm
  rw [if_neg h, if_neg (absurd hj), hsl]
  dsimp only
  rw [if_neg (absurd hfree), x.discardFilling_none k fc hn]
  unfold andThen Stream.openSlot
  dsimp only
  rw [hsl]
  rfl

/-- An arm of another slot than the expected one is OUT_OF_ORDER (R85). -/
theorem Stream.arm_outOfOrder (k : StreamId) (fc : Count) (j : Nat) (x : Stream) (h : x.state ≠ .stopped)
    (hj : j ≠ x.expected) :
    x.arm k fc j = ({ x with counters := { x.counters with outOfOrder := bump x.counters.outOfOrder } },
      [⟨.streamCondition, streamNumber k, fc, 6, word j, word (bump x.counters.outOfOrder).toNat⟩]) := by
  unfold Stream.arm
  rw [if_neg h, if_pos hj]
  rfl

/-- An arm of the expected slot that is not FREE is an OVERRUN (R85). -/
theorem Stream.arm_overrun (k : StreamId) (fc : Count) (j : Nat) (x : Stream) (sl : Slot) (h : x.state ≠ .stopped)
    (hj : j = x.expected) (hsl : x.slots[j]? = some sl) (hs : sl.state ≠ .free) :
    x.arm k fc j = ({ x with counters := { x.counters with overrun := bump x.counters.overrun } },
      [⟨.streamCondition, streamNumber k, fc, 4, word j, word (bump x.counters.overrun).toNat⟩]) := by
  unfold Stream.arm
  rw [if_neg h, if_neg (absurd hj), hsl]
  dsimp only
  rw [if_pos hs]
  rfl

/-! ### Bytes (R87) -/

/-- A beat with no byte for a slot leaves the stream (R87). -/
theorem Stream.land_zero (k : StreamId) (fc : Count) (size j : Nat) (x : Stream) : x.land k fc size j 0 = (x, []) := by
  unfold Stream.land
  split <;> rfl

/-! ### The statement -/

/-- Settles O53, rule by rule: each clause is the law of one rule of the stream in one of its cases. -/
theorem streamPhaseAndArms : Obligations.StreamPhaseAndArms := by
  unfold Obligations.StreamPhaseAndArms
  refine ⟨?phase, ?arms, ?search, ?shows, ?priming, ?tick, ?short, ?captures, ?bytes⟩
  case phase =>
    intro k fc x
    refine ⟨x.epoch_below k fc, x.epoch_phase k fc, fun h ht hr hl => ?_, x.epoch_still k fc⟩
    rw [x.epoch_starved k fc h ht hr hl]
    exact ⟨rfl, h, rfl, rfl⟩
  case arms =>
    exact fun k fc j x sl h hsl => ⟨fun hj hfree hn => x.arm_opens k fc j sl h hj hsl hfree hn,
      x.arm_outOfOrder k fc j h, fun hj hs => x.arm_overrun k fc j sl h hj hsl hs⟩
  case search =>
    refine fun x => ⟨rfl, fun order ho => ?_⟩
    rw [ho]
    rfl
  case shows =>
    exact fun k fc j x sl hsl => ⟨x.show_first k fc j sl hsl, fun i sh hi hsh hne =>
      x.show_next k fc i j sl sh hsl hi hsh (x.state_of_shownSlot i sh hi hsh) hne⟩
  case priming =>
    exact fun k fc x h => ⟨x.epoch_priming_none k fc h, fun j js y hr hy => x.epoch_priming k fc j js h hr y hy⟩
  case tick =>
    intro k fc x h ht
    refine ⟨fun j hr hs => ⟨fun hl => ?_, fun hl => ?_⟩, fun r rs hr => ⟨fun y hd hy => ?_, fun hd he => ?_,
      fun j before after y hd hc hb ha hy => ?_⟩⟩
    · exact x.epoch_ended k fc h ht hr ((x.shownLast_of_shown j hs).trans hl)
    · exact x.epoch_underrun k fc j h ht hr hs ((x.shownLast_of_shown j hs).trans hl)
    · exact x.epoch_discontinuity k fc r rs h ht hr hd y hy
    · exact x.epoch_early k fc r rs h ht hr hd he
    · exact x.epoch_select k fc r j rs before after h ht hr hd hc hb ha y hy
  case short =>
    exact fun k fc i j x sl f => ⟨x.arm_stopped k fc j, fun h hj hsl hfree hi hf =>
      x.arm_short k fc i j sl f h hj hsl hfree hi hf⟩
  case captures =>
    exact fun geo b x => ⟨x.captures_rest geo b, fun j i sl v hsl hi hv => x.captures_slot geo b j i sl hsl hi v hv⟩
  case bytes =>
    exact fun k fc size j n x sl hsl => ⟨x.land_zero k fc size j, fun hn => x.land_filling k fc size j n sl hsl hn,
      fun hn => x.land_free k fc size j n sl hsl hn, fun hn => x.land_late k fc size j n sl hsl hn⟩

end Sys2Proof.Machine
end

section
/-! PROOF. Commands on outputs: OUTPUT_FREEZE and OUTPUT_THAW (O36), OUTPUT_START (O37), OUTPUT_STOP (O38). -/

namespace Sys2Proof.Machine

/-! ### The commands, with an operand that names an output -/

/-- OUTPUT_FREEZE, with an operand that names output d. -/
theorem exec_outputFreeze (s : State) (operand : Byte) (d : OutputId) (h : outputOfOperand operand = some d) :
    exec (.outputFreeze operand) s = .next (s.freezeOutput d) :=
  congrArg Host.Outcome.next (s.onOutput_of_some 0x22 operand _ d h)

/-- OUTPUT_THAW, with an operand that names output d. -/
theorem exec_outputThaw (s : State) (operand : Byte) (d : OutputId) (h : outputOfOperand operand = some d) :
    exec (.outputThaw operand) s = .next (s.thawOutput d) :=
  congrArg Host.Outcome.next (s.onOutput_of_some 0x23 operand _ d h)

/-- OUTPUT_START, with an operand that names output d. -/
theorem exec_outputStart (s : State) (operand : Byte) (d : OutputId) (h : outputOfOperand operand = some d) :
    exec (.outputStart operand) s = .next (s.startOutput d) :=
  congrArg Host.Outcome.next (s.onOutput_of_some 0x20 operand _ d h)

/-- OUTPUT_STOP, with an operand that names output d. -/
theorem exec_outputStop (s : State) (operand : Byte) (d : OutputId) (h : outputOfOperand operand = some d) :
    exec (.outputStop operand) s = .next (s.stopOutput d) :=
  congrArg Host.Outcome.next (s.onOutput_of_some 0x21 operand _ d h)

/-! ### OUTPUT_FREEZE and OUTPUT_THAW (R112, R116) -/

/-- An entry into a state: the state, the due mark, and OUTPUT_STATE with the two states' codes (R116, R123). -/
theorem State.enterOutput_eq (s : State) (d : OutputId) (st : OutputState) (reason : Nat) :
    s.enterOutput d st reason = ((s.setOutput d { s.outputs.get d with state := st }).markOutput d).raise
      ⟨.outputState, outputNumber d, (s.outputs.get d).frameCounter, reason, word (outputStateCode st),
        word (outputStateCode (s.outputState d))⟩ := by
  unfold State.enterOutput State.outputEvent State.frameOf
  simp only [State.markOutput_outputs, State.setOutput_outputs, PerOutput.get_set_same]

/-- Settles O36: in the one state in which the command is taken it is an entry into the other one, and in any other state
it is the refusal with BAD_STATE. -/
theorem freezeAndThaw : Obligations.FreezeAndThaw := by
  unfold Obligations.FreezeAndThaw
  refine ⟨fun s operand d hd => ⟨fun h => ?freezes, fun h => ?thaws⟩,
    fun s operand d hd => ⟨fun h => ?freezeRefused, fun h => ?thawRefused⟩⟩
  case freezes =>
    rw [exec_outputFreeze s operand d hd, State.freezeOutput, if_pos h, s.enterOutput_eq, h]
    rfl
  case thaws =>
    rw [exec_outputThaw s operand d hd, State.thawOutput, if_pos h, s.enterOutput_eq, h]
    rfl
  case freezeRefused =>
    rw [exec_outputFreeze s operand d hd, State.freezeOutput, if_neg h]
    rfl
  case thawRefused =>
    rw [exec_outputThaw s operand d hd, State.thawOutput, if_neg h]
    rfl

/-! ### OUTPUT_START (R108, R109) -/

/-- An event leaves the mark of an output's block, whether it is queued, lost or disabled (R165, R169). -/
theorem EventWriter.raise_marked (w : EventWriter) (d : OutputId) (e : Event) :
    EventWriter.raise { w with due := w.due.markOutput d } e =
      { w.raise e with due := (w.raise e).due.markOutput d } := by
  unfold EventWriter.raise EventWriter.enabled EventWriter.lose
  dsimp only
  split
  · split
    · rfl
    · split <;> rfl
  · rfl

/-- No event changes the due marks of the outputs' blocks (R165). -/
theorem EventWriter.raise_dueOutput (w : EventWriter) (e : Event) : (w.raise e).due.output = w.due.output := by
  unfold EventWriter.raise EventWriter.lose
  split
  · split
    · rfl
    · split <;> rfl
  · rfl

/-- In a state other than OFF the first check fails (R108 step 1). -/
theorem State.startOutput_badState (s : State) (d : OutputId) (h : (s.outputs.get d).state ≠ .off) :
    s.startOutput d = s.raise ⟨.commandRefused, 0x20, 0, 3, word (outputNumber d), 1⟩ := by
  have hf : firstFailure (s.outputs.get d).startChecks = some (.badState, 1) := by
    simp [Output.startChecks, firstFailure, h]
  unfold State.startOutput
  dsimp only
  rw [hf]
  rfl

/-- Without a failing check the timing and the link settings are captured, and the output is LOCKING (R109, R128). -/
theorem State.startOutput_taken (s : State) (d : OutputId) (hs : (s.outputs.get d).state = .off)
    (hc : ∀ c ∈ (s.outputs.get d).staged.checks, c.1 = true) :
    s.startOutput d = { s with
      outputs := s.outputs.set d { s.outputs.get d with
        state := .locking, active := (s.outputs.get d).staged, resume := none, begun := false, frameUnderflows := 0
        fifo := [], fetch := none, lock := false }
      links := s.links.set d ((s.links.get d).start s.linkSettings)
      events := EventWriter.raise { s.events with due := s.events.due.markOutput d }
        ⟨.outputState, outputNumber d, (s.outputs.get d).frameCounter, 0, 1, 0⟩ } := by
  have hf : firstFailure (s.outputs.get d).startChecks = none := by
    refine firstFailure_none _ fun c hm => ?_
    rcases List.mem_cons.mp hm with rfl | hm
    · simp [hs]
    · exact hc c hm
  unfold State.startOutput
  dsimp only
  rw [hf]
  dsimp only
  rw [State.enterOutput_eq]
  simp only [State.setOutput, State.setLink, State.outputState, PerOutput.get_set_same, PerOutput.set_set, Output.start, hs]
  rfl

/-- Settles O37: the first check, the first failing check of the staged timing, and the start when every check holds. -/
theorem outputStartCompletes : Obligations.OutputStartCompletes := by
  unfold Obligations.OutputStartCompletes
  refine ⟨fun s operand d hd hs => ?badState, fun s operand d g earlier later step hd hg hs hc hp => ?geometry,
    fun s operand d g hd hg hs h1 h2 h3 h4 h5 h6 h7 h8 h9 h10 h11 h12 h13 h14 h15 h16 => ?starts⟩
  case badState => rw [exec_outputStart s operand d hd, s.startOutput_badState d hs]
  case geometry =>
    subst hg
    rw [exec_outputStart s operand d hd]
    refine congrArg Host.Outcome.next (s.startOutput_refused d hs
      (earlier.map fun c => (c.1, 5, c.2)) (later.map fun c => (c.1, 5, c.2)) 5 step ?_ ?_)
    · have := congrArg (List.map fun c : Bool × Nat => (c.1, 5, c.2)) hc
      rw [List.map_append, List.map_cons] at this
      exact ((s.outputs.get d).staged.checks_eq _ rfl).trans this
    · intro c hm
      obtain ⟨x, hx, rfl⟩ := List.mem_map.mp hm
      exact hp x hx
  case starts =>
    have hcodes : ∀ c ∈ (s.outputs.get d).staged.checks.map (fun c => (c.1, reasonCode c.2.1, c.2.2)), c.1 = true := by
      rw [Timing.checks_eq _ _ rfl, ← hg]
      simp only [List.forall_mem_cons, decide_eq_true_eq]
      exact ⟨⟨h1, h2, h3, h4⟩, ⟨h5, h6⟩, ⟨h7, h8⟩, ⟨h9, h10⟩, ⟨h11, h12⟩, ⟨h13, h14⟩, h15.symm, h16,
        fun _ h => absurd h List.not_mem_nil⟩
    have hchecks : ∀ c ∈ (s.outputs.get d).staged.checks, c.1 = true := fun c hm => hcodes _ (List.mem_map_of_mem hm)
    subst hg
    refine ⟨_, (exec_outputStart s operand d hd).trans (congrArg _ (s.startOutput_taken d hs hchecks)), rfl, rfl, ?_,
      rfl, rfl, rfl, rfl, rfl, rfl, rfl⟩
    dsimp only
    rw [EventWriter.raise_marked, DueMarks.markOutput, EventWriter.raise_dueOutput]

/-! ### OUTPUT_STOP (R115) -/

/-- A link on its way to DOWN is no link in ERROR: its record is taken, and beside it the event writer alone changes
(R127, R140). -/
theorem State.runLink_toDown (s : State) (d : OutputId) (halt : Bool) :
    ∃ events, s.runLink d (fun d fc l => l.toDown d fc halt) =
      { s with links := s.links.set d ((s.links.get d).toDown d (s.frameOf d) halt).1, events := events } :=
  s.applyLink_rest d ((s.links.get d).toDown d (s.frameOf d) halt) fun h => nomatch h

/-- What the streams xs are when the composition of d is abandoned: as they stand in s when there is none, and with each
slot that it holds released otherwise (R72, R73). -/
def State.HoldsReleased (s : State) (d : OutputId) (xs : PerStream Stream) : Prop :=
  ((s.comp.get d).composition = none → xs = s.streams) ∧
  ∀ k q i sl, (s.comp.get d).composition = some k → (s.streams.get q).slots[i]? = some sl →
    (xs.get q).slots[i]? = some (if ⟨q, i⟩ ∈ k.holds then
        { sl with
          holds := sl.holds.set d false
          state := if sl.state = .retired ∧ sl.holds.get (otherOutput d) = false then .free else sl.state }
      else sl)

/-- An abandoned composition: its record gone, its holds released, its job no longer live (R72, R73). -/
theorem State.abandon_eq (s : State) (d : OutputId) :
    ∃ job streams events, s.HoldsReleased d streams ∧ s.abandon d = { s with
      comp := s.comp.set d { s.comp.get d with composition := none, awaiting := false, completedSize := 0 }
      job := job, streams := streams, events := events } := by
  obtain ⟨job, xs, w, h⟩ := s.abandon_rest d
  have hs : (s.abandon d).streams = xs := congrArg State.streams h
  exact ⟨job, xs, w, hs ▸ s.abandon_streams d, h⟩

/-- OUTPUT_STOP from a state other than OFF: everything it changes (R38, R49, R73, R101, R115, R140). -/
theorem State.stopRunning_eq (s : State) (d : OutputId) :
    ∃ inFlight job streams events, s.HoldsReleased d streams ∧ s.stopRunning d = { s with
      outputs := s.outputs.set d { s.outputs.get d with
        state := .off, resume := none, lock := false, blank := false, begun := false, fifo := [], fetch := none }
      links := s.links.set d ((s.links.get d).toDown d (s.frameOf d) true).1
      damage := s.damage.set d ⟨.empty, .empty⟩
      layers := s.layers.set d { s.layers.get d with commitPending := false }
      comp := s.comp.set d { s.comp.get d with composition := none, awaiting := false, completedSize := 0 }
      streams := streams, inFlight := inFlight, job := job, events := events } := by
  obtain ⟨ev, hlink⟩ := s.runLink_toDown d true
  obtain ⟨job, xs, w, hxs, habandon⟩ := State.abandon_eq { s with
    links := s.links.set d ((s.links.get d).toDown d (s.frameOf d) true).1, events := ev
    inFlight := s.inFlight.map (Flight.discardScan d fun _ => true)
    outputs := s.outputs.set d { s.outputs.get d with fifo := [], begun := false, fetch := none, lock := false } } d
  refine ⟨s.inFlight.map (Flight.discardScan d fun _ => true), job, xs, ?_⟩
  unfold State.stopRunning
  simp only [hlink, State.stopFetcher, State.discardScans, State.setOutput, PerOutput.get_set_same, PerOutput.set_set,
    habandon, State.clearDamage, State.setDamage, State.withdrawCommit, State.setLayers, State.enterOutput_eq]
  exact ⟨_, hxs, rfl⟩

/-- Settles O38: from OFF the commit alone is withdrawn, from any other state what OUTPUT_STOP changes is as above. -/
theorem outputStopCompletes : Obligations.OutputStopCompletes := by
  unfold Obligations.OutputStopCompletes
  refine fun s operand d hd => ⟨fun h => ?off, fun h => ?stops⟩
  case off =>
    rw [exec_outputStop s operand d hd, State.stopOutput, if_pos h]
    rfl
  case stops =>
    obtain ⟨fl, job, xs, w, ⟨hnone, hsome⟩, hstop⟩ := s.stopRunning_eq d
    have hexec : exec (.outputStop operand) s = .next (s.stopRunning d) := by
      rw [exec_outputStop s operand d hd, State.stopOutput, if_neg h]
    refine ⟨_, hexec.trans (congrArg _ hstop), rfl, ?_, ?_, ?_, ?_, rfl, rfl, rfl, rfl, rfl, hnone, hsome⟩
    · simp [Link.toDown]
    · simp [Link.toDown, Link.clearLines]
    · simp only [PerOutput.get_set_same, Link.toDown, Link.clearLines, Bool.true_and]
      split <;> rfl
    · simp

end Sys2Proof.Machine
end

section
/-! PROOF. LOCK_COMPLETION and LOCK_LOSS (O42). -/

namespace Sys2Proof.Machine

/-- LOCK_COMPLETION, as the command runs it. -/
theorem exec_lockCompletion (s : State) (d : OutputId) : exec (.lockCompletion d) s = .next (s.lockCompletion d) := rfl

/-- LOCK_LOSS, as the command runs it. -/
theorem exec_lockLoss (s : State) (d : OutputId) : exec (.lockLoss d) s = .next (s.lockLoss d) := rfl

/-- The timing generator runs in TRAINING, RUNNING and FROZEN (R117). -/
theorem OutputState.timed_iff (st : OutputState) : st.timed = true ↔ st = .training ∨ st = .running ∨ st = .frozen := by
  cases st <;> simp [OutputState.timed]

/-! ### Without a change of state (R110, R114, log entry 3) -/

/-- No lock completion comes to an output that is OFF or whose generator runs (R110, log entry 3). -/
theorem State.lockCompletion_idle (s : State) (d : OutputId)
    (h : s.outputState d = .off ∨ (s.outputState d).timed = true) : s.lockCompletion d = s := by
  unfold State.lockCompletion
  rw [OutputState.timed_iff] at h
  rcases h with h | h | h | h <;> rw [h]

/-- No lock loss comes to an output that is OFF or LOCKING (R110, log entry 3). -/
theorem State.lockLoss_idle (s : State) (d : OutputId) (h : s.outputState d = .off ∨ s.outputState d = .locking) :
    s.lockLoss d = s := by
  unfold State.lockLoss
  rcases h with h | h <;> rw [h] <;> rfl

/-- In FAULT a lock completion changes the lock flag (R114). -/
theorem State.lockCompletion_fault (s : State) (d : OutputId) (h : s.outputState d = .fault) :
    s.lockCompletion d = s.changeLock d true .fault := by
  unfold State.lockCompletion
  rw [h]

/-- In FAULT a lock loss changes the lock flag (R114). -/
theorem State.lockLoss_fault (s : State) (d : OutputId) (h : s.outputState d = .fault) :
    s.lockLoss d = s.changeLock d false .fault := by
  unfold State.lockLoss
  rw [h]
  rfl

/-! ### LOCKING to TRAINING (R110, R129) -/

/-- A block that is due stays due when it is marked again (R169). -/
@[simp] theorem DueMarks.markOutput_again (m : DueMarks) (d : OutputId) :
    (m.markOutput d).markOutput d = m.markOutput d := by
  simp [DueMarks.markOutput]

/-- A link that is DOWN is brought up: ANNOUNCE goes out and it is ANNOUNCING, its buffer empty (R129). -/
theorem Link.bringUp_down (d : OutputId) (fc : Count) (l : Link) (h : l.state = .down) :
    l.bringUp d fc = ({ l with
      state := .announcing, announceCount := 1, timer := 0, buffer := [], nextSeq := 0, pointer := none
      replayEnd := none, replayRun := 0, sent := l.sent ++ [announceBytes] },
      [⟨.linkState, outputNumber d, fc, 0, 1, 0⟩]) := by
  simp [Link.bringUp, Link.announce, Link.enter, Link.send, Link.clearLines, h, linkStateEvent, linkStateCode, word]

/-- The outcome of a link rule that enters no ERROR: the record, its events, and the status block due when there are any
(R123, R127). -/
theorem State.applyLink_eq (s : State) (d : OutputId) (out : LinkOut)
    (h : out.1.state = .error → (s.links.get d).state = .error) :
    s.applyLink d out = if out.2 = [] then s.setLink d out.1 else ((s.setLink d out.1).raiseAll out.2).markOutput d := by
  unfold State.applyLink
  dsimp only
  rw [if_neg fun g => g.2 (h g.1)]
  cases out.2 <;> rfl

/-- A change of the lock flag: the flag, the due mark, and LOCK_CHANGE (R116, R123). -/
theorem State.changeLock_eq (s : State) (d : OutputId) (lock : Bool) (after : OutputState) :
    s.changeLock d lock after = { s with
      outputs := s.outputs.set d { s.outputs.get d with lock := lock }
      events := EventWriter.raise { s.events with due := s.events.due.markOutput d }
        ⟨.lockChange, outputNumber d, (s.outputs.get d).frameCounter, 0, word (flag lock),
          word (outputStateCode after)⟩ } := rfl

/-- A lock completion of a LOCKING output with its link DOWN: everything it changes (R110, R116, R129). -/
theorem State.lockLocking_eq (s : State) (d : OutputId) (h : s.outputState d = .locking)
    (hl : (s.links.get d).state = .down) :
    s.lockLocking d = { s with
      outputs := s.outputs.set d { s.outputs.get d with state := .training, lock := true, line := 0, begun := false }
      links := s.links.set d { s.links.get d with
        state := .announcing, announceCount := 1, timer := 0, buffer := [], nextSeq := 0, pointer := none
        replayEnd := none, replayRun := 0, sent := (s.links.get d).sent ++ [announceBytes] }
      events := (((({ s.events with due := s.events.due.markOutput d }).raise
        ⟨.lockChange, outputNumber d, (s.outputs.get d).frameCounter, 0, 1, 2⟩).raise
        ⟨.outputState, outputNumber d, (s.outputs.get d).frameCounter, 0, 2, 1⟩).raise
        ⟨.linkState, outputNumber d, (s.outputs.get d).frameCounter, 0, 1, 0⟩) } := by
  have hlock : (s.outputs.get d).state = .locking := h
  unfold State.lockLocking State.runLink
  simp only [State.changeLock_eq, State.enterOutput_eq, State.setOutput, State.outputState, State.frameOf,
    State.markOutput, State.mark, State.raise, PerOutput.get_set_same, PerOutput.set_set, hlock,
    EventWriter.raise_marked, DueMarks.markOutput_again, Link.bringUp_down d _ _ hl]
  rw [State.applyLink_eq, if_neg (List.cons_ne_nil _ _)]
  · simp only [State.setLink, State.raiseAll, State.markOutput, State.mark, List.foldl, EventWriter.raise_marked,
      DueMarks.markOutput_again]
    rfl
  · exact fun h => nomatch h

/-! ### TRAINING, RUNNING or FROZEN to LOCKING (R113, R140) -/

/-- A lock loss of a timed output: everything it changes beside the events and the reads in flight (R113). -/
theorem State.lockLost_eq (s : State) (d : OutputId) :
    ∃ inFlight events, s.lockLost d = { s with
      outputs := s.outputs.set d { s.outputs.get d with
        state := .locking, lock := false, fifo := [], begun := false, fetch := none
        resume := (s.outputs.get d).resumeAfterLoss }
      links := s.links.set d ((s.links.get d).toDown d (s.frameOf d) false).1
      inFlight := inFlight, events := events } := by
  obtain ⟨ev, hlink⟩ := State.runLink_toDown { s with
    outputs := s.outputs.set d { s.outputs.get d with
      lock := false, resume := (s.outputs.get d).resumeAfterLoss, fifo := [], begun := false, fetch := none }
    inFlight := s.inFlight.map (Flight.discardScan d fun _ => true)
    events := EventWriter.raise { s.events with due := s.events.due.markOutput d }
      ⟨.lockChange, outputNumber d, (s.outputs.get d).frameCounter, 0, word (flag false),
        word (outputStateCode .locking)⟩ } d false
  unfold State.lockLost
  simp only [State.changeLock_eq, State.stopFetcher, State.discardScans, hlink, State.enterOutput_eq, State.setOutput,
    State.frameOf, PerOutput.get_set_same, PerOutput.set_set]
  exact ⟨_, _, rfl⟩

/-- Settles O42: the commands in the states they do not reach, in FAULT, and the two changes of state above. -/
theorem lockChanges : Obligations.LockChanges := by
  unfold Obligations.LockChanges
  refine ⟨fun s d => ⟨fun h => ?gainIdle, fun h => ?lossIdle, fun h => ⟨?gainFault, ?lossFault⟩⟩,
    fun s d h hl => ?gain, fun s d h => ?loss⟩
  case gainIdle => rw [exec_lockCompletion, s.lockCompletion_idle d h]
  case lossIdle => rw [exec_lockLoss, s.lockLoss_idle d h]
  case gainFault =>
    rw [exec_lockCompletion, s.lockCompletion_fault d h]
    rfl
  case lossFault =>
    rw [exec_lockLoss, s.lockLoss_fault d h]
    rfl
  case gain =>
    have hexec : exec (.lockCompletion d) s = .next (s.lockLocking d) := by
      rw [exec_lockCompletion, State.lockCompletion, h]
    exact ⟨_, hexec.trans (congrArg _ (s.lockLocking_eq d h hl)), rfl, rfl, rfl, rfl, rfl, rfl, rfl, rfl⟩
  case loss =>
    obtain ⟨fl, ev, hlost⟩ := s.lockLost_eq d
    have hexec : exec (.lockLoss d) s = .next (s.lockLost d) := by
      rw [exec_lockLoss, State.lockLoss, if_pos h]
    refine ⟨_, hexec.trans (congrArg _ hlost), ?_, ?_⟩
    · have hresume : (s.outputs.get d).resumeAfterLoss = if s.outputState d = .running then some .running
          else if s.outputState d = .frozen then some .frozen else (s.outputs.get d).resume := by
        unfold Output.resumeAfterLoss State.outputState
        cases (s.outputs.get d).state <;> rfl
      rw [← hresume]
    · simp [Link.toDown, Link.clearLines]

end Sys2Proof.Machine
end

section
/-! PROOF. The hand-off of a line (O50): its pixels, when it underflows, and what leaves with it. -/

namespace Sys2Proof.Machine

/-! ### The pixels of the line (R120) -/

/-- The FIFO feeds the line exactly while the frame is begun and blank is clear. -/
theorem Output.fromFifo_iff (o : Output) : o.fromFifo = true ↔ o.begun = true ∧ o.blank = false := by
  simp [Output.fromFifo]

/-- Pixel i of a line that the FIFO does not feed is background. -/
theorem Output.linePixels_background (o : Output) (y i : Nat) (hi : i < o.active.width) (h : o.fromFifo = false) :
    (o.linePixels y)[i]? = some o.active.background.rgb := by
  simp [Output.linePixels, hi, h]

/-- Pixel i of a line that the FIFO feeds is the returned one, or background where none has returned. -/
theorem Output.linePixels_fromFifo (o : Output) (y i : Nat) (hi : i < o.active.width) (h : o.fromFifo = true) :
    (o.linePixels y)[i]? = some (((o.fifoLine y)[i]?.join).getD o.active.background.rgb) := by
  have hjoin : (o.fifoLine y)[i]?.getD none = (o.fifoLine y)[i]?.join := by
    cases (o.fifoLine y)[i]? <;> rfl
  simp [Output.linePixels, hi, h, hjoin]

/-- A line underflows when the FIFO feeds it and one of its pixels has not returned. -/
theorem Output.underflowed_iff (o : Output) (y : Nat) : o.underflowed y = true ↔
    o.fromFifo = true ∧ ∃ i, i < o.active.width ∧ ∀ c, (o.fifoLine y)[i]? ≠ some (some c) := by
  have hmissing : ∀ i, ((o.fifoLine y).getD i none).isSome = false ↔ ∀ c, (o.fifoLine y)[i]? ≠ some (some c) := by
    intro i
    rw [List.getD_eq_getElem?_getD]
    rcases (o.fifoLine y)[i]? with _ | _ | c <;> simp
  simp [Output.underflowed, ← hmissing]

/-- A line that the FIFO does not feed, and one wholly returned, does not underflow. -/
theorem Output.not_underflowed (o : Output) (y : Nat)
    (h : o.fromFifo = false ∨ ∀ i, i < o.active.width → ∃ c, (o.fifoLine y)[i]? = some (some c)) :
    o.underflowed y = false := by
  rw [Bool.eq_false_iff]
  intro hu
  obtain ⟨hf, i, hi, hm⟩ := (o.underflowed_iff y).mp hu
  rcases h with h | h
  · rw [h] at hf
    cases hf
  · obtain ⟨c, hc⟩ := h i hi
    exact hm c hc

/-! ### What leaves with the line (R113, R120) -/

/-- The fetch position after line y has left: past it if it stood there. -/
theorem Output.afterHandOff_fetch (o : Output) (y : Nat) (p : FetchAt) (h : o.fetch = some p) :
    (o.afterHandOff y).fetch =
      if p.line = y then (if y + 1 < o.active.height then some ⟨y + 1, 0⟩ else none) else some p := by
  simp [Output.afterHandOff, h, Timing.fetchAfter]

/-- A fetch that is finished stays so. -/
theorem Output.afterHandOff_finished (o : Output) (y : Nat) (h : o.fetch = none) : (o.afterHandOff y).fetch = none := by
  simp [Output.afterHandOff, h]

/-- A fetcher read in flight loses its data when it is of the output and of the line. -/
theorem Flight.discardScan_scanRead (d e : OutputId) (y line pixel count : Nat) (addrs : List Nat) (live : Bool) :
    Flight.discardScan d (fun l => l == y) (.scanRead e line pixel count addrs live) =
      .scanRead e line pixel count addrs (if e = d ∧ line = y then false else live) := by
  by_cases h : e = d ∧ line = y
  · simp [Flight.discardScan, h]
  · have hb : (e == d && line == y) = false := by simpa using h
    simp [Flight.discardScan, h, hb]

/-- A request of another client than SCAN keeps its data. -/
theorem Flight.discardScan_other (d : OutputId) (p : Nat → Bool) (f : Flight)
    (h : ∀ e, f.client ≠ .scan e) : Flight.discardScan d p f = f := by
  cases f with
  | scanRead e line pixel count addrs live => exact absurd rfl (h e)
  | hostWrite | hostRead | compRead | compWrite | recordWrite | blockWrite => rfl

/-- Settles O50: pixel by pixel, and then what the hand-off does to counts, fetch position and reads in flight. -/
theorem handedLinePixels : Obligations.HandedLinePixels := by
  unfold Obligations.HandedLinePixels
  refine ⟨fun o y i hi => ⟨fun h => ?background, fun hb hbegun => ?fed, fun h => ?counts, fun h => ?keeps⟩,
    fun o y h => o.not_underflowed y (.inr h),
    fun o y => ⟨?rest, o.afterHandOff_finished y, o.afterHandOff_fetch y⟩,
    fun d e y line pixel count addrs live f => ⟨Flight.discardScan_scanRead d e y line pixel count addrs live,
      fun ha hb => Flight.discardScan_other d _ f fun e => ?client⟩⟩
  case background =>
    have hf : o.fromFifo = false := by
      rw [Bool.eq_false_iff, ne_eq, Output.fromFifo_iff]
      rintro ⟨hbegun, hblank⟩
      simp [hbegun, hblank] at h
    exact ⟨o.linePixels_background y i hi hf, o.not_underflowed y (.inl hf)⟩
  case fed =>
    have hf := o.fromFifo_iff.mpr ⟨hbegun, hb⟩
    rw [o.linePixels_fromFifo y i hi hf]
    refine ⟨fun c hc => by rw [hc]; rfl, fun hn => ⟨?_, (o.underflowed_iff y).mpr ⟨hf, i, hi, fun c hc => ?_⟩⟩⟩
    · rcases hn with hn | hn <;> rw [hn] <;> rfl
    · simp [hc] at hn
  case counts => simp [Output.afterHandOff, h]
  case keeps => simp [Output.afterHandOff, h]
  case rest =>
    have hne : (fun l : FifoLine => l.line != y) = fun l => decide (l.line ≠ y) :=
      funext fun l => Bool.eq_iff_iff.mpr (by simp)
    rw [Output.afterHandOff, hne]
  case client => cases e <;> assumption

end Sys2Proof.Machine
end

section
/-! PROOF. SCAN_READ_COMPLETION, and the end of a drain at each of the nine completions (O17). -/

namespace Sys2Proof.Machine

/-! ### SCAN_READ_COMPLETION (R119, R120) -/

/-- SCAN_READ_COMPLETION of a fetcher read: the request leaves the port, and its pixels return as memory has them. -/
theorem exec_scanReadCompletion (s : State) (d : OutputId) (line pixel count : Nat) (addrs : List Nat) (live : Bool)
    (fs : List Flight) (h : s.inFlight = .scanRead d line pixel count addrs live :: fs) :
    exec .scanReadCompletion s =
      .next (s.removeOldest.returnPixels d ⟨line, pixel, count⟩ (addrs.map s.mem.readBeat) live) := by
  change execScanReadCompletion s = _
  unfold execScanReadCompletion
  rw [h]
  rfl

/-! ### The pixels of a run (R119) -/

/-- Putting pixels into a line keeps its length. -/
theorem putPixels_length (p : Nat) (cs : List Rgb) (pixels : List (Option Rgb)) :
    (putPixels p cs pixels).length = pixels.length := by
  simp [putPixels]

/-- A pixel outside the run stays. -/
theorem putPixels_outside (p : Nat) (cs : List Rgb) (pixels : List (Option Rgb)) (i : Nat)
    (h : i < p ∨ p + cs.length ≤ i) : (putPixels p cs pixels)[i]? = pixels[i]? := by
  rcases Nat.lt_or_ge i pixels.length with hi | hi
  · rw [putPixels_at p cs pixels i hi, if_neg (by omega), List.getElem?_eq_getElem hi]
  · have hlen : (putPixels p cs pixels).length ≤ i := by rw [putPixels_length]; exact hi
    rw [List.getElem?_eq_none hi, List.getElem?_eq_none hlen]

/-- Pixel i of the run enters the line at its place. -/
theorem putPixels_inside (p : Nat) (cs : List Rgb) (pixels : List (Option Rgb)) (i : Nat) (c : Rgb)
    (hi : p + i < pixels.length) (hc : cs[i]? = some c) : (putPixels p cs pixels)[p + i]? = some (some c) := by
  obtain ⟨hlen, rfl⟩ := List.getElem?_eq_some_iff.mp hc
  rw [putPixels_at p cs pixels _ hi, if_pos (by omega)]
  simp [hlen]

/-- A returned run changes the pixels of its line alone. -/
theorem Output.returnRun_line (o : Output) (r : Run) (data : List BeatData) (j : Nat) (l : FifoLine)
    (h : o.fifo[j]? = some l) : (o.returnRun r data).fifo[j]? = some ⟨l.line,
      if l.line = r.line then putPixels r.pixel ((beatColours data).take r.count) l.pixels else l.pixels⟩ := by
  simp only [Output.returnRun, List.getElem?_map, h, Option.map_some]
  split <;> rfl

/-- A run with data enough for its pixels puts as many into the line. -/
theorem beatColours_take_length (data : List BeatData) (n : Nat) (h : n ≤ 2 * data.length) :
    ((beatColours data).take n).length = n := by
  rw [List.length_take, beatColours_length, Nat.min_eq_left h]

/-- The FIFO after the return of a run: the pixels of the run in their line, every other pixel as it was. -/
theorem Output.returnRun_pixels (o : Output) (r : Run) (data : List BeatData) (hn : r.count ≤ 2 * data.length)
    (j : Nat) (l : FifoLine) (h : o.fifo[j]? = some l) : ∃ ps, (o.returnRun r data).fifo[j]? = some ⟨l.line, ps⟩ ∧
      ps.length = l.pixels.length ∧ (l.line ≠ r.line → ps = l.pixels) ∧
      (∀ i, i < r.pixel ∨ r.pixel + r.count ≤ i → ps[i]? = l.pixels[i]?) ∧
      (∀ i w, l.line = r.line → i < r.count → r.pixel + i < l.pixels.length → data[i / 2]? = some w →
        ps[r.pixel + i]? = some (some (beatPixel w (decide (i % 2 = 1))).rgb)) := by
  refine ⟨_, o.returnRun_line r data j l h, ?_⟩
  by_cases hl : l.line = r.line
  · rw [if_pos hl]
    refine ⟨putPixels_length _ _ _, fun hne => absurd hl hne, fun i hi => ?_, fun i w _ hi hlen hw => ?_⟩
    · exact putPixels_outside _ _ _ i (by rwa [beatColours_take_length data _ hn])
    · refine putPixels_inside _ _ _ i _ hlen ?_
      rw [List.getElem?_take_of_lt hi]
      exact beatColours_at data i w hw
  · rw [if_neg hl]
    exact ⟨rfl, fun _ => rfl, fun _ _ => rfl, fun _ _ h => absurd h hl⟩

/-! ### A completion with its request gone (R147, R154, log entry 17) -/

/-- Command i writes the beats, takes the oldest request from the port, and then does `rest`, which is the same for every
part with the memory, the tile in hand and the requests in flight of s. -/
def CompletesBy (s : State) (i : Instr) (beats : List WriteBeat) (rest : State → State) : Prop :=
  ∀ v : State, v.mem = s.mem → v.job = s.job → v.inFlight = s.inFlight →
    exec i v = .next (rest (v.writeMemory beats).removeOldest)

/-- HOST_WRITE_COMPLETION of the last beat: the three blocks take notice of it, and a request that waits may be
accepted. -/
theorem hostWriteCompletion_completesBy (s : State) (b : WriteBeat) (h : s.inFlight = [.hostWrite [b]]) :
    CompletesBy s .hostWriteCompletion [b] fun t => (t.notice b).acceptWaiting := by
  intro v _ _ hf
  change execHostWriteCompletion v = _
  unfold execHostWriteCompletion
  rw [hf, h]
  rfl

/-- HOST_READ_COMPLETION: the data enters its read, and the reads that are complete return. -/
theorem hostReadCompletion_completesBy (s : State) (id start : Nat) (addrs : List Nat)
    (h : s.inFlight = [.hostRead id start addrs]) : CompletesBy s .hostReadCompletion [] fun t =>
      ((t.returnData id start (s.readMemory addrs)).returnReads).acceptWaiting := by
  intro v hm _ hf
  change execHostReadCompletion v = _
  unfold execHostReadCompletion State.readMemory
  rw [hf, h, hm]
  rfl

/-- SCAN_READ_COMPLETION: the pixels enter the FIFO or are discarded. -/
theorem scanReadCompletion_completesBy (s : State) (d : OutputId) (line pixel count : Nat) (addrs : List Nat)
    (live : Bool) (h : s.inFlight = [.scanRead d line pixel count addrs live]) :
    CompletesBy s .scanReadCompletion [] fun t =>
      t.returnPixels d ⟨line, pixel, count⟩ (s.readMemory addrs) live := by
  intro v hm _ hf
  rw [exec_scanReadCompletion v d line pixel count addrs live [] (hf.trans h), hm]
  rfl

/-- COMP_READ_COMPLETION: the tile in hand gets the data. -/
theorem compReadCompletion_completesBy (s : State) (layer : Nat) (addrs : List Nat)
    (h : s.inFlight = [.compRead layer addrs]) : CompletesBy s .compReadCompletion [] fun t =>
      t.compRead (tileData layer addrs (s.readMemory addrs)) := by
  intro v hm _ hf
  change execCompReadCompletion v = _
  unfold execCompReadCompletion State.readMemory
  rw [hf, h, hm]
  rfl

/-- COMP_WRITE_COMPLETION: the tile in hand has one row less to write. -/
theorem compWriteCompletion_completesBy (s : State) (beats : List WriteBeat) (h : s.inFlight = [.compWrite beats]) :
    CompletesBy s .compWriteCompletion beats State.compWrite := by
  intro v _ _ hf
  change execCompWriteCompletion v = _
  unfold execCompWriteCompletion
  rw [hf, h]
  rfl

/-- TILE_COMPLETION: the last row of the tile in hand, as COMP_WRITE_COMPLETION has it (log entry 16). -/
theorem tileCompletion_completesBy (s : State) (beats : List WriteBeat) (h : s.inFlight = [.compWrite beats])
    (hl : s.lastRow = true) : CompletesBy s .tileCompletion beats State.compWrite := by
  intro v hm hj hf
  have hv : v.lastRow = true := by
    rw [← hl, State.lastRow, State.lastRow, hj]
  rw [exec_tileCompletion v beats [] (hf.trans h) hv]
  exact compWriteCompletion_completesBy s beats h v hm hj hf

/-- RECORD_WRITE_COMPLETION: the record is finished. -/
theorem recordWriteCompletion_completesBy (s : State) (beats : List WriteBeat)
    (h : s.inFlight = [.recordWrite beats]) : CompletesBy s .recordWriteCompletion beats fun t =>
      { t with events := t.events.finishRecord } := by
  intro v _ _ hf
  change execRecordWriteCompletion v = _
  unfold execRecordWriteCompletion
  rw [hf, h]
  rfl

/-- STATUS_BLOCK_COMPLETION: the block is written. -/
theorem statusBlockCompletion_completesBy (s : State) (blk : Block) (live : Bool) (beats : List WriteBeat)
    (h : s.inFlight = [.blockWrite blk live beats]) :
    CompletesBy s .statusBlockCompletion beats fun t => t.blockWritten blk live := by
  intro v _ _ hf
  change execStatusBlockCompletion v = _
  unfold execStatusBlockCompletion
  rw [hf, h]
  rfl

/-- READBACK_DONE: the readback area is written. -/
theorem readbackDone_completesBy (s : State) (beats : List WriteBeat)
    (h : s.inFlight = [.blockWrite .readback true beats]) :
    CompletesBy s .readbackDone beats fun t => t.blockWritten .readback true := by
  intro v _ _ hf
  change execReadbackDone v = _
  unfold execReadbackDone
  rw [hf, h]
  rfl

/-! ### The end of a drain (R154) -/

/-- With its last request gone a part in a drain is as if the drain had ended with the request still in flight. -/
theorem State.removeOldest_rebalanced (s u : State) (x : Drain) (f : Flight) (hd : s.drain = some x)
    (hf : s.inFlight = [f]) (hu : u = ({ s with activeCredits := x.counts, drain := none }).raise
      ⟨.rebalanced, 0x30, 0, 0, word x.counts.sum, word x.noted⟩) : s.removeOldest = u.removeOldest := by
  have hfu : u.inFlight = [f] := by rw [hu]; exact hf
  have hdu : u.drain = none := by rw [hu]; rfl
  rw [s.removeOldest_drained x f hd hf, u.removeOldest_eq f [] hfu hdu, hu]
  rfl

/-- A completion that ends a drain does what it does with no drain, after REBALANCED (log entry 17). -/
theorem CompletesBy.ends_drain {s u : State} {i : Instr} {beats : List WriteBeat} {rest : State → State} {f : Flight}
    {x : Drain} (h : CompletesBy s i beats rest) (hd : s.drain = some x) (hf : s.inFlight = [f])
    (hu : u = ({ s with activeCredits := x.counts, drain := none }).raise
      ⟨.rebalanced, 0x30, 0, 0, word x.counts.sum, word x.noted⟩) :
    exec i s = exec i u ∧ ∃ t, exec i s = .next t := by
  have hs := h s rfl rfl rfl
  have hr := h u (by rw [hu]; rfl) (by rw [hu]; rfl) (by rw [hu]; rfl)
  refine ⟨?_, _, hs⟩
  rw [hs, hr, (s.writeMemory beats).removeOldest_rebalanced (u.writeMemory beats) x f hd hf (by rw [hu]; rfl)]

/-- A function of the part that gives it no request, no drain and no counts. -/
def KeepsPort (rest : State → State) : Prop :=
  ∀ t : State, t.inFlight = [] →
    (rest t).inFlight = [] ∧ (rest t).drain = t.drain ∧ (rest t).activeCredits = t.activeCredits

/-- What keeps the base keeps the port. -/
theorem KeepsPort.of_base {rest : State → State} (h : ∀ t, (rest t).base = t.base) : KeepsPort rest := by
  intro t ht
  have hclients := clients_of_base (h t)
  rw [ht, List.map_nil, List.map_eq_nil_iff] at hclients
  exact ⟨hclients, congrArg Base.drain (h t), congrArg Base.activeCredits (h t)⟩

/-- After a completion that ends a drain nothing is in flight, no drain is left, and the pending counts are active. -/
theorem CompletesBy.after_drain {s : State} {i : Instr} {beats : List WriteBeat} {rest : State → State} {f : Flight}
    {x : Drain} (h : CompletesBy s i beats rest) (hk : KeepsPort rest) (hd : s.drain = some x) (hf : s.inFlight = [f]) :
    ∃ t, exec i s = .next t ∧ t.inFlight = [] ∧ t.drain = none ∧ t.activeCredits = x.counts := by
  have hs := h s rfl rfl rfl
  rw [(s.writeMemory beats).removeOldest_drained x f hd hf] at hs
  exact ⟨_, hs, hk _ rfl⟩

/-- Settles O17: the two outcomes of the completion, the port at the end of a drain, and each completion by what it does
with its request gone. -/
theorem scanReadCompletes : Obligations.ScanReadCompletes := by
  unfold Obligations.ScanReadCompletes
  refine ⟨fun s d line pixel count addrs live fs hf hd => ?completes,
    fun s x line pixel count addrs d hf hd => ?discarded,
    fun s x f hd => ⟨fun hf => s.removeOldest_drained x f hd hf, fun g fs hf => s.removeOldest_draining x f g fs hd hf⟩,
    fun s x id start layer line pixel count addrs d live blk beats hd => ?ends,
    fun s u x id start layer line pixel count addrs d live blk b beats hd hu => ?same,
    fun o r data hn => ⟨rfl, ?length, o.returnRun_pixels r data hn⟩⟩
  case completes =>
    rw [exec_scanReadCompletion s d line pixel count addrs live fs hf, s.removeOldest_eq _ fs hf hd]
    rfl
  case discarded =>
    rw [exec_scanReadCompletion s d line pixel count addrs false [] hf, s.removeOldest_drained x _ hd hf]
    rfl
  case ends =>
    simp only [List.forall_mem_cons]
    refine ⟨fun hf => ?_, fun hf => ?_, fun hf => ?_, fun hf => ?_, fun hf => ?_, fun hf => ?_,
      fun _ h => absurd h List.not_mem_nil⟩
    · exact (hostReadCompletion_completesBy s id start addrs hf).after_drain
        (fun t ht => by simp [State.returnData, State.returnReads, ht]) hd hf
    · refine (scanReadCompletion_completesBy s d line pixel count addrs live hf).after_drain (.of_base fun t => ?_) hd hf
      unfold State.returnPixels
      split <;> rfl
    · exact (compReadCompletion_completesBy s layer addrs hf).after_drain
        (.of_base fun t => t.compRead_base _) hd hf
    · exact (compWriteCompletion_completesBy s beats hf).after_drain (.of_base State.compWrite_base) hd hf
    · exact (recordWriteCompletion_completesBy s beats hf).after_drain (fun t ht => ⟨ht, rfl, rfl⟩) hd hf
    · refine (statusBlockCompletion_completesBy s blk live beats hf).after_drain (fun t ht => ?_) hd hf
      obtain ⟨w, hw⟩ := t.blockWritten_eq blk live
      simp [hw, ht]
  case same =>
    simp only [List.forall_mem_cons]
    refine ⟨fun hf _ => ?_, fun hf _ => ?_, fun hf _ => ?_, fun hf _ => ?_, fun hf _ => ?_, fun hf hj => ?_,
      fun hf _ => ?_, fun hf _ => ?_, fun hf _ => ?_, fun _ h => absurd h List.not_mem_nil⟩
    · exact (hostWriteCompletion_completesBy s b hf).ends_drain hd hf hu
    · exact (hostReadCompletion_completesBy s id start addrs hf).ends_drain hd hf hu
    · exact (scanReadCompletion_completesBy s d line pixel count addrs live hf).ends_drain hd hf hu
    · exact (compReadCompletion_completesBy s layer addrs hf).ends_drain hd hf hu
    · exact (compWriteCompletion_completesBy s beats hf).ends_drain hd hf hu
    · obtain ⟨j, hjob, hlive, hreads, hwrites, hin, hout⟩ := hj trivial
      have hl : s.lastRow = true := by simp [State.lastRow, hjob, hlive, hreads, hwrites, hin, hout]
      exact (tileCompletion_completesBy s beats hf hl).ends_drain hd hf hu
    · exact (recordWriteCompletion_completesBy s beats hf).ends_drain hd hf hu
    · exact (statusBlockCompletion_completesBy s blk live beats hf).ends_drain hd hf hu
    · exact (readbackDone_completesBy s beats hf).ends_drain hd hf hu
  case length => simp [Output.returnRun]

end Sys2Proof.Machine
end

section
/-! PROOF. LINE_START (O49): what the output does at each line that is no epoch, the link's own steps without a timeout,
and the bytes of a LINE. -/

namespace Sys2Proof.Machine

/-! ### The bytes of a LINE (R125, R172, R174) -/

/-- The CRC-16 of a LINE covers all but the kind byte (R125). -/
theorem lineBytes_eq (seq : Byte) (y : Nat) (payload bytes : List Byte) (crc : BitVec 16)
    (hb : bytes = seq :: BitVec.ofNat 8 (y / 256) :: BitVec.ofNat 8 y :: payload) (hc : crc = crc16 bytes) :
    lineBytes seq y payload = 0x03 :: bytes ++ [BitVec.ofNat 8 (crc.toNat / 256), BitVec.ofNat 8 crc.toNat] := by
  subst hb hc
  rfl

/-- Each pixel gives three bytes to the payload: red, green and blue (7.1). -/
theorem payloadOf_cons (p : Rgb) (ps : List Rgb) : payloadOf (p :: ps) = p.red :: p.green :: p.blue :: payloadOf ps := rfl

/-- A payload has three bytes for each pixel. -/
theorem payloadOf_length (pixels : List Rgb) : (payloadOf pixels).length = 3 * pixels.length := by
  induction pixels with
  | nil => rfl
  | cons p ps ih => simp only [payloadOf_cons, List.length_cons, ih]; omega

/-- The bytes of pixel i stand at 3i, 3i + 1 and 3i + 2. -/
theorem payloadOf_at (pixels : List Rgb) (i : Nat) (c : Rgb) (h : pixels[i]? = some c) :
    [0, 1, 2].map (fun j => (payloadOf pixels)[3 * i + j]?) = [some c.red, some c.green, some c.blue] := by
  induction pixels generalizing i with
  | nil => simp at h
  | cons p ps ih =>
    cases i with
    | zero =>
      obtain rfl : p = c := by simpa using h
      rfl
    | succ i =>
      rw [← ih i (by simpa using h), payloadOf_cons]
      refine List.map_congr_left fun j _ => ?_
      rw [show 3 * (i + 1) + j = 3 * i + j + 1 + 1 + 1 by omega]
      rfl

/-- The CRC-16 takes one more byte bit by bit (R125). -/
theorem crc16_append (bytes : List Byte) (b : Byte) : crc16 (bytes ++ [b]) = [7, 6, 5, 4, 3, 2, 1, 0].foldl
    (fun (r : BitVec 16) i => if r.msb != b.getLsbD i then (r <<< 1) ^^^ 0x1021 else r <<< 1) (crc16 bytes) := by
  rw [crc16, List.foldl_append]
  rfl

/-! ### The link's own steps without a timeout (R129, R131, R133, R136) -/

/-- In NORMAL every wait grows by 1, and then the handed line is taken. -/
theorem Link.lineStart_normal (d : OutputId) (fc : Count) (h : Option HandedLine) (l : Link) (hs : l.state = .normal)
    (hw : ∀ p, l.buffer.head? = some p → p.wait + 1 < l.settings.confirmTimeout) :
    l.lineStart d fc h = (Link.takeHanded h { l with buffer := l.buffer.map Packet.age }, []) := by
  refine l.lineStart_carries d fc h (by rw [hs]; rfl) hw ({ l with buffer := l.buffer.map Packet.age }, []) ?_
  unfold Link.stepReplay
  rw [if_neg (by simp [hs])]

/-- In REPLAY every wait grows by 1 and the packet at the pointer is sent again; the pointer moves on, or after the replay
end the link is NORMAL; and then the handed line is taken. -/
theorem Link.lineStart_resends (d : OutputId) (fc : Count) (h : Option HandedLine) (l x : Link) (p : Packet)
    (older newer : List Packet) (hs : l.state = .replay)
    (hw : ∀ p, l.buffer.head? = some p → p.wait + 1 < l.settings.confirmTimeout)
    (hb : l.buffer = older ++ p :: newer) (hp : l.pointer = some p.seq) (hne : ∀ q ∈ older ++ newer, q.seq ≠ p.seq)
    (hx : x = { l with
      buffer := older.map Packet.age ++ { p with wait := 0 } :: newer.map Packet.age
      sent := l.sent ++ [lineBytes p.seq p.line p.payload] }) :
    l.lineStart d fc h =
      if l.replayEnd = some p.seq then
        (Link.takeHanded h { x with state := .normal, pointer := none, replayEnd := none },
          [⟨.linkState, outputNumber d, fc, 0, 3, 4⟩])
      else (Link.takeHanded h { x with pointer := some (p.seq + 1) }, []) := by
  have hfinish : x.finishReplay d fc = ({ x with state := .normal, pointer := none, replayEnd := none },
      [⟨.linkState, outputNumber d, fc, 0, 3, 4⟩]) := by
    have hxs : x.state = .replay := by rw [hx]; exact hs
    simp [Link.finishReplay, Link.enter, hxs, linkStateEvent, linkStateCode, word]
  have hstep := Link.stepReplay_at d fc { l with buffer := l.buffer.map Packet.age } p.age (older.map Packet.age)
    (newer.map Packet.age) hs (by simp [hb]) hp
    (by
      rw [← List.map_append]
      intro z hz
      obtain ⟨q, hq, rfl⟩ := List.mem_map.mp hz
      exact hne q hq) x hx
  rw [l.lineStart_carries d fc h (by rw [hs]; rfl) hw _ rfl, hstep, hfinish]
  split
  · next he => rw [if_pos (by exact he)]
  · next he =>
      rw [if_neg (by exact he)]
      rfl

/-- With no line handed, a link that is not up, or NORMAL with nothing buffered, has nothing to do (R133). -/
theorem Link.lineStart_idle (d : OutputId) (fc : Count) (l : Link)
    (h : l.state.up = false ∨ l.state = .normal ∧ l.buffer = []) : l.lineStart d fc none = (l, []) := by
  rcases h with hu | ⟨hs, hb⟩
  · exact l.lineStart_down d fc none hu
  · rw [l.lineStart_normal d fc none hs (by simp [hb])]
    rw [Link.takeHanded, hb, List.map_nil, ← hb]

/-! ### What the output does before the link (R117 to R120) -/

/-- A stopped generator gives no line start (R117, log entry 3). -/
theorem State.lineStart_stopped (s : State) (d : OutputId) (order : List EpochReaction)
    (h : (s.outputState d).timed = false) : s.lineStart d order = s := by
  unfold State.lineStart
  rw [if_neg (by simp [h])]

/-- A line start in TRAINING: the line moves on, and then the link takes its steps (R117, R133). -/
theorem State.lineStart_training (s : State) (d : OutputId) (order : List EpochReaction)
    (ht : (s.outputState d).timed = true) (hl : (s.outputState d).live = false) :
    s.lineStart d order = State.applyLink (s.setOutput d { s.outputs.get d with line := (s.outputs.get d).nextLine }) d
      (Link.lineStart d (s.outputs.get d).frameCounter none (s.links.get d)) := by
  unfold State.lineStart
  dsimp only
  rw [if_pos ht, if_neg (by simp [hl])]
  simp [State.runLink, State.frameOf]

/-- A line start at an active line of a live output: LINE_MATCH, the line leaves the output, and then the link takes its
steps and the line (R118, R120, R133). -/
theorem State.lineStart_active (s : State) (d : OutputId) (y : Nat) (order : List EpochReaction)
    (hl : (s.outputState d).live = true) (hn : (s.outputs.get d).nextLine = y)
    (hh : y < (s.outputs.get d).active.height) :
    s.lineStart d order = State.applyLink { s with
        outputs := s.outputs.set d { (s.outputs.get d).afterHandOff y with line := y }
        inFlight := s.inFlight.map (Flight.discardScan d fun l => l == y)
        events := (if (s.outputs.get d).active.lineMatch = some y then s.events.raise ⟨.lineMatch, outputNumber d,
          (s.outputs.get d).frameCounter, 0, word y, word (outputStateCode (s.outputState d))⟩ else s.events) } d
      (Link.lineStart d (s.outputs.get d).frameCounter (some ((s.outputs.get d).handed y)) (s.links.get d)) := by
  rw [s.lineStart_live d y order hl hn _ rfl, State.outputLine_active _ d y order (by simpa using hh)]
  simp only [State.runLink, State.setOutput, State.frameOf, PerOutput.get_set_same, PerOutput.set_set]
  rfl

/-- A line start of the link without events changes the link's record alone (R123, R127). -/
theorem State.applyLink_silent (s : State) (d : OutputId) (l : Link)
    (h : l.state = .error → (s.links.get d).state = .error) : s.applyLink d (l, []) = s.setLink d l := by
  rw [s.applyLink_eq d (l, []) h, if_pos rfl]

/-! ### The statement -/

/-- Settles O49: each line by what the output does at it and what the link's own steps then are, and the bytes. -/
theorem lineStartCompletes : Obligations.LineStartCompletes := by
  unfold Obligations.LineStartCompletes
  refine ⟨fun s d h => ?stopped, fun s d y hl hn hh hs hlen hw => ?skipped, fun s d ht hs htimer => ?training,
    fun s d y hl hn hh hs hb => ?sent, fun s d y hl hn hh hidle => ?blanking,
    fun s d y p older newer hl hn hh hs hb hp hne hw => ?replay, lineBytes_eq,
    fun pixels => ⟨payloadOf_length pixels, payloadOf_at pixels⟩, rfl, crc16_append,
    fun s d y g h out o flights w u ht hy hg he hh hout herr ho hfl hw hu => ?general,
    fun d fc l h aged taken haged htaken => ?link⟩
  case stopped => rw [exec_lineStart, s.lineStart_stopped d [] h]
  case skipped =>
    have hlink : Link.lineStart d (s.outputs.get d).frameCounter (some ((s.outputs.get d).handed y)) (s.links.get d) =
        ({ s.links.get d with
          buffer := (s.links.get d).buffer.map Packet.age
          counters := { (s.links.get d).counters with skipped := bump (s.links.get d).counters.skipped } }, []) := by
      rw [Link.lineStart_normal _ _ _ _ hs hw, Link.takeHanded_up _ _ (by simp [hs, LinkState.up])]
      dsimp only
      rw [if_neg (by rw [List.length_map]; omega)]
    rw [exec_lineStart, s.lineStart_active d y [] hl hn hh, hlink,
      State.applyLink_silent _ d _ (by simp [hs])]
    exact ⟨_, rfl, rfl, rfl, rfl, rfl, rfl, rfl, rfl, rfl⟩
  case training =>
    rw [exec_lineStart, s.lineStart_training d [] (by rw [ht]; rfl) (by rw [ht]; rfl),
      Link.lineStart_bringUp d _ none _ (.inl ⟨hs, htimer⟩), State.applyLink_silent _ d _ (by simp [Link.takeHanded, hs])]
    rfl
  case sent =>
    have hlink : Link.lineStart d (s.outputs.get d).frameCounter (some ((s.outputs.get d).handed y)) (s.links.get d) =
        ({ s.links.get d with
          buffer := [⟨(s.links.get d).nextSeq, y, payloadOf ((s.outputs.get d).linePixels y), 0⟩]
          nextSeq := (s.links.get d).nextSeq + 1
          sent := (s.links.get d).sent ++
            [lineBytes (s.links.get d).nextSeq y (payloadOf ((s.outputs.get d).linePixels y))] }, []) := by
      rw [Link.lineStart_normal _ _ _ _ hs (by simp [hb]), Link.takeHanded_up _ _ (by simp [hs, LinkState.up])]
      simp [hs, hb, Output.handed]
    rw [exec_lineStart, s.lineStart_active d y [] hl hn hh, hlink,
      State.applyLink_silent _ d _ (by simp [hs])]
    exact ⟨_, rfl, rfl, rfl, rfl, rfl, rfl, rfl, rfl, rfl⟩
  case blanking =>
    rw [exec_lineStart, s.lineStart_blank d y [] hl hn hh, Link.lineStart_idle d _ _ hidle,
      State.applyLink_silent _ d _ id]
    simp [State.setLink]
  case replay =>
    rw [exec_lineStart, s.lineStart_blank d y [] hl hn (by omega), if_neg (by omega),
      Link.lineStart_resends d _ none _ _ p older newer hs hw hb hp hne rfl]
    refine ⟨fun he => ?_, fun he => ?_⟩
    · rw [if_neg he, State.applyLink_silent _ d _ (by simp [Link.takeHanded, hs])]
      rfl
    · rw [if_pos he, State.applyLink_eq _ d _ (by simp [Link.takeHanded]), if_neg (List.cons_ne_nil _ _)]
      rfl
  case general =>
    obtain ⟨v, hstart, hlinks, hv⟩ : ∃ v : State, s.lineStart d [] = v.applyLink d out ∧ v.links = s.links ∧
        v.setLink d out.1 = u := by
      subst hy hg hout
      cases hl : (s.outputState d).live with
      | false =>
        simp only [hl, Bool.false_eq_true, false_and, if_false, if_true] at hh ho hfl hw
        subst hh ho hfl hw hu
        exact ⟨_, s.lineStart_training d [] ht hl, rfl, rfl⟩
      | true =>
        simp only [hl, true_and, Bool.true_eq_false, if_false] at hh ho hfl hw
        subst hw hu
        rcases Nat.lt_or_gt_of_ne (he hl) with hlt | hgt
        · rw [if_pos hlt] at hh ho hfl
          subst hh ho hfl
          exact ⟨_, s.lineStart_active d _ [] hl rfl hlt, rfl, rfl⟩
        · rw [if_neg (by omega)] at hh ho hfl
          subst hh ho hfl
          exact ⟨_, s.lineStart_blank d _ [] hl rfl hgt, rfl, rfl⟩
    rw [exec_lineStart, hstart, v.applyLink_eq d out (by rw [hlinks]; exact herr), hv]
  case link =>
    obtain rfl : aged = List.map Packet.age := funext haged
    have htake : ∀ x : Link, x.state.up = true → x.takeHanded h = taken x := by
      intro x hx
      cases h <;> exact (x.takeHanded_up _ hx).trans (htaken x).symm
    refine ⟨fun hs => ?_, fun hs => ?_, fun hw => ⟨fun hs => ?_, fun hs p older newer x hb hp hne hx => ?_⟩⟩
    · exact l.lineStart_down d fc h (by rcases hs with hs | hs <;> rw [hs] <;> rfl)
    · rw [l.lineStart_bringUp d fc h hs, htake]
      rcases hs with ⟨hs, -⟩ | ⟨hs, -⟩ <;> simp [hs, LinkState.up]
    · rw [l.lineStart_normal d fc h hs hw, htake]
      simp [hs, LinkState.up]
    · rw [l.lineStart_resends d fc h x p older newer hs hw hb hp hne hx, htake _ rfl, htake]
      simp [hx, hs, LinkState.up]

end Sys2Proof.Machine
end

section
/-! PROOF. The timeouts of a link (O54): the line starts that the three commands name, what the link does at them, and
what becomes of its output. -/

namespace Sys2Proof.Machine

/-! ### The line starts that the commands name (R129, R131, R135, log entries 2 and 3) -/

/-- ANNOUNCE_TIMEOUT is the line start at which the ANNOUNCING timer reaches 64. -/
theorem exec_announceTimeout (s : State) (d : OutputId) : exec (.announceTimeout d) s =
    if s.timerEnds d .announcing 64 then exec (.lineStart d) s else .next s := rfl

/-- CONFIGURING_EXPIRY is the line start at which the CONFIGURING timer reaches 1024. -/
theorem exec_configuringExpiry (s : State) (d : OutputId) : exec (.configuringExpiry d) s =
    if s.timerEnds d .configuring 1024 then exec (.lineStart d) s else .next s := rfl

/-- CONFIRM_TIMEOUT is the line start at which the oldest packet's wait reaches the confirm timeout. -/
theorem exec_confirmTimeout (s : State) (d : OutputId) : exec (.confirmTimeout d) s =
    if s.waitEnds d then exec (.lineStart d) s else .next s := rfl

/-- The bring-up timer of a link in state st reaches its limit. -/
theorem State.timerEnds_iff (s : State) (d : OutputId) (st : LinkState) (limit : Nat) :
    s.timerEnds d st limit = true ↔
      (s.outputState d).timed = true ∧ (s.links.get d).state = st ∧ limit ≤ (s.links.get d).timer + 1 := by
  simp [State.timerEnds, and_assoc]

/-- A link carries lines in NORMAL and in REPLAY. -/
theorem LinkState.carries_iff (st : LinkState) : st.carries = true ↔ st = .normal ∨ st = .replay := by
  cases st <;> simp [LinkState.carries]

/-- The oldest packet's wait reaches the confirm timeout. -/
theorem State.waitEnds_iff (s : State) (d : OutputId) : s.waitEnds d = true ↔ (s.outputState d).timed = true ∧
    ((s.links.get d).state = .normal ∨ (s.links.get d).state = .replay) ∧
    ∃ p ∈ (s.links.get d).buffer.take 1, (s.links.get d).settings.confirmTimeout ≤ p.wait + 1 := by
  rw [← LinkState.carries_iff]
  unfold State.waitEnds
  cases (s.links.get d).buffer <;> simp [and_assoc]

/-! ### The link at a timeout -/

/-- A link in ERROR neither sends nor skips a line (R139, log entry 34). -/
theorem Link.takeHanded_error (l : Link) (h : Option HandedLine) (hs : l.state = .error) : l.takeHanded h = l := by
  cases h with
  | none => rfl
  | some g => simp [Link.takeHanded, Link.take, Link.skipLine, hs, LinkState.carries, LinkState.up]

/-- The line start of an ANNOUNCING link whose timer reaches 64, below the 16th ANNOUNCE (R129). -/
theorem Link.lineStart_announces (d : OutputId) (fc : Count) (h : Option HandedLine) (l : Link)
    (hs : l.state = .announcing) (ht : 63 ≤ l.timer) (hc : l.announceCount < 16) :
    l.lineStart d fc h = (Link.takeHanded h { l with
      timer := 0, announceCount := l.announceCount + 1, sent := l.sent ++ [announceBytes] }, []) := by
  have htimer : l.stepTimer d fc =
      ({ l.send announceBytes with announceCount := l.announceCount + 1, timer := 0 }, []) := by
    unfold Link.stepTimer Link.announceTimer
    rw [hs]
    dsimp only
    rw [if_neg (by omega), if_pos hc]
  simp [Link.lineStart, htimer, hs, linkThen, Link.stepWaits, Link.stepReplay, Link.send, LinkState.up,
    LinkState.carries]

/-- The line start of an ANNOUNCING link whose timer reaches 64 after the 16th ANNOUNCE (R129, R139). -/
theorem Link.lineStart_noPanel (d : OutputId) (fc : Count) (h : Option HandedLine) (l : Link)
    (hs : l.state = .announcing) (ht : 63 ≤ l.timer) (hc : 16 ≤ l.announceCount) :
    (l.lineStart d fc h).1 = { l with
      state := .error, reason := some .noPanel, buffer := [], nextSeq := 0, pointer := none, replayEnd := none
      stable := false, timer := l.timer + 1, sent := l.sent ++ [haltBytes] } := by
  have htimer : l.stepTimer d fc = Link.toError d fc .noPanel { l with timer := l.timer + 1 } := by
    unfold Link.stepTimer Link.announceTimer
    rw [hs]
    dsimp only
    rw [if_neg (by omega), if_neg (by omega)]
  rw [l.lineStart_after d fc h _ (by rw [hs]; rfl) rfl, htimer]
  · simp only [linkThen, Link.toError, Link.stepWaits, LinkState.carries, Bool.false_eq_true, false_and, if_false]
    rw [Link.takeHanded_error _ h rfl]
    rfl
  · rw [htimer]
    simp [linkThen, Link.toError, Link.stepWaits, LinkState.carries]

/-! ### The part at a line start that is no epoch -/

/-- The line that output d hands at line y: none before RUNNING and none behind the active lines (R120). -/
def State.handedAt (s : State) (d : OutputId) (y : Nat) : Option HandedLine :=
  if (s.outputState d).live = true ∧ y < (s.outputs.get d).active.height then some ((s.outputs.get d).handed y) else none

/-- A line start whose link steps lead to x, not in ERROR: the output goes on, and beside it, its link, the reads in flight
and the events nothing changes (R117 to R120, R133). -/
theorem exec_lineStart_goesOn (s : State) (d : OutputId) (y : Nat) (x : Link) (ht : (s.outputState d).timed = true)
    (hy : y = (s.outputs.get d).nextLine)
    (he : (s.outputState d).live = true → y ≠ (s.outputs.get d).active.height)
    (hx : ∀ fc, (Link.lineStart d fc (s.handedAt d y) (s.links.get d)).1 = x) (hs : x.state ≠ .error) :
    ∃ t o, exec (.lineStart d) s = .next t ∧ t.outputs = s.outputs.set d o ∧ o.line = y ∧ o.state = s.outputState d ∧
      ((s.outputState d).live = false ∨ (s.outputs.get d).active.height + 1 < y →
        o = { s.outputs.get d with line := y }) ∧
      t.links = s.links.set d x ∧
      t.mem = s.mem ∧ t.damage = s.damage ∧ t.comp = s.comp ∧ t.layers = s.layers ∧ t.streams = s.streams := by
  obtain ⟨o, fl, w, fc, h, hstart, hline, hstate, hh, ho⟩ := s.lineStart_split d [] y ht hy he
  obtain rfl : h = s.handedAt d y := hh
  obtain ⟨ev, happly⟩ := State.applyLink_rest { s with outputs := s.outputs.set d o, inFlight := fl, events := w } d
    (Link.lineStart d fc (s.handedAt d y) (s.links.get d)) fun herr => absurd ((hx fc) ▸ herr) hs
  rw [exec_lineStart, hstart, happly, hx fc]
  exact ⟨_, o, rfl, rfl, hline, hstate, ho, rfl, rfl, rfl, rfl, rfl, rfl⟩

/-- A line start whose link steps enter ERROR takes the output to FAULT with its composition abandoned (R114, R139). -/
theorem exec_lineStart_fails (s : State) (d : OutputId) (why : LinkReason) (ht : (s.outputState d).timed = true)
    (he : (s.outputState d).live = true → (s.outputs.get d).nextLine ≠ (s.outputs.get d).active.height)
    (hs : (s.links.get d).state ≠ .error)
    (hx : ∀ fc h, ∃ timer, (Link.lineStart d fc h (s.links.get d)).1 = { s.links.get d with
      state := .error, reason := some why, buffer := [], nextSeq := 0, pointer := none, replayEnd := none
      stable := false, timer := timer, sent := (s.links.get d).sent ++ [haltBytes] }) :
    ∃ t, exec (.lineStart d) s = .next t ∧ Safety.LinkFails s t d why := by
  obtain ⟨o, fl, w, fc, h, hstart, -, hstate, -, -⟩ := s.lineStart_split d [] _ ht rfl he
  obtain ⟨timer, hlink⟩ := hx fc h
  obtain ⟨job, xs, fl', ev, happly⟩ := State.applyLink_error
    { s with outputs := s.outputs.set d o, inFlight := fl, events := w } d (Link.lineStart d fc h (s.links.get d))
    (by rw [hlink]) hs (by simpa [State.outputState, hstate] using ht)
  rw [exec_lineStart, hstart, happly, hlink]
  refine ⟨_, rfl, ⟨timer, rfl⟩, ?_, rfl, rfl, rfl, rfl⟩
  rw [if_pos ht]
  simp [State.outputState]

/-! ### The line that is handed at a timeout (R133 steps 4 and 5) -/

/-- A line handed to a link that is announcing is skipped and counted. -/
theorem State.takeHanded_announcing (s : State) (d : OutputId) (y : Nat) (x : Link) (hx : x.state = .announcing) :
    x.takeHanded (s.handedAt d y) = { x with counters := { x.counters with
      skipped := if (s.outputState d).live = true ∧ y < (s.outputs.get d).active.height then
        bump x.counters.skipped else x.counters.skipped } } := by
  unfold State.handedAt
  by_cases h : (s.outputState d).live = true ∧ y < (s.outputs.get d).active.height
  · rw [if_pos h, if_pos h, Link.takeHanded_up x _ (by rw [hx]; rfl)]
    simp [hx]
  · rw [if_neg h, if_neg h]
    rfl

/-- A line handed to a link that carries lines is sent while fewer than 8 packets are buffered, and skipped otherwise. -/
theorem State.takeHanded_carries (s : State) (d : OutputId) (y : Nat) (x : Link)
    (he : (s.outputState d).live = true → y ≠ (s.outputs.get d).active.height)
    (hx : x.state = .normal ∨ x.state = .replay) :
    x.takeHanded (s.handedAt d y) =
      if (s.outputState d).live = false ∨ (s.outputs.get d).active.height < y then x
      else if x.buffer.length < 8 then { x with
        buffer := x.buffer ++ [⟨x.nextSeq, y, payloadOf ((s.outputs.get d).linePixels y), 0⟩], nextSeq := x.nextSeq + 1
        sent := x.sent ++ [lineBytes x.nextSeq y (payloadOf ((s.outputs.get d).linePixels y))] }
      else { x with counters := { x.counters with skipped := bump x.counters.skipped } } := by
  have hu : x.state.up = true := by rcases hx with h | h <;> rw [h] <;> rfl
  unfold State.handedAt
  by_cases h : (s.outputState d).live = true ∧ y < (s.outputs.get d).active.height
  · obtain ⟨hl, hlt⟩ := h
    rw [if_pos ⟨hl, hlt⟩, if_neg (by simp [hl]; omega), Link.takeHanded_up x _ hu]
    simp [hx, Output.handed]
  · rw [if_neg h, if_pos]
    · rfl
    cases hl : (s.outputState d).live with
    | false => exact .inl rfl
    | true =>
      have := he hl
      rw [hl] at h
      exact .inr (by simp at h; omega)

/-! ### The statement -/

/-- A confirm timeout beyond the replay limit, and a CONFIGURING expiry, run as the line start (log entry 2). -/
theorem exec_reinitTimeout (s : State) (d : OutputId) (c : Instr) (ht : (s.outputState d).timed = true)
    (hc : c = .configuringExpiry d ∧ (s.links.get d).state = .configuring ∧ 1023 ≤ (s.links.get d).timer ∨
      c = .confirmTimeout d ∧ ((s.links.get d).state = .normal ∨ (s.links.get d).state = .replay) ∧
      (s.links.get d).settings.replayLimit < (s.links.get d).replayRun + 1 ∧
      ∃ p rest, (s.links.get d).buffer = p :: rest ∧ (s.links.get d).settings.confirmTimeout ≤ p.wait + 1) :
    exec c s = exec (.lineStart d) s := by
  rcases hc with ⟨rfl, hs, htimer⟩ | ⟨rfl, hs, -, p, rest, hb, hw⟩
  · rw [exec_configuringExpiry, if_pos ((s.timerEnds_iff d _ _).mpr ⟨ht, hs, by omega⟩)]
  · rw [exec_confirmTimeout, if_pos ((s.waitEnds_iff d).mpr ⟨ht, hs, p, by simp [hb], hw⟩)]

/-- What those two timeouts have in common is what makes the link's steps a re-initialization (R131, R133, R135). -/
theorem Link.lineStart_reinitTimeout (d : OutputId) (fc : Count) (h : Option HandedLine) (c : Instr) (l : Link)
    (hc : c = .configuringExpiry d ∧ l.state = .configuring ∧ 1023 ≤ l.timer ∨
      c = .confirmTimeout d ∧ (l.state = .normal ∨ l.state = .replay) ∧ l.settings.replayLimit < l.replayRun + 1 ∧
      ∃ p rest, l.buffer = p :: rest ∧ l.settings.confirmTimeout ≤ p.wait + 1) :
    l.state ≠ .announcing ∧ l.state ≠ .error ∧ ∃ (timer : Nat) (buffer : List Packet), (l.lineStart d fc h).1 =
      (Link.reinit d fc { l with timer := timer, buffer := buffer }).1.takeHanded h := by
  rcases hc with ⟨-, hs, htimer⟩ | ⟨-, hs, hrest⟩
  · exact ⟨by simp [hs], by simp [hs], l.lineStart_reinit d fc h (.inl ⟨hs, htimer⟩)⟩
  · refine ⟨?_, ?_, l.lineStart_reinit d fc h (.inr ⟨(LinkState.carries_iff _).mpr hs, hrest⟩)⟩
    · rcases hs with hs | hs <;> simp [hs]
    · rcases hs with hs | hs <;> simp [hs]

/-- Settles O54: which line starts the commands are, and at each of them the link by its law and the part by whether the
link has entered ERROR. -/
theorem linkTimeouts : Obligations.LinkTimeouts := by
  unfold Obligations.LinkTimeouts
  refine ⟨fun s d l hl => ?commands, fun s d ht hs htimer hc => ?training,
    fun s d y ht hy he hs htimer => ⟨fun hc => ?announces, fun hc => ?noPanel⟩,
    fun s d y c ht hy he hc => ⟨fun hr => ?reinit, fun hr => ?reinitLimit⟩,
    fun s d y p rest x payload ht hy he hs hb hne hw hr hx hpay => ?replay⟩
  case commands =>
    subst hl
    simp only [List.forall_mem_cons, decide_eq_true_eq]
    refine ⟨?_, ?_, ?_, fun _ h => absurd h List.not_mem_nil⟩
    · simp only [exec_announceTimeout, State.timerEnds_iff]
    · simp only [exec_configuringExpiry, State.timerEnds_iff]
    · simp only [exec_confirmTimeout, State.waitEnds_iff]
  case training =>
    have hends : s.timerEnds d .announcing 64 = true := (s.timerEnds_iff d _ _).mpr ⟨by rw [ht]; rfl, hs, by omega⟩
    rw [exec_announceTimeout, if_pos hends, exec_lineStart, s.lineStart_training d [] (by rw [ht]; rfl) (by rw [ht]; rfl),
      Link.lineStart_announces d _ none _ hs (by omega) hc, State.applyLink_silent _ d _ (by simp [Link.takeHanded, hs])]
    rfl
  case announces =>
    rw [exec_announceTimeout, if_pos ((s.timerEnds_iff d _ _).mpr ⟨ht, hs, by omega⟩)]
    refine exec_lineStart_goesOn s d y _ ht hy he (fun fc => ?_) (by simp [hs])
    rw [Link.lineStart_announces d fc _ _ hs htimer hc, s.takeHanded_announcing]
    exact hs
  case noPanel =>
    rw [exec_announceTimeout, if_pos ((s.timerEnds_iff d _ _).mpr ⟨ht, hs, by omega⟩)]
    exact exec_lineStart_fails s d .noPanel ht (hy ▸ he) (by simp [hs]) fun fc h =>
      ⟨_, Link.lineStart_noPanel d fc h _ hs htimer hc⟩
  case reinit =>
    rw [exec_reinitTimeout s d c ht hc]
    refine exec_lineStart_goesOn s d y _ ht hy he (fun fc => ?_) (by simp)
    obtain ⟨hs, -, timer, buffer, hlink⟩ := Link.lineStart_reinitTimeout d fc (s.handedAt d y) c _ hc
    rw [hlink, Link.reinit_under, s.takeHanded_announcing]
    · rfl
    · exact hr
    · exact hs
  case reinitLimit =>
    rw [exec_reinitTimeout s d c ht hc]
    obtain ⟨-, hs, -⟩ := Link.lineStart_reinitTimeout d 0 none c _ hc
    refine exec_lineStart_fails s d .reinitLimit ht (hy ▸ he) hs fun fc h => ?_
    obtain ⟨-, -, timer, buffer, hlink⟩ := Link.lineStart_reinitTimeout d fc h c _ hc
    rw [hlink, Link.reinit_limit, Link.takeHanded_error]
    · exact ⟨timer, rfl⟩
    · rfl
    · exact hr
  case replay =>
    subst hpay
    have hcarries : x.state = .normal ∨ x.state = .replay := by
      rw [hx]
      by_cases h : rest = []
      · exact .inl (if_pos h)
      · exact .inr (if_neg h)
    have hlen : x.buffer.length = rest.length + 1 := by simp [hx]
    rw [exec_confirmTimeout, if_pos ((s.waitEnds_iff d).mpr ⟨ht, hs, p, by simp [hb], hw⟩)]
    refine exec_lineStart_goesOn s d y _ ht hy he (fun fc => ?_) ?_
    · rw [Link.lineStart_replay d fc _ _ p rest ((LinkState.carries_iff _).mpr hs) hb hne hw hr, ← hx,
        s.takeHanded_carries d y x he hcarries, hlen]
    · have hup : ∀ z : Link, z.state = x.state → z.state ≠ .error := by
        intro z hz herr
        rw [← hz, herr] at hcarries
        simp at hcarries
      split
      · exact hup _ rfl
      · split <;> exact hup _ rfl

end Sys2Proof.Machine
end

section
/-! PROOF. What every rule of a link keeps (O55): its retry buffer within 8 packets with consecutive numbers, and the
stable flag to NORMAL. -/

namespace Sys2Proof.Machine

open Sys2Proof.Safety

/-! ### Consecutive sequence numbers (R132) -/

/-- Without its oldest packet a list still carries consecutive numbers. -/
theorem consecutive_tail {n : Byte} {p : Packet} {ps : List Packet} (h : Consecutive n (p :: ps)) :
    Consecutive n ps := by
  cases ps with
  | nil => trivial
  | cons q qs => exact h.2

/-- The newer part of a list with consecutive numbers carries consecutive numbers, up to the same next one. -/
theorem consecutive_suffix {n : Byte} {ps qs : List Packet} (hq : qs <:+ ps) (h : Consecutive n ps) :
    Consecutive n qs := by
  obtain ⟨older, rfl⟩ := hq
  induction older with
  | nil => exact h
  | cons p older ih => exact ih (consecutive_tail h)

/-- A change of the packets that keeps their numbers keeps them consecutive. -/
theorem consecutive_map {n : Byte} {f : Packet → Packet} (hf : ∀ p, (f p).seq = p.seq) {ps : List Packet}
    (h : Consecutive n ps) : Consecutive n (ps.map f) := by
  induction ps with
  | nil => trivial
  | cons p ps ih =>
    cases ps with
    | nil => exact (congrArg (· + 1) (hf p)).trans h
    | cons q qs =>
      obtain ⟨hp, hrest⟩ := h
      exact ⟨by rw [hf, hf, hp], ih hrest⟩

/-- A packet that takes the next number goes on with them. -/
theorem consecutive_append (p : Packet) {ps : List Packet} (h : Consecutive p.seq ps) :
    Consecutive (p.seq + 1) (ps ++ [p]) := by
  induction ps with
  | nil => rfl
  | cons q ps ih =>
    cases ps with
    | nil => exact ⟨h, rfl⟩
    | cons r rs =>
      obtain ⟨hq, hrest⟩ := h
      exact ⟨hq, ih hrest⟩

/-! ### Changes of a link that keep it sound (R132, R138 to R141) -/

section
variable {d : OutputId} {fc : Count} {l : Link}

/-- The oldest packets may leave the buffer (R134, R135). -/
theorem Link.trimmed_sound (h : LinkSound l) {ps : List Packet} (hp : ps <:+ l.buffer) :
    LinkSound { l with buffer := ps } := by
  obtain ⟨hlen, hseq, hstable⟩ := h
  exact ⟨Nat.le_trans hp.length_le hlen, consecutive_suffix hp hseq, hstable⟩

/-- The packets may change in all but their numbers (R133, R136). -/
theorem Link.mapped_sound (h : LinkSound l) {f : Packet → Packet} (hf : ∀ p, (f p).seq = p.seq) :
    LinkSound { l with buffer := l.buffer.map f } := by
  obtain ⟨hlen, hseq, hstable⟩ := h
  exact ⟨by rwa [List.length_map], consecutive_map hf hseq, hstable⟩

/-- The stable flag may be cleared (R138, R139). -/
theorem Link.unstable_sound (h : LinkSound l) : LinkSound { l with stable := false } := by
  obtain ⟨hlen, hseq, -⟩ := h
  exact ⟨hlen, hseq, nofun⟩

/-- A state that a link enters finds the stable flag cleared, for only in NORMAL was it set (R127, R141). -/
theorem Link.enter_sound (st : LinkState) (h : LinkSound l) : LinkSound (l.enter d fc st).1 := by
  unfold Link.enter
  split
  · exact h
  · obtain ⟨hlen, hseq, hstable⟩ := h
    refine ⟨hlen, hseq, fun hs => ?_⟩
    obtain ⟨hset, hleft⟩ : l.stable = true ∧ l.state ≠ .normal := by simpa using hs
    exact absurd (hstable hset) hleft

/-- An emptied buffer starts its numbers anew (R138, R139, R140). -/
theorem Link.clearLines_sound (h : LinkSound l) : LinkSound l.clearLines := by
  obtain ⟨-, -, hstable⟩ := h
  exact ⟨Nat.zero_le _, trivial, hstable⟩

/-! ### The rules (R129 to R141) -/

/-- The entry into ERROR (R139). -/
theorem Link.toError_sound (why : LinkReason) : LinkSound (l.toError d fc why).1 := ⟨Nat.zero_le _, trivial, nofun⟩

/-- The entry into DOWN (R140). -/
theorem Link.toDown_sound (halt : Bool) : LinkSound (l.toDown d fc halt).1 := ⟨Nat.zero_le _, trivial, nofun⟩

/-- The entry into ANNOUNCING (R129). -/
theorem Link.announce_sound (h : LinkSound l) : LinkSound (l.announce d fc).1 :=
  Link.enter_sound (l := { l.send announceBytes with announceCount := 1, timer := 0 }) .announcing h

/-- The bring-up (R129). -/
theorem Link.bringUp_sound (h : LinkSound l) : LinkSound (l.bringUp d fc).1 :=
  Link.announce_sound (l := { l.clearLines with replayRun := 0 }) (Link.clearLines_sound (l := l) h)

/-- A re-initialization, in ERROR or in ANNOUNCING (R138). -/
theorem Link.reinit_sound (h : LinkSound l) : LinkSound (l.reinit d fc).1 := by
  unfold Link.reinit
  split
  · exact Link.toError_sound .reinitLimit
  · exact Link.announce_sound (Link.unstable_sound (Link.clearLines_sound h))

/-- The start of a replay (R135). -/
theorem Link.replayStart_sound (h : LinkSound l) : LinkSound (l.replayStart d fc).1 := by
  unfold Link.replayStart
  split
  · exact Link.reinit_sound h
  · exact Link.enter_sound .replay (Link.unstable_sound h)

/-- The end of a replay (R136). -/
theorem Link.finishReplay_sound (h : LinkSound l) : LinkSound (l.finishReplay d fc).1 :=
  Link.enter_sound (l := { l with pointer := none, replayEnd := none }) .normal h

/-- A CONFIRM: what follows the confirmed packet remains (R134). -/
theorem Link.confirm_sound (q : Byte) (h : LinkSound l) : LinkSound (l.confirm d fc q).1 := by
  have hrest : (l.packetsFrom q).tail <:+ l.buffer := (List.tail_suffix _).trans (List.dropWhile_suffix _)
  have htrim : LinkSound { l with buffer := (l.packetsFrom q).tail, replayRun := 0 } := Link.trimmed_sound h hrest
  unfold Link.confirm
  split
  · split
    · dsimp only
      split
      · unfold Link.trimReplay
        split
        · exact htrim
        · exact Link.finishReplay_sound htrim
      · exact htrim
    · exact h
  · exact h

/-- A REPLAY_FROM: the named packet and what follows it remain (R135). -/
theorem Link.replayFrom_sound (q : Byte) (h : LinkSound l) : LinkSound (l.replayFrom d fc q).1 := by
  unfold Link.replayFrom
  split
  · split
    · exact Link.replayStart_sound (Link.trimmed_sound h (List.dropWhile_suffix _))
    · exact h
  · exact h

/-- A PANEL_INFO (R130). -/
theorem Link.panelInfo_sound (t : Timing) (w ht c : Nat) (h : LinkSound l) :
    LinkSound (l.panelInfo d fc t w ht c).1 := by
  unfold Link.panelInfo
  split
  · dsimp only
    split
    · exact Link.toError_sound _
    · split
      · exact Link.toError_sound _
      · split
        · exact Link.toError_sound _
        · exact Link.enter_sound .configuring h
  · exact h

/-- A READY_NORMAL (R131). -/
theorem Link.readyNormal_sound (h : LinkSound l) : LinkSound (l.readyNormal d fc).1 := by
  unfold Link.readyNormal
  split
  · exact Link.enter_sound .normal h
  · exact h

/-- A HALT from the panel (R138). -/
theorem Link.panelHalt_sound (h : LinkSound l) : LinkSound (l.panelHalt d fc).1 := by
  unfold Link.panelHalt
  split
  · exact Link.reinit_sound h
  · exact h

/-- A bad message (R126). -/
theorem Link.badMessage_sound (h : LinkSound l) : LinkSound l.badMessage := by
  unfold Link.badMessage
  split <;> exact h

/-- The frame epoch, which sets the flag in NORMAL alone (R141). -/
theorem Link.epoch_sound (h : LinkSound l) : LinkSound l.epoch := by
  obtain ⟨hlen, hseq, -⟩ := h
  exact ⟨hlen, hseq, fun hs => by simpa [Link.epoch] using hs⟩

/-! ### The steps of a line start (R133) -/

/-- The bring-up timers. -/
theorem Link.stepTimer_sound (h : LinkSound l) : LinkSound (l.stepTimer d fc).1 := by
  unfold Link.stepTimer
  split
  · unfold Link.announceTimer
    split
    · exact h
    · split
      · exact h
      · exact Link.toError_sound _
  · unfold Link.configureTimer
    split
    · exact h
    · exact Link.reinit_sound h
  all_goals exact h

/-- The waits. -/
theorem Link.stepWaits_sound (h : LinkSound l) : LinkSound (l.stepWaits d fc).1 := by
  have haged : LinkSound { l with buffer := l.buffer.map Packet.age } := Link.mapped_sound h fun _ => rfl
  unfold Link.stepWaits
  split
  · dsimp only
    split
    · exact Link.replayStart_sound haged
    · exact haged
  · exact h

/-- A packet that is sent again. -/
theorem Link.resend_sound (q : Byte) (p : Packet) (h : LinkSound l) : LinkSound (l.resend q p) :=
  Link.mapped_sound (l := l.send (lineBytes p.seq p.line p.payload)) h fun x => by split <;> rfl

/-- The step of a replay. -/
theorem Link.stepReplay_sound (h : LinkSound l) : LinkSound (l.stepReplay d fc).1 := by
  unfold Link.stepReplay
  split
  · split
    · exact h
    · split
      · exact h
      · split
        · exact Link.finishReplay_sound (Link.resend_sound _ _ h)
        · next p _ _ => exact Link.resend_sound _ p h
  · exact h

/-- The handed line: it is sent only while a place is free, and takes the next number. -/
theorem Link.takeHanded_sound (line : Option HandedLine) (h : LinkSound l) : LinkSound (l.takeHanded line) := by
  unfold Link.takeHanded
  split
  · exact h
  · next g =>
    unfold Link.take Link.skipLine
    split
    · next hroom =>
      obtain ⟨-, hseq, hstable⟩ := h
      obtain ⟨-, hplace⟩ := hroom
      refine ⟨?_, consecutive_append ⟨l.nextSeq, g.line, g.payload, 0⟩ hseq, hstable⟩
      rw [Link.sendLine, List.length_append]
      exact hplace
    · split <;> exact h

/-- A line start. -/
theorem Link.lineStart_sound (line : Option HandedLine) (h : LinkSound l) : LinkSound (l.lineStart d fc line).1 := by
  unfold Link.lineStart
  split
  · exact Link.takeHanded_sound line (Link.stepReplay_sound (Link.stepWaits_sound (Link.stepTimer_sound h)))
  · exact h

/-! ### The stable flag (R141) -/

/-- A HALT from the panel re-initializes a link that carries lines (R138). -/
theorem Link.panelHalt_carries (hs : l.state = .normal ∨ l.state = .replay) : l.panelHalt d fc = l.reinit d fc :=
  if_pos ((LinkState.carries_iff _).mpr hs)

/-- A READY_NORMAL sets no flag (R131). -/
theorem Link.readyNormal_stable (hs : (l.readyNormal d fc).1.stable = true) : l.stable = true := by
  unfold Link.readyNormal at hs
  split at hs
  · exact Link.enter_stable d fc .normal l hs
  · exact hs

/-- A HALT from the panel sets none (R138). -/
theorem Link.panelHalt_stable (hs : (l.panelHalt d fc).1.stable = true) : l.stable = true := by
  unfold Link.panelHalt at hs
  split at hs
  · rw [Link.reinit_stable] at hs
    cases hs
  · exact hs

/-- A bad message sets none (R126). -/
theorem Link.badMessage_stable (hs : l.badMessage.stable = true) : l.stable = true := by
  unfold Link.badMessage at hs
  split at hs <;> exact hs

/-- The bring-up sets none (R129). -/
theorem Link.bringUp_stable (hs : (l.bringUp d fc).1.stable = true) : l.stable = true := by
  have hkept := Link.enter_stable d fc .announcing _ hs
  exact hkept

/-- A re-initialization just after a stable frame counts from 0 (R138, R141). -/
theorem Link.panelHalt_afterEpoch (hs : l.state = .normal ∨ l.state = .replay) (hst : l.stable = true) :
    (l.epoch.panelHalt d fc).1.reinitRun = if 1 ≤ l.settings.reinitLimit then 1 else 0 := by
  have hrun : l.epoch.reinitRun = 0 := if_pos hst
  rw [Link.panelHalt_carries (l := l.epoch) hs]
  by_cases hlim : 1 ≤ l.settings.reinitLimit
  · have hother : l.epoch.state ≠ .announcing := by rcases hs with h | h <;> simp [Link.epoch, h]
    rw [if_pos hlim, l.epoch.reinit_under d fc (by rw [hrun]; exact hlim) hother]
    exact congrArg (· + 1) hrun
  · rw [if_neg hlim, l.epoch.reinit_limit d fc (by rw [hrun]; exact Nat.lt_of_not_le hlim)]
    exact hrun

end

/-- Settles O55, rule by rule: the lemmas above for the buffer, and those for the stable flag. -/
theorem linkRulesKeepTheBuffer : Obligations.LinkRulesKeepTheBuffer := by
  unfold Obligations.LinkRulesKeepTheBuffer
  refine ⟨fun d fc l h => ?sound, fun d fc l => ?stable⟩
  case sound =>
    exact ⟨fun line => Link.lineStart_sound line h, fun q => Link.confirm_sound q h,
      fun q => Link.replayFrom_sound q h, fun t w ht c => Link.panelInfo_sound t w ht c h, Link.readyNormal_sound h,
      Link.panelHalt_sound h, Link.badMessage_sound h, Link.bringUp_sound h, Link.toDown_sound, Link.epoch_sound h,
      fun _ => Link.clearLines_sound (l := l) h⟩
  case stable =>
    refine ⟨?epoch, ?messages, fun line => l.lineStart_stable d fc line, fun q => l.confirm_stable d fc q,
      fun q => l.replayFrom_stable d fc q, fun t w h c => l.panelInfo_stable d fc t w h c, fun _ => id,
      fun hs => ?before, Link.panelHalt_afterEpoch⟩
    case epoch => simp [Link.epoch, Bool.beq_eq_decide_eq]
    case messages =>
      simp only [List.map_cons, List.map_nil, List.cons_append, List.nil_append, List.forall_mem_cons]
      exact ⟨Link.readyNormal_stable, Link.panelHalt_stable, Link.badMessage_stable, Link.bringUp_stable, nofun, nofun,
        nofun⟩
    case before =>
      have hcleared : (l.panelHalt d fc).1.stable = false := by rw [Link.panelHalt_carries hs, Link.reinit_stable]
      simp [Link.epoch, hcleared]

end Sys2Proof.Machine
end

section
/-! PROOF. The messages of a panel, as the link's rules; those of the bring-up: PANEL_INFO (O43) and READY_NORMAL
(O44). -/

namespace Sys2Proof.Machine

/-! ### The messages, as the commands run them -/

/-- PANEL_INFO is the link's rule for the active timing (R130). -/
theorem exec_panelInfo (s : State) (d : OutputId) (w h : BitVec 16) (clock : BitVec 32) :
    exec (.panelInfo d w h clock) s = .next (s.applyLink d
      (Link.panelInfo d (s.frameOf d) (s.outputs.get d).active w.toNat h.toNat clock.toNat (s.links.get d))) := rfl

/-- READY_NORMAL is the link's rule, and in CONFIGURING it tells the output (R111, R131). -/
theorem exec_readyNormal (s : State) (d : OutputId) : exec (.readyNormal d) s = .next
    (if (s.links.get d).state = .configuring then
      (s.applyLink d (Link.readyNormal d (s.frameOf d) (s.links.get d))).leaveTraining d
    else s.applyLink d (Link.readyNormal d (s.frameOf d) (s.links.get d))) := rfl

/-- CONFIRM is the link's rule (R134). -/
theorem exec_confirm (s : State) (d : OutputId) (q : Byte) :
    exec (.confirm d q) s = .next (s.applyLink d (Link.confirm d (s.frameOf d) q (s.links.get d))) := rfl

/-- REPLAY_FROM is the link's rule (R135). -/
theorem exec_replayFrom (s : State) (d : OutputId) (q : Byte) :
    exec (.replayFrom d q) s = .next (s.applyLink d (Link.replayFrom d (s.frameOf d) q (s.links.get d))) := rfl

/-- HALT from the panel is the link's rule (R138). -/
theorem exec_panelHalt (s : State) (d : OutputId) :
    exec (.panelHalt d) s = .next (s.applyLink d (Link.panelHalt d (s.frameOf d) (s.links.get d))) := rfl

/-! ### What a rule's outcome does to the part (R114, R123, R139) -/

/-- A link's record written back changes nothing. -/
@[simp] theorem State.setLink_get (s : State) (d : OutputId) : s.setLink d (s.links.get d) = s := by
  simp [State.setLink]

/-- A rule that leaves the link as it was and raises nothing changes nothing. -/
theorem State.applyLink_kept (s : State) (d : OutputId) : s.applyLink d (s.links.get d, []) = s := by
  rw [s.applyLink_silent d _ id, s.setLink_get]

/-- A rule's outcome that is no entry to ERROR changes the link and the event writer alone, whatever events it
raises. -/
theorem State.applyLink_goesOn (s : State) (d : OutputId) (out : LinkOut) (x : Link) (hx : out.1 = x)
    (h : x.state ≠ .error) :
    ∃ events, s.applyLink d out = { s with links := s.links.set d x, events := events } := by
  subst hx
  exact s.applyLink_rest d out fun herr => absurd herr h

/-- Whatever becomes of the output, the link's record is the outcome's. -/
theorem State.applyLink_links (s : State) (d : OutputId) (out : LinkOut) :
    (s.applyLink d out).links = s.links.set d out.1 := by
  cases ht : (s.outputState d).timed with
  | true =>
    obtain ⟨o, comp, job, streams, inFlight, events, happly, -⟩ := s.applyLink_timed d out ht
    rw [happly]
  | false =>
    obtain ⟨events, happly⟩ := s.applyLink_still d out ht
    rw [happly]

/-! ### PANEL_INFO (R130, R139) -/

/-- A panel of the recorded size, or the first one. -/
theorem samePanel_iff (known : Option PanelRecord) (w h : Nat) :
    samePanel known w h = true ↔ ∀ p, known = some p → p.width = w ∧ p.height = h := by
  cases known <;> simp [samePanel]

/-- A panel of the recorded size that fits the timing: it is recorded, CONFIGURE is sent and the link is CONFIGURING. -/
theorem Link.panelInfo_fits (d : OutputId) (fc : Count) (t : Timing) (w h clock : Nat) (l : Link)
    (hs : l.state = .announcing) (hsame : ∀ p, l.panel = some p → p.width = w ∧ p.height = h)
    (hw : t.width = w) (hh : t.height = h) (hc : t.clock ≤ clock) :
    (l.panelInfo d fc t w h clock).1 = { l with
      state := .configuring, timer := 0, panel := some ⟨w, h, clock⟩
      sent := l.sent ++ [configureBytes w h t.clock] } := by
  unfold Link.panelInfo
  rw [if_pos hs]
  dsimp only
  rw [if_neg (by simp [(samePanel_iff _ _ _).mpr hsame]), if_neg (by simp [hw, hh]), if_neg (by omega)]
  simp [Link.enter, Link.send, hs, hw, hh]

/-- A panel that fails a check is recorded all the same, and the link is in ERROR with the reason of the first failing
one (log entry 30). -/
theorem Link.panelInfo_fails (d : OutputId) (fc : Count) (t : Timing) (w h clock : Nat) (l : Link) (why : LinkReason)
    (hs : l.state = .announcing)
    (hwhy : (∃ p, l.panel = some p ∧ (p.width ≠ w ∨ p.height ≠ h)) ∧ why = .panelChanged ∨
      (∀ p, l.panel = some p → p.width = w ∧ p.height = h) ∧ (t.width ≠ w ∨ t.height ≠ h ∨ clock < t.clock) ∧
        why = .panelMismatch) :
    (l.panelInfo d fc t w h clock).1 = { l with
      state := .error, reason := some why, panel := some ⟨w, h, clock⟩, buffer := [], nextSeq := 0, pointer := none
      replayEnd := none, stable := false, sent := l.sent ++ [haltBytes] } := by
  unfold Link.panelInfo
  rw [if_pos hs]
  dsimp only
  rcases hwhy with ⟨⟨p, hp, hne⟩, rfl⟩ | ⟨hsame, hunfit, rfl⟩
  · have hother : samePanel l.panel w h = false := by
      rw [Bool.eq_false_iff, Ne, samePanel_iff]
      intro hall
      obtain ⟨hw, hh⟩ := hall p hp
      exact hne.elim (· hw) (· hh)
    rw [if_pos hother]
    rfl
  · rw [if_neg (by simp [(samePanel_iff _ _ _).mpr hsame])]
    by_cases hsize : t.width ≠ w ∨ t.height ≠ h
    · rw [if_pos hsize]
      rfl
    · have hclock : clock < t.clock := by
        rcases hunfit with h | h | h
        · exact absurd (.inl h) hsize
        · exact absurd (.inr h) hsize
        · exact h
      rw [if_neg hsize, if_pos hclock]
      rfl

/-- The CRC-16 of a message stands behind its bytes, most significant byte first (R174). -/
theorem withCrc16_eq (bytes : List Byte) (crc : BitVec 16) (hc : crc = crc16 bytes) :
    withCrc16 bytes = bytes ++ [BitVec.ofNat 8 (crc.toNat / 256), BitVec.ofNat 8 crc.toNat] := by
  subst hc
  rfl

/-- The four bytes of a number, most significant first (R172). -/
theorem bigEndian_four (v : Nat) : bigEndian 4 v = [BitVec.ofNat 8 (v / 16777216), BitVec.ofNat 8 (v / 65536),
    BitVec.ofNat 8 (v / 256), BitVec.ofNat 8 v] := by
  simp [bigEndian, littleEndian, Nat.div_div_eq_div_mul]

/-- The fields of CONFIGURE (R174). -/
theorem configureBytes_eq (w h clock : Nat) (bytes : List Byte) (crc : BitVec 16)
    (hb : bytes = [0x02, BitVec.ofNat 8 (w / 256), BitVec.ofNat 8 w, BitVec.ofNat 8 (h / 256), BitVec.ofNat 8 h,
      BitVec.ofNat 8 (clock / 16777216), BitVec.ofNat 8 (clock / 65536), BitVec.ofNat 8 (clock / 256),
      BitVec.ofNat 8 clock]) (hc : crc = crc16 bytes) :
    configureBytes w h clock = bytes ++ [BitVec.ofNat 8 (crc.toNat / 256), BitVec.ofNat 8 crc.toNat] := by
  rw [← withCrc16_eq bytes crc hc, hb, configureBytes, bigEndian_four]
  rfl

/-- Settles O43: the link by its law for a fitting and for a failing panel, and the output by whether its timing
generator runs. -/
theorem panelInfoCompletes : Obligations.PanelInfoCompletes := by
  unfold Obligations.PanelInfoCompletes
  refine ⟨fun s d w h clock why hs hwhy => ?fails, fun s d w h clock hs => ?elsewhere,
    fun s d w h clock hs hsame hw hh hc => ?fits, configureBytes_eq, fun crc hc => withCrc16_eq [0x04] crc hc,
    fun bytes crc hb hc => ?announce⟩
  case fails =>
    have hlink := Link.panelInfo_fails d (s.frameOf d) _ _ _ _ _ why hs hwhy
    rw [exec_panelInfo]
    cases ht : (s.outputState d).timed with
    | true =>
      obtain ⟨job, streams, inFlight, events, happly⟩ := s.applyLink_error d _ (by rw [hlink]) (by simp [hs]) ht
      rw [happly, hlink]
      exact ⟨_, rfl, rfl, fun _ => by simp [State.outputState], rfl, rfl, rfl⟩
    | false =>
      obtain ⟨events, happly⟩ := s.applyLink_still d _ ht
      rw [happly, hlink]
      exact ⟨_, rfl, rfl, nofun, rfl, rfl, rfl⟩
  case elsewhere => rw [exec_panelInfo, Link.panelInfo, if_neg hs, s.applyLink_kept]
  case fits =>
    obtain ⟨events, happly⟩ := s.applyLink_goesOn d _ _
      (Link.panelInfo_fits d (s.frameOf d) _ _ _ _ _ hs hsame hw hh hc) nofun
    rw [exec_panelInfo, happly]
    exact ⟨_, rfl, rfl, rfl, rfl, rfl, rfl, rfl, rfl⟩
  case announce =>
    rw [← withCrc16_eq bytes crc hc, hb]
    rfl

/-! ### READY_NORMAL (R111, R131) -/

/-- A CONFIGURING link is NORMAL; its stable flag stays as it was, until an epoch. -/
theorem Link.readyNormal_configuring (d : OutputId) (fc : Count) (l : Link) (hs : l.state = .configuring) :
    (l.readyNormal d fc).1 = { l with state := .normal } := by
  simp [Link.readyNormal, Link.enter, hs]

/-- An output that is not TRAINING has nothing to leave. -/
theorem State.leaveTraining_elsewhere (s : State) (d : OutputId) (h : s.outputState d ≠ .training) :
    s.leaveTraining d = s := if_neg h

/-- The first entry into RUNNING (R34, R63, R111). -/
theorem State.leaveTraining_first (s : State) (d : OutputId) (h : s.outputState d = .training)
    (hr : (s.outputs.get d).resume = none) : ∃ events, s.leaveTraining d = { s with
      outputs := s.outputs.set d { s.outputs.get d with
        state := .running, frameCounter := 0, blank := true, begun := false, fifo := [] }
      comp := s.comp.set d { s.comp.get d with front := 0 }
      damage := s.damage.set d ⟨⟨[], true⟩, ⟨[], true⟩⟩
      events := events } := by
  have hentry : (s.outputs.get d).entryState = .running := by rw [Output.entryState, hr]
  obtain ⟨events, henter⟩ := State.enterOutput_rest { s with
    outputs := s.outputs.set d { s.outputs.get d with frameCounter := 0, blank := true, begun := false, fifo := [] }
    comp := s.comp.set d { s.comp.get d with front := 0 }
    damage := s.damage.set d ⟨⟨[], true⟩, ⟨[], true⟩⟩ } d .running 0
  refine ⟨events, ?_⟩
  unfold State.leaveTraining State.firstEntry State.wholeDamage
  simp only [if_pos h, if_pos hr, hentry, State.setOutput, State.setComp, State.setDamage, PerOutput.get_set_same,
    PerOutput.set_set] at henter ⊢
  exact henter

/-- The return to the state before a lock loss (R111). -/
theorem State.leaveTraining_resumes (s : State) (d : OutputId) (r : ResumeState) (h : s.outputState d = .training)
    (hr : (s.outputs.get d).resume = some r) : ∃ events, s.leaveTraining d = { s with
      outputs := s.outputs.set d { s.outputs.get d with
        state := if r = .running then .running else .frozen, begun := false, fifo := [] }
      events := events } := by
  have hentry : (s.outputs.get d).entryState = if r = .running then .running else .frozen := by
    rw [Output.entryState, hr]
    cases r <;> rfl
  obtain ⟨events, henter⟩ := State.enterOutput_rest
    (s.setOutput d { s.outputs.get d with begun := false, fifo := [] }) d (s.outputs.get d).entryState 0
  refine ⟨events, ?_⟩
  unfold State.leaveTraining
  rw [if_pos h]
  dsimp only
  rw [if_neg (by simp [hr]), henter, hentry]
  simp [State.setOutput]

/-- Settles O44: the link is NORMAL by its rule, and the output leaves TRAINING by the two laws above. -/
theorem readyNormalCompletes : Obligations.ReadyNormalCompletes := by
  unfold Obligations.ReadyNormalCompletes
  refine ⟨fun s d hs => ?elsewhere, fun s d hs => ?configuring⟩
  case elsewhere => rw [exec_readyNormal, if_neg hs, Link.readyNormal, if_neg hs, s.applyLink_kept]
  case configuring =>
    obtain ⟨events, happly⟩ := s.applyLink_goesOn d _ _ (Link.readyNormal_configuring d (s.frameOf d) _ hs) nofun
    rw [exec_readyNormal, if_pos hs, happly]
    refine ⟨_, rfl, ?_⟩
    generalize hu : { s with links := _, events := events } = u
    have hstate : u.outputState d = s.outputState d := by rw [← hu]; rfl
    have houts : u.outputs = s.outputs := by rw [← hu]
    by_cases ht : s.outputState d = .training
    · cases hr : (s.outputs.get d).resume with
      | none =>
        obtain ⟨w, hleave⟩ := u.leaveTraining_first d (hstate.trans ht) (houts ▸ hr)
        rw [hleave, ← hu]
        exact ⟨by simp, by simp, rfl, rfl, rfl, fun h => absurd ht h, fun _ _ => ⟨rfl, rfl, rfl⟩, nofun⟩
      | some r =>
        obtain ⟨w, hleave⟩ := u.leaveTraining_resumes d r (hstate.trans ht) (houts ▸ hr)
        rw [hleave, ← hu]
        refine ⟨by simp, by simp, rfl, rfl, rfl, fun h => absurd ht h, nofun, fun r' _ hr' => ?_⟩
        obtain rfl : r = r' := Option.some.inj hr'
        exact ⟨rfl, rfl, rfl⟩
    · rw [u.leaveTraining_elsewhere d (hstate ▸ ht), ← hu]
      exact ⟨by simp, by simp, rfl, rfl, rfl, fun _ => ⟨rfl, rfl, rfl⟩, fun h => absurd h ht, fun _ h => absurd h ht⟩

end Sys2Proof.Machine
end

section
/-! PROOF. The messages of a panel to a link that carries lines: CONFIRM (O45), REPLAY_FROM (O46) and HALT (O47). -/

namespace Sys2Proof.Machine

open Sys2Proof.Safety

/-! ### The packet that a CONFIRM or REPLAY_FROM names (R132) -/

/-- The packets from the named one on, when it is in the buffer. -/
theorem Link.packetsFrom_named (l : Link) (q : Byte) (older newer : List Packet) (p : Packet)
    (hb : l.buffer = older ++ p :: newer) (hp : p.seq = q) (ho : ∀ x ∈ older, x.seq ≠ q) :
    l.packetsFrom q = p :: newer := by
  rw [Link.packetsFrom, hb, List.dropWhile_append_of_pos (by simpa using ho),
    List.dropWhile_cons_of_neg (by simp [hp])]

/-- A number is in the buffer when a packet there carries it. -/
theorem Link.holds_iff (l : Link) (q : Byte) : l.holds q = true ↔ ∃ p ∈ l.buffer, p.seq = q := by
  simp [Link.holds]

/-- A CONFIRM whose number is not in the buffer is counted (R134). -/
theorem Link.confirm_bad (d : OutputId) (fc : Count) (q : Byte) (l : Link)
    (hs : l.state = .normal ∨ l.state = .replay) (hq : ∀ p ∈ l.buffer, p.seq ≠ q) :
    l.confirm d fc q = (l.badReference, []) := by
  have hfree : ¬ l.holds q = true := by simpa [Link.holds_iff] using hq
  rw [Link.confirm, if_pos ((LinkState.carries_iff _).mpr hs), if_neg hfree]

/-- A REPLAY_FROM whose number is not in the buffer is counted (R135). -/
theorem Link.replayFrom_bad (d : OutputId) (fc : Count) (q : Byte) (l : Link)
    (hs : l.state = .normal ∨ l.state = .replay) (hq : ∀ p ∈ l.buffer, p.seq ≠ q) :
    l.replayFrom d fc q = (l.badReference, []) := by
  have hfree : ¬ l.holds q = true := by simpa [Link.holds_iff] using hq
  rw [Link.replayFrom, if_pos ((LinkState.carries_iff _).mpr hs), if_neg hfree]

/-! ### CONFIRM (R134) -/

/-- A CONFIRM of a buffered packet: what is newer remains, and a replay under way is trimmed. -/
theorem Link.confirm_named (d : OutputId) (fc : Count) (q : Byte) (l x : Link) (older newer : List Packet) (p : Packet)
    (hs : l.state = .normal ∨ l.state = .replay) (hb : l.buffer = older ++ p :: newer) (hp : p.seq = q)
    (ho : ∀ x ∈ older, x.seq ≠ q) (hx : x = { l with buffer := newer, replayRun := 0 }) :
    l.confirm d fc q = if l.state = .replay then x.trimReplay d fc else (x, []) := by
  have hnamed : l.holds q = true := (l.holds_iff q).mpr ⟨p, by simp [hb], hp⟩
  rw [Link.confirm, if_pos ((LinkState.carries_iff _).mpr hs), if_pos hnamed,
    l.packetsFrom_named q older newer p hb hp ho, hx]
  rfl

/-- A replay whose end has gone is finished (R134, R136). -/
theorem Link.trimReplay_finished (d : OutputId) (fc : Count) (l : Link) (e : Byte) (hs : l.state = .replay)
    (he : l.replayEnd = some e) (hgone : ∀ x ∈ l.buffer, x.seq ≠ e) :
    (l.trimReplay d fc).1 = { l with state := .normal, pointer := none, replayEnd := none } := by
  have hend : l.names l.replayEnd = false := by
    rw [he, Bool.eq_false_iff, Ne, Link.names, Link.holds_iff]
    exact fun ⟨x, hx, hxe⟩ => hgone x hx hxe
  rw [Link.trimReplay, hend]
  simp [Link.finishReplay, Link.enter, hs]

/-- A replay whose end remains goes on, from its pointer or from the oldest packet that remains (R134). -/
theorem Link.trimReplay_goesOn (d : OutputId) (fc : Count) (l : Link) (r e : Byte) (hr : l.pointer = some r)
    (he : l.replayEnd = some e) (hleft : ∃ x ∈ l.buffer, x.seq = e) :
    l.trimReplay d fc = ({ l with pointer := if l.holds r then some r else l.oldest }, []) := by
  have hend : l.names l.replayEnd = true := by
    rw [he]
    exact (l.holds_iff e).mpr hleft
  rw [Link.trimReplay, if_pos hend, hr]
  rfl

/-- Settles O45: in NORMAL the buffer is trimmed, in REPLAY the replay with it, and a bad reference is counted. -/
theorem confirmCompletes : Obligations.ConfirmCompletes := by
  unfold Obligations.ConfirmCompletes
  refine ⟨fun s d q older newer p hs hb hp ho => ?normal, fun s d q r e older newer p hs hb hp ho hr he => ?replay,
    fun s d q hn hr => ?elsewhere, fun s d q hs hq => ?bad⟩
  case normal =>
    rw [exec_confirm, Link.confirm_named d _ q _ _ older newer p (.inl hs) hb hp ho rfl, if_neg (by simp [hs]),
      State.applyLink_silent _ d _ (by simp [hs])]
  case replay =>
    generalize hx : { s.links.get d with buffer := newer, replayRun := 0 } = x
    obtain ⟨hxs, hxb, hxr, hxe⟩ : x.state = .replay ∧ x.buffer = newer ∧ x.pointer = some r ∧ x.replayEnd = some e := by
      subst hx
      exact ⟨hs, rfl, hr, he⟩
    have htrims : exec (.confirm d q) s = .next (s.applyLink d (x.trimReplay d (s.frameOf d))) := by
      rw [exec_confirm, Link.confirm_named d _ q _ x older newer p (.inr hs) hb hp ho hx.symm, if_pos hs]
    rw [htrims]
    refine ⟨fun hend hptr => ?stays, fun hend hptr => ?moves, fun hend => ?ends⟩
    case stays =>
      have hheld : x.holds r = true := (x.holds_iff r).mpr (hxb ▸ hptr)
      rw [x.trimReplay_goesOn d _ r e hxr hxe (hxb ▸ hend), if_pos hheld, State.applyLink_silent _ d _ (by simp [hxs]),
        ← hxr]
    case moves =>
      have hgone : ¬ x.holds r = true := by simpa [Link.holds_iff, hxb] using hptr
      rw [x.trimReplay_goesOn d _ r e hxr hxe (hxb ▸ hend), if_neg hgone, State.applyLink_silent _ d _ (by simp [hxs]),
        Link.oldest, hxb, ← hx]
    case ends =>
      obtain ⟨events, happly⟩ := s.applyLink_goesOn d _ _
        (x.trimReplay_finished d (s.frameOf d) e hxs hxe (hxb ▸ hend)) nofun
      rw [happly, ← hx]
      exact ⟨_, rfl, rfl, rfl, rfl, rfl, rfl, rfl, rfl⟩
  case elsewhere =>
    have hidle : ¬ (s.links.get d).state.carries = true := by simp [LinkState.carries_iff, hn, hr]
    rw [exec_confirm, exec_replayFrom, Link.confirm, Link.replayFrom, if_neg hidle, if_neg hidle, s.applyLink_kept]
    exact ⟨rfl, rfl⟩
  case bad =>
    have hcounted : s.applyLink d ((s.links.get d).badReference, []) = s.setLink d (s.links.get d).badReference :=
      s.applyLink_silent d _ id
    simp only [List.forall_mem_cons]
    refine ⟨?_, ?_, nofun⟩
    · rw [exec_confirm, Link.confirm_bad d _ q _ hs hq, hcounted]
      rfl
    · rw [exec_replayFrom, Link.replayFrom_bad d _ q _ hs hq, hcounted]
      rfl

/-! ### REPLAY_FROM (R135, R138) -/

/-- A REPLAY_FROM of a buffered packet is a replay start from it on. -/
theorem Link.replayFrom_named (d : OutputId) (fc : Count) (q : Byte) (l : Link)
    (hs : l.state = .normal ∨ l.state = .replay) (hq : ∃ p ∈ l.buffer, p.seq = q) :
    l.replayFrom d fc q = Link.replayStart d fc { l with buffer := l.packetsFrom q } := by
  rw [Link.replayFrom, if_pos ((LinkState.carries_iff _).mpr hs), if_pos ((l.holds_iff q).mpr hq)]

/-- Beyond the replay limit it is the panel's HALT: what the buffer held no longer counts (R138). -/
theorem Link.replayFrom_beyond (d : OutputId) (fc : Count) (q : Byte) (l : Link)
    (hs : l.state = .normal ∨ l.state = .replay) (hq : ∃ p ∈ l.buffer, p.seq = q)
    (hlim : l.settings.replayLimit < l.replayRun + 1) : l.replayFrom d fc q = l.panelHalt d fc := by
  rw [l.replayFrom_named d fc q hs hq, Link.panelHalt_carries hs, Link.replayStart, if_pos (by exact hlim)]
  rfl

/-- Below the limit a replay starts at the oldest packet of the buffer and ends at the newest (R135). -/
theorem Link.replayStart_under (d : OutputId) (fc : Count) (l : Link) (p : Packet) (newer : List Packet)
    (hb : l.buffer = p :: newer) (hlim : l.replayRun + 1 ≤ l.settings.replayLimit) :
    (l.replayStart d fc).1 = { l with
      state := .replay, replayRun := l.replayRun + 1
      counters := { l.counters with replays := bump l.counters.replays }
      pointer := some p.seq, replayEnd := some (newer.getLastD p).seq, stable := false } := by
  have hold : l.oldest = some p.seq := by rw [Link.oldest, hb]; rfl
  have hnew : l.newest = some (newer.getLastD p).seq := by
    rw [Link.newest, hb, List.getLast?_cons, Option.map_some, List.getLastD_eq_getLast?]
  rw [Link.replayStart, if_neg (by omega), hold, hnew, Link.enter]
  split
  · next hs => simp [← hs]
  · rfl

/-- Settles O46: a replay start from the named packet on, or the panel's HALT. -/
theorem replayFromCompletes : Obligations.ReplayFromCompletes := by
  unfold Obligations.ReplayFromCompletes
  refine ⟨fun s d q hs hq hlim => ?beyond, fun s d q older newer p hs hb hp ho hlim => ?starts⟩
  case beyond => rw [exec_replayFrom, exec_panelHalt, Link.replayFrom_beyond d _ q _ hs hq hlim]
  case starts =>
    rw [exec_replayFrom, Link.replayFrom_named d _ q _ hs ⟨p, by simp [hb], hp⟩,
      Link.packetsFrom_named _ q older newer p hb hp ho, ← hp]
    obtain ⟨events, happly⟩ := s.applyLink_goesOn d _ _
      (Link.replayStart_under d (s.frameOf d) { s.links.get d with buffer := p :: newer } p newer rfl hlim) nofun
    rw [happly]
    exact ⟨_, rfl, rfl, rfl, rfl, rfl, rfl, rfl, rfl⟩

/-! ### HALT from the panel (R138, R139) -/

/-- An entry to ERROR at the re-initialization limit: the output goes to FAULT if its timing generator runs, and stays
as it was otherwise (R114, R139). -/
theorem State.applyLink_reinitLimit (s : State) (d : OutputId) (fc : Count) (hs : (s.links.get d).state ≠ .error)
    (hlim : (s.links.get d).settings.reinitLimit < (s.links.get d).reinitRun + 1) :
    LinkFails s (s.applyLink d (Link.reinit d fc (s.links.get d))) d .reinitLimit := by
  have hlink := Link.reinit_limit d fc _ hlim
  cases ht : (s.outputState d).timed with
  | true =>
    obtain ⟨job, streams, inFlight, events, happly⟩ := s.applyLink_error d _ (by rw [hlink]) hs ht
    rw [happly, hlink]
    refine ⟨⟨_, rfl⟩, ?_, rfl, rfl, rfl, rfl⟩
    rw [if_pos ht]
    simp [State.outputState]
  | false =>
    obtain ⟨events, happly⟩ := s.applyLink_still d _ ht
    rw [happly, hlink]
    refine ⟨⟨_, rfl⟩, ?_, rfl, rfl, rfl, rfl⟩
    rw [if_neg (by simp [ht])]
    exact ⟨rfl, rfl⟩

/-- Settles O47: a re-initialization below its limit and at it, and nothing in a link that carries no lines. -/
theorem panelHaltCompletes : Obligations.PanelHaltCompletes := by
  unfold Obligations.PanelHaltCompletes
  refine ⟨fun s d hn hr => ?elsewhere, fun s d hs => ⟨fun hlim => ?under, fun hlim => ?limit⟩⟩
  case elsewhere =>
    have hidle : ¬ (s.links.get d).state.carries = true := by simp [LinkState.carries_iff, hn, hr]
    rw [exec_panelHalt, Link.panelHalt, if_neg hidle, s.applyLink_kept]
  case under =>
    rw [exec_panelHalt, Link.panelHalt_carries hs]
    obtain ⟨events, happly⟩ := s.applyLink_goesOn d _ _
      (Link.reinit_under d (s.frameOf d) _ hlim (by rcases hs with h | h <;> simp [h])) nofun
    rw [happly]
    exact ⟨_, rfl, rfl, rfl, rfl, rfl, rfl⟩
  case limit =>
    rw [exec_panelHalt, Link.panelHalt_carries hs]
    have hfails := s.applyLink_reinitLimit d (s.frameOf d) (by rcases hs with h | h <;> simp [h]) hlim
    refine ⟨_, rfl, hfails, ?_⟩
    rw [State.applyLink_links, PerOutput.get_set_same, Link.reinit_limit d _ _ hlim]

end Sys2Proof.Machine
end

section
/-! PROOF. BAD_PANEL_MESSAGE (O48): what becomes of bytes that fail the check, which bytes are a good message, and the
CRC-8. -/

namespace Sys2Proof.Machine

/-! ### Numbers as bytes, most significant first (R172) -/

/-- Bytes are none, or bytes with one more behind them. -/
theorem bytes_snocInduction {P : List Byte → Prop} (nil : P []) (snoc : ∀ bytes b, P bytes → P (bytes ++ [b]))
    (bytes : List Byte) : P bytes := by
  have hrev : ∀ rev : List Byte, P rev.reverse := by
    intro rev
    induction rev with
    | nil => exact nil
    | cons b rev ih =>
      rw [List.reverse_cons]
      exact snoc _ b ih
  rw [← List.reverse_reverse bytes]
  exact hrev _

/-- The last byte is the least significant one. -/
theorem bigEndian_succ (n v : Nat) : bigEndian (n + 1) v = bigEndian n (v / 256) ++ [BitVec.ofNat 8 v] := by
  simp [bigEndian, littleEndian]

/-- One more byte makes the number 256 times as large, and adds its value. -/
theorem bigEndianValue_append (bytes : List Byte) (b : Byte) :
    bigEndianValue (bytes ++ [b]) = bigEndianValue bytes * 256 + b.toNat := by
  simp [bigEndianValue]

/-- The number that the n bytes of a number give is that number, up to their size. -/
theorem bigEndianValue_bigEndian (n v : Nat) : bigEndianValue (bigEndian n v) = v % 256 ^ n := by
  induction n generalizing v with
  | zero => simp [bigEndian, littleEndian, bigEndianValue, Nat.mod_one]
  | succ n ih =>
    rw [bigEndian_succ, bigEndianValue_append, ih, Nat.pow_succ', Nat.mod_mul, BitVec.toNat_ofNat]
    omega

/-- The bytes of the number that n bytes give are those bytes. -/
theorem bigEndian_bigEndianValue (bytes : List Byte) : bigEndian bytes.length (bigEndianValue bytes) = bytes := by
  induction bytes using bytes_snocInduction with
  | nil => rfl
  | snoc bytes b ih =>
    have hdiv : (bigEndianValue bytes * 256 + b.toNat) / 256 = bigEndianValue bytes := by omega
    have hlast : BitVec.ofNat 8 (bigEndianValue bytes * 256 + b.toNat) = b :=
      BitVec.eq_of_toNat_eq (by rw [BitVec.toNat_ofNat]; omega)
    rw [List.length_append, List.length_singleton, bigEndian_succ, bigEndianValue_append, hdiv, hlast, ih]

/-- A number of n bytes is less than 256 to the n. -/
theorem bigEndianValue_lt (bytes : List Byte) : bigEndianValue bytes < 256 ^ bytes.length := by
  induction bytes using bytes_snocInduction with
  | nil => exact Nat.one_pos
  | snoc bytes b ih =>
    rw [bigEndianValue_append, List.length_append, List.length_singleton, Nat.pow_succ]
    omega

/-- A word that is sent as n bytes is received as it was. -/
theorem word_of_bigEndian {w : Nat} (n : Nat) (hw : 256 ^ n = 2 ^ w) (x : BitVec w) :
    BitVec.ofNat w (bigEndianValue (bigEndian n x.toNat)) = x := by
  rw [bigEndianValue_bigEndian, hw, Nat.mod_eq_of_lt x.isLt, BitVec.ofNat_toNat, BitVec.setWidth_eq]

/-- The n bytes of the word that n bytes give are those bytes. -/
theorem bigEndian_of_word (w : Nat) {n : Nat} (hw : 256 ^ n = 2 ^ w) {bytes : List Byte} (hn : bytes.length = n) :
    bigEndian n (BitVec.ofNat w (bigEndianValue bytes)).toNat = bytes := by
  subst hn
  rw [BitVec.toNat_ofNat, ← hw, Nat.mod_eq_of_lt (bigEndianValue_lt bytes), bigEndian_bigEndianValue]

/-! ### The bytes of a good message (R126, R174) -/

/-- The kind byte and the fields of a message from the panel. -/
def PanelMessage.body : PanelMessage → List Byte
  | .info w h clock => 0x81#8 :: (bigEndian 2 w.toNat ++ bigEndian 2 h.toNat ++ bigEndian 4 clock.toNat)
  | .readyNormal => [0x82#8]
  | .confirm q => [0x83#8, q]
  | .replayFrom q => [0x84#8, q]
  | .halt => [0x85#8]

/-- A message is read back from its bytes. -/
theorem panelBody_body (m : PanelMessage) : panelBody m.body = some m := by
  cases m with
  | info w h clock =>
    have hparts : panelBody (PanelMessage.info w h clock).body = some (.info
        (BitVec.ofNat 16 (bigEndianValue (bigEndian 2 w.toNat)))
        (BitVec.ofNat 16 (bigEndianValue (bigEndian 2 h.toNat)))
        (BitVec.ofNat 32 (bigEndianValue (bigEndian 4 clock.toNat)))) := rfl
    rw [hparts, word_of_bigEndian 2 rfl, word_of_bigEndian 2 rfl, word_of_bigEndian 4 rfl]
  | readyNormal => rfl
  | confirm q => rfl
  | replayFrom q => rfl
  | halt => rfl

/-- Bytes that give a message are its bytes: the kind says which, and the length leaves no more. -/
theorem body_of_panelBody (bytes : List Byte) (m : PanelMessage) (h : panelBody bytes = some m) : bytes = m.body := by
  cases bytes with
  | nil => cases h
  | cons kind fields =>
    rw [panelBody] at h
    split at h
    case isTrue hinfo =>
      obtain ⟨rfl, hlen⟩ := hinfo
      cases h
      have hw : (fields.take 2).length = 2 := by simp [hlen]
      have hh : ((fields.drop 2).take 2).length = 2 := by simp [hlen]
      have hc : (fields.drop 4).length = 4 := by simp [hlen]
      rw [PanelMessage.body, bigEndian_of_word 16 rfl hw, bigEndian_of_word 16 rfl hh, bigEndian_of_word 32 rfl hc,
        ← List.take_add, List.take_append_drop]
    split at h
    case isTrue hready =>
      obtain ⟨rfl, hlen⟩ := hready
      cases h
      rw [List.length_eq_zero_iff.mp hlen]
      rfl
    split at h
    case isTrue hconfirm =>
      obtain ⟨rfl, hlen⟩ := hconfirm
      obtain ⟨q, rfl⟩ := List.length_eq_one_iff.mp hlen
      cases h
      rfl
    split at h
    case isTrue hreplay =>
      obtain ⟨rfl, hlen⟩ := hreplay
      obtain ⟨q, rfl⟩ := List.length_eq_one_iff.mp hlen
      cases h
      rfl
    split at h
    case isTrue hhalt =>
      obtain ⟨rfl, hlen⟩ := hhalt
      cases h
      rw [List.length_eq_zero_iff.mp hlen]
      rfl
    cases h

/-- The bytes of a good message are its kind and fields with their CRC-8 behind them. -/
theorem parsePanelMessage_iff (bytes : List Byte) (m : PanelMessage) :
    parsePanelMessage bytes = some m ↔ bytes = m.body ++ [crc8 m.body] := by
  constructor
  · intro h
    cases bytes using bytes_snocInduction with
    | nil => cases h
    | snoc body check _ =>
      simp only [parsePanelMessage, List.getLast?_concat, List.dropLast_concat] at h
      split at h
      · next hcheck => rw [← body_of_panelBody body m h, hcheck]
      · cases h
  · rintro rfl
    simp only [parsePanelMessage, List.getLast?_concat, List.dropLast_concat, if_pos, panelBody_body]

/-! ### The CRC-8 (R126) -/

/-- The CRC-8 takes one more byte bit by bit. -/
theorem crc8_append (bytes : List Byte) (b : Byte) : crc8 (bytes ++ [b]) = [7, 6, 5, 4, 3, 2, 1, 0].foldl
    (fun (r : BitVec 8) i => if r.msb != b.getLsbD i then (r <<< 1) ^^^ 0x07 else r <<< 1) (crc8 bytes) := by
  rw [crc8, List.foldl_append]
  rfl

/-- Its check value, that of the digits 1 to 9. -/
theorem crc8_digits : crc8 [0x31, 0x32, 0x33, 0x34, 0x35, 0x36, 0x37, 0x38, 0x39] = 0xF4 := by decide +kernel

/-! ### The command (log entry 21) -/

/-- BAD_PANEL_MESSAGE takes the bytes for what they are. -/
theorem exec_badPanelMessage (s : State) (d : OutputId) (bytes : List Byte) :
    exec (.badPanelMessage d bytes) s = .next (s.takeMessage d (parsePanelMessage bytes)) := rfl

/-- Bytes that fail the check are counted while the link receives (R126). -/
theorem exec_badPanelMessage_bad (s : State) (d : OutputId) (bytes : List Byte) (h : parsePanelMessage bytes = none) :
    exec (.badPanelMessage d bytes) s = .next (s.setLink d (s.links.get d).badMessage) := by
  rw [exec_badPanelMessage, h]
  rfl

/-- Settles O48: bad bytes by whether the link receives, good ones by the message they spell. -/
theorem badPanelMessageCompletes : Obligations.BadPanelMessageCompletes := by
  unfold Obligations.BadPanelMessageCompletes
  refine ⟨fun s d bytes h => ⟨fun hup => ?counted, fun hup => ?ignored⟩, fun bytes body m hb => ?good, rfl,
    crc8_append, rfl, crc8_digits, fun s d bytes m h => ?taken⟩
  case counted =>
    rw [exec_badPanelMessage_bad s d bytes h, Link.badMessage, if_pos hup]
  case ignored =>
    rw [exec_badPanelMessage_bad s d bytes h, Link.badMessage, if_neg (by simp [hup]), s.setLink_get]
  case good =>
    have hbody : body = m.body := by
      rw [hb]
      cases m with
      | info w h clock => rw [PanelMessage.body, bigEndian_four]; rfl
      | readyNormal => rfl
      | confirm q => rfl
      | replayFrom q => rfl
      | halt => rfl
    rw [hbody, parsePanelMessage_iff]
  case taken =>
    rw [exec_badPanelMessage, h]
    cases m <;> rfl

end Sys2Proof.Machine
end

section
/-! PROOF. What leaves the staged credits alone: the work of chapters 2 to 7, and every command of the host; a credit
entry alone replaces them (R152, R153). With what `State.base` holds, this is all that the credit limits of O58 turn
on. -/

namespace Sys2Proof.Machine

/-- A fold of operations that keep the staged credits keeps them. -/
theorem foldl_stagedCredits {α : Type} (f : State → α → State) (h : ∀ t x, (f t x).stagedCredits = t.stagedCredits)
    (l : List α) (s : State) : (l.foldl f s).stagedCredits = s.stagedCredits := by
  induction l generalizing s with
  | nil => rfl
  | cons x l ih => exact (ih _).trans (h s x)

/-! ### Damage (chapter 2) -/

@[simp] theorem State.damagePixels_stagedCredits (s : State) (d : OutputId) (x y : Int) (w h : Nat) :
    (s.damagePixels d x y w h).stagedCredits = s.stagedCredits := by
  unfold State.damagePixels; split <;> rfl

@[simp] theorem State.damageLayers_stagedCredits (s : State) (p : Layer → Bool) :
    (s.damageLayers p).stagedCredits = s.stagedCredits := by
  rw [State.damageLayers_eq s p _ fun _ => rfl]

@[simp] theorem State.damageNotice_stagedCredits (s : State) (b : WriteBeat) :
    (s.damageNotice b).stagedCredits = s.stagedCredits := by
  rw [State.damageNotice_eq s b _ fun _ => rfl]

@[simp] theorem State.clearDamage_stagedCredits (s : State) (d : OutputId) :
    (s.clearDamage d).stagedCredits = s.stagedCredits := rfl

@[simp] theorem State.invalidate_stagedCredits (s : State) (d : OutputId) :
    (s.invalidate d).stagedCredits = s.stagedCredits := by
  unfold State.invalidate; split <;> rfl

@[simp] theorem State.damageIfEnabled_stagedCredits (s : State) (d : OutputId) (l : Option Layer) :
    (s.damageIfEnabled d l).stagedCredits = s.stagedCredits := by
  unfold State.damageIfEnabled; split
  · rfl
  · split <;> simp [State.damageLayer]

/-! ### Streams (chapter 5) -/

@[simp] theorem State.updateStream_stagedCredits (s : State) (k : StreamId) (out : Stream × List Event) :
    (s.updateStream k out).stagedCredits = s.stagedCredits := by
  unfold State.updateStream; split <;> rfl

@[simp] theorem State.runStream_stagedCredits (s : State) (k : StreamId) (rules : List StreamRule) :
    (s.runStream k rules).stagedCredits = s.stagedCredits := by
  unfold State.runStream; apply foldl_stagedCredits; intro t f; simp

@[simp] theorem State.streamNotice_stagedCredits (s : State) (b : WriteBeat) :
    (s.streamNotice b).stagedCredits = s.stagedCredits := by
  unfold State.streamNotice; apply foldl_stagedCredits; intro t k; simp [State.noticeBy]

@[simp] theorem State.streamEpoch_stagedCredits (s : State) (d : OutputId) (k : StreamId) :
    (s.streamEpoch d k).stagedCredits = s.stagedCredits := by
  unfold State.streamEpoch; dsimp only; split
  · split <;> simp [State.damageStream]
  · rfl

@[simp] theorem State.releaseHolds_stagedCredits (s : State) (d : OutputId) (ns : List SlotName) :
    (s.releaseHolds d ns).stagedCredits = s.stagedCredits := by
  unfold State.releaseHolds; apply foldl_stagedCredits; intro t n; simp

@[simp] theorem State.placeHolds_stagedCredits (s : State) (d : OutputId) (ns : List SlotName) :
    (s.placeHolds d ns).stagedCredits = s.stagedCredits := by
  unfold State.placeHolds; apply foldl_stagedCredits; intro t n; simp

/-! ### Composition (chapter 4) -/

@[simp] theorem State.startComposition_stagedCredits (s : State) (d : OutputId) :
    (s.startComposition d).stagedCredits = s.stagedCredits := by
  simp [State.startComposition]

@[simp] theorem State.compositorEpoch_stagedCredits (s : State) (d : OutputId) :
    (s.compositorEpoch d).stagedCredits = s.stagedCredits := by
  unfold State.compositorEpoch
  split
  · split
    · rfl
    · unfold State.startIfStale State.flipIfAwaiting; split <;> split <;> simp [State.flip]
  · rfl

@[simp] theorem State.tileTake_stagedCredits (s : State) : s.tileTake.stagedCredits = s.stagedCredits := by
  unfold State.tileTake State.takeTile
  split
  · split
    · rfl
    · split <;> rfl
  · rfl

@[simp] theorem State.completeTile_stagedCredits (s : State) (d : OutputId) :
    (s.completeTile d).stagedCredits = s.stagedCredits := by
  unfold State.completeTile
  split
  · rfl
  · split <;> simp [State.endComposition]

@[simp] theorem State.abandon_stagedCredits (s : State) (d : OutputId) :
    (s.abandon d).stagedCredits = s.stagedCredits := by
  unfold State.abandon; dsimp only; split
  · split
    · rfl
    · split <;> rfl
  · split
    · simp
    · split <;> simp

@[simp] theorem State.compRead_stagedCredits (s : State) (found : List TileData) :
    (s.compRead found).stagedCredits = s.stagedCredits := by
  unfold State.compRead; split
  · rfl
  · split <;> rfl

@[simp] theorem State.compWrite_stagedCredits (s : State) : s.compWrite.stagedCredits = s.stagedCredits := by
  unfold State.compWrite; split
  · rfl
  · dsimp only; split
    · unfold State.jobWrite; split <;> simp
    · rfl

/-! ### Links and outputs (chapters 6 and 7) -/

@[simp] theorem State.enterOutput_stagedCredits (s : State) (d : OutputId) (st : OutputState) (r : Nat) :
    (s.enterOutput d st r).stagedCredits = s.stagedCredits := rfl

@[simp] theorem State.discardScans_stagedCredits (s : State) (d : OutputId) (p : Nat → Bool) :
    (s.discardScans d p).stagedCredits = s.stagedCredits := rfl

@[simp] theorem State.stopFetcher_stagedCredits (s : State) (d : OutputId) :
    (s.stopFetcher d).stagedCredits = s.stagedCredits := rfl

@[simp] theorem State.outputFault_stagedCredits (s : State) (d : OutputId) :
    (s.outputFault d).stagedCredits = s.stagedCredits := by
  unfold State.outputFault; split <;> simp

@[simp] theorem State.applyLink_stagedCredits (s : State) (d : OutputId) (out : LinkOut) :
    (s.applyLink d out).stagedCredits = s.stagedCredits := by
  unfold State.applyLink; dsimp only; split <;> split <;> simp

@[simp] theorem State.runLink_stagedCredits (s : State) (d : OutputId) (f : OutputId → Count → Link → LinkOut) :
    (s.runLink d f).stagedCredits = s.stagedCredits := by simp [State.runLink]

@[simp] theorem State.leaveTraining_stagedCredits (s : State) (d : OutputId) :
    (s.leaveTraining d).stagedCredits = s.stagedCredits := by
  unfold State.leaveTraining; dsimp only; split
  · split <;> simp [State.firstEntry, State.wholeDamage]
  · rfl

@[simp] theorem State.startOutput_stagedCredits (s : State) (d : OutputId) :
    (s.startOutput d).stagedCredits = s.stagedCredits := by
  unfold State.startOutput; dsimp only; split <;> simp

@[simp] theorem State.lockCompletion_stagedCredits (s : State) (d : OutputId) :
    (s.lockCompletion d).stagedCredits = s.stagedCredits := by
  unfold State.lockCompletion; split <;> simp [State.lockLocking, State.changeLock]

@[simp] theorem State.lockLoss_stagedCredits (s : State) (d : OutputId) :
    (s.lockLoss d).stagedCredits = s.stagedCredits := by
  unfold State.lockLoss; split
  · simp [State.lockLost, State.changeLock]
  · split <;> rfl

@[simp] theorem State.stopOutput_stagedCredits (s : State) (d : OutputId) :
    (s.stopOutput d).stagedCredits = s.stagedCredits := by
  unfold State.stopOutput; split <;> simp [State.stopRunning, State.withdrawCommit]

@[simp] theorem State.freezeOutput_stagedCredits (s : State) (d : OutputId) :
    (s.freezeOutput d).stagedCredits = s.stagedCredits := by
  unfold State.freezeOutput; split <;> rfl

@[simp] theorem State.thawOutput_stagedCredits (s : State) (d : OutputId) :
    (s.thawOutput d).stagedCredits = s.stagedCredits := by
  unfold State.thawOutput; split <;> rfl

@[simp] theorem State.layerEpoch_stagedCredits (s : State) (d : OutputId) :
    (s.layerEpoch d).stagedCredits = s.stagedCredits := by
  unfold State.layerEpoch; dsimp only; split
  · rw [State.raise_stagedCredits, foldl_stagedCredits]
    · rfl
    · intro t i; simp [State.damageChange]
  · rfl

@[simp] theorem State.react_stagedCredits (s : State) (d : OutputId) (r : EpochReaction) :
    (s.react d r).stagedCredits = s.stagedCredits := by
  cases r <;> simp [State.react]

@[simp] theorem State.declareEpoch_stagedCredits (s : State) (d : OutputId) :
    (s.declareEpoch d).stagedCredits = s.stagedCredits := by
  simp only [State.declareEpoch, State.epochEvent, State.scanUnderflow]
  split <;> simp

@[simp] theorem State.frameEpoch_stagedCredits (s : State) (d : OutputId) (order : List EpochReaction) :
    (s.frameEpoch d order).stagedCredits = s.stagedCredits := by
  unfold State.frameEpoch; rw [foldl_stagedCredits]
  · simp
  · intro t r; simp

@[simp] theorem State.lineMatchAt_stagedCredits (s : State) (d : OutputId) (y : Nat) :
    (s.lineMatchAt d y).stagedCredits = s.stagedCredits := by
  unfold State.lineMatchAt; dsimp only; split <;> rfl

@[simp] theorem State.beginFetch_stagedCredits (s : State) (d : OutputId) :
    (s.beginFetch d).stagedCredits = s.stagedCredits := by
  unfold State.beginFetch; dsimp only; split <;> rfl

@[simp] theorem State.outputLine_stagedCredits (s : State) (d : OutputId) (y : Nat) (order : List EpochReaction) :
    (s.outputLine d y order).1.stagedCredits = s.stagedCredits := by
  unfold State.outputLine; dsimp only; split <;> split <;> split <;> simp [State.handOff]

@[simp] theorem State.lineStart_stagedCredits (s : State) (d : OutputId) (order : List EpochReaction) :
    (s.lineStart d order).stagedCredits = s.stagedCredits := by
  unfold State.lineStart; dsimp only; split
  · split <;> simp
  · rfl

@[simp] theorem State.linkBeforeEpoch_stagedCredits (s : State) (d : OutputId) (order : List EpochReaction) :
    (s.linkBeforeEpoch d order).stagedCredits = s.stagedCredits := by
  unfold State.linkBeforeEpoch; dsimp only; split <;> simp

@[simp] theorem State.takeReadyNormal_stagedCredits (s : State) (d : OutputId) :
    (s.takeReadyNormal d).stagedCredits = s.stagedCredits := by
  unfold State.takeReadyNormal; dsimp only; split <;> simp

@[simp] theorem State.takeMessage_stagedCredits (s : State) (d : OutputId) (m : Option PanelMessage) :
    (s.takeMessage d m).stagedCredits = s.stagedCredits := by
  unfold State.takeMessage
  split <;> simp [State.takeBadMessage, State.takePanelInfo, State.takeConfirm, State.takeReplayFrom,
    State.takePanelHalt]

/-! ### Commands of the host (R161, R164) -/

/-- A command on an output keeps the staged credits when its effect does. -/
theorem State.onOutput_stagedCredits (s : State) (c : Nat) (o : Byte) (f : OutputId → State)
    (h : ∀ d, (f d).stagedCredits = s.stagedCredits) : (s.onOutput c o f).stagedCredits = s.stagedCredits := by
  unfold State.onOutput; split
  · rfl
  · exact h _

/-- A command on a stream keeps the staged credits when its effect does. -/
theorem State.onStream_stagedCredits (s : State) (c : Nat) (o : Byte) (f : StreamId → State)
    (h : ∀ k, (f k).stagedCredits = s.stagedCredits) : (s.onStream c o f).stagedCredits = s.stagedCredits := by
  unfold State.onStream; split
  · rfl
  · exact h _

@[simp] theorem State.startStream_stagedCredits (s : State) (k : StreamId) :
    (s.startStream k).stagedCredits = s.stagedCredits := by
  unfold State.startStream; split <;> simp

@[simp] theorem State.pauseStream_stagedCredits (s : State) (k : StreamId) :
    (s.pauseStream k).stagedCredits = s.stagedCredits := by
  unfold State.pauseStream; split <;> simp [State.refuseStream]

@[simp] theorem State.resumeStream_stagedCredits (s : State) (k : StreamId) :
    (s.resumeStream k).stagedCredits = s.stagedCredits := by
  unfold State.resumeStream; split <;> simp [State.refuseStream]

@[simp] theorem State.stopStream_stagedCredits (s : State) (k : StreamId) :
    (s.stopStream k).stagedCredits = s.stagedCredits := by
  unfold State.stopStream; dsimp only; split
  · rfl
  · split <;> simp [State.damageStream]

@[simp] theorem State.resetLink_stagedCredits (s : State) (d : OutputId) :
    (s.resetLink d).stagedCredits = s.stagedCredits := by
  simp [State.resetLink]

@[simp] theorem State.resetCompositor_stagedCredits (s : State) :
    s.resetCompositor.stagedCredits = s.stagedCredits :=
  (foldl_stagedCredits _ (fun t d => t.abandon_stagedCredits d) bothOutputs s : _)

@[simp] theorem State.resetOutputs_stagedCredits (s : State) : s.resetOutputs.stagedCredits = s.stagedCredits :=
  (foldl_stagedCredits _ (fun t d => t.stopFetcher_stagedCredits d) bothOutputs s : _)

@[simp] theorem State.resetLinks_stagedCredits (s : State) : s.resetLinks.stagedCredits = s.stagedCredits :=
  (foldl_stagedCredits _ (fun t d => t.resetLink_stagedCredits d) bothOutputs s : _)

@[simp] theorem State.resetTables_stagedCredits (s : State) : s.resetTables.stagedCredits = s.stagedCredits := rfl

@[simp] theorem State.cancelReadback_stagedCredits (s : State) : s.cancelReadback.stagedCredits = s.stagedCredits := rfl

@[simp] theorem State.announceReset_stagedCredits (s : State) (c : ResetCause) :
    (s.announceReset c).stagedCredits = s.stagedCredits := rfl

@[simp] theorem State.takeSoftReset_stagedCredits (s : State) : s.takeSoftReset.stagedCredits = s.stagedCredits := by
  simp [State.takeSoftReset]

@[simp] theorem State.takeRebalance_stagedCredits (s : State) : s.takeRebalance.stagedCredits = s.stagedCredits := by
  unfold State.takeRebalance; split <;> simp

@[simp] theorem State.takeReadback_stagedCredits (s : State) (a b c : Byte) :
    (s.takeReadback a b c).stagedCredits = s.stagedCredits := by
  unfold State.takeReadback; split <;> rfl

/-- No command of the host changes the staged credits (R161). -/
@[simp] theorem State.takeCommandFields_stagedCredits (s : State) (c o : Byte) (p : BitVec 16) :
    (s.takeCommandFields c o p).stagedCredits = s.stagedCredits := by
  unfold State.takeCommandFields
  split
  · exact s.onOutput_stagedCredits _ _ _ fun _ => rfl
  · exact s.onOutput_stagedCredits _ _ _ s.invalidate_stagedCredits
  · exact s.onStream_stagedCredits _ _ _ s.startStream_stagedCredits
  · exact s.onStream_stagedCredits _ _ _ s.pauseStream_stagedCredits
  · exact s.onStream_stagedCredits _ _ _ s.resumeStream_stagedCredits
  · exact s.onStream_stagedCredits _ _ _ s.stopStream_stagedCredits
  · exact s.onOutput_stagedCredits _ _ _ s.startOutput_stagedCredits
  · exact s.onOutput_stagedCredits _ _ _ s.stopOutput_stagedCredits
  · exact s.onOutput_stagedCredits _ _ _ s.freezeOutput_stagedCredits
  · exact s.onOutput_stagedCredits _ _ _ s.thawOutput_stagedCredits
  · exact s.takeRebalance_stagedCredits
  · exact s.takeReadback_stagedCredits _ _ _
  · rfl
  · exact s.takeSoftReset_stagedCredits
  · rfl

/-! ### The table port (R152, R160) -/

/-- An entry that its owner takes leaves the staged PASS count at 1 or more: a credit entry is clamped, and no other
touches the counts (R152). -/
theorem State.applyEntry_staged_pass (s : State) (t : TableId) (entry : Nat) (ws : List Word)
    (h : 1 ≤ s.stagedCredits.pass) : 1 ≤ (s.applyEntry t entry ws).stagedCredits.pass := by
  unfold State.applyEntry
  split
  · unfold State.applySurface; split
    · exact h
    · rw [State.damageLayers_stagedCredits]; exact h
  · unfold State.applyLayer; dsimp only; split <;> exact h
  · unfold State.applyStream; dsimp only; split <;> exact h
  · exact h
  · rw [s.applyCredit_eq ws _ rfl]; exact Nat.le_max_left 1 _
  · exact h

/-- So does a word of TABLE_DATA (R160). -/
theorem State.takeTableData_staged_pass (s : State) (w : Word) (h : 1 ≤ s.stagedCredits.pass) :
    1 ≤ (s.takeTableData w).stagedCredits.pass := by
  unfold State.takeTableData
  split
  · exact h
  · split
    · exact h
    · unfold State.storeWord; dsimp only; split
      · exact s.applyEntry_staged_pass _ _ _ h
      · exact h

end Sys2Proof.Machine
end

section
/-! PROOF. What one command can do to the memory path: most leave it alone, the others present, accept, grant or
complete requests, take a command of the host, or reset the part. The invariants of this family are read off this
list. -/

namespace Sys2Proof.Machine

/-- From s to t the memory path, its credits and its drain have stayed as they were. -/
structure LeavesPath (s t : State) : Prop where
  path : t.path = s.path
  active : t.activeCredits = s.activeCredits
  staged : t.stagedCredits = s.stagedCredits
  drain : t.drain = s.drain

theorem LeavesPath.refl (s : State) : LeavesPath s s := ⟨rfl, rfl, rfl, rfl⟩

/-- What keeps the base and the staged credits leaves the path alone. -/
theorem LeavesPath.of_base {s t : State} (hb : t.base = s.base) (hs : t.stagedCredits = s.stagedCredits) :
    LeavesPath s t :=
  ⟨path_of_base hb, congrArg Base.activeCredits hb, hs, congrArg Base.drain hb⟩

/-- So does a change of the event writer. -/
theorem LeavesPath.of_events (s : State) (w : EventWriter) : LeavesPath s { s with events := w } := ⟨rfl, rfl, rfl, rfl⟩

/-- The completed write of a block leaves the path alone (R162, R169). -/
theorem State.blockWritten_leavesPath (s : State) (b : Block) (live : Bool) : LeavesPath s (s.blockWritten b live) := by
  obtain ⟨w, hw⟩ := s.blockWritten_eq b live
  exact hw ▸ .of_events s w

/-- The commands whose completion writes memory: a host write, a row of a tile, a record, a block, the readback area;
and a hardware reset (R147, R156). -/
def WritesMemory (c : Instr) : Prop :=
  c = .hostWriteCompletion ∨ c = .compWriteCompletion ∨ c = .tileCompletion ∨ c = .recordWriteCompletion ∨
    c = .statusBlockCompletion ∨ c = .readbackDone ∨ ∃ cause, c = .hardwareReset cause

/-- What command c may make of part s, as far as the memory path goes. -/
inductive PathStep (s : State) : Instr → State → Prop
  /-- The command is no business of the path's. -/
  | leaves {c t} (h : LeavesPath s t) : PathStep s c t
  /-- A command of the host is taken (R161). -/
  | command {c} (code operand1 : Byte) (operand2 : BitVec 16) :
      PathStep s c (s.takeCommandFields code operand1 operand2)
  /-- A table word is taken, and what waits upstream may be accepted (R144, R160). -/
  | tableData {c} (w : Word) : PathStep s c (s.takeTableData w).acceptWaiting
  /-- The host presents a request (R144). -/
  | present {c} (r : UpRequest) : PathStep s c (s.present r)
  /-- The arbiter's choice is granted the port (R151). -/
  | grant {c} (k : Client) (f : Flight) (hk : s.grantee = some k) (hf : s.presents k = some f) :
      PathStep s c (s.grant f)
  /-- A beat of a host write completes (R147). -/
  | hostBeat {c} (hc : WritesMemory c) (b : WriteBeat) (rest : List WriteBeat)
      (h : s.inFlight.head? = some (.hostWrite (b :: rest))) : PathStep s c (s.completeHostBeat b rest)
  /-- A host read completes (R149). -/
  | hostData {c} (id start : Nat) (data : List BeatData) :
      PathStep s c ((s.removeOldest.returnData id start data).returnReads).acceptWaiting
  /-- Another request completes: its beats are written, it leaves the port, and its client takes notice (R147). -/
  | completes {c t} (beats : List WriteBeat) (hc : beats = [] ∨ WritesMemory c)
      (h : LeavesPath (s.writeMemory beats).removeOldest t) : PathStep s c t
  /-- The reset line is asserted (R156). -/
  | hardwareReset {c} (hc : WritesMemory c) (cause : HardwareCause) : PathStep s c (s.hardwareReset cause)
  /-- The reset line is released, and what waits upstream may be accepted (R171). -/
  | release {c} : PathStep s c s.releaseReset

/-- A command that always runs makes of the part what its meaning says. -/
theorem PathStep.of_next {s t u : State} {c : Instr} (h : (.next u : Host.Outcome State Fault Refusal) = .next t)
    (hu : PathStep s c u) : PathStep s c t := Host.Outcome.next.inj h ▸ hu

/-- A line start and the rest of chapters 2 to 7 leave the path alone. -/
theorem PathStep.of_base {s t u : State} {c : Instr} (h : (.next u : Host.Outcome State Fault Refusal) = .next t)
    (hb : u.base = s.base) (hs : u.stagedCredits = s.stagedCredits) : PathStep s c t :=
  .of_next h (.leaves (.of_base hb hs))

/-! ### The completions (R147) -/

theorem hostWriteCompletion_pathStep {s t : State} (h : exec .hostWriteCompletion s = .next t) :
    PathStep s .hostWriteCompletion t := by
  change execHostWriteCompletion s = _ at h
  unfold execHostWriteCompletion at h
  split at h
  · next b rest hf => exact .of_next h (.hostBeat (.inl rfl) b rest hf)
  · exact .of_next h (.leaves (.refl s))

theorem hostReadCompletion_pathStep {s t : State} (h : exec .hostReadCompletion s = .next t) :
    PathStep s .hostReadCompletion t := by
  change execHostReadCompletion s = _ at h
  unfold execHostReadCompletion at h
  split at h
  · next id start addrs _ => exact .of_next h (.hostData id start _)
  · exact .of_next h (.leaves (.refl s))

theorem scanReadCompletion_pathStep {s t : State} (h : exec .scanReadCompletion s = .next t) :
    PathStep s .scanReadCompletion t := by
  change execScanReadCompletion s = _ at h
  unfold execScanReadCompletion at h
  split at h
  · refine .of_next h (.completes [] (.inl rfl) ?_)
    unfold State.returnPixels
    split
    · exact .of_base rfl rfl
    · exact .refl _
  · exact .of_next h (.leaves (.refl s))

theorem compReadCompletion_pathStep {s t : State} (h : exec .compReadCompletion s = .next t) :
    PathStep s .compReadCompletion t := by
  change execCompReadCompletion s = _ at h
  unfold execCompReadCompletion at h
  split at h
  · exact .of_next h (.completes [] (.inl rfl) (.of_base (State.compRead_base _ _) (State.compRead_stagedCredits _ _)))
  · exact .of_next h (.leaves (.refl s))

/-- A row write of a tile completes, under either of its two names (log entry 16). -/
theorem PathStep.compWrite {s t : State} {c : Instr} (hc : WritesMemory c) (beats : List WriteBeat)
    (h : (.next (s.writeMemory beats).removeOldest.compWrite : Host.Outcome State Fault Refusal) = .next t) :
    PathStep s c t :=
  .of_next h (.completes beats (.inr hc) (.of_base (State.compWrite_base _) (State.compWrite_stagedCredits _)))

theorem compWriteCompletion_pathStep {s t : State} (h : exec .compWriteCompletion s = .next t) :
    PathStep s .compWriteCompletion t := by
  change execCompWriteCompletion s = _ at h
  unfold execCompWriteCompletion at h
  split at h
  · exact .compWrite (by simp [WritesMemory]) _ h
  · exact .of_next h (.leaves (.refl s))

theorem tileCompletion_pathStep {s t : State} (h : exec .tileCompletion s = .next t) :
    PathStep s .tileCompletion t := by
  change execTileCompletion s = _ at h
  unfold execTileCompletion at h
  split at h
  · split at h
    · exact .compWrite (by simp [WritesMemory]) _ h
    · exact .of_next h (.leaves (.refl s))
  · exact .of_next h (.leaves (.refl s))

theorem recordWriteCompletion_pathStep {s t : State} (h : exec .recordWriteCompletion s = .next t) :
    PathStep s .recordWriteCompletion t := by
  change execRecordWriteCompletion s = _ at h
  unfold execRecordWriteCompletion at h
  split at h
  · exact .of_next h (.completes _ (.inr (by simp [WritesMemory])) (.of_events _ _))
  · exact .of_next h (.leaves (.refl s))

theorem statusBlockCompletion_pathStep {s t : State} (h : exec .statusBlockCompletion s = .next t) :
    PathStep s .statusBlockCompletion t := by
  change execStatusBlockCompletion s = _ at h
  unfold execStatusBlockCompletion at h
  split at h
  · exact .of_next h (.completes _ (.inr (by simp [WritesMemory])) (State.blockWritten_leavesPath _ _ _))
  · exact .of_next h (.leaves (.refl s))

theorem readbackDone_pathStep {s t : State} (h : exec .readbackDone s = .next t) : PathStep s .readbackDone t := by
  change execReadbackDone s = _ at h
  unfold execReadbackDone at h
  split at h
  · exact .of_next h (.completes _ (.inr (by simp [WritesMemory])) (State.blockWritten_leavesPath _ _ _))
  · exact .of_next h (.leaves (.refl s))

/-! ### The port and the event writer -/

theorem downstreamGrant_pathStep {s t : State} (h : exec .downstreamGrant s = .next t) :
    PathStep s .downstreamGrant t := by
  change execDownstreamGrant s = _ at h
  unfold execDownstreamGrant at h
  split at h
  · exact .of_next h (.leaves (.refl s))
  · next f hf =>
    obtain ⟨k, hk, hf⟩ := Option.bind_eq_some_iff.mp hf
    split at h
    · exact .of_next h (.grant k f hk hf)
    · cases h

theorem recordForm_pathStep {s t : State} (h : exec .recordForm s = .next t) : PathStep s .recordForm t := by
  change execRecordForm s = _ at h
  unfold execRecordForm at h
  split at h
  · exact .of_next h (.leaves (.of_events s _))
  · exact .of_next h (.leaves (.refl s))

theorem statusBlockWrite_pathStep {s t : State} (h : exec .statusBlockWrite s = .next t) :
    PathStep s .statusBlockWrite t := by
  change execStatusBlockWrite s = _ at h
  unfold execStatusBlockWrite at h
  split at h
  · exact .of_next h (.leaves (.refl s))
  · exact .of_next h (.leaves (.of_events s _))

theorem takeConsumed_leavesPath (s : State) (w : Word) : LeavesPath s (s.takeConsumed w) := by
  unfold State.takeConsumed
  dsimp only
  split <;> exact .of_events s _

theorem takeReadback_leavesPath (s : State) (table entry selector : Byte) :
    LeavesPath s (s.takeReadback table entry selector) := by
  unfold State.takeReadback
  split <;> exact .of_events s _

/-! ### All commands -/

/-- A row that names a special line start is a line start, or nothing (log entries 2 and 3). -/
theorem PathStep.of_lineStart {s t : State} {c : Instr} {d : OutputId} {p : Prop} [Decidable p]
    (h : (if p then .next (s.lineStart d []) else .next s : Host.Outcome State Fault Refusal) = .next t) :
    PathStep s c t := by
  split at h
  · exact .of_base h (s.lineStart_base d []) (s.lineStart_stagedCredits d [])
  · exact .of_next h (.leaves (.refl s))

/-- Whatever a command makes of the part is one of the steps above. -/
theorem exec_pathStep {c : Instr} {s t : State} (h : exec c s = .next t) : PathStep s c t := by
  cases c with
  | hostWrite addr beats =>
    change execHostWrite addr beats s = _ at h
    unfold execHostWrite at h
    split at h
    · exact .of_next h (.present _)
    · cases h
  | hostRead addr beats =>
    change execHostRead addr beats s = _ at h
    unfold execHostRead at h
    split at h
    · exact .of_next h (.present _)
    · cases h
  | downstreamGrant => exact downstreamGrant_pathStep h
  | hostWriteCompletion => exact hostWriteCompletion_pathStep h
  | hostReadCompletion => exact hostReadCompletion_pathStep h
  | scanReadCompletion => exact scanReadCompletion_pathStep h
  | tileTake => exact .of_base h s.tileTake_base s.tileTake_stagedCredits
  | compReadCompletion => exact compReadCompletion_pathStep h
  | compWriteCompletion => exact compWriteCompletion_pathStep h
  | tileCompletion => exact tileCompletion_pathStep h
  | recordForm => exact recordForm_pathStep h
  | recordWriteCompletion => exact recordWriteCompletion_pathStep h
  | statusBlockWrite => exact statusBlockWrite_pathStep h
  | statusBlockCompletion => exact statusBlockCompletion_pathStep h
  | readbackDone => exact readbackDone_pathStep h
  | tableSelect w => exact .of_next h (.leaves (.of_base (s.selectTable_base w) rfl))
  | tableData w => exact .of_next h (.tableData w)
  | commit o => exact .of_next h (.command 0x01 o 0)
  | invalidate o => exact .of_next h (.command 0x02 o 0)
  | streamStart o => exact .of_next h (.command 0x10 o 0)
  | streamPause o => exact .of_next h (.command 0x11 o 0)
  | streamResume o => exact .of_next h (.command 0x12 o 0)
  | streamStop o => exact .of_next h (.command 0x13 o 0)
  | outputStart o => exact .of_next h (.command 0x20 o 0)
  | outputStop o => exact .of_next h (.command 0x21 o 0)
  | outputFreeze o => exact .of_next h (.command 0x22 o 0)
  | outputThaw o => exact .of_next h (.command 0x23 o 0)
  | rebalance => exact .of_next h (.command 0x30 0 0)
  | readback table entry selector => exact .of_next h (.leaves (takeReadback_leavesPath s table entry selector))
  | clearCounters => exact .of_next h (.command 0x41 0 0)
  | softReset => exact .of_next h (.command 0x7F 0 0)
  | unknownCommand code o p => exact .of_next h (.command code o p)
  | eventMask w => exact .of_next h (.leaves (.of_events s _))
  | eventConsumed w => exact .of_next h (.leaves (takeConsumed_leavesPath s w))
  | lineStart d => exact .of_base h (s.lineStart_base d []) (s.lineStart_stagedCredits d [])
  | frameEpoch d order =>
    change execFrameEpoch d order s = _ at h
    unfold execFrameEpoch at h
    split at h
    · refine .of_base h ?_ ?_ <;> split <;> simp
    · exact .of_next h (.leaves (.refl s))
  | announceTimeout d => exact .of_lineStart h
  | configuringExpiry d => exact .of_lineStart h
  | confirmTimeout d => exact .of_lineStart h
  | lockCompletion d => exact .of_base h (s.lockCompletion_base d) (s.lockCompletion_stagedCredits d)
  | lockLoss d => exact .of_base h (s.lockLoss_base d) (s.lockLoss_stagedCredits d)
  | panelInfo d width height clock => exact .of_base h (s.takePanelInfo_base d _ _ _) (s.runLink_stagedCredits d _)
  | readyNormal d => exact .of_base h (s.takeReadyNormal_base d) (s.takeReadyNormal_stagedCredits d)
  | confirm d q => exact .of_base h (s.takeConfirm_base d q) (s.runLink_stagedCredits d _)
  | replayFrom d q => exact .of_base h (s.takeReplayFrom_base d q) (s.runLink_stagedCredits d _)
  | panelHalt d => exact .of_base h (s.takePanelHalt_base d) (s.runLink_stagedCredits d _)
  | badPanelMessage d bytes => exact .of_base h (s.takeMessage_base d _) (s.takeMessage_stagedCredits d _)
  | hardwareReset cause => exact .of_next h (.hardwareReset (by simp [WritesMemory]) cause)
  | resetRelease => exact .of_next h .release

end Sys2Proof.Machine
end

section
/-! PROOF. The queue of commands and memory (O2): what each step of the memory path does to the two. -/

namespace Sys2Proof.Machine

theorem pending_of_path {s t : State} (h : t.path = s.path) : t.pending = s.pending := congrArg PathView.pending h

theorem mem_of_path {s t : State} (h : t.path = s.path) : t.mem = s.mem := congrArg PathView.mem h

@[simp] theorem State.afterGrant_pending (s : State) (f : Flight) : (s.afterGrant f).pending = s.pending := by
  cases f <;> rfl

@[simp] theorem State.afterGrant_mem (s : State) (f : Flight) : (s.afterGrant f).mem = s.mem := by
  cases f <;> rfl

/-- The last beat of a host write: written, its request gone, then noticed; what waits upstream may be accepted (R147,
log entries 6 and 17). -/
theorem State.completeHostBeat_last (s : State) (b : WriteBeat) :
    s.completeHostBeat b [] = ((s.writeMemory [b]).removeOldest.notice b).acceptWaiting := rfl

/-- A beat before the last: written and noticed, and the rest of the request is the oldest in flight again (R147). -/
theorem State.completeHostBeat_more (s : State) (b c : WriteBeat) (rest : List WriteBeat) :
    s.completeHostBeat b (c :: rest) =
      ((State.notice { s with mem := s.mem.writeBeat b, inFlight := s.inFlight.tail } b).restoreWrite
        (c :: rest)).acceptWaiting := rfl

@[simp] theorem State.restoreWrite_pending (s : State) (rest : List WriteBeat) :
    (s.restoreWrite rest).pending = s.pending := rfl

/-- A completed beat of a host write keeps the queue of commands: its notice keeps the path (R147). -/
theorem State.completeHostBeat_pending (s : State) (b : WriteBeat) (rest : List WriteBeat) :
    (s.completeHostBeat b rest).pending = s.pending := by
  cases rest with
  | nil =>
    rw [State.completeHostBeat_last, State.acceptWaiting_pending, pending_of_path (State.notice_path _ b)]
    exact State.endDrain_pending _
  | cons c rest =>
    rw [State.completeHostBeat_more, State.acceptWaiting_pending, State.restoreWrite_pending,
      pending_of_path (State.notice_path _ b)]

theorem State.releaseReset_path (s : State) : s.releaseReset.pending = s.pending ∧ s.releaseReset.mem = s.mem := by
  unfold State.releaseReset
  split
  · rw [State.acceptWaiting_pending, State.acceptWaiting_mem]
    exact ⟨rfl, rfl⟩
  · exact ⟨rfl, rfl⟩

/-- No step touches the queue of commands. -/
theorem PathStep.pending {s t : State} {c : Instr} (h : PathStep s c t) : t.pending = s.pending := by
  cases h with
  | leaves h => exact pending_of_path h.path
  | command => exact pending_of_path (s.takeCommandFields_path _ _ _)
  | tableData w => rw [State.acceptWaiting_pending, pending_of_base (s.takeTableData_base w)]
  | present => exact State.acceptWaiting_pending _
  | grant k f => exact (State.acceptWaiting_pending _).trans (s.afterGrant_pending f)
  | hostBeat _ b rest => exact s.completeHostBeat_pending b rest
  | hostData => exact (State.acceptWaiting_pending _).trans (State.endDrain_pending _)
  | completes beats _ h => exact (pending_of_path h.path).trans (State.endDrain_pending _)
  | hardwareReset => rfl
  | release => exact s.releaseReset_path.1

/-- Only a command that writes memory changes it (R147, R156). -/
theorem PathStep.mem {s t : State} {c : Instr} (h : PathStep s c t) (hc : ¬ WritesMemory c) : t.mem = s.mem := by
  cases h with
  | leaves h => exact mem_of_path h.path
  | command => exact mem_of_path (s.takeCommandFields_path _ _ _)
  | tableData w => rw [State.acceptWaiting_mem, mem_of_base (s.takeTableData_base w)]
  | present => exact State.acceptWaiting_mem _
  | grant k f => exact (State.acceptWaiting_mem _).trans (s.afterGrant_mem f)
  | hostBeat hw => exact absurd hw hc
  | hostData => exact (State.acceptWaiting_mem _).trans (State.endDrain_mem _)
  | completes beats hw h =>
    obtain rfl := hw.resolve_right hc
    exact (mem_of_path h.path).trans (State.endDrain_mem _)
  | hardwareReset hw => exact absurd hw hc
  | release => exact s.releaseReset_path.2

/-- Settles O2: every command is a step of the memory path, and each step keeps the two. -/
theorem queueAndMemoryAreKept : Obligations.QueueAndMemoryAreKept := by
  unfold Obligations.QueueAndMemoryAreKept
  refine ⟨fun c s t h => (exec_pathStep h).pending, fun c s t h h1 h2 h3 h4 h5 h6 h7 => (exec_pathStep h).mem ?_⟩
  simp only [WritesMemory, h1, h2, h3, h4, h5, h6, false_or]
  exact fun ⟨cause, hcause⟩ => h7 cause hcause

end Sys2Proof.Machine
end

section
/-! PROOF. The write queue and the read tracker stay within their sizes (O59): acceptance alone adds to them, and it
asks for room first. -/

namespace Sys2Proof.Machine

open Sys2Proof.Safety

/-- A request is accepted only where it finds room (R144). -/
theorem State.tryAccept_bounded {s t : State} {r : UpRequest} (h : s.tryAccept r = some t) (hs : QueuesBounded s) :
    QueuesBounded t := by
  obtain ⟨hq, ht⟩ := hs
  cases r with
  | write addr beats =>
    change (if _ then some _ else none) = _ at h
    split at h <;> cases h
    next room =>
      refine ⟨?_, ht⟩
      change (s.writeQueue ++ _).length ≤ _
      rwa [List.length_append]
  | read addr beats =>
    change (if _ then some _ else none) = _ at h
    split at h <;> cases h
    next room =>
      refine ⟨hq, Nat.le_trans (List.dropWhile_suffix _).length_le ?_⟩
      change (s.tracker ++ [_]).length ≤ _
      rwa [List.length_append]

theorem acceptFrom_bounded (rs : List UpRequest) (s : State) (hs : QueuesBounded s) :
    QueuesBounded (acceptFrom rs s) := by
  induction rs generalizing s with
  | nil => exact hs
  | cons r rs ih =>
    unfold acceptFrom
    split
    · exact hs
    · next t h => exact ih t (State.tryAccept_bounded h hs)

theorem State.acceptWaiting_bounded {s : State} (hs : QueuesBounded s) : QueuesBounded s.acceptWaiting := by
  unfold State.acceptWaiting
  split
  · exact hs
  · exact acceptFrom_bounded _ s hs

/-- The two queues are part of the path. -/
theorem queuesBounded_of_path {s t : State} (h : t.path = s.path) (hs : QueuesBounded s) : QueuesBounded t := by
  have hq : t.writeQueue = s.writeQueue := congrArg PathView.writeQueue h
  have ht : t.tracker = s.tracker := congrArg PathView.tracker h
  rw [QueuesBounded, hq, ht]
  exact hs

/-- A request that leaves the port leaves the two queues alone. -/
theorem State.removeOldest_bounded {s : State} (hs : QueuesBounded s) : QueuesBounded s.removeOldest :=
  queuesBounded_of_path (State.endDrain_path _) hs

/-- A grant takes beats from the write queue and adds no read to the tracker (R146, R148). -/
theorem State.afterGrant_bounded {s : State} (f : Flight) (hs : QueuesBounded s) : QueuesBounded (s.afterGrant f) := by
  obtain ⟨hq, ht⟩ := hs
  cases f with
  | hostWrite beats => exact ⟨Nat.le_trans (List.drop_suffix _ _).length_le hq, ht⟩
  | hostRead id start addrs => exact ⟨hq, Nat.le_trans (Nat.le_of_eq (List.length_map _)) ht⟩
  | scanRead | compRead | compWrite | recordWrite | blockWrite => exact ⟨hq, ht⟩

/-- Data that returns fills reads of the tracker, and complete ones leave it (R149). -/
theorem State.returnData_bounded {s : State} (id start : Nat) (data : List BeatData) (hs : QueuesBounded s) :
    QueuesBounded (s.returnData id start data).returnReads := by
  obtain ⟨hq, ht⟩ := hs
  exact ⟨hq, Nat.le_trans (List.dropWhile_suffix _).length_le (Nat.le_trans (Nat.le_of_eq (List.length_map _)) ht)⟩

theorem State.notice_bounded {s : State} (b : WriteBeat) (hs : QueuesBounded s) : QueuesBounded (s.notice b) :=
  queuesBounded_of_path (s.notice_path b) hs

theorem State.completeHostBeat_bounded {s : State} (b : WriteBeat) (rest : List WriteBeat) (hs : QueuesBounded s) :
    QueuesBounded (s.completeHostBeat b rest) := by
  cases rest with
  | nil =>
    rw [State.completeHostBeat_last]
    exact acceptWaiting_bounded (notice_bounded b (removeOldest_bounded (s := s.writeMemory [b]) hs))
  | cons c rest =>
    rw [State.completeHostBeat_more]
    have hn := notice_bounded (s := { s with mem := s.mem.writeBeat b, inFlight := s.inFlight.tail }) b hs
    exact acceptWaiting_bounded (s := State.restoreWrite _ (c :: rest)) hn

/-- Every step keeps the two queues within their sizes. -/
theorem PathStep.bounded {s t : State} {c : Instr} (h : PathStep s c t) (hs : QueuesBounded s) : QueuesBounded t := by
  cases h with
  | leaves h => exact queuesBounded_of_path h.path hs
  | command => exact queuesBounded_of_path (s.takeCommandFields_path _ _ _) hs
  | tableData w => exact State.acceptWaiting_bounded (queuesBounded_of_path (path_of_base (s.takeTableData_base w)) hs)
  | present r => exact State.acceptWaiting_bounded (s := { s with upstream := s.upstream ++ [r] }) hs
  | grant k f =>
    exact State.acceptWaiting_bounded (s := { s.afterGrant f with inFlight := s.inFlight ++ [f] })
      (State.afterGrant_bounded f hs)
  | hostBeat _ b rest => exact State.completeHostBeat_bounded b rest hs
  | hostData id start data =>
    exact State.acceptWaiting_bounded (State.returnData_bounded id start data (State.removeOldest_bounded hs))
  | completes beats _ h =>
    exact queuesBounded_of_path h.path (State.removeOldest_bounded (s := s.writeMemory beats) hs)
  | hardwareReset => exact ⟨Nat.zero_le _, Nat.zero_le _⟩
  | release =>
    unfold State.releaseReset
    split
    · exact State.acceptWaiting_bounded hs
    · exact hs

/-- A step is the front command on the part with the rest of the queue, or nothing: what every command keeps, and what
does not turn on the queue, every step keeps. -/
theorem step_keeps {P : State → Prop} (hp : ∀ (s : State) (cs : List Instr), P s → P { s with pending := cs })
    (hc : ∀ (c : Instr) (s t : State), PathStep s c t → P s → P t) (s t : State) (hs : P s) (h : step s = .next t) :
    P t := by
  unfold step at h
  split at h
  · exact Host.Outcome.next.inj h ▸ hs
  · exact hc _ _ _ (exec_pathStep h) (hp s _ hs)

/-- Settles O59: what every step of the memory path keeps, every step of the part keeps. -/
theorem queuesStayBounded : Obligations.QueuesStayBounded := by
  unfold Obligations.QueuesStayBounded
  exact step_keeps (fun _ _ hs => hs) fun c s t h hs => h.bounded hs

end Sys2Proof.Machine
end

section
/-! PROOF. The arbiter's order (O13), level by level. -/

namespace Sys2Proof.Machine

/-- A client is eligible when it presents a request and has a credit free (R151). -/
theorem State.eligible_iff (s : State) (c : Client) :
    s.eligible c = true ↔ (s.presents c).isSome = true ∧ s.inFlightOf c < s.activeCredits.of c := by
  rw [State.eligible, Bool.and_eq_true, decide_eq_true_eq]

theorem State.scanEligible_iff (s : State) (urgent : Bool) (d : OutputId) :
    s.scanEligible urgent d = true ↔ s.eligible (.scan d) = true ∧ (s.outputs.get d).urgent = urgent := by
  rw [State.scanEligible, Bool.and_eq_true, beq_iff_eq]

/-- Of the two outputs, every one is the alternation's or the other. -/
theorem eq_or_eq_otherOutput (d e : OutputId) : d = e ∨ d = otherOutput e := by
  cases d <;> cases e <;> decide

/-- The scanout client of a level is an eligible one of that level (R151). -/
theorem State.scanAt_some {s : State} {urgent : Bool} {c : Client} (h : s.scanAt urgent = some c) :
    ∃ d, c = .scan d ∧ s.scanEligible urgent d = true := by
  unfold State.scanAt at h
  split at h
  · next hd => exact ⟨_, (Option.some.inj h).symm, hd⟩
  · split at h
    · next hd => exact ⟨_, (Option.some.inj h).symm, hd⟩
    · cases h

/-- A level with an eligible scanout client has one to grant. -/
theorem State.scanAt_of_eligible {s : State} {urgent : Bool} {d : OutputId} (h : s.scanEligible urgent d = true) :
    ∃ e, s.scanAt urgent = some (.scan e) ∧ s.scanEligible urgent e = true := by
  unfold State.scanAt
  split
  · next hd => exact ⟨_, rfl, hd⟩
  · next hd =>
    obtain rfl := (eq_or_eq_otherOutput d s.scanNext).resolve_left fun he => hd (he ▸ h)
    exact ⟨_, if_pos h, h⟩

/-- A level without an eligible scanout client has none to grant. -/
theorem State.scanAt_none {s : State} {urgent : Bool} (h : ∀ d, s.scanEligible urgent d = false) :
    s.scanAt urgent = none := by
  simp [State.scanAt, h]

/-- With both eligible at a level the alternation's client is granted. -/
theorem State.scanAt_next {s : State} {urgent : Bool} (h : ∀ d, s.scanEligible urgent d = true) :
    s.scanAt urgent = some (.scan s.scanNext) := if_pos (h s.scanNext)

/-- No fetcher is eligible at a level when none of the level is eligible. -/
theorem State.scanEligible_false {s : State} {urgent : Bool} (h : ∀ d, s.eligible (.scan d) = true →
    (s.outputs.get d).urgent ≠ urgent) (d : OutputId) : s.scanEligible urgent d = false := by
  rw [Bool.eq_false_iff, ne_eq, State.scanEligible_iff]
  exact fun ⟨he, hu⟩ => h d he hu

/-- Outside a drain the arbiter goes down its five levels (R151, R154). -/
theorem State.grantee_levels {s : State} (h : s.drain = none) : s.grantee =
    (s.scanAt true <|> s.ifEligible .pass <|> s.scanAt false <|> s.ifEligible .comp <|> s.ifEligible .stat) :=
  if_neg (by simp [h])

theorem State.ifEligible_some {s : State} {c e : Client} (h : s.ifEligible c = some e) :
    e = c ∧ s.eligible e = true := by
  unfold State.ifEligible at h
  split at h
  · next he => cases h; exact ⟨rfl, he⟩
  · cases h

/-- Nothing is granted during a drain, and only an eligible client outside one (R151, R154). -/
theorem State.grantee_some {s : State} {c : Client} (h : s.grantee = some c) :
    s.drain = none ∧ s.eligible c = true := by
  have hd : s.drain = none := by
    cases hd : s.drain with
    | none => rfl
    | some x =>
      rw [State.grantee, hd, if_pos Option.isSome_some] at h
      cases h
  have hscan : ∀ urgent, s.scanAt urgent = some c → s.eligible c = true := fun urgent hu => by
    obtain ⟨d, rfl, hd⟩ := State.scanAt_some hu
    exact ((s.scanEligible_iff urgent d).mp hd).1
  have hclient : ∀ k, s.ifEligible k = some c → s.eligible c = true := fun k hk => (State.ifEligible_some hk).2
  rw [State.grantee_levels hd] at h
  simp only [Option.orElse_eq_orElse, Option.orElse_eq_or, Option.or_eq_some_iff] at h
  obtain h | ⟨-, h | ⟨-, h | ⟨-, h | ⟨-, h⟩⟩⟩⟩ := h
  · exact ⟨hd, hscan _ h⟩
  · exact ⟨hd, hclient _ h⟩
  · exact ⟨hd, hscan _ h⟩
  · exact ⟨hd, hclient _ h⟩
  · exact ⟨hd, hclient _ h⟩

/-- Settles O13: what is granted is eligible, and then level by level. -/
theorem arbiterOrder : Obligations.ArbiterOrder := by
  unfold Obligations.ArbiterOrder
  intro s
  refine ⟨fun c h => ?eligible, fun hd d he hu => ?urgent, fun hd hp hn => ?pass, fun hd hp hs => ?scan,
    fun hd hp hs => ?last, fun hd ha hb hu hp => ?alternation⟩
  case eligible =>
    obtain ⟨hd, he⟩ := State.grantee_some h
    exact ⟨hd, (s.eligible_iff c).mp he⟩
  case urgent =>
    obtain ⟨e, hat, he⟩ := State.scanAt_of_eligible ((s.scanEligible_iff true d).mpr ⟨he, hu⟩)
    refine ⟨e, ?_, ((s.scanEligible_iff true e).mp he).2⟩
    rw [State.grantee_levels hd, hat]
    rfl
  case pass =>
    have hnone : s.scanAt true = none := State.scanAt_none (State.scanEligible_false fun d he => by simp [hn d he])
    rw [State.grantee_levels hd, hnone, State.ifEligible, if_pos hp]
    rfl
  case scan =>
    have hpass : s.ifEligible .pass = none := if_neg (by simp [hp])
    obtain ⟨d, hd'⟩ := hs
    cases hat : s.scanAt true with
    | some c =>
      obtain ⟨e, rfl, -⟩ := State.scanAt_some hat
      exact ⟨e, by rw [State.grantee_levels hd, hat]; rfl⟩
    | none =>
      have hcalm : (s.outputs.get d).urgent = false := by
        cases hu : (s.outputs.get d).urgent with
        | false => rfl
        | true =>
          obtain ⟨e, he, -⟩ := State.scanAt_of_eligible ((s.scanEligible_iff true d).mpr ⟨hd', hu⟩)
          rw [hat] at he
          cases he
      obtain ⟨e, he, -⟩ := State.scanAt_of_eligible ((s.scanEligible_iff false d).mpr ⟨hd', hcalm⟩)
      exact ⟨e, by rw [State.grantee_levels hd, hat, hpass, he]; rfl⟩
  case last =>
    have hnone : ∀ urgent, s.scanAt urgent = none := fun urgent =>
      State.scanAt_none (State.scanEligible_false fun d he => by simp [hs d] at he)
    have hpass : s.ifEligible .pass = none := if_neg (by simp [hp])
    rw [State.grantee_levels hd, hnone, hnone, hpass]
    refine ⟨fun hc => ?_, fun hc ht => ?_⟩
    · rw [State.ifEligible, if_pos hc]
      rfl
    · have hcomp : s.ifEligible .comp = none := if_neg (by simp [hc])
      rw [hcomp, State.ifEligible, if_pos ht]
      rfl
  case alternation =>
    have hboth : ∀ d, s.scanEligible (s.outputs.get .A).urgent d = true := fun d => by
      cases d with
      | A => exact (s.scanEligible_iff _ .A).mpr ⟨ha, rfl⟩
      | B => exact (s.scanEligible_iff _ .B).mpr ⟨hb, hu.symm⟩
    have hnext := State.scanAt_next hboth
    cases hlevel : (s.outputs.get .A).urgent with
    | true =>
      rw [hlevel] at hnext
      rw [State.grantee_levels hd, hnext]
      rfl
    | false =>
      rw [hlevel] at hnext
      have hpass : s.ifEligible .pass = none := if_neg fun h => by simp [hp h] at hlevel
      have hnone : s.scanAt true = none := State.scanAt_none (State.scanEligible_false fun d _ => by
        cases d with
        | A => simp [hlevel]
        | B => simp [← hu, hlevel])
      rw [State.grantee_levels hd, hnone, hpass, hnext]
      rfl

end Sys2Proof.Machine
end

section
/-! PROOF. The credit limits (O58): a grant asks for a free credit, REBALANCE for staged counts within 24, and the end
of a drain for an empty port; and what a reset leaves meets every invariant (O60). -/

namespace Sys2Proof.Machine

open Sys2Proof.Safety

/-! ### Requests in flight, client by client (R150) -/

/-- The requests in flight of a client, counted among the clients of those in flight. -/
theorem State.inFlightOf_eq (s : State) (c : Client) : s.inFlightOf c = (s.inFlight.map Flight.client).count c := by
  rw [List.count, List.countP_map]
  rfl

theorem inFlightOf_of_path {s t : State} (h : t.path = s.path) (c : Client) : t.inFlightOf c = s.inFlightOf c := by
  have hclients : t.inFlight.map Flight.client = s.inFlight.map Flight.client := congrArg PathView.clients h
  rw [State.inFlightOf_eq, State.inFlightOf_eq, hclients]

/-- Every request in flight is of one of the five clients. -/
theorem clients_length (l : List Client) :
    l.length = l.count .pass + l.count (.scan .A) + l.count (.scan .B) + l.count .comp + l.count .stat := by
  induction l with
  | nil => rfl
  | cons c l ih =>
    rw [List.length_cons, ih]
    rcases c with _ | (_ | _) | _ | _ <;> simp <;> omega

/-- The request that a client presents is its own. -/
theorem State.presents_client {s : State} {c : Client} {f : Flight} (h : s.presents c = some f) : f.client = c := by
  cases c with
  | pass =>
    change s.passPresents = _ at h
    unfold State.passPresents at h
    dsimp only at h
    split at h
    · split at h <;> cases h
      rfl
    · split at h
      · split at h <;> cases h
        rfl
      · cases h
        rfl
  | scan d =>
    rw [s.presents_scan d, Option.map_eq_some_iff] at h
    obtain ⟨r, -, rfl⟩ := h
    rfl
  | comp =>
    change s.compPresents = _ at h
    unfold State.compPresents at h
    split at h
    · cases h
    · split at h
      · cases h
        rfl
      · split at h <;> cases h
        rfl
      · cases h
  | stat =>
    change s.statPresents = _ at h
    unfold State.statPresents at h
    split at h <;> cases h <;> rfl

/-! ### The limits with a request set aside -/

/-- The credit limits hold with n more requests of PASS in flight: a host write whose beat is being noticed is set
aside, and goes back when more of its beats are to come (R147, R153). -/
def CreditsBeside (n : Nat) (s : State) : Prop :=
  s.activeCredits.sum ≤ Config.creditTotal ∧
    (∀ x, s.drain = some x → x.counts.sum ≤ Config.creditTotal) ∧
    1 ≤ s.stagedCredits.pass ∧
    ∀ c, s.inFlightOf c + (if c = .pass then n else 0) ≤ s.activeCredits.of c

theorem creditsBeside_zero {s : State} : CreditsBeside 0 s ↔ CreditsKept s := by
  simp [CreditsBeside, CreditsKept]

/-- The limits turn on the clients in flight, the active counts, the drain and the staged PASS count. -/
theorem CreditsBeside.of_path {n : Nat} {s t : State} (hs : CreditsBeside n s) (hp : t.path = s.path)
    (ha : t.activeCredits = s.activeCredits) (hd : t.drain = s.drain) (hg : 1 ≤ t.stagedCredits.pass) :
    CreditsBeside n t := by
  obtain ⟨hsum, hdrain, -, hc⟩ := hs
  refine ⟨ha ▸ hsum, hd ▸ hdrain, hg, fun c => ?_⟩
  rw [inFlightOf_of_path hp c, ha]
  exact hc c

theorem CreditsBeside.staged_pass {n : Nat} {s : State} (hs : CreditsBeside n s) : 1 ≤ s.stagedCredits.pass := by
  obtain ⟨-, -, hg, -⟩ := hs
  exact hg

theorem CreditsBeside.of_leaves {n : Nat} {s t : State} (hs : CreditsBeside n s) (h : LeavesPath s t) :
    CreditsBeside n t :=
  hs.of_path h.path h.active h.drain (h.staged ▸ hs.staged_pass)

/-- What keeps the base keeps the limits, if it leaves the staged PASS count at 1 or more. -/
theorem CreditsBeside.of_base {n : Nat} {s t : State} (hs : CreditsBeside n s) (hb : t.base = s.base)
    (hg : 1 ≤ t.stagedCredits.pass) : CreditsBeside n t :=
  hs.of_path (path_of_base hb) (congrArg Base.activeCredits hb) (congrArg Base.drain hb) hg

/-- Acceptance keeps the limits. -/
theorem creditsKept_acceptWaiting {s : State} (hs : CreditsKept s) : CreditsKept s.acceptWaiting := by
  simpa [CreditsKept, State.inFlightOf] using hs

/-! ### Requests that leave and come back -/

/-- A host write ahead of others is one more request of PASS. -/
theorem countP_hostWrite (rest : List WriteBeat) (fs : List Flight) (c : Client) :
    (Flight.hostWrite rest :: fs).countP (fun f => f.client == c) =
      fs.countP (fun f => f.client == c) + if c = .pass then 1 else 0 := by
  rw [List.countP_cons, Flight.client]
  by_cases hc : c = .pass
  · rw [hc, if_pos rfl, if_pos (BEq.rfl)]
  · rw [if_neg hc, if_neg fun h => hc (beq_iff_eq.mp h).symm]

/-- A host write set aside. -/
theorem creditsKept_setAside {s : State} {rest : List WriteBeat} (hs : CreditsKept s) (m : Memory)
    (h : s.inFlight.head? = some (.hostWrite rest)) :
    CreditsBeside 1 { s with mem := m, inFlight := s.inFlight.tail } := by
  obtain ⟨hsum, hdrain, hg, hc⟩ := hs
  obtain ⟨fs, hfs⟩ := List.head?_eq_some_iff.mp h
  refine ⟨hsum, hdrain, hg, fun c => Nat.le_trans ?_ (hc c)⟩
  rw [State.inFlightOf, State.inFlightOf, hfs]
  exact Nat.le_of_eq (countP_hostWrite rest fs c).symm

/-- A host write put back. -/
theorem CreditsBeside.restoreWrite {s : State} (rest : List WriteBeat) (hs : CreditsBeside 1 s) :
    CreditsKept (s.restoreWrite rest) := by
  obtain ⟨hsum, hdrain, hg, hc⟩ := hs
  refine ⟨hsum, hdrain, hg, fun c => Nat.le_trans (Nat.le_of_eq ?_) (hc c)⟩
  exact countP_hostWrite rest s.inFlight c

/-- The end of a drain finds the port empty, so that any counts do (R154). -/
theorem CreditsBeside.endDrain {n : Nat} {s : State} (hs : CreditsBeside n s)
    (hx : ∀ x, s.drain = some x → n ≤ x.counts.pass) : CreditsBeside n s.endDrain := by
  obtain ⟨hsum, hdrain, hg, hc⟩ := id hs
  unfold State.endDrain
  split
  · exact hs
  · next x hd =>
    split
    · next hempty =>
      refine ⟨hdrain x hd, nofun, hg, fun c => ?_⟩
      have hnone : ∀ t : State, t.inFlight = s.inFlight → t.inFlightOf c = 0 := fun t ht => by
        rw [State.inFlightOf, ht, List.isEmpty_iff.mp hempty, List.countP_nil]
      refine Nat.le_trans (Nat.le_of_eq (congrArg (· + _) (hnone _ rfl))) ?_
      rw [Nat.zero_add]
      split
      · next hp => exact hp ▸ hx x hd
      · exact Nat.zero_le _
    · exact hs

/-- A request that leaves the port frees its credit (R150). -/
theorem creditsKept_removeOldest {s : State} (hs : CreditsKept s) : CreditsKept s.removeOldest := by
  obtain ⟨hsum, hdrain, hg, hc⟩ := hs
  have htail : CreditsKept { s with inFlight := s.inFlight.tail } :=
    ⟨hsum, hdrain, hg, fun c => Nat.le_trans (List.tail_sublist s.inFlight).countP_le (hc c)⟩
  exact creditsBeside_zero.mp ((creditsBeside_zero.mpr htail).endDrain fun x _ => Nat.zero_le _)

/-! ### Commands and control words (R152, R153, R158) -/

/-- REBALANCE keeps the limits: it takes counts within 24, at once only when nothing is in flight, and of PASS at
least 1 (R153). -/
theorem CreditsBeside.takeRebalance {n : Nat} {s : State} (hn : n ≤ 1) (hs : CreditsBeside n s) :
    CreditsBeside n s.takeRebalance := by
  unfold State.takeRebalance
  split
  · exact hs.of_base (by simp) hs.staged_pass
  · next hpassed =>
    obtain ⟨hsum, -, hg, hc⟩ := hs
    have hstaged : s.stagedCredits.sum ≤ Config.creditTotal := by
      by_cases hfits : s.stagedCredits.sum ≤ Config.creditTotal
      · exact hfits
      · simp only [State.rebalanceChecks, firstFailure, hfits, decide_false] at hpassed
        split at hpassed <;> cases hpassed
    exact CreditsBeside.endDrain ⟨hsum, fun x hx => Option.some.inj hx ▸ hstaged, hg, hc⟩
      fun x hx => Option.some.inj hx ▸ Nat.le_trans hn hg

/-- SOFT_RESET keeps the active counts and the drain (R164). -/
theorem State.takeSoftReset_credits (s : State) :
    s.takeSoftReset.activeCredits = s.activeCredits ∧ s.takeSoftReset.drain = s.drain := by
  have hb : s.resetCompositor.resetOutputs.resetLinks.resetTables.base = s.base := by simp
  unfold State.takeSoftReset
  generalize s.resetCompositor.resetOutputs.resetLinks.resetTables = u at hb ⊢
  exact ⟨congrArg Base.activeCredits hb, congrArg Base.drain hb⟩

/-- A command of the host is REBALANCE, or leaves the active counts and the drain alone (R161). -/
theorem State.takeCommandFields_credits (s : State) (c o : Byte) (p : BitVec 16) :
    s.takeCommandFields c o p = s.takeRebalance ∨
      ((s.takeCommandFields c o p).activeCredits = s.activeCredits ∧ (s.takeCommandFields c o p).drain = s.drain) := by
  have hbase : ∀ t : State, t.base = s.base →
      t = s.takeRebalance ∨ (t.activeCredits = s.activeCredits ∧ t.drain = s.drain) :=
    fun t h => .inr ⟨congrArg Base.activeCredits h, congrArg Base.drain h⟩
  unfold State.takeCommandFields
  split
  · exact hbase _ (s.takeCommit_base o)
  · exact hbase _ (s.takeInvalidate_base o)
  · exact hbase _ (s.takeStreamStart_base o)
  · exact hbase _ (s.takeStreamPause_base o)
  · exact hbase _ (s.takeStreamResume_base o)
  · exact hbase _ (s.takeStreamStop_base o)
  · exact hbase _ (s.takeOutputStart_base o)
  · exact hbase _ (s.takeOutputStop_base o)
  · exact hbase _ (s.takeOutputFreeze_base o)
  · exact hbase _ (s.takeOutputThaw_base o)
  · exact .inl rfl
  · exact .inr ⟨(takeReadback_leavesPath s _ _ _).active, (takeReadback_leavesPath s _ _ _).drain⟩
  · exact .inr ⟨rfl, rfl⟩
  · exact .inr s.takeSoftReset_credits
  · exact hbase _ (s.raise_base _)

theorem CreditsBeside.command {n : Nat} {s : State} (hn : n ≤ 1) (hs : CreditsBeside n s) (c o : Byte) (p : BitVec 16) :
    CreditsBeside n (s.takeCommandFields c o p) := by
  obtain h | ⟨ha, hd⟩ := s.takeCommandFields_credits c o p
  · rw [h]
    exact hs.takeRebalance hn
  · refine hs.of_path (s.takeCommandFields_path c o p) ha hd ?_
    rw [s.takeCommandFields_stagedCredits]
    exact hs.staged_pass

/-- A table word keeps the limits: a credit entry changes the staged counts alone, and leaves PASS 1 or more (R152). -/
theorem CreditsBeside.takeTableData {n : Nat} {s : State} (hs : CreditsBeside n s) (w : Word) :
    CreditsBeside n (s.takeTableData w) :=
  hs.of_base (s.takeTableData_base w) (s.takeTableData_staged_pass w hs.staged_pass)

theorem CreditsBeside.takeWord {n : Nat} {s : State} (hn : n ≤ 1) (hs : CreditsBeside n s) (a : Nat) (w : Word) :
    CreditsBeside n (s.takeWord a w) := by
  unfold State.takeWord
  repeat' split
  · exact hs
  · exact hs.takeTableData w
  · exact hs.command hn _ _ _
  · exact hs
  · exact hs.of_leaves (takeConsumed_leavesPath s w)
  · exact hs

theorem CreditsBeside.captureAt {n : Nat} {s : State} (hn : n ≤ 1) (hs : CreditsBeside n s) (b : WriteBeat) (a : Nat) :
    CreditsBeside n (s.captureAt b a) := by
  unfold State.captureAt
  split
  · exact hs
  · exact hs.takeWord hn a _

/-- The notice of a write beat keeps the limits, its request still in flight or set aside (R147). -/
theorem CreditsBeside.notice {n : Nat} {s : State} (hn : n ≤ 1) (hs : CreditsBeside n s) (b : WriteBeat) :
    CreditsBeside n (s.notice b) := by
  have hcaptured : LeavesPath s ((s.damageNotice b).streamNotice b) := .of_base (by simp) (by simp)
  exact ((hs.of_leaves hcaptured).captureAt hn b _).captureAt hn b _

/-! ### Steps -/

theorem creditsKept_completeHostBeat {s : State} (hs : CreditsKept s) (b : WriteBeat) (rest : List WriteBeat)
    (h : s.inFlight.head? = some (.hostWrite (b :: rest))) : CreditsKept (s.completeHostBeat b rest) := by
  cases rest with
  | nil =>
    rw [State.completeHostBeat_last]
    have hleft : CreditsKept (s.writeMemory [b]).removeOldest := creditsKept_removeOldest (s := s.writeMemory [b]) hs
    exact creditsKept_acceptWaiting (creditsBeside_zero.mp ((creditsBeside_zero.mpr hleft).notice (Nat.zero_le 1) b))
  | cons c rest =>
    rw [State.completeHostBeat_more]
    exact creditsKept_acceptWaiting (((creditsKept_setAside hs _ h).notice (Nat.le_refl 1) b).restoreWrite _)

/-- A granted client had a credit free (R150, R151). -/
theorem creditsKept_grant {s : State} {c : Client} {f : Flight} (hs : CreditsKept s) (hc : s.grantee = some c)
    (hf : s.presents c = some f) : CreditsKept (s.grant f) := by
  obtain ⟨hsum, hdrain, hg, hle⟩ := hs
  obtain ⟨-, hfree⟩ := (s.eligible_iff c).mp (State.grantee_some hc).2
  have hkeeps : (s.afterGrant f).activeCredits = s.activeCredits ∧ (s.afterGrant f).drain = s.drain ∧
      (s.afterGrant f).stagedCredits = s.stagedCredits := by
    cases f <;> exact ⟨rfl, rfl, rfl⟩
  obtain ⟨ha, hd, hst⟩ := hkeeps
  refine creditsKept_acceptWaiting (s := { s.afterGrant f with inFlight := s.inFlight ++ [f] })
    ⟨ha ▸ hsum, hd ▸ hdrain, hst ▸ hg, fun k => ?_⟩
  rw [State.inFlightOf, List.countP_append, List.countP_singleton, State.presents_client hf]
  change s.inFlightOf k + _ ≤ (s.afterGrant f).activeCredits.of k
  rw [ha]
  split
  · next hk => exact beq_iff_eq.mp hk ▸ hfree
  · exact hle k

/-- The default counts with nothing in flight meet the limits (R150, R156). -/
theorem creditsKept_default {s : State} (ha : s.activeCredits = .default) (hg : s.stagedCredits = .default)
    (hd : s.drain = none) (hf : s.inFlight = []) : CreditsKept s := by
  refine ⟨by rw [ha]; decide, by simp [hd], by rw [hg]; decide, fun c => ?_⟩
  rw [State.inFlightOf, hf]
  exact Nat.zero_le _

/-- Every step keeps the credit limits. -/
theorem PathStep.credits {s t : State} {c : Instr} (h : PathStep s c t) (hs : CreditsKept s) : CreditsKept t := by
  have hz := creditsBeside_zero.mpr hs
  cases h with
  | leaves h => exact creditsBeside_zero.mp (hz.of_leaves h)
  | command code o p => exact creditsBeside_zero.mp (hz.command (Nat.zero_le 1) code o p)
  | tableData w => exact creditsKept_acceptWaiting (creditsBeside_zero.mp (hz.takeTableData w))
  | present r => exact creditsKept_acceptWaiting (s := { s with upstream := s.upstream ++ [r] }) hs
  | grant k f hk hf => exact creditsKept_grant hs hk hf
  | hostBeat _ b rest h => exact creditsKept_completeHostBeat hs b rest h
  | hostData id start data =>
    exact creditsKept_acceptWaiting (s := (s.removeOldest.returnData id start data).returnReads)
      (creditsKept_removeOldest hs)
  | completes beats _ h =>
    have hleft : CreditsKept (s.writeMemory beats).removeOldest :=
      creditsKept_removeOldest (s := s.writeMemory beats) hs
    exact creditsBeside_zero.mp ((creditsBeside_zero.mpr hleft).of_leaves h)
  | hardwareReset _ cause => exact creditsKept_default rfl rfl rfl rfl
  | release =>
    unfold State.releaseReset
    split
    · exact creditsKept_acceptWaiting (s := State.announceReset { s with resetAsserted := false } s.events.cause) hs
    · exact hs

/-- Within the limits the port holds as many requests as the active counts allow, at most (R150). -/
theorem inFlight_le_of_creditsKept {s : State} (hs : CreditsKept s) : s.inFlight.length ≤ s.activeCredits.sum := by
  obtain ⟨-, -, -, hc⟩ := hs
  have hlength := clients_length (s.inFlight.map Flight.client)
  simp only [List.length_map, ← State.inFlightOf_eq] at hlength
  have h1 := hc .pass
  have h2 := hc (.scan .A)
  have h3 := hc (.scan .B)
  have h4 := hc .comp
  have h5 := hc .stat
  simp only [Credits.of] at h1 h2 h3 h4 h5
  simp only [Credits.sum]
  omega

/-- Settles O58: every step of the memory path keeps the limits, and they bound the port by the sum of the counts. -/
theorem creditsStayWithinLimits : Obligations.CreditsStayWithinLimits := by
  unfold Obligations.CreditsStayWithinLimits
  exact ⟨step_keeps (fun _ _ hs => hs) fun c s t h hs => h.credits hs,
    fun s hs => Nat.le_trans (inFlight_le_of_creditsKept hs) hs.1⟩

/-- Settles O60: memory and both queues are empty after power-on, both indices 0, the counts the defaults. -/
theorem invariantsHoldAtReset : Obligations.InvariantsHoldAtReset := by
  unfold Obligations.InvariantsHoldAtReset
  exact ⟨rfl, rfl, creditsKept_default rfl rfl rfl rfl, ⟨Nat.zero_le _, Nat.zero_le _⟩⟩

end Sys2Proof.Machine
end

section
/-! PROOF. HOST_WRITE (O8) and HOST_READ (O11): a request that finds room is accepted as it is presented, any other
waits. -/

namespace Sys2Proof.Machine

/-! ### What is presented (R144) -/

theorem requestWellFormed_of {addr : BitVec 29} {n : Nat} (ha : addr.toNat % 8 = 0) (h1 : 1 ≤ n) (h16 : n ≤ 16) :
    requestWellFormed addr n = true := by
  simp [requestWellFormed, ha, h1, h16]

/-- HOST_WRITE of a request that the port can carry presents it. -/
theorem exec_hostWrite (s : State) {addr : BitVec 29} {beats : List UpBeat} (ha : addr.toNat % 8 = 0)
    (h1 : 1 ≤ beats.length) (h16 : beats.length ≤ 16) :
    exec (.hostWrite addr beats) s = .next (s.present (.write addr beats)) := if_pos (requestWellFormed_of ha h1 h16)

/-- HOST_READ of a request that the port can carry presents it. -/
theorem exec_hostRead (s : State) {addr : BitVec 29} {beats : Nat} (ha : addr.toNat % 8 = 0) (h1 : 1 ≤ beats)
    (h16 : beats ≤ 16) : exec (.hostRead addr beats) s = .next (s.present (.read addr beats)) :=
  if_pos (requestWellFormed_of ha h1 h16)

/-! ### Conversion does not turn on what waits (R145) -/

@[simp] theorem State.convertFrom_upstream (s : State) (us : List UpRequest) (addr : BitVec 29) (i stretch : Nat)
    (bs : List UpBeat) : ({ s with upstream := us } : State).convertFrom addr i stretch bs =
      s.convertFrom addr i stretch bs := by
  induction bs generalizing i stretch with
  | nil => rfl
  | cons b bs ih =>
    unfold State.convertFrom
    dsimp only
    rw [ih]
    rfl

@[simp] theorem State.convertWrites_upstream (s : State) (us : List UpRequest) (addr : BitVec 29) (bs : List UpBeat) :
    ({ s with upstream := us } : State).convertWrites addr bs = s.convertWrites addr bs :=
  s.convertFrom_upstream us addr 0 0 bs

@[simp] theorem State.convertReads_upstream (s : State) (us : List UpRequest) (addr : BitVec 29) (n : Nat) :
    ({ s with upstream := us } : State).convertReads addr n = s.convertReads addr n := rfl

/-! ### WRITE (R144, R146) -/

/-- A WRITE that finds room joins the queue as it is presented. -/
theorem State.present_write (s : State) (addr : BitVec 29) (beats : List UpBeat) (hr : s.resetAsserted = false)
    (hu : s.upstream = []) (h : s.writeQueue.length + (s.convertWrites addr beats).1.length ≤ 32) :
    s.present (.write addr beats) = s.joinQueue (s.convertWrites addr beats) := by
  have hjoins := State.tryAccept_write { s with upstream := [.write addr beats] } addr beats (by simpa using h)
  rw [s.present_accepted _ _ hr hu hjoins, State.convertWrites_upstream]
  obtain ⟨⟩ := s
  subst hu
  rfl

/-- A WRITE that finds no room waits. -/
theorem State.present_write_waits (s : State) (addr : BitVec 29) (beats : List UpBeat) (hr : s.resetAsserted = false)
    (hu : s.upstream = []) (h : 32 < s.writeQueue.length + (s.convertWrites addr beats).1.length) :
    s.present (.write addr beats) = { s with upstream := [.write addr beats] } :=
  s.present_waits _ hr hu (State.tryAccept_write_full _ addr beats (by simpa using h))

/-- Settles O8: a WRITE that finds room joins the queue, one that finds none waits, and the conversion beat by beat. -/
theorem hostWriteAcceptedOrWaits : Obligations.HostWriteAcceptedOrWaits := by
  unfold Obligations.HostWriteAcceptedOrWaits
  refine ⟨fun s addr beats ha h1 h16 hr hu h => ?accepted, fun s addr beats ha h1 h16 hr hu h => ?waits,
    fun s addr beats => rfl, fun s addr i stretch b bs c rest hc hrest => ⟨rfl, ?beat⟩⟩
  case accepted => rw [exec_hostWrite s ha h1 h16, s.present_write addr beats hr hu h, State.joinQueue]
  case waits => rw [exec_hostWrite s ha h1 h16, s.present_write_waits addr beats hr hu h]
  case beat =>
    subst hc hrest
    rfl

/-! ### READ (R148, R149) -/

/-- A READ that finds a place joins the tracker as it is presented, if not at once answered. -/
theorem State.present_read (s : State) (addr : BitVec 29) (n : Nat) (hr : s.resetAsserted = false)
    (hu : s.upstream = []) (h : s.tracker.length < 4) :
    s.present (.read addr n) = s.joinTracker (s.convertReads addr n) := by
  have hjoins := State.tryAccept_read { s with upstream := [.read addr n] } addr n h
  rw [s.present_accepted _ _ hr hu hjoins, State.convertReads_upstream]
  obtain ⟨⟩ := s
  subst hu
  rfl

/-- A read just accepted with a beat that goes to memory waits for its data. -/
theorem trackedRead_incomplete (id : Nat) (out : List ReadBeat × List Nat × List Event) (h : out.2.1 ≠ []) :
    (trackedRead id out).complete = false := by
  obtain ⟨a, as, hout⟩ := List.exists_cons_of_ne_nil h
  simp [TrackedRead.complete, trackedRead, hout]

/-- A READ with a beat that goes to memory stays in the tracker behind reads that wait (R148). -/
theorem State.joinTracker_waits (s : State) (out : List ReadBeat × List Nat × List Event)
    (hc : ∀ r ∈ s.tracker, r.complete = false) (h : out.2.1 ≠ []) :
    s.joinTracker out = { s with
      tracker := s.tracker ++ [trackedRead s.nextRequest out], nextRequest := s.nextRequest + 1 }.raiseAll out.2.2 :=
  State.returnReads_none _ fun r hr => (List.mem_append.mp hr).elim (hc r) fun hnew =>
    List.mem_singleton.mp hnew ▸ trackedRead_incomplete _ out h

/-- A READ of stray beats alone, converted: stray beats, no address, and the events. -/
theorem State.convertReads_of_stray (s : State) (addr : BitVec 29) (n : Nat) (h : (s.convertReads addr n).2.1 = []) :
    s.convertReads addr n = (List.replicate n .stray, [], (s.convertReads addr n).2.2) :=
  Prod.ext (s.convertReads_stray addr n h) (Prod.ext h rfl)

/-- Nothing is accepted past a request that must wait. -/
theorem State.acceptWaiting_blocked (s : State) (r : UpRequest) (rs : List UpRequest) (hu : s.upstream = r :: rs)
    (h : s.resetAsserted = true ∨ s.tryAccept r = none) : s.acceptWaiting = s := by
  unfold State.acceptWaiting
  split
  · rfl
  · next hr =>
    rw [hu, acceptFrom, h.resolve_left hr]
    obtain ⟨⟩ := s
    subst hu
    rfl

/-- A READ waits while the tracker is full (R148). -/
theorem State.tryAccept_read_full (s : State) (addr : BitVec 29) (n : Nat) (h : 4 ≤ s.tracker.length) :
    s.tryAccept (.read addr n) = none := if_neg (Nat.not_lt.mpr h)

/-- A READ presented while the reset line is asserted, or behind a READ or as one that finds the tracker full, waits. -/
theorem State.present_read_waits (s : State) (addr : BitVec 29) (n : Nat)
    (h : s.resetAsserted = true ∨
      4 ≤ s.tracker.length ∧ (s.upstream = [] ∨ ∃ a m rest, s.upstream = .read a m :: rest)) :
    s.present (.read addr n) = { s with upstream := s.upstream ++ [.read addr n] } := by
  obtain hr | ⟨hfull, hu | ⟨a, m, rest, hu⟩⟩ := h
  · exact if_pos hr
  · exact State.acceptWaiting_blocked _ (.read addr n) [] (congrArg (· ++ _) hu)
      (.inr (State.tryAccept_read_full _ _ _ hfull))
  · exact State.acceptWaiting_blocked _ (.read a m) (rest ++ [.read addr n]) (congrArg (· ++ _) hu)
      (.inr (State.tryAccept_read_full _ _ _ hfull))

/-- Settles O11: a READ that joins the tracker, one of stray beats alone at its head or behind others, one that waits,
and the conversion beat by beat. -/
theorem hostReadAccepted : Obligations.HostReadAccepted := by
  unfold Obligations.HostReadAccepted
  refine ⟨fun s addr n ha h1 h16 hr hu ht hc hm => ?joins,
    fun s addr n events ha h1 h16 hr hu ht hc hm he => ⟨fun hempty => ?answered, fun hbehind => ?behind⟩,
    fun s addr n ha h1 h16 h => ?waits, fun s addr n c out hc hout => ⟨rfl, ?beat⟩⟩
  case joins =>
    rw [exec_hostRead s ha h1 h16, s.present_read addr n hr hu ht, s.joinTracker_waits _ hc hm]
    rfl
  case answered =>
    rw [exec_hostRead s ha h1 h16, s.present_read addr n hr hu ht, s.convertReads_of_stray addr n hm, ← he,
      s.joinTracker_stray n events hempty]
  case behind =>
    rw [exec_hostRead s ha h1 h16, s.present_read addr n hr hu ht, s.joinTracker_behind _ hbehind hc,
      s.convertReads_of_stray addr n hm, ← he]
    rfl
  case waits => rw [exec_hostRead s ha h1 h16, s.present_read_waits addr n h]
  case beat =>
    subst hc hout
    exact s.convertReads_succ addr n

end Sys2Proof.Machine
end

section
/-! PROOF. The completions of the host's requests: what a host write does to memory (O15), to the blocks that take
notice of it and to the port (O14), and what a host read returns (O16). -/

namespace Sys2Proof.Machine

/-! ### HOST_WRITE_COMPLETION (R147) -/

/-- HOST_WRITE_COMPLETION takes the first beat of the oldest request in flight, a host write. -/
theorem exec_hostWriteCompletion (s : State) (b : WriteBeat) (rest : List WriteBeat) (fs : List Flight)
    (h : s.inFlight = .hostWrite (b :: rest) :: fs) :
    exec .hostWriteCompletion s = .next (s.completeHostBeat b rest) := by
  change execHostWriteCompletion s = _
  unfold execHostWriteCompletion
  rw [h]
  rfl

@[simp] theorem State.removeOldest_mem (s : State) : s.removeOldest.mem = s.mem := State.endDrain_mem _

@[simp] theorem State.notice_mem (s : State) (b : WriteBeat) : (s.notice b).mem = s.mem := mem_of_path (s.notice_path b)

/-- A completed beat of a host write changes memory by that beat alone: its notice writes none. -/
theorem State.completeHostBeat_mem (s : State) (b : WriteBeat) (rest : List WriteBeat) :
    (s.completeHostBeat b rest).mem = s.mem.writeBeat b := by
  cases rest with
  | nil =>
    rw [State.completeHostBeat_last, State.acceptWaiting_mem, State.notice_mem, State.removeOldest_mem]
    rfl
  | cons c rest =>
    rw [State.completeHostBeat_more, State.acceptWaiting_mem]
    exact State.notice_mem _ b

/-- A request stays in flight while a beat is noticed. -/
theorem State.notice_inFlight_length (s : State) (b : WriteBeat) :
    (s.notice b).inFlight.length = s.inFlight.length := by
  have hclients := congrArg (fun v => v.clients.length) (s.notice_path b)
  simpa [State.path] using hclients

/-- Settles O15: a write beat by the laws of memory, and its completion by the beat that it writes. -/
theorem hostWriteMemory : Obligations.HostWriteMemory := by
  unfold Obligations.HostWriteMemory
  refine ⟨fun m b hm => ⟨fun i hi he => m.read_writeBeat_same b i hi he hm, fun a ha => m.read_writeBeat_other b a ha⟩,
    fun s t b rest fs hf h a ha => ?_⟩
  rw [exec_hostWriteCompletion s b rest fs hf] at h
  rw [← Host.Outcome.next.inj h, s.completeHostBeat_mem b rest, s.mem.read_writeBeat_other b a ha]

/-! ### The control capture (R158) -/

/-- The word of the low half of a beat, when its four bytes are enabled. -/
theorem WriteBeat.wordAt_low (b : WriteBeat) :
    b.wordAt b.addr = if b.enables.toNat % 16 = 15 then some (b.data.truncate 32) else none := by
  simp [WriteBeat.wordAt, wholeWord]

/-- The word of the high half of a beat, when its four bytes are enabled. -/
theorem WriteBeat.wordAt_high (b : WriteBeat) :
    b.wordAt (b.addr + 4) = if b.enables.toNat / 16 = 15 then some ((b.data >>> 32).truncate 32) else none := by
  simp [WriteBeat.wordAt, wholeWord]

/-- The control capture takes the words of the two halves that are wholly enabled, the lower address first (R158). -/
theorem State.controlCapture_eq (s : State) (b : WriteBeat) : s.controlCapture b =
    (match b.wordAt b.addr, b.wordAt (b.addr + 4) with
      | none, none => s
      | some w, none => s.takeWord b.addr w
      | none, some v => s.takeWord (b.addr + 4) v
      | some w, some v => (s.takeWord b.addr w).takeWord (b.addr + 4) v) := by
  unfold State.controlCapture State.captureAt
  cases b.wordAt b.addr <;> cases b.wordAt (b.addr + 4) <;> rfl

/-- The fields of a COMMAND word: code, operand 1 and operand 2, from bit 0 up (10.2). -/
theorem State.takeCommand_fields (s : State) (w : Word) (code o1 : Byte) (o2 : BitVec 16)
    (hc : code.toNat = w.toNat % 256) (h1 : o1.toNat = w.toNat / 256 % 256) (h2 : o2.toNat = w.toNat / 65536) :
    s.takeCommand w = s.takeCommandFields code o1 o2 := by
  have ec : w.truncate 8 = code := by apply BitVec.eq_of_toNat_eq; simp [hc]
  have e1 : (w >>> 8).truncate 8 = o1 := by apply BitVec.eq_of_toNat_eq; simp [h1, Nat.shiftRight_eq_div_pow]
  have e2 : (w >>> 16).truncate 16 = o2 := by
    apply BitVec.eq_of_toNat_eq
    have := w.isLt
    simp only [BitVec.truncate_eq_setWidth, BitVec.toNat_setWidth, BitVec.toNat_ushiftRight,
      Nat.shiftRight_eq_div_pow, h2]
    omega
  rw [State.takeCommand, ec, e1, e2]

/-- The two bytes of operand 2 of READBACK (10.2). -/
theorem readback_operand2 (o2 : BitVec 16) (entry selector : Byte) (he : entry.toNat = o2.toNat % 256)
    (hs : selector.toNat = o2.toNat / 256) : o2.truncate 8 = entry ∧ (o2 >>> 8).truncate 8 = selector := by
  have := o2.isLt
  constructor <;> apply BitVec.eq_of_toNat_eq
  · simp [he]
  · simp only [BitVec.truncate_eq_setWidth, BitVec.toNat_setWidth, BitVec.toNat_ushiftRight,
      Nat.shiftRight_eq_div_pow, hs]
    omega

/-- Each row of the command table is the taking of its code (9.3). -/
theorem exec_command_rows (s : State) (o1 entry selector : Byte) (o2 : BitVec 16) (he : o2.truncate 8 = entry)
    (hs : (o2 >>> 8).truncate 8 = selector) :
    ∀ p ∈ [((0x01 : Byte), Instr.commit o1), (0x02, .invalidate o1), (0x10, .streamStart o1),
        (0x11, .streamPause o1), (0x12, .streamResume o1), (0x13, .streamStop o1), (0x20, .outputStart o1),
        (0x21, .outputStop o1), (0x22, .outputFreeze o1), (0x23, .outputThaw o1), (0x30, .rebalance),
        (0x40, .readback o1 entry selector), (0x41, .clearCounters), (0x7F, .softReset)],
      exec p.2 s = .next (s.takeCommandFields p.1 o1 o2) := by
  subst he hs
  simp only [List.forall_mem_cons, List.not_mem_nil, false_imp_iff, implies_true, and_true]
  exact ⟨rfl, rfl, rfl, rfl, rfl, rfl, rfl, rfl, rfl, rfl, rfl, rfl, rfl, rfl⟩

/-! ### The stream notice (R84, R87) -/

/-- A slot is armed by a beat that covers the arm word of its header region (R84, R85). -/
theorem headerValue_arm (g : Geometry) (b : WriteBeat) :
    (headerValue g b 3).isSome = (decide (64 ≤ g.base) && (b.wordAt (g.base - 64 + 12)).isSome) := by
  unfold headerValue headerWord
  by_cases h : 64 ≤ g.base <;> simp [h]

/-- The rules of a stream at a beat: its captures, the bytes slot by slot, its arms slot by slot. -/
theorem Stream.noticeRules_eq (geo : Nat → Geometry) (k : StreamId) (fc : Count) (b : WriteBeat) (x : Stream) :
    x.noticeRules geo k fc b =
      (fun y => (y.captures geo b, [])) ::
        ((if x.state = .stopped then [] else (x.positions.take x.count).zipIdx.map fun p =>
            Stream.land k fc ((geo p.1).width * (geo p.1).height * 4) p.2 ((geo p.1).bytesIn b).length) ++
          ((x.positions.take x.count).zipIdx.filter fun p =>
            decide (64 ≤ (geo p.1).base) && (b.wordAt ((geo p.1).base - 64 + 12)).isSome).map fun p =>
              Stream.arm k fc p.2) := by
  have harm : (fun p : Nat × Nat => (headerValue (geo p.1) b 3).isSome) = fun p =>
      decide (64 ≤ (geo p.1).base) && (b.wordAt ((geo p.1).base - 64 + 12)).isSome :=
    funext fun p => headerValue_arm (geo p.1) b
  unfold Stream.noticeRules Stream.armings
  rw [harm]
  rfl

/-- Settles O14: the last beat, a beat before it and the last beat in a drain; then each of the three notices by its own
laws. -/
theorem hostWriteCompletes : Obligations.HostWriteCompletes := by
  unfold Obligations.HostWriteCompletes
  refine ⟨fun s b fs hf hd => ?last, fun s b c rest fs u hf hu => ?more, fun s b x fs u hf hd hu => ?draining,
    fun s b take lo hi htake hlo hhi => ?capture,
    fun s w => ⟨rfl, rfl, rfl, fun hu => ?data, fun o1 entry selector code o2 hc h1 h2 he hs =>
      ⟨fun p hp hcode => ?rows, fun _ => ?unknown⟩⟩,
    fun s b => ?damage, State.damageNotice_get, State.shows_iff,
    fun g b c y hb h1 h2 hp h3 => ⟨g.touched_below b h1 h3,
      fun h4 hy hc => g.touched_eq b c y hb h1 h2 h3 h4 hp hy hc⟩,
    Layer.mapPixels_eq, DamageList.insertPixels_eq, fun s b => rfl, Stream.noticeRules_eq,
    fun s k out => ⟨s.updateStream_streams k out, s.updateStream_due k out⟩⟩
  case last =>
    have hleft : (s.writeMemory [b]).removeOldest = { s with mem := s.mem.writeBeat b, inFlight := fs } :=
      (s.writeMemory [b]).removeOldest_eq _ fs hf hd
    rw [exec_hostWriteCompletion s b [] fs hf]
    refine ⟨_, rfl, ?_, s.completeHostBeat_mem b [], ?_⟩
    · rw [State.completeHostBeat_last, hleft]
      rfl
    · rw [State.completeHostBeat_last, State.acceptWaiting_inFlight, State.notice_inFlight_length, hleft]
  case more =>
    rw [exec_hostWriteCompletion s b _ fs hf, State.completeHostBeat_more, hf, hu]
    rfl
  case draining =>
    have hleft : (s.writeMemory [b]).removeOldest = u := by
      rw [hu]
      cases fs with
      | nil => exact (s.writeMemory [b]).removeOldest_drained x _ hd hf
      | cons g fs => exact (s.writeMemory [b]).removeOldest_draining x _ g fs hd hf
    rw [exec_hostWriteCompletion s b [] fs hf, State.completeHostBeat_last, hleft]
    rfl
  case capture =>
    have hword : take = State.takeWord := funext fun t => funext fun a => funext fun w => htake t a w
    have htaken := s.controlCapture_eq b
    rw [b.wordAt_low, b.wordAt_high, ← hlo, ← hhi, ← hword] at htaken
    exact htaken
  case data =>
    have hup : (s.takeTableData w).upstream = [] := (congrArg Base.upstream (s.takeTableData_base w)).trans hu
    exact congrArg _ (State.acceptWaiting_none _ hup)
  case rows =>
    obtain ⟨hentry, hselector⟩ := readback_operand2 o2 entry selector he hs
    rw [s.takeCommand_fields w code o1 o2 hc h1 h2, hcode]
    exact exec_command_rows s o1 entry selector o2 hentry hselector p hp
  case unknown =>
    rw [s.takeCommand_fields w code o1 o2 hc h1 h2]
    rfl
  case damage => rw [s.damageNotice_eq b _ fun _ => rfl]

/-! ### HOST_READ_COMPLETION (R149) -/

/-- HOST_READ_COMPLETION of a host read: the request leaves the port, its data, as memory holds it, fills its read,
and the reads that are complete return. -/
theorem exec_hostReadCompletion (s : State) (id start : Nat) (addrs : List Nat) (fs : List Flight)
    (h : s.inFlight = .hostRead id start addrs :: fs) : exec .hostReadCompletion s =
      .next ((s.removeOldest.returnData id start (addrs.map s.mem.readBeat)).returnReads).acceptWaiting := by
  change execHostReadCompletion s = _
  unfold execHostReadCompletion
  rw [h]
  rfl

/-- The same with no drain and nothing waiting upstream. -/
theorem exec_hostReadCompletion_quiet (s : State) (id start : Nat) (addrs : List Nat) (fs : List Flight)
    (h : s.inFlight = .hostRead id start addrs :: fs) (hd : s.drain = none) (hu : s.upstream = []) :
    exec .hostReadCompletion s = .next
      (({ s with inFlight := fs }.returnData id start (addrs.map s.mem.readBeat)).returnReads) := by
  rw [exec_hostReadCompletion s id start addrs fs h, s.removeOldest_eq _ fs h hd]
  exact congrArg _ (State.acceptWaiting_none _ hu)

/-- The one beat of a direct read filled: the read is complete, and answers the data. -/
theorem TrackedRead.fill_one (id a : Nat) (x : BeatData) :
    (TrackedRead.fill 0 [x] ⟨id, [.direct], [⟨a, none⟩], 1⟩).complete = true ∧
      (TrackedRead.fill 0 [x] ⟨id, [.direct], [⟨a, none⟩], 1⟩).answer = [x] := ⟨rfl, rfl⟩

/-- Data of one read leaves the others alone. -/
theorem returnData_others (id start : Nat) (data : List BeatData) (rs : List TrackedRead) (h : ∀ r ∈ rs, r.id ≠ id) :
    (rs.map fun r => if r.id = id then r.fill start data else r) = rs := by
  conv => rhs; rw [← List.map_id rs]
  exact List.map_congr_left fun r hr => if_neg (h r hr)

/-- Settles O16: the completion, and the case of one direct beat by what fills it. -/
theorem hostReadCompletes : Obligations.HostReadCompletes := by
  unfold Obligations.HostReadCompletes
  refine ⟨fun s id start addrs fs rs hf hd hu hrs => ?general, fun s id a fs rs hf hd hu ht hrs => ?oneBeat⟩
  case general =>
    rw [exec_hostReadCompletion_quiet s id start addrs fs hf hd hu, hrs]
    rfl
  case oneBeat =>
    rw [exec_hostReadCompletion_quiet s id 0 [a] fs hf hd hu, State.returnData, ht, List.map_cons, if_pos rfl,
      returnData_others id 0 _ rs fun r hr => (hrs r hr).1]
    obtain ⟨hcomplete, hanswer⟩ := TrackedRead.fill_one id a (s.mem.readBeat a)
    have hwait : rs.takeWhile TrackedRead.complete = [] ∧ rs.dropWhile TrackedRead.complete = rs := by
      cases rs with
      | nil => exact ⟨rfl, rfl⟩
      | cons r rs => simp [(hrs r List.mem_cons_self).2]
    simp only [State.returnReads, List.map_cons, List.map_nil, List.dropWhile_cons_of_pos hcomplete,
      List.takeWhile_cons_of_pos hcomplete, hanswer, hwait]

end Sys2Proof.Machine
end

section
/-! PROOF. REBALANCE (O18) and HARDWARE_RESET (O4). -/

namespace Sys2Proof.Machine

/-- REBALANCE during a drain is refused with BUSY (R153 step 1). -/
theorem State.takeRebalance_busy (s : State) (h : s.drain ≠ none) : s.takeRebalance =
    s.raise ⟨.commandRefused, 0x30, 0, 10, word s.stagedCredits.sum, 1⟩ := by
  have hchecks : firstFailure s.rebalanceChecks = some (.busy, 1) := by
    simp [State.rebalanceChecks, firstFailure, h]
  rw [State.takeRebalance, hchecks]
  rfl

/-- REBALANCE of staged counts above 24 is refused with CREDIT_SUM (R153 step 2). -/
theorem State.takeRebalance_creditSum (s : State) (hd : s.drain = none) (h : 24 < s.stagedCredits.sum) :
    s.takeRebalance = s.raise ⟨.commandRefused, 0x30, 0, 11, word s.stagedCredits.sum, 2⟩ := by
  have hchecks : firstFailure s.rebalanceChecks = some (.creditSum, 2) := by
    simp [State.rebalanceChecks, firstFailure, hd, Config.creditTotal, Nat.not_le.mpr h]
  rw [State.takeRebalance, hchecks]
  rfl

/-- Any other REBALANCE is taken: it drains what is in flight, and the drain ends at once when nothing is (R153,
R154). -/
theorem State.takeRebalance_taken (s : State) (hd : s.drain = none) (h : s.stagedCredits.sum ≤ 24) :
    s.takeRebalance = State.endDrain { s with drain := some ⟨s.stagedCredits, s.inFlight.length⟩ } := by
  have hchecks : firstFailure s.rebalanceChecks = none := by
    simp [State.rebalanceChecks, firstFailure, hd, Config.creditTotal, h]
  rw [State.takeRebalance, hchecks]

/-- A drain ends on an empty port (R154). -/
theorem State.endDrain_empty (s : State) (x : Drain) (hd : s.drain = some x) (hf : s.inFlight = []) : s.endDrain =
    ({ s with activeCredits := x.counts, drain := none }).raise
      ⟨.rebalanced, 0x30, 0, 0, word x.counts.sum, word x.noted⟩ := by
  simp [State.endDrain, hd, hf]

/-- A drain goes on while a request is in flight (R154). -/
theorem State.endDrain_goesOn (s : State) (hf : s.inFlight ≠ []) : s.endDrain = s := by
  unfold State.endDrain
  split
  · rfl
  · exact if_neg (by simpa using hf)

/-- Settles O18: the two outcomes of a REBALANCE that is taken, and the two refusals. -/
theorem rebalanceTakenOrRefused : Obligations.RebalanceTakenOrRefused := by
  unfold Obligations.RebalanceTakenOrRefused
  refine ⟨fun s hd h => ⟨fun hf => ?drains, fun hf => ?atOnce⟩,
    fun s => ⟨fun hd => congrArg _ (s.takeRebalance_busy hd), fun hd h => congrArg _ (s.takeRebalance_creditSum hd h)⟩⟩
  case drains => exact congrArg _ ((s.takeRebalance_taken hd h).trans (State.endDrain_goesOn _ hf))
  case atOnce =>
    have hends := State.endDrain_empty { s with drain := some ⟨s.stagedCredits, s.inFlight.length⟩ } _ rfl hf
    refine congrArg _ ((s.takeRebalance_taken hd h).trans (hends.trans ?_))
    obtain ⟨⟩ := s
    subst hd hf
    rfl

/-- A link after a reset keeps what it has sent alone (R143). -/
theorem State.hardwareReset_links (s : State) (cause : HardwareCause) (d : OutputId) :
    (s.hardwareReset cause).links.get d = { State.reset.links.get d with sent := (s.links.get d).sent } := by
  cases d <;> rfl

/-- Settles O4: the next state is the reset state with memory, the links' records and the cause put in. -/
theorem hardwareResetCompletes : Obligations.HardwareResetCompletes := by
  unfold Obligations.HardwareResetCompletes
  exact fun cause s => ⟨s.hardwareReset cause, rfl, rfl,
    rfl, rfl, rfl, rfl, rfl, rfl, rfl, rfl, rfl, rfl, rfl, rfl, rfl,
    rfl, rfl, s.hardwareReset_links cause, rfl, rfl, rfl⟩

end Sys2Proof.Machine
end

section
/-! PROOF. The interrupt line (O57): a completed record and EVENT_CONSUMED set it from the indices that they leave, a
hardware reset clears it with both indices, and everything else keeps all three. -/

namespace Sys2Proof.Machine

open Sys2Proof.Safety

/-- The interrupt line with the two indices that it follows (R168). -/
def EventWriter.line (w : EventWriter) : Bool × Byte × Byte := (w.interrupt, w.writeIndex, w.consumed)

/-- What keeps the line and both indices keeps the line as the indices give it. -/
theorem interruptFollows_of_line {s t : State} (h : t.events.line = s.events.line) (hs : InterruptFollows s) :
    InterruptFollows t := by
  obtain ⟨hline, hwrite, hconsumed⟩ : t.events.interrupt = s.events.interrupt ∧
      t.events.writeIndex = s.events.writeIndex ∧ t.events.consumed = s.events.consumed := by
    simpa only [EventWriter.line, Prod.mk.injEq] using h
  rw [InterruptFollows, hline, hwrite, hconsumed]
  exact hs

/-- The line is part of the ring. -/
theorem line_of_ring {v w : EventWriter} (h : v.ring = w.ring) : v.line = w.line :=
  congrArg (fun r : Ring => (r.interrupt, r.writeIndex, r.consumed)) h

theorem interruptFollows_of_ring {s t : State} (h : t.events.ring = s.events.ring) (hs : InterruptFollows s) :
    InterruptFollows t := interruptFollows_of_line (line_of_ring h) hs

/-- The ring is part of the base. -/
theorem interruptFollows_of_base {s t : State} (h : t.base = s.base) (hs : InterruptFollows s) : InterruptFollows t :=
  interruptFollows_of_ring (ring_of_base h) hs

theorem interruptFollows_acceptWaiting {s : State} (hs : InterruptFollows s) : InterruptFollows s.acceptWaiting :=
  interruptFollows_of_ring s.acceptWaiting_ring hs

theorem interruptFollows_removeOldest {s : State} (hs : InterruptFollows s) : InterruptFollows s.removeOldest :=
  interruptFollows_of_ring (State.endDrain_ring { s with inFlight := s.inFlight.tail }) hs

/-! ### The event writer's own steps (R166 to R170) -/

theorem EventWriter.formRecord_line (w : EventWriter) : w.formRecord.line = w.line := by
  unfold EventWriter.formRecord
  split <;> rfl

/-- The completed write of a block keeps the line: READBACK_DONE is an event like any other (R162, R169). -/
theorem State.blockWritten_line (s : State) (b : Block) (live : Bool) :
    (s.blockWritten b live).events.line = s.events.line := by
  unfold State.blockWritten State.readbackFinished
  split
  · split
    · rfl
    · exact (line_of_ring (EventWriter.raise_ring { s.events with readback := none } _)).trans rfl
  · rfl

theorem interruptFollows_blockWritten {s : State} (b : Block) (live : Bool) (hs : InterruptFollows s) :
    InterruptFollows (s.blockWritten b live) := interruptFollows_of_line (s.blockWritten_line b live) hs

/-- EVENT_CONSUMED sets the line from the slot that it frees, or is refused (R167, R168). -/
theorem interruptFollows_takeConsumed {s : State} (w : Word) (hs : InterruptFollows s) :
    InterruptFollows (s.takeConsumed w) := by
  unfold State.takeConsumed
  dsimp only
  split
  · rfl
  · exact interruptFollows_of_base (s.raise_base _) hs

/-! ### Commands and control words (R158, R161) -/

theorem State.takeRebalance_line (s : State) : s.takeRebalance.events.line = s.events.line := by
  unfold State.takeRebalance
  split
  · exact line_of_ring (ring_of_base (s.raise_base _))
  · exact line_of_ring (State.endDrain_ring _)

theorem State.takeReadback_line (s : State) (table entry selector : Byte) :
    (s.takeReadback table entry selector).events.line = s.events.line := by
  unfold State.takeReadback
  split
  · exact line_of_ring (ring_of_base (s.raise_base _))
  · rfl

/-- SOFT_RESET keeps the ring's indices and the line (R164). -/
theorem State.takeSoftReset_line (s : State) : s.takeSoftReset.events.line = s.events.line := by
  have hb : s.resetCompositor.resetOutputs.resetLinks.resetTables.base = s.base := by simp
  refine Eq.trans ?_ (line_of_ring (ring_of_base hb))
  unfold State.takeSoftReset
  generalize s.resetCompositor.resetOutputs.resetLinks.resetTables = u
  exact (line_of_ring (EventWriter.raise_ring { u.cancelReadback.events with cause := .soft } _)).trans rfl

/-- No command of the host touches the line or an index (R161). -/
theorem State.takeCommandFields_line (s : State) (c o : Byte) (p : BitVec 16) :
    (s.takeCommandFields c o p).events.line = s.events.line := by
  have hbase : ∀ t : State, t.base = s.base → t.events.line = s.events.line :=
    fun t h => line_of_ring (ring_of_base h)
  unfold State.takeCommandFields
  split
  · exact hbase _ (s.takeCommit_base o)
  · exact hbase _ (s.takeInvalidate_base o)
  · exact hbase _ (s.takeStreamStart_base o)
  · exact hbase _ (s.takeStreamPause_base o)
  · exact hbase _ (s.takeStreamResume_base o)
  · exact hbase _ (s.takeStreamStop_base o)
  · exact hbase _ (s.takeOutputStart_base o)
  · exact hbase _ (s.takeOutputStop_base o)
  · exact hbase _ (s.takeOutputFreeze_base o)
  · exact hbase _ (s.takeOutputThaw_base o)
  · exact s.takeRebalance_line
  · exact s.takeReadback_line _ _ _
  · rfl
  · exact s.takeSoftReset_line
  · exact hbase _ (s.raise_base _)

theorem interruptFollows_command {s : State} (c o : Byte) (p : BitVec 16) (hs : InterruptFollows s) :
    InterruptFollows (s.takeCommandFields c o p) := interruptFollows_of_line (s.takeCommandFields_line c o p) hs

theorem interruptFollows_takeWord {s : State} (a : Nat) (w : Word) (hs : InterruptFollows s) :
    InterruptFollows (s.takeWord a w) := by
  unfold State.takeWord
  repeat' split
  · exact hs
  · exact interruptFollows_of_base (s.takeTableData_base w) hs
  · exact interruptFollows_command _ _ _ hs
  · exact hs
  · exact interruptFollows_takeConsumed w hs
  · exact hs

theorem interruptFollows_captureAt {s : State} (b : WriteBeat) (a : Nat) (hs : InterruptFollows s) :
    InterruptFollows (s.captureAt b a) := by
  unfold State.captureAt
  split
  · exact hs
  · exact interruptFollows_takeWord a _ hs

/-- The notice of a write beat keeps the line as the indices give it, whatever control words it carries (R147). -/
theorem interruptFollows_notice {s : State} (b : WriteBeat) (hs : InterruptFollows s) :
    InterruptFollows (s.notice b) := by
  have hcaptured : InterruptFollows ((s.damageNotice b).streamNotice b) := interruptFollows_of_base (by simp) hs
  exact interruptFollows_captureAt b _ (interruptFollows_captureAt b _ hcaptured)

/-! ### Steps -/

theorem interruptFollows_completeHostBeat {s : State} (b : WriteBeat) (rest : List WriteBeat)
    (hs : InterruptFollows s) : InterruptFollows (s.completeHostBeat b rest) := by
  cases rest with
  | nil =>
    rw [State.completeHostBeat_last]
    exact interruptFollows_acceptWaiting
      (interruptFollows_notice b (interruptFollows_removeOldest (s := s.writeMemory [b]) hs))
  | cons c rest =>
    rw [State.completeHostBeat_more]
    have hnotice := interruptFollows_notice (s := { s with mem := s.mem.writeBeat b, inFlight := s.inFlight.tail }) b hs
    exact interruptFollows_acceptWaiting (s := State.restoreWrite _ (c :: rest)) hnotice

/-- A grant ends at most what the event writer presents (R151, R170). -/
theorem interruptFollows_grant {s : State} (f : Flight) (hs : InterruptFollows s) : InterruptFollows (s.grant f) := by
  have hgranted : InterruptFollows (s.afterGrant f) :=
    interruptFollows_of_line (by cases f <;> rfl) hs
  exact interruptFollows_acceptWaiting (s := { s.afterGrant f with inFlight := s.inFlight ++ [f] }) hgranted

/-- The reset line's release keeps the ring: it raises RESET_DONE and makes blocks due (R171). -/
theorem interruptFollows_releaseReset {s : State} (hs : InterruptFollows s) : InterruptFollows s.releaseReset := by
  unfold State.releaseReset
  split
  · refine interruptFollows_acceptWaiting (interruptFollows_of_line ?_ hs)
    exact (line_of_ring (EventWriter.raise_ring { s.events with cause := s.events.cause } _)).trans rfl
  · exact hs

/-- A command that always runs makes of the part what its meaning says. -/
theorem interruptFollows_of_next {t u : State} (h : (.next u : Host.Outcome State Fault Refusal) = .next t)
    (hu : InterruptFollows u) : InterruptFollows t := Host.Outcome.next.inj h ▸ hu

/-- A row that names a special line start is a line start, or nothing (log entries 2 and 3). -/
theorem interruptFollows_of_lineStart {s t : State} {d : OutputId} {p : Prop} [Decidable p]
    (h : (if p then .next (s.lineStart d []) else .next s : Host.Outcome State Fault Refusal) = .next t)
    (hs : InterruptFollows s) : InterruptFollows t := by
  split at h
  · exact interruptFollows_of_next h (interruptFollows_of_base (s.lineStart_base d []) hs)
  · exact interruptFollows_of_next h hs

/-! ### The completions (R147) -/

theorem hostWriteCompletion_interruptFollows {s t : State} (h : exec .hostWriteCompletion s = .next t)
    (hs : InterruptFollows s) : InterruptFollows t := by
  change execHostWriteCompletion s = _ at h
  unfold execHostWriteCompletion at h
  split at h
  · next b rest _ => exact interruptFollows_of_next h (interruptFollows_completeHostBeat b rest hs)
  · exact interruptFollows_of_next h hs

theorem hostReadCompletion_interruptFollows {s t : State} (h : exec .hostReadCompletion s = .next t)
    (hs : InterruptFollows s) : InterruptFollows t := by
  change execHostReadCompletion s = _ at h
  unfold execHostReadCompletion at h
  split at h
  · next id start addrs _ =>
    exact interruptFollows_of_next h (interruptFollows_acceptWaiting
      (s := (s.removeOldest.returnData id start _).returnReads) (interruptFollows_removeOldest hs))
  · exact interruptFollows_of_next h hs

theorem scanReadCompletion_interruptFollows {s t : State} (h : exec .scanReadCompletion s = .next t)
    (hs : InterruptFollows s) : InterruptFollows t := by
  change execScanReadCompletion s = _ at h
  unfold execScanReadCompletion at h
  split at h
  · refine interruptFollows_of_next h ?_
    unfold State.returnPixels
    split <;> exact interruptFollows_removeOldest hs
  · exact interruptFollows_of_next h hs

theorem compReadCompletion_interruptFollows {s t : State} (h : exec .compReadCompletion s = .next t)
    (hs : InterruptFollows s) : InterruptFollows t := by
  change execCompReadCompletion s = _ at h
  unfold execCompReadCompletion at h
  split at h
  · exact interruptFollows_of_next h
      (interruptFollows_of_base (State.compRead_base _ _) (interruptFollows_removeOldest hs))
  · exact interruptFollows_of_next h hs

/-- The write of a request completes and the request leaves the port (R147). -/
theorem interruptFollows_written {s : State} (beats : List WriteBeat) (hs : InterruptFollows s) :
    InterruptFollows (s.writeMemory beats).removeOldest := interruptFollows_removeOldest (s := s.writeMemory beats) hs

/-- A row write of a tile completes, under either of its two names (log entry 16). -/
theorem interruptFollows_compWrite {s : State} (beats : List WriteBeat) (hs : InterruptFollows s) :
    InterruptFollows (s.writeMemory beats).removeOldest.compWrite :=
  interruptFollows_of_base (State.compWrite_base _) (interruptFollows_written beats hs)

theorem compWriteCompletion_interruptFollows {s t : State} (h : exec .compWriteCompletion s = .next t)
    (hs : InterruptFollows s) : InterruptFollows t := by
  change execCompWriteCompletion s = _ at h
  unfold execCompWriteCompletion at h
  split at h
  · exact interruptFollows_of_next h (interruptFollows_compWrite _ hs)
  · exact interruptFollows_of_next h hs

theorem tileCompletion_interruptFollows {s t : State} (h : exec .tileCompletion s = .next t)
    (hs : InterruptFollows s) : InterruptFollows t := by
  change execTileCompletion s = _ at h
  unfold execTileCompletion at h
  split at h
  · split at h
    · exact interruptFollows_of_next h (interruptFollows_compWrite _ hs)
    · exact interruptFollows_of_next h hs
  · exact interruptFollows_of_next h hs

/-- A completed record sets the line from the indices that it leaves (R166, R168). -/
theorem recordWriteCompletion_interruptFollows {s t : State} (h : exec .recordWriteCompletion s = .next t)
    (hs : InterruptFollows s) : InterruptFollows t := by
  change execRecordWriteCompletion s = _ at h
  unfold execRecordWriteCompletion at h
  split at h
  · exact interruptFollows_of_next h rfl
  · exact interruptFollows_of_next h hs

theorem statusBlockCompletion_interruptFollows {s t : State} (h : exec .statusBlockCompletion s = .next t)
    (hs : InterruptFollows s) : InterruptFollows t := by
  change execStatusBlockCompletion s = _ at h
  unfold execStatusBlockCompletion at h
  split at h
  · exact interruptFollows_of_next h (interruptFollows_blockWritten _ _ (interruptFollows_written _ hs))
  · exact interruptFollows_of_next h hs

theorem readbackDone_interruptFollows {s t : State} (h : exec .readbackDone s = .next t)
    (hs : InterruptFollows s) : InterruptFollows t := by
  change execReadbackDone s = _ at h
  unfold execReadbackDone at h
  split at h
  · exact interruptFollows_of_next h (interruptFollows_blockWritten _ _ (interruptFollows_written _ hs))
  · exact interruptFollows_of_next h hs

/-! ### The port and the event writer -/

/-- HOST_WRITE and HOST_READ present a request, or are refused (R144). -/
theorem interruptFollows_of_present {s t : State} {r : UpRequest} {p : Prop} [Decidable p] {why : Refusal}
    (h : (if p then .next (s.present r) else .refused why : Host.Outcome State Fault Refusal) = .next t)
    (hs : InterruptFollows s) : InterruptFollows t := by
  split at h
  · exact interruptFollows_of_next h (interruptFollows_acceptWaiting (s := { s with upstream := s.upstream ++ [r] }) hs)
  · cases h

theorem downstreamGrant_interruptFollows {s t : State} (h : exec .downstreamGrant s = .next t)
    (hs : InterruptFollows s) : InterruptFollows t := by
  change execDownstreamGrant s = _ at h
  unfold execDownstreamGrant at h
  split at h
  · exact interruptFollows_of_next h hs
  · split at h
    · exact interruptFollows_of_next h (interruptFollows_grant _ hs)
    · cases h

theorem recordForm_interruptFollows {s t : State} (h : exec .recordForm s = .next t) (hs : InterruptFollows s) :
    InterruptFollows t := by
  change execRecordForm s = _ at h
  unfold execRecordForm at h
  split at h
  · exact interruptFollows_of_next h (interruptFollows_of_line s.events.formRecord_line hs)
  · exact interruptFollows_of_next h hs

theorem statusBlockWrite_interruptFollows {s t : State} (h : exec .statusBlockWrite s = .next t)
    (hs : InterruptFollows s) : InterruptFollows t := by
  change execStatusBlockWrite s = _ at h
  unfold execStatusBlockWrite at h
  split at h <;> exact interruptFollows_of_next h hs

/-! ### All commands -/

/-- Every command that runs leaves the line as the indices give it. -/
theorem exec_interruptFollows {c : Instr} {s t : State} (h : exec c s = .next t) (hs : InterruptFollows s) :
    InterruptFollows t := by
  have keeps : ∀ u : State, (.next u : Host.Outcome State Fault Refusal) = .next t → u.base = s.base →
      InterruptFollows t := fun u hu hb => interruptFollows_of_next hu (interruptFollows_of_base hb hs)
  have command : ∀ (code o : Byte) (p : BitVec 16),
      (.next (s.takeCommandFields code o p) : Host.Outcome State Fault Refusal) = .next t → InterruptFollows t :=
    fun code o p hu => interruptFollows_of_next hu (interruptFollows_command code o p hs)
  cases c with
  | hostWrite addr beats => exact interruptFollows_of_present h hs
  | hostRead addr beats => exact interruptFollows_of_present h hs
  | downstreamGrant => exact downstreamGrant_interruptFollows h hs
  | hostWriteCompletion => exact hostWriteCompletion_interruptFollows h hs
  | hostReadCompletion => exact hostReadCompletion_interruptFollows h hs
  | scanReadCompletion => exact scanReadCompletion_interruptFollows h hs
  | tileTake => exact keeps _ h s.tileTake_base
  | compReadCompletion => exact compReadCompletion_interruptFollows h hs
  | compWriteCompletion => exact compWriteCompletion_interruptFollows h hs
  | tileCompletion => exact tileCompletion_interruptFollows h hs
  | recordForm => exact recordForm_interruptFollows h hs
  | recordWriteCompletion => exact recordWriteCompletion_interruptFollows h hs
  | statusBlockWrite => exact statusBlockWrite_interruptFollows h hs
  | statusBlockCompletion => exact statusBlockCompletion_interruptFollows h hs
  | readbackDone => exact readbackDone_interruptFollows h hs
  | tableSelect w => exact keeps _ h (s.selectTable_base w)
  | tableData w =>
    exact interruptFollows_of_next h (interruptFollows_acceptWaiting
      (interruptFollows_of_base (s.takeTableData_base w) hs))
  | commit o => exact command 0x01 o 0 h
  | invalidate o => exact command 0x02 o 0 h
  | streamStart o => exact command 0x10 o 0 h
  | streamPause o => exact command 0x11 o 0 h
  | streamResume o => exact command 0x12 o 0 h
  | streamStop o => exact command 0x13 o 0 h
  | outputStart o => exact command 0x20 o 0 h
  | outputStop o => exact command 0x21 o 0 h
  | outputFreeze o => exact command 0x22 o 0 h
  | outputThaw o => exact command 0x23 o 0 h
  | rebalance => exact command 0x30 0 0 h
  | readback table entry selector =>
    exact interruptFollows_of_next h (interruptFollows_of_line (s.takeReadback_line table entry selector) hs)
  | clearCounters => exact command 0x41 0 0 h
  | softReset => exact command 0x7F 0 0 h
  | unknownCommand code o p => exact command code o p h
  | eventMask w => exact interruptFollows_of_next h hs
  | eventConsumed w => exact interruptFollows_of_next h (interruptFollows_takeConsumed w hs)
  | lineStart d => exact keeps _ h (s.lineStart_base d [])
  | frameEpoch d order =>
    change execFrameEpoch d order s = _ at h
    unfold execFrameEpoch at h
    split at h
    · exact keeps _ h (by split <;> simp)
    · exact keeps _ h rfl
  | announceTimeout d => exact interruptFollows_of_lineStart h hs
  | configuringExpiry d => exact interruptFollows_of_lineStart h hs
  | confirmTimeout d => exact interruptFollows_of_lineStart h hs
  | lockCompletion d => exact keeps _ h (s.lockCompletion_base d)
  | lockLoss d => exact keeps _ h (s.lockLoss_base d)
  | panelInfo d width height clock => exact keeps _ h (s.takePanelInfo_base d _ _ _)
  | readyNormal d => exact keeps _ h (s.takeReadyNormal_base d)
  | confirm d q => exact keeps _ h (s.takeConfirm_base d q)
  | replayFrom d q => exact keeps _ h (s.takeReplayFrom_base d q)
  | panelHalt d => exact keeps _ h (s.takePanelHalt_base d)
  | badPanelMessage d bytes => exact keeps _ h (s.takeMessage_base d _)
  | hardwareReset cause => exact interruptFollows_of_next h rfl
  | resetRelease => exact interruptFollows_of_next h (interruptFollows_releaseReset hs)

/-- Settles O57: a step is the front command on the part with the rest of the queue, or nothing. -/
theorem interruptLineFollowsIndices : Obligations.InterruptLineFollowsIndices := by
  unfold Obligations.InterruptLineFollowsIndices
  intro s t hs h
  unfold step at h
  split at h
  · exact interruptFollows_of_next h hs
  · exact exec_interruptFollows h hs

end Sys2Proof.Machine
end

section
/-! PROOF. SOFT_RESET (O6), CLEAR_COUNTERS (O7) and RESET_RELEASE (O5). -/

namespace Sys2Proof.Machine

/-! ### The working state after SOFT_RESET (R164) -/

/-- A link after SOFT_RESET: it has sent HALT where it was up, and everything else has its reset value (R140, R143). -/
def Link.softReset (l : Link) : Link :=
  { Link.reset with sent := if l.state.up then l.sent ++ [haltBytes] else l.sent }

/-- A link that is reset goes to DOWN first, and so sends HALT where it is up (R140). -/
theorem Link.toDown_toReset (d : OutputId) (fc : Count) (l : Link) : (l.toDown d fc true).1.toReset = l.softReset := by
  unfold Link.toDown Link.softReset
  cases hup : l.state.up <;> rfl

/-- The reset of one link: its record, and the events of its way to DOWN (R140, R143). -/
theorem State.resetLink_rest (s : State) (d : OutputId) : ∃ events,
    s.resetLink d = { s with links := s.links.set d (s.links.get d).softReset, events := events } := by
  obtain ⟨w, hdown⟩ := s.runLink_toDown d true
  refine ⟨w, ?_⟩
  unfold State.resetLink
  simp only [hdown, State.setLink, PerOutput.get_set_same, PerOutput.set_set, Link.toDown_toReset]

/-- Both links and the link settings after a soft reset (R140, R143). -/
theorem State.resetLinks_rest (s : State) : ∃ events, s.resetLinks = { s with
    links := s.links.map Link.softReset, linkSettings := .default, events := events } := by
  obtain ⟨v, hA⟩ := s.resetLink_rest .A
  obtain ⟨w, hB⟩ := (s.resetLink .A).resetLink_rest .B
  refine ⟨w, ?_⟩
  unfold State.resetLinks
  simp only [bothOutputs, List.foldl_cons, List.foldl_nil]
  rw [hB, hA]
  rfl

/-- Both compositions abandoned and the compositor's records reset: the job, the streams and the event writer change
besides (R73, R76). -/
theorem State.resetCompositor_rest (s : State) : ∃ job streams events, s.resetCompositor = { s with
    comp := ⟨.reset, .reset⟩, turn := .A, job := job, streams := streams, events := events } := by
  obtain ⟨_, _, _, hA⟩ := s.abandon_rest .A
  obtain ⟨job, streams, w, hB⟩ := (s.abandon .A).abandon_rest .B
  refine ⟨job, streams, w, ?_⟩
  unfold State.resetCompositor
  simp only [bothOutputs, List.foldl_cons, List.foldl_nil]
  rw [hB, hA]

/-- Both outputs reset but for their staged timings; reads of the fetchers in flight will be discarded (R113, R124). -/
theorem State.resetOutputs_rest (s : State) : ∃ inFlight, s.resetOutputs = { s with
    outputs := s.outputs.map Output.softReset, inFlight := inFlight } := by
  obtain ⟨_, hA⟩ := s.stopFetcher_rest .A
  obtain ⟨inFlight, hB⟩ := (s.stopFetcher .A).stopFetcher_rest .B
  refine ⟨inFlight, ?_⟩
  unfold State.resetOutputs
  simp only [bothOutputs, List.foldl_cons, List.foldl_nil]
  rw [hB, hA]
  rfl

/-- The part after SOFT_RESET: requests in flight, the job and the event writer apart, every field (R164). -/
theorem State.takeSoftReset_rest (s : State) : ∃ inFlight job events, s.takeSoftReset = { s with
      comp := ⟨.reset, .reset⟩, turn := .A, job := job
      outputs := s.outputs.map Output.softReset, links := s.links.map Link.softReset, linkSettings := .default
      layers := State.reset.layers, streams := State.reset.streams, damage := State.reset.damage
      port := State.reset.port, inFlight := inFlight, events := events } := by
  obtain ⟨_, _, _, hcompositor⟩ := s.resetCompositor_rest
  obtain ⟨_, houtputs⟩ := s.resetCompositor.resetOutputs_rest
  obtain ⟨_, hlinks⟩ := s.resetCompositor.resetOutputs.resetLinks_rest
  unfold State.takeSoftReset
  rw [hlinks, houtputs, hcompositor]
  exact ⟨_, _, _, rfl⟩

/-! ### The event writer after SOFT_RESET -/

/-- SOFT_RESET cancels the readback and sets the cause; the rest of the ring is kept (R162, R164, log entry 37). -/
theorem State.takeSoftReset_ring (s : State) : s.takeSoftReset.events.ring = { s.events.ring with
    presented := withoutReadback s.events.presented, readback := none, cause := .soft } := by
  have hb : s.resetCompositor.resetOutputs.resetLinks.resetTables.base = s.base := by simp
  have hring := ring_of_base hb
  unfold State.takeSoftReset
  generalize s.resetCompositor.resetOutputs.resetLinks.resetTables = u at hring ⊢
  have hkept : ({ u.cancelReadback.events with cause := .soft } : EventWriter).ring = { u.events.ring with
    presented := withoutReadback u.events.ring.presented, readback := none, cause := .soft } := rfl
  refine (EventWriter.raise_ring { u.cancelReadback.events with cause := .soft } (resetDone .soft)).trans ?_
  rw [hkept, hring]
  rfl

/-- A raised event leaves the mark of the readback area. -/
theorem EventWriter.raise_dueReadback (w : EventWriter) (e : Event) : (w.raise e).due.readback = w.due.readback := by
  unfold EventWriter.raise
  split
  · split
    · rfl
    · unfold EventWriter.lose; split <;> rfl
  · rfl

/-- All five status blocks are due, the readback area is not (R162, R164). -/
theorem State.takeSoftReset_due (s : State) :
    s.takeSoftReset.events.due = ⟨true, ⟨true, true⟩, ⟨true, true⟩, false⟩ := by
  unfold State.takeSoftReset
  generalize s.resetCompositor.resetOutputs.resetLinks.resetTables = u
  have hreadback := EventWriter.raise_dueReadback { u.cancelReadback.events with cause := .soft } (resetDone .soft)
  exact congrArg (DueMarks.mk true ⟨true, true⟩ ⟨true, true⟩) hreadback

/-- Settles O6: the path by its view, the working state field by field, the event writer by its ring, its marks and
the events raised. -/
theorem softResetCompletes : Obligations.SoftResetCompletes := by
  unfold Obligations.SoftResetCompletes
  intro s
  refine ⟨s.takeSoftReset, rfl, ?_⟩
  have hpath := s.takeSoftReset_path
  have hring := s.takeSoftReset_ring
  have hdue := s.takeSoftReset_due
  have hstaged := s.takeSoftReset_stagedCredits
  obtain ⟨hactive, hdrain⟩ := s.takeSoftReset_credits
  obtain ⟨inFlight, job, events, hrest⟩ := s.takeSoftReset_rest
  obtain ⟨raised, hkinds, hheld⟩ := s.takeSoftReset_raised
  generalize s.takeSoftReset = t at *
  refine ⟨congrArg PathView.mem hpath, congrArg PathView.writeQueue hpath, congrArg PathView.tracker hpath,
    congrArg PathView.upstream hpath, hactive, hstaged, hdrain, congrArg PathView.scanNext hpath,
    congrArg PathView.clients hpath, by rw [hrest], by rw [hrest]; rfl, by rw [hrest], fun d => ?outputs,
    fun d => ?links, by rw [hrest]; rfl, by rw [hrest], by rw [hrest], by rw [hrest], by rw [hrest],
    congrArg Ring.writeIndex hring, congrArg Ring.consumed hring, congrArg Ring.seq hring, congrArg Ring.mask hring,
    congrArg Ring.interrupt hring, congrArg Ring.inWriting hring, congrArg Ring.recordNext hring,
    congrArg Ring.readback hring, congrArg Ring.cause hring, hdue, raised, hkinds, ?queue, ?lost⟩
  case outputs => rw [hrest]; cases d <;> rfl
  case links => rw [hrest]; cases d <;> rfl
  case queue => exact congrArg (fun held => held.2.1) hheld
  case lost => exact congrArg (fun held => held.2.2) hheld

/-! ### CLEAR_COUNTERS and RESET_RELEASE (R163, R171) -/

/-- Settles O7: each record with its counters 0, in its place. -/
theorem clearCountersCompletes : Obligations.ClearCountersCompletes := by
  unfold Obligations.ClearCountersCompletes
  exact fun s => rfl

/-- Settles O5: with no request waiting, the release raises RESET_DONE and marks the blocks, and nothing is accepted. -/
theorem resetReleaseCompletes : Obligations.ResetReleaseCompletes := by
  unfold Obligations.ResetReleaseCompletes
  intro s hasserted hup
  refine congrArg Host.Outcome.next ?_
  unfold State.releaseReset
  rw [if_pos hasserted]
  exact State.acceptWaiting_none _ hup

end Sys2Proof.Machine
end

section
/-! PROOF. The event writer's records (O26) and the blocks of the status page (O27): when each is presented, what its
completion does, and where its fields lie. -/

namespace Sys2Proof.Machine

open Sys2Proof.Safety

/-! ### Whose turn it is (R166, R170) -/

/-- A record may be formed: an event waits, no record is in writing, the ring is not full (R166). -/
theorem EventWriter.recordDue_iff (w : EventWriter) :
    w.recordDue = true ↔ w.queue ≠ [] ∧ w.inWriting = none ∧ w.writeIndex + 1 ≠ w.consumed := by
  simp [EventWriter.recordDue, EventWriter.ringFull, and_assoc]

/-- It is formed when nothing is presented and it is a record's turn (R170, log entry 9). -/
theorem EventWriter.recordTurn_iff (w : EventWriter) : w.recordTurn = true ↔
    w.presented = none ∧ w.recordDue = true ∧ (w.recordNext = true ∨ ∀ b, w.due.has b = false) := by
  simp [EventWriter.recordTurn, ← EventWriter.nextBlock_none, and_assoc]

/-- A block is presented when nothing is and no record comes before it (R170, log entry 9). -/
theorem EventWriter.blockTurn_eq (w : EventWriter) (hp : w.presented = none)
    (hr : ¬ (w.recordDue = true ∧ w.recordNext = true)) : w.blockTurn = w.nextBlock := by
  have hfree : (w.recordDue && w.recordNext) = false := Bool.eq_false_iff.mpr fun h => hr (Bool.and_eq_true_iff.mp h)
  unfold EventWriter.blockTurn
  rw [hp, hfree]
  rfl

theorem EventWriter.blockTurn_none (w : EventWriter)
    (h : w.presented ≠ none ∨ w.recordDue = true ∧ w.recordNext = true) : w.blockTurn = none := by
  unfold EventWriter.blockTurn
  refine if_neg ?_
  obtain hp | ⟨hd, hn⟩ := h
  · simp [hp]
  · simp [hd, hn]

/-! ### RECORD_FORM and STATUS_BLOCK_WRITE -/

/-- RECORD_FORM forms a record when it is a record's turn, and does nothing otherwise (R166, R170). -/
theorem exec_recordForm (s : State) : exec .recordForm s =
    if s.events.recordTurn then .next { s with events := s.events.formRecord } else .next s := rfl

/-- The oldest event becomes the record of slot write index (R166). -/
theorem EventWriter.formRecord_cons (w : EventWriter) (e : Event) (rest : List Event) (h : w.queue = e :: rest) :
    w.formRecord = { w with
      queue := rest, seq := w.seq + 1, lost := 0
      due := if w.lost = 0 then w.due else { w.due with global := true }
      inWriting := some (w.nextRecord e)
      presented := some (.record (beatsOfBytes (ringSlot w.writeIndex) (w.nextRecord e).bytes))
      recordNext := false } := by
  simp only [EventWriter.formRecord, h]

/-- With a block to present, STATUS_BLOCK_WRITE presents it. -/
theorem exec_statusBlockWrite_some (s : State) (b : Block) (h : s.events.blockTurn = some b) :
    exec .statusBlockWrite s = .next (s.presentBlock b) := by
  change execStatusBlockWrite s = _
  simp only [execStatusBlockWrite, h]

theorem exec_statusBlockWrite_none (s : State) (h : s.events.blockTurn = none) :
    exec .statusBlockWrite s = .next s := by
  change execStatusBlockWrite s = _
  simp only [execStatusBlockWrite, h]

/-! ### The completions (R147) -/

/-- The write of a request completes outside a drain: its beats are in memory and the request leaves (R147). -/
theorem State.written_removeOldest (s : State) (beats : List WriteBeat) (f : Flight) (fs : List Flight)
    (h : s.inFlight = f :: fs) (hd : s.drain = none) :
    (s.writeMemory beats).removeOldest = { s with mem := s.mem.writeBeats beats, inFlight := fs } :=
  State.removeOldest_eq (s.writeMemory beats) f fs h hd

/-- RECORD_WRITE_COMPLETION outside a drain: the record is in memory, and the ring moves on (R166). -/
theorem exec_recordWriteCompletion (s : State) (beats : List WriteBeat) (fs : List Flight)
    (h : s.inFlight = .recordWrite beats :: fs) (hd : s.drain = none) :
    exec .recordWriteCompletion s = .next
      { s with mem := s.mem.writeBeats beats, inFlight := fs, events := s.events.finishRecord } := by
  change execRecordWriteCompletion s = _
  simp only [execRecordWriteCompletion, h, List.head?_cons, s.written_removeOldest beats _ fs h hd]

/-- STATUS_BLOCK_COMPLETION outside a drain: the block is in memory (R169). -/
theorem exec_statusBlockCompletion (s : State) (b : Block) (live : Bool) (beats : List WriteBeat) (fs : List Flight)
    (h : s.inFlight = .blockWrite b live beats :: fs) (hd : s.drain = none) :
    exec .statusBlockCompletion s = .next
      (State.blockWritten { s with mem := s.mem.writeBeats beats, inFlight := fs } b live) := by
  change execStatusBlockCompletion s = _
  simp only [execStatusBlockCompletion, h, List.head?_cons, s.written_removeOldest beats _ fs h hd]

/-! ### Layouts (10.5, R172) -/

/-- The bytes of fields in their order, each given as size and value. -/
def layoutBytes (fs : List (Nat × Nat)) : List Byte := fs.flatMap fun f => littleEndian f.1 f.2

/-- They are as many as the fields take, and have each field at its offset. -/
theorem layout_spec {bytes : List Byte} {fs : List (Nat × Nat)} {n : Nat} (h : bytes = layoutBytes fs)
    (hn : (fs.map (·.1)).sum = n) : bytes.length = n ∧ FieldsAt bytes (offsetsFrom 0 fs) := by
  refine ⟨?_, fieldsAt_layout bytes fs h⟩
  simp [h, layoutBytes, List.length_flatMap, littleEndian_length, ← hn]

theorem layoutBytes_append (fs gs : List (Nat × Nat)) : layoutBytes (fs ++ gs) = layoutBytes fs ++ layoutBytes gs :=
  List.flatMap_append

/-- A byte is the field of one byte that holds its value. -/
theorem layoutBytes_byte (b : Byte) (fs : List (Nat × Nat)) :
    layoutBytes ((1, b.toNat) :: fs) = b :: layoutBytes fs := by
  simp [layoutBytes, littleEndian]

/-- The fields of a record in their order (10.5). -/
theorem Record.bytes_layout (r : Record) : r.bytes = layoutBytes
    [(2, r.seq.toNat), (1, r.event.kind.code), (1, r.event.source), (2, r.event.frame.toNat), (1, r.event.reason),
      (1, 0), (2, r.lost.toNat), (2, 0), (4, r.event.a.toNat), (4, r.event.b.toNat), (12, 0)] := rfl

/-- The fields of the global block in their order (10.5). -/
theorem EventWriter.globalBytes_layout (w : EventWriter) : w.globalBytes = layoutBytes
    ([(2, 0x2410), (1, causeCode w.cause), (1, 0)] ++
      (1, w.writeIndex.toNat) :: [(3, 0), (2, w.lost.toNat), (22, 0)]) := by
  rw [layoutBytes_append, layoutBytes_byte]
  rfl

/-- The panel record's fields, 0 when it is absent (10.5). -/
theorem panelBytes_layout (p : Option PanelRecord) : panelBytes p = layoutBytes
    [(2, (p.map (·.width)).getD 0), (2, (p.map (·.height)).getD 0), (4, (p.map (·.clock)).getD 0)] := by
  cases p <;> rfl

/-- The fields of an output's block in their order (10.5). -/
theorem State.outputBytes_layout (s : State) (d : OutputId) (o : Output) (l : Link) (c : CompOutput) (m : DamageList)
    (ho : o = s.outputs.get d) (hl : l = s.links.get d) (hc : c = s.comp.get d) (hm : m = (s.damage.get d).list) :
    s.outputBytes d = layoutBytes
      [(1, outputStateCode o.state), (1, resumeCode o.resume), (1, flag o.lock), (1, linkStateCode l.state),
        (2, o.frameCounter.toNat), (1, c.front.val), (1, flag o.blank), (1, m.entries.length), (1, flag m.whole),
        (1, linkReasonCode l.reason), (1, flag l.panel.isSome), (2, (l.panel.map (·.width)).getD 0),
        (2, (l.panel.map (·.height)).getD 0), (4, (l.panel.map (·.clock)).getD 0), (2, c.missed.toNat),
        (2, o.underflows.toNat), (2, l.counters.skipped.toNat), (2, l.counters.replays.toNat),
        (2, l.counters.reinits.toNat), (2, l.counters.badRefs.toNat), (2, l.counters.badCrcs.toNat), (30, 0)] := by
  subst ho hl hc hm
  unfold State.outputBytes
  dsimp only
  rw [panelBytes_layout]
  rfl

/-- One field for each number of a list. -/
theorem layoutBytes_map (g : Nat → Nat × Nat) (js : List Nat) :
    layoutBytes (js.map g) = js.flatMap fun j => littleEndian (g j).1 (g j).2 :=
  List.flatMap_map g (fun f => littleEndian f.1 f.2) js

/-- Fields of one size for the numbers below m take m times that size. -/
theorem sizes_range (n m : Nat) (v : Nat → Nat) : (((List.range m).map fun j => (n, v j)).map (·.1)).sum = m * n := by
  induction m with
  | zero => rw [Nat.zero_mul]; rfl
  | succ m ih =>
    rw [List.range_succ, List.map_append, List.map_append, List.sum_append_nat, ih, Nat.succ_mul]
    rfl

theorem append_congr {as bs cs ds : List Byte} (h : as = bs) (g : cs = ds) : as ++ cs = bs ++ ds := by
  rw [h, g]

/-- The fields of a stream's block in their order, 0xFF for a slot that is not there (10.5). -/
theorem Stream.bytes_layout (x : Stream) : x.bytes = layoutBytes
    ([(1, streamStateCode x.state), (1, x.count), (1, x.shownSlot.getD 0xFF), (1, x.expected), (4, x.tick.toNat),
        (2, x.phase)] ++
      ((List.range 6).map fun j => (1, (x.slots[j]?.map fun sl => slotStateCode sl.state).getD 0xFF)) ++
      [(2, x.counters.shown.toNat), (2, x.counters.dropped.toNat), (2, x.counters.underrun.toNat),
        (2, x.counters.short.toNat), (2, x.counters.overrun.toNat), (2, x.counters.lateWrite.toNat),
        (2, x.counters.outOfOrder.toNat), (2, x.counters.unarmedWrite.toNat), (32, 0)]) := by
  rw [layoutBytes_append, layoutBytes_append, layoutBytes_map]
  unfold Stream.bytes
  rw [List.append_assoc]
  refine append_congr (append_congr rfl ?slots) rfl
  rw [List.map_eq_flatMap]
  refine congrArg List.flatten (List.map_congr_left fun j _ => ?_)
  cases x.slots[j]? <;> rfl

/-- The readback area's fields in their order (10.5). -/
theorem readbackBytes_layout (r : Readback) : readbackBytes (some r) = layoutBytes
    ((1, r.table.toNat) :: (1, r.entry.toNat) :: (1, r.selector.toNat) :: (1, 0) ::
      ((List.range 8).map fun i => (4, (r.words.getD i 0).toNat)) ++ [(28, 0)]) := by
  rw [layoutBytes_append, layoutBytes_byte, layoutBytes_byte, layoutBytes_byte]
  rfl

/-- Settles O26: the turn of a record as above, its fields, and its beats. -/
theorem recordsAreWritten : Obligations.RecordsAreWritten := by
  unfold Obligations.RecordsAreWritten
  refine ⟨fun s e rest hq hw hp hfull hturn => ?formed, fun s h => ?idle, fun s beats fs hf hd => ?completed,
    fun r => ?layout, by decide, fun a n i bytes h => beatsOfBytes_at a n i bytes h⟩
  case formed =>
    have hdue : s.events.recordDue = true := s.events.recordDue_iff.mpr ⟨by simp [hq], hw, hfull⟩
    rw [exec_recordForm, if_pos (s.events.recordTurn_iff.mpr ⟨hp, hdue, hturn⟩),
      s.events.formRecord_cons e rest hq]
    rfl
  case idle =>
    rw [exec_recordForm, if_neg]
    rw [EventWriter.recordTurn_iff, EventWriter.recordDue_iff]
    rintro ⟨hp, ⟨hq, hw, hfull⟩, hturn⟩
    obtain h | h | h | h | ⟨hn, b, hb⟩ := h
    · exact hq h
    · exact h hw
    · exact h hp
    · exact hfull h
    · obtain hr | hnone := hturn
      · simp [hn] at hr
      · simp [hnone b] at hb
  case completed => exact exec_recordWriteCompletion s beats fs hf hd
  case layout => exact layout_spec r.bytes_layout (by simp)

/-- Settles O27: the turn of a block as above, its completion, and the fields of each block. -/
theorem statusBlocksAreWritten : Obligations.StatusBlocksAreWritten := by
  unfold Obligations.StatusBlocksAreWritten
  refine ⟨fun s earlier later b horder hearlier hb hp h => ?presented, fun s h => ?idle,
    fun s b beats fs hf hb hd => ?completed, fun s d k o l c m x flag ho hl hc hm hx hflag => ?layouts, by decide⟩
  case presented =>
    have hrecord : ¬ (s.events.recordDue = true ∧ s.events.recordNext = true) := by
      rw [EventWriter.recordDue_iff]
      rintro ⟨⟨hq, hw, hfull⟩, hn⟩
      obtain h | h | h | h := h
      · exact hq h
      · exact h hw
      · exact hfull h
      · simp [hn] at h
    exact exec_statusBlockWrite_some s b ((s.events.blockTurn_eq hp hrecord).trans
      (s.events.nextBlock_at earlier later b horder hearlier hb))
  case idle =>
    refine exec_statusBlockWrite_none s ?_
    obtain hp | hnone | ⟨hq, hw, hfull, hn⟩ := h
    · exact s.events.blockTurn_none (.inl hp)
    · unfold EventWriter.blockTurn
      rw [s.events.nextBlock_none.mpr hnone, ite_self]
    · exact s.events.blockTurn_none (.inr ⟨s.events.recordDue_iff.mpr ⟨hq, hw, hfull⟩, hn⟩)
  case completed =>
    rw [exec_statusBlockCompletion s b true beats fs hf hd, State.blockWritten, if_neg fun h => hb h.1]
  case layouts =>
    obtain rfl : flag = Machine.flag := funext hflag
    subst hx
    obtain ⟨hglobal, hglobalAt⟩ := layout_spec (n := 32) s.events.globalBytes_layout (by simp)
    obtain ⟨houtput, houtputAt⟩ := layout_spec (n := 64) (s.outputBytes_layout d o l c m ho hl hc hm) (by simp)
    obtain ⟨hstream, hstreamAt⟩ := layout_spec (n := 64) (s.streams.get k).bytes_layout
      (by rw [List.map_append, List.map_append, List.sum_append_nat, List.sum_append_nat, sizes_range]; rfl)
    refine ⟨by decide, hglobal, hglobalAt, houtput, houtputAt, hstream, hstreamAt, fun r hr => ?_⟩
    have hbytes : s.blockBytes .readback = readbackBytes (some r) := congrArg readbackBytes hr
    rw [hbytes]
    exact layout_spec (readbackBytes_layout r)
      (by rw [List.map_append, List.sum_append_nat]; simp only [List.map_cons, List.sum_cons]; rw [sizes_range]; rfl)

end Sys2Proof.Machine
end

section
/-! PROOF. Raised events and EVENT_MASK (O29), EVENT_CONSUMED (O30), and the commands that are refused for their operand
or their code (O34). -/

namespace Sys2Proof.Machine

/-! ### Events (R165) -/

/-- A disabled kind is discarded. -/
theorem EventWriter.raise_disabled (w : EventWriter) (e : Event) (h : w.mask.getLsbD e.kind.code = false) :
    w.raise e = w :=
  if_neg (Bool.eq_false_iff.mp h)

/-- An enabled kind joins the tail of a queue with room. -/
theorem EventWriter.raise_joins (w : EventWriter) (e : Event) (h : w.mask.getLsbD e.kind.code = true)
    (hroom : w.queue.length < 16) : w.raise e = { w with queue := w.queue ++ [e] } :=
  (if_pos h).trans (if_pos hroom)

/-- Any other is lost. -/
theorem EventWriter.raise_lost (w : EventWriter) (e : Event) (h : w.mask.getLsbD e.kind.code = true)
    (hfull : 16 ≤ w.queue.length) : w.raise e = w.lose :=
  (if_pos h).trans (if_neg (Nat.not_lt.mpr hfull))

/-- The mask bits of kinds 1 to 21 are taken as written, the others are 0 (10.2). -/
theorem maskOf_getLsbD (w : Word) (i : Nat) (h : i < 32) :
    (maskOf w).getLsbD i = (decide (1 ≤ i) && decide (i ≤ 21) && w.getLsbD i) := by
  have hkinds : ∀ j < 32, (0x003FFFFE : Word).getLsbD j = (decide (1 ≤ j) && decide (j ≤ 21)) := by decide
  rw [maskOf, BitVec.getLsbD_and, hkinds i h, Bool.and_comm]

/-- A beat at COMMAND with every byte enabled has its two words taken, COMMAND before EVENT_MASK (R158). -/
theorem State.controlCapture_commandAndMask (s : State) (b : WriteBeat) (ha : b.addr = 0x0FFFF008)
    (he : b.enables = 0xFF) :
    s.controlCapture b = (s.takeCommand (b.data.truncate 32)).takeMask ((b.data >>> 32).truncate 32) := by
  have hlow : b.wordAt b.addr = some (b.data.truncate 32) := by rw [b.wordAt_low, he]; rfl
  have hhigh : b.wordAt (b.addr + 4) = some ((b.data >>> 32).truncate 32) := by rw [b.wordAt_high, he]; rfl
  unfold State.controlCapture State.captureAt
  rw [hlow, hhigh, ha]
  rfl

/-- Settles O29: the mask bit by bit, the three fates of a raised event, and the beat with both words. -/
theorem maskAndRaisedEvents : Obligations.MaskAndRaisedEvents := by
  unfold Obligations.MaskAndRaisedEvents
  refine ⟨fun s w => ⟨maskOf w, rfl, maskOf_getLsbD w⟩,
    fun w e => ⟨w.raise_disabled e, w.raise_joins e, fun h hfull => ?lost⟩, State.controlCapture_commandAndMask⟩
  case lost =>
    rw [w.raise_lost e h hfull]
    exact ⟨fun hmore => if_neg hmore, fun hmax => if_pos hmax⟩

/-! ### EVENT_CONSUMED (R167) -/

/-- The slot field of the word (10.2). -/
theorem byte_of_low_bits (w : Word) (c : Byte) (h : c.toNat = w.toNat % 256) : BitVec.ofNat 8 (bits w 0 8) = c := by
  rw [bits_byte0, ← h, BitVec.ofNat_toNat, BitVec.setWidth_eq]

/-- Settles O30: a slot is on the ring path or not. -/
theorem eventConsumedCompletes : Obligations.EventConsumedCompletes := by
  unfold Obligations.EventConsumedCompletes
  intro s w c hc
  have hexec : exec (.eventConsumed w) s = .next (s.takeConsumed w) := rfl
  rw [hexec, State.takeConsumed, byte_of_low_bits w c hc]
  refine ⟨fun hon => ?path, fun hoff => ?refused⟩
  case path => exact congrArg _ (if_pos (decide_eq_true hon))
  case refused => exact congrArg _ (if_neg (by simpa [EventWriter.onPath] using hoff))

/-! ### Refused commands (R161) -/

/-- A command on an output with another operand is refused. -/
theorem State.onOutput_refused (s : State) (code : Nat) (operand : Byte) (f : OutputId → State)
    (h0 : operand ≠ 0) (h1 : operand ≠ 1) : s.onOutput code operand f = s.refuseOperand code operand := by
  unfold State.onOutput
  rw [outputOfOperand_none operand h0 h1]

/-- A command on a stream with another operand is refused. -/
theorem State.onStream_refused (s : State) (code : Nat) (operand : Byte) (f : StreamId → State)
    (h0 : operand ≠ 0) (h1 : operand ≠ 1) : s.onStream code operand f = s.refuseOperand code operand := by
  have hnone : streamOfOperand operand = none := (if_neg h0).trans (if_neg h1)
  unfold State.onStream
  rw [hnone]

/-- A code outside the command table is refused with UNKNOWN. -/
theorem State.takeCommandFields_unknown (s : State) (code o1 : Byte) (o2 : BitVec 16)
    (h : commandCodes.contains code = false) : s.takeCommandFields code o1 o2 = s.refuseUnknown code o1 o2 := by
  have hcode : code.toNat ∉ commandCodes.map BitVec.toNat := by
    intro hmem
    obtain ⟨c, hc, hnat⟩ := List.mem_map.mp hmem
    rw [BitVec.eq_of_toNat_eq hnat] at hc
    exact absurd (List.contains_iff_mem.mpr hc) (Bool.eq_false_iff.mp h)
  unfold State.takeCommandFields
  split
  rotate_left 14
  · rfl
  all_goals
    next hnat =>
      rw [hnat] at hcode
      exact absurd (by decide) hcode

/-- Settles O34: the refusal of each command of the table by its operand, and of a code that is not in it. -/
theorem refusedCommands : Obligations.RefusedCommands := by
  unfold Obligations.RefusedCommands
  refine ⟨fun s operand h0 h1 => ?operands, fun s code o1 o2 h => ?unknown⟩
  case operands =>
    have output := fun code f => congrArg (Host.Outcome.next (φ := Fault) (ρ := Refusal))
      (s.onOutput_refused code operand f h0 h1)
    have stream := fun code f => congrArg (Host.Outcome.next (φ := Fault) (ρ := Refusal))
      (s.onStream_refused code operand f h0 h1)
    simp only [List.forall_mem_cons, List.not_mem_nil, false_imp_iff, implies_true, and_true]
    exact ⟨output 0x01 _, output 0x02 _, stream 0x10 _, stream 0x11 _, stream 0x12 _, stream 0x13 _, output 0x20 _,
      output 0x21 _, output 0x22 _, output 0x23 _⟩
  case unknown => exact congrArg _ (s.takeCommandFields_unknown code o1 o2 h)

end Sys2Proof.Machine
end

section
/-! PROOF. The table port (O31, O32) and READBACK (O28): the cursor, the assembly, and the words of an entry as its
owner holds them. -/

namespace Sys2Proof.Machine

open Sys2Proof.Safety

/-! ### The fields of a word that an owner's record makes (10.3) -/

/-- A whole word. -/
theorem word_field (n : Nat) : (word n).toNat / 2 ^ 0 % 2 ^ 32 = n % 2 ^ 32 := by
  rw [word_toNat]; omega

/-- The low half of a word. -/
theorem halves_low (lo hi : Nat) : (halves lo hi).toNat / 2 ^ 0 % 2 ^ 16 = lo % 2 ^ 16 := by
  rw [halves_toNat]; omega

/-- The high half of a word. -/
theorem halves_high (lo hi : Nat) : (halves lo hi).toNat / 2 ^ 16 % 2 ^ 16 = hi % 2 ^ 16 := by
  rw [halves_toNat]; omega

/-- The bytes of a word, from bit 0 up. -/
theorem quarters_byte0 (a b c d : Nat) : (quarters a b c d).toNat / 2 ^ 0 % 2 ^ 8 = a % 2 ^ 8 := by
  rw [quarters_toNat]; omega

theorem quarters_byte1 (a b c d : Nat) : (quarters a b c d).toNat / 2 ^ 8 % 2 ^ 8 = b % 2 ^ 8 := by
  rw [quarters_toNat]; omega

theorem quarters_byte2 (a b c d : Nat) : (quarters a b c d).toNat / 2 ^ 16 % 2 ^ 8 = c % 2 ^ 8 := by
  rw [quarters_toNat]; omega

theorem quarters_byte3 (a b c d : Nat) : (quarters a b c d).toNat / 2 ^ 24 % 2 ^ 8 = d % 2 ^ 8 := by
  rw [quarters_toNat]; omega

/-- The reserved bits above two bytes. -/
theorem quarters_above2 (a b : Nat) : (quarters a b 0 0).toNat / 2 ^ 16 % 2 ^ 16 = 0 := by
  rw [quarters_toNat]; omega

/-- The reserved bits above one byte. -/
theorem quarters_above1 (a : Nat) : (quarters a 0 0 0).toNat / 2 ^ 8 % 2 ^ 24 = 0 := by
  rw [quarters_toNat]; omega

/-! ### The words of an entry as its owner holds it (R103, R160, R162) -/

theorem State.surface_holds (s : State) (entry : Nat) (active : Bool) (h : entry < 32) :
    HoldsEntry s .surface entry active (s.entryWords .surface entry active) := by
  have hx : s.surface entry = some s.surfaces[entry] := Vector.getElem?_eq_getElem h
  refine ⟨rfl, _, hx, ?_⟩
  simp only [State.entryWords, hx, Option.getD_some, surfaceWords, wordsHold_cons, wordsHold_nil, and_true,
    List.getD_cons_zero, List.getD_cons_succ]
  generalize s.surfaces[entry] = x
  refine ⟨word_field _, halves_low _ _, halves_high _ _, halves_low _ _, halves_high _ _,
    (quarters_byte0 _ _ _ _).trans ?format, (quarters_byte1 _ _ _ _).trans ?view, quarters_above2 _ _,
    (word_field _).trans ?base, word_field _⟩
  case format => cases x.geometry.format <;> rfl
  case view =>
    cases x.view with
    | none => rfl
    | some r => cases r.format <;> rfl
  case base => cases x.view <;> rfl

theorem State.layer_holds (s : State) (d : OutputId) (entry : Nat) (active : Bool) (h : entry < 8) :
    HoldsEntry s (.layer d) entry active (s.entryWords (.layer d) entry active) := by
  simp only [HoldsEntry, State.entryWords, layerAt]
  generalize (if active then (s.layers.get d).active else (s.layers.get d).staged) = table
  have hl : table[entry]? = some table[entry] := Vector.getElem?_eq_getElem h
  refine ⟨rfl, _, hl, ?_⟩
  rw [hl]
  simp only [Option.getD_some, layerWords, colourWord, wordsHold_cons, wordsHold_nil, and_true, List.getD_cons_zero,
    List.getD_cons_succ]
  generalize table[entry] = l
  refine ⟨quarters_byte0 _ _ _ _, (quarters_byte1 _ _ _ _).trans ?content, quarters_byte2 _ _ _ _,
    (quarters_byte3 _ _ _ _).trans ?blend, quarters_byte0 _ _ _ _, quarters_byte1 _ _ _ _, quarters_above2 _ _,
    halves_low _ _, halves_high _ _, halves_low _ _, halves_high _ _, halves_low _ _, halves_high _ _,
    quarters_byte0 _ _ _ _, quarters_byte1 _ _ _ _, quarters_byte2 _ _ _ _, quarters_byte3 _ _ _ _⟩
  case content => cases l.content <;> rfl
  case blend => cases l.blend <;> rfl

theorem State.stream_holds (s : State) (entry : Nat) (active : Bool) (h : entry < 2) :
    HoldsEntry s .stream entry active (s.entryWords .stream entry active) := by
  have hentry : entry = streamNumber (streamOfIndex entry) := by
    unfold streamOfIndex
    split
    · assumption
    · change entry = 1; omega
  refine ⟨rfl, streamOfIndex entry, _, hentry, rfl, ?_⟩
  simp only [State.entryWords, streamWords, wordsHold_cons, wordsHold_nil, and_true, List.getD_cons_zero,
    List.getD_cons_succ]
  exact ⟨quarters_byte0 _ _ _ _, quarters_byte1 _ _ _ _, quarters_above2 _ _, quarters_byte0 _ _ _ _,
    quarters_byte1 _ _ _ _, quarters_byte2 _ _ _ _, quarters_byte3 _ _ _ _, quarters_byte0 _ _ _ _,
    quarters_byte1 _ _ _ _, quarters_above2 _ _, quarters_byte0 _ _ _ _, quarters_byte1 _ _ _ _, quarters_above2 _ _,
    rfl, rfl⟩

theorem State.timing_holds (s : State) (d : OutputId) (entry : Nat) (active : Bool) :
    HoldsEntry s (.timing d) entry active (s.entryWords (.timing d) entry active) := by
  refine ⟨rfl, _, rfl, ?_⟩
  simp only [State.entryWords]
  generalize (if active then (s.outputs.get d).active else (s.outputs.get d).staged) = g
  simp only [timingWords, colourWord, wordsHold_cons, wordsHold_nil, and_true, List.getD_cons_zero,
    List.getD_cons_succ]
  refine ⟨halves_low _ _, halves_high _ _, halves_low _ _, halves_high _ _, word_field _, quarters_byte0 _ _ _ _,
    quarters_byte1 _ _ _ _, quarters_byte2 _ _ _ _, quarters_byte3 _ _ _ _, word_field _, word_field _,
    (halves_low _ _).trans ?lineMatch, halves_high _ _, rfl⟩
  case lineMatch => cases g.lineMatch <;> rfl

theorem State.credit_holds (s : State) (entry : Nat) (active : Bool) :
    HoldsEntry s .credit entry active (s.entryWords .credit entry active) := by
  refine ⟨rfl, _, rfl, ?_⟩
  simp only [State.entryWords, creditWords, wordsHold_cons, wordsHold_nil, and_true, List.getD_cons_zero,
    List.getD_cons_succ]
  exact ⟨quarters_byte0 _ _ _ _, quarters_byte1 _ _ _ _, quarters_byte2 _ _ _ _, quarters_byte3 _ _ _ _,
    quarters_byte0 _ _ _ _, quarters_above1 _⟩

theorem State.link_holds (s : State) (entry : Nat) (active : Bool) :
    HoldsEntry s .link entry active (s.entryWords .link entry active) := by
  refine ⟨rfl, ?_⟩
  simp only [State.entryWords, linkWords, wordsHold_cons, wordsHold_nil, and_true, List.getD_cons_zero,
    List.getD_cons_succ]
  exact ⟨halves_low _ _, halves_high _ _, quarters_byte0 _ _ _ _, quarters_byte1 _ _ _ _, quarters_above2 _ _⟩

/-- The words of an existing entry hold the fields of its owner's record, at the bits of 10.3. -/
theorem State.entryWords_hold (s : State) (t : TableId) (entry : Nat) (active : Bool) (h : entry < tableEntries t) :
    HoldsEntry s t entry active (s.entryWords t entry active) := by
  cases t with
  | surface => exact s.surface_holds entry active h
  | layer d => exact s.layer_holds d entry active h
  | stream => exact s.stream_holds entry active h
  | timing d => exact s.timing_holds d entry active
  | credit => exact s.credit_holds entry active
  | link => exact s.link_holds entry active

/-! ### TABLE_SELECT (R159) -/

/-- The cursor that a word names: its table, entry and word, each in its byte, when they exist (10.2). -/
theorem cursorOf_valid (w : Word) (i : TableId) (ht : tableOfId (w.toNat % 256) = some i)
    (he : w.toNat / 256 % 256 < tableEntries i) (hw : w.toNat / 65536 % 256 < tableWords i) :
    cursorOf w = some ⟨i, w.toNat / 256 % 256, w.toNat / 65536 % 256⟩ := by
  simp only [cursorOf, bits_byte0, bits_byte1, bits_byte2, ht, he, hw, and_self, if_true]

/-- A word that names no table, entry or word gives no cursor. -/
theorem cursorOf_invalid (w : Word) (h : ∀ i, tableOfId (w.toNat % 256) = some i →
    tableEntries i ≤ w.toNat / 256 % 256 ∨ tableWords i ≤ w.toNat / 65536 % 256) : cursorOf w = none := by
  simp only [cursorOf, bits_byte0, bits_byte1, bits_byte2]
  cases ht : tableOfId (w.toNat % 256) with
  | none => rfl
  | some i =>
    have := h i ht
    exact if_neg (by omega)

/-- TABLE_SELECT sets the cursor and empties the assembly (R159). -/
theorem exec_tableSelect (w : Word) (s : State) :
    exec (.tableSelect w) s = .next { s with port := ⟨cursorOf w, Vector.replicate 8 none⟩ } := rfl

/-! ### TABLE_DATA (R45, R160) -/

/-- With no request waiting, TABLE_DATA lets none be accepted (R144). -/
theorem exec_tableData (w : Word) (s : State) (h : s.upstream = []) :
    exec (.tableData w) s = .next (s.takeTableData w) := by
  have hup : (s.takeTableData w).upstream = [] := (congrArg Base.upstream (s.takeTableData_base w)).trans h
  exact congrArg _ (State.acceptWaiting_none _ hup)

/-- An invalid cursor is reported (R160). -/
theorem State.takeTableData_noCursor (s : State) (w : Word) (h : s.port.cursor = none) :
    s.takeTableData w = s.raise ⟨.tableRefused, 0, 0, 13, w, 0⟩ := by
  unfold State.takeTableData
  rw [h]
  rfl

/-- A word under a valid cursor is stored, unless its table drops words (R45, R160). -/
theorem State.takeTableData_stored (s : State) (w : Word) (c : Cursor) (h : s.port.cursor = some c)
    (hd : s.dropsWords c.table = false) : s.takeTableData w = s.storeWord c w := by
  simp only [State.takeTableData, h, hd, Bool.false_eq_true, if_false]

theorem State.takeTableData_dropped (s : State) (w : Word) (c : Cursor) (h : s.port.cursor = some c)
    (hd : s.dropsWords c.table = true) :
    s.takeTableData w = (s.setPort c.next emptyAssembly).raise (stagedDropped c) := by
  simp only [State.takeTableData, h, hd, if_true]

/-- A word before the final one goes to the assembly, and the cursor to the next word (R160). -/
theorem State.storeWord_inner (s : State) (c : Cursor) (w : Word) (h : c.word + 1 < tableWords c.table) :
    s.storeWord c w =
      { s with port := ⟨some { c with word := c.word + 1 }, s.port.assembly.setIfInBounds c.word (some w)⟩ } := by
  unfold State.storeWord Cursor.next
  dsimp only
  rw [if_neg (Nat.ne_of_lt h), if_pos h]
  rfl

/-- The final word hands the entry to its owner, and the cursor goes to word 0 of the next entry (R160). -/
theorem State.storeWord_final (s : State) (c : Cursor) (w : Word) (h : c.word + 1 = tableWords c.table) :
    s.storeWord c w =
      { s.applyEntry c.table c.entry (s.assembled c (s.port.assembly.setIfInBounds c.word (some w))) with
        port := ⟨some ⟨c.table, if c.entry + 1 < tableEntries c.table then c.entry + 1 else 0, 0⟩,
          Vector.replicate 8 none⟩ } := by
  unfold State.storeWord Cursor.next
  dsimp only
  rw [if_pos h, if_neg (Nat.not_lt.mpr (Nat.le_of_eq h.symm))]
  rfl

/-- Settles O31: the cursor that each word gives, and TABLE_DATA without one. -/
theorem tableSelectCompletes : Obligations.TableSelectCompletes := by
  unfold Obligations.TableSelectCompletes
  refine fun s w => ⟨fun i ht he hw => ?valid, fun h => ?invalid, fun v hc hu => ?reported⟩
  case valid => rw [exec_tableSelect, cursorOf_valid w i ht he hw]
  case invalid => rw [exec_tableSelect, cursorOf_invalid w h]
  case reported => rw [exec_tableData v s hu, s.takeTableData_noCursor v hc]

/-- Settles O32: a word stored, a final word, a word dropped, and the words that an owner holds. -/
theorem tableDataCompletes : Obligations.TableDataCompletes := by
  unfold Obligations.TableDataCompletes
  refine ⟨fun s w c hc hd hu => ?stored, fun s w d entry i hc hd hu => ?dropped,
    fun s t entry h => ⟨s.entryWords_hold t entry false h, rfl⟩⟩
  case stored =>
    rw [exec_tableData w s hu, s.takeTableData_stored w c hc hd]
    exact ⟨fun h => congrArg _ (s.storeWord_inner c w h), fun h => ⟨_, rfl, s.storeWord_final c w h⟩⟩
  case dropped =>
    rw [exec_tableData w s hu, s.takeTableData_dropped w _ hc hd]
    cases d <;> rfl

/-! ### READBACK (R162) -/

/-- An entry exists when its table does and holds it. -/
theorem entryExists_eq (table entry : Byte) (i : TableId) (h : tableOfId table.toNat = some i) :
    entryExists table entry = decide (entry.toNat < tableEntries i) := by
  simp only [entryExists, h]

theorem entryExists_false (table entry : Byte)
    (h : ∀ i, tableOfId table.toNat = some i → tableEntries i ≤ entry.toNat) : entryExists table entry = false := by
  cases ht : tableOfId table.toNat with
  | none => simp only [entryExists, ht]
  | some i => rw [entryExists_eq table entry i ht]; exact decide_eq_false (Nat.not_lt.mpr (h i ht))

/-- A READBACK that passes its checks copies the entry's words, and the readback area becomes due (R162). -/
theorem State.takeReadback_taken (s : State) (table entry selector : Byte) (i : TableId)
    (hr : s.events.readback = none) (ht : tableOfId table.toNat = some i) (he : entry.toNat < tableEntries i)
    (hs : selector.toNat ≤ 1) : s.takeReadback table entry selector = { s with events := { s.events with
      readback := some ⟨table, entry, selector, s.entryWords i entry.toNat (selector.toNat == 1)⟩
      due := { s.events.due with readback := true } } } := by
  have hpasses : firstFailure (s.readbackChecks table entry selector) = none :=
    firstFailure_none _ (by simp [State.readbackChecks, hr, entryExists_eq table entry i ht, he, hs])
  have hwords : s.readbackWords table entry selector = s.entryWords i entry.toNat (selector.toNat == 1) := by
    simp only [State.readbackWords, ht]
  unfold State.takeReadback
  rw [hpasses, hwords]

/-- READBACK_DONE completes the write of the readback area outside a drain (R147, R162). -/
theorem exec_readbackDone (s : State) (beats : List WriteBeat) (fs : List Flight)
    (h : s.inFlight = .blockWrite .readback true beats :: fs) (hd : s.drain = none) :
    exec .readbackDone s = .next
      (State.readbackFinished { s with mem := s.mem.writeBeats beats, inFlight := fs }) := by
  change execReadbackDone s = _
  simp only [execReadbackDone, h, List.head?_cons, s.written_removeOldest beats _ fs h hd]
  rfl

/-- The readback is no longer pending, and READBACK_DONE says which it was (R162). -/
theorem State.readbackFinished_some (s : State) (r : Readback) (h : s.events.readback = some r) :
    s.readbackFinished = ({ s with events := { s.events with readback := none } }).raise
      ⟨.readbackDone, r.table.toNat, 0, 0, word r.entry.toNat, word r.selector.toNat⟩ := by
  unfold State.readbackFinished
  rw [h]

/-- Settles O28: a READBACK taken, its completion, the first check that refuses it, and the words of an entry. -/
theorem readbackIsWritten : Obligations.ReadbackIsWritten := by
  unfold Obligations.ReadbackIsWritten
  refine ⟨fun s table entry selector i hr ht he hs => ?taken, fun s beats fs r hf hd hr => ?done,
    fun s table entry selector => ⟨fun hr => ?busy, fun hr h => ?range, fun i hr ht he hs => ?selector⟩,
    State.entryWords_hold, by decide⟩
  case taken => exact congrArg _ (s.takeReadback_taken table entry selector i hr ht he hs)
  case done =>
    rw [exec_readbackDone s beats fs hf hd]
    exact congrArg _ (State.readbackFinished_some _ r hr)
  case busy =>
    refine congrArg _ (s.takeReadback_refused table entry selector []
      [(entryExists table entry, 4, 2), (decide (selector.toNat ≤ 1), 2, 3)] 10 1 ?_ (by simp))
    simpa [State.readbackChecks, reasonCode] using Option.isSome_iff_ne_none.mpr hr
  case range =>
    refine congrArg _ (s.takeReadback_refused table entry selector [(true, 10, 1)]
      [(decide (selector.toNat ≤ 1), 2, 3)] 4 2 ?_ (by simp))
    simp [State.readbackChecks, reasonCode, hr, entryExists_false table entry h]
  case selector =>
    refine congrArg _ (s.takeReadback_refused table entry selector [(true, 10, 1), (true, 4, 2)] [] 2 3 ?_ (by simp))
    simp [State.readbackChecks, reasonCode, hr, entryExists_eq table entry i ht, he, hs]

end Sys2Proof.Machine
end

section
/-! PROOF. The queue's front command (O1), and memory's canonical form (O56): a step changes memory by the write beats
that it completes, and by nothing else. -/

namespace Sys2Proof.Machine

open Sys2Proof.Safety

/-! ### One step, by the queue (log entry 4) -/

/-- A command at the front runs on the part with the rest of the queue. -/
theorem step_of_front {s : State} {c : Instr} {rest : List Instr} (h : s.pending = c :: rest) :
    step s = exec c { s with pending := rest } := by
  unfold step
  rw [h]

/-- On an empty queue the part idles. -/
theorem step_of_empty {s : State} (h : s.pending = []) : step s = .next s := by
  unfold step
  rw [h]

/-- Settles O1: the two cases of a step, the command and the idling part. -/
theorem stepRunsFrontCommand : Obligations.StepRunsFrontCommand := by
  unfold Obligations.StepRunsFrontCommand
  exact ⟨fun c s => step_of_front (s := { s with pending := c :: s.pending }) rfl, fun s => step_of_empty⟩

/-! ### The write beats of a step (R147, R156) -/

/-- Memory after a step is memory with some write beats made: a beat of a host write, the beats of another completed
request, those of every request in flight at a hardware reset, or none (R147, R156). -/
theorem PathStep.mem_writeBeats {s t : State} {c : Instr} (h : PathStep s c t) :
    ∃ beats, t.mem = s.mem.writeBeats beats := by
  cases h with
  | leaves h => exact ⟨[], mem_of_path h.path⟩
  | command => exact ⟨[], mem_of_path (s.takeCommandFields_path _ _ _)⟩
  | tableData w => exact ⟨[], (State.acceptWaiting_mem _).trans (mem_of_base (s.takeTableData_base w))⟩
  | present => exact ⟨[], State.acceptWaiting_mem _⟩
  | grant _ f => exact ⟨[], (State.acceptWaiting_mem _).trans (s.afterGrant_mem f)⟩
  | hostBeat _ b rest => exact ⟨[b], s.completeHostBeat_mem b rest⟩
  | hostData => exact ⟨[], (State.acceptWaiting_mem _).trans s.removeOldest_mem⟩
  | completes beats _ h => exact ⟨beats, (mem_of_path h.path).trans (State.removeOldest_mem _)⟩
  | hardwareReset => exact ⟨s.inFlight.flatMap Flight.writes, rfl⟩
  | release => exact ⟨[], s.releaseReset_path.2⟩

/-- Write beats keep the canonical form, so every step of the memory path does. -/
theorem PathStep.canonical {s t : State} {c : Instr} (h : PathStep s c t) (hs : MemoryCanonical s) :
    MemoryCanonical t := by
  obtain ⟨beats, hmem⟩ := h.mem_writeBeats
  rw [MemoryCanonical, hmem]
  exact s.mem.writeBeats_wf beats hs

/-- Settles O56: what every step of the memory path keeps, every step of the part keeps. -/
theorem memoryStaysCanonical : Obligations.MemoryStaysCanonical := by
  unfold Obligations.MemoryStaysCanonical
  exact step_keeps (fun _ _ hs => hs) fun _ _ _ h hs => h.canonical hs

end Sys2Proof.Machine
end
